-- ==== Sys2Proof/Word.lean ====
section
/-! DEFINITION. The word types of the register file and the fields (00_scope R9, `XLEN` = 32). -/

namespace Sys2Proof

/-- A host-visible register or a command word: 32 bits (00_scope R9, `XLEN`). -/
abbrev Word := BitVec 32

/-- A distance, a scanline width or a code: 16 bits (00_scope R9, `DIST_BITS`, `MAXLEN`). -/
abbrev Half := BitVec 16

end Sys2Proof
end

