-- ==== Sys2Proof/Config.lean ====
section
/-! DEFINITION. The parameters of the block (00_scope R9) and its one open parameter. -/

namespace Sys2Proof

/-- The five table instances (00_scope R9, 30_encoding R67): base, after-zero, LZ length, LZ short
distance, LZ long distance. -/
inductive Tab where
  | bz | az | len | sd | ld
deriving DecidableEq, Repr, Inhabited

/-- `NSYM[t]` (00_scope R9): 384 symbols for the base table, 256 for the other four. -/
abbrev nsym : Tab → Nat
  | .bz => 384
  | .az => 256
  | .len => 256
  | .sd => 256
  | .ld => 256

/-- `tsel` as a number (30_encoding R67). -/
def Tab.index : Tab → Nat
  | .bz => 0
  | .az => 1
  | .len => 2
  | .sd => 3
  | .ld => 4

/-- The table instance a `tsel` field names; 5, 6 and 7 name none (30_encoding R67). -/
def Tab.ofSel (t : BitVec 3) : Option Tab :=
  match t.toNat with
  | 0 => some .bz
  | 1 => some .az
  | 2 => some .len
  | 3 => some .sd
  | 4 => some .ld
  | _ => none

namespace Config

/-- `ID` (00_scope R3): the ASCII bytes "GCIF". -/
def idWord : Word := 0x47434946#32

/-- `RUN_BASE` (00_scope R9): the first run symbol. -/
def runBase : Nat := 256

/-- `RUN_CONT` (00_scope R9): the continuation-eligible run symbol. -/
def runCont : Nat := 383

/-- `RUN_UNIT` (00_scope R9): the zero bytes that `RUN_CONT` carries. -/
def runUnit : Nat := 128

/-- `EOS_SYM` (00_scope R9, 44_entropy_coder R143). -/
def eosSym : Nat := 0

/-- `MAXLEN` (00_scope R9): the longest code, in bits. -/
def maxLen : Nat := 16

/-- `LENFIELD_W` (00_scope R9): the bits of one code-length field on the wire. -/
def lenFieldW : Nat := 5

/-- `KRAFT_ONE` (00_scope R9): the Kraft sum of a complete code. -/
def kraftOne : Nat := 65536

/-- The largest value of a 32-bit count or run length (00_scope R9, `COUNT_W`, `RUN_W`). -/
def countMax : Nat := 4294967295

/-- `LEN_MIN` (00_scope R9). -/
def lenMin : Nat := 2

/-- `LEN_MAX` (00_scope R9). -/
def lenMax : Nat := 257

/-- `LEN_DIRECT_MAX` (00_scope R9): the longest length an escape code carries itself. -/
def lenDirectMax : Nat := 9

/-- `SHORT_MAX` (00_scope R9): the largest distance of the short range. -/
def shortMax : Nat := 256

/-- `ESC_SYMS` (00_scope R9): the size of the escape alphabet. -/
def escSyms : Nat := 32

/-- `ESC_LL_BASE` (00_scope R9): the first local-left escape code. -/
def escLlBase : Nat := 4

/-- `ESC_LU_BASE` (00_scope R9): the first local-up escape code. -/
def escLuBase : Nat := 9

/-- `ESC_SD_BASE` (00_scope R9): the first short-distance escape code. -/
def escSdBase : Nat := 14

/-- The reserved top value of the short-distance band (00_scope R9). -/
def escSdTop : Nat := 22

/-- `ESC_LD_BASE` (00_scope R9): the first long-distance escape code. -/
def escLdBase : Nat := 23

/-- The reserved top value of the long-distance band (00_scope R9). -/
def escLdTop : Nat := 31

/-- The halvings that bring every 32-bit weight to 1 (40_canonical_code_builder R86). -/
def rescaleFuel : Nat := 32

/-- What `RUNLIST_CAP` exceeds 1 by. The spec leaves `RUNLIST_CAP` OPEN (00_scope R9, decision D22,
93_implementation_defined U11): no value is chosen here, log entry 1. -/
opaque runlistCapBeyondOne : Nat

/-- `RUNLIST_CAP` (00_scope R9): the entries the run-list holds, at least 1, otherwise open. -/
def runlistCap : Nat := runlistCapBeyondOne + 1

end Config

end Sys2Proof
end

