-- ==== Sys2Proof/Syntax.lean ====
section
/-! DEFINITION. The 27 commands (30_encoding R63). A command word holds an opcode and `tsel`; every
other operand is in `ARG0` and `ARG1` (30_encoding R60, R61), so a constructor has `tsel` or nothing. -/

namespace Sys2Proof

/-- One constructor per row of spec/opcode_table.json. The argument `t` is the field `tsel`, bits 10:8
of the command word, present in formats T and TS. -/
inductive Instr where
  | nop
  | softReset
  | histClear (t : BitVec 3)
  | addSymbol (t : BitVec 3)
  | buildTable (t : BitVec 3)
  | writeTable (t : BitVec 3)
  | readTable (t : BitVec 3)
  | encSym (t : BitVec 3)
  | decSym (t : BitVec 3)
  | getCount (t : BitVec 3)
  | getLen (t : BitVec 3)
  | getMax (t : BitVec 3)
  | ecInit
  | push
  | finalize
  | writeOverhead
  | encode
  | encodeFinalize
  | decInit
  | decodeNext
  | lzInit
  | lzPush
  | lzFinalize
  | lzWriteOverhead
  | lzEncode
  | lzDecInit
  | lzDecode
deriving DecidableEq, Repr, Inhabited

/-- The operand formats of 30_encoding R61. -/
inductive Format where
  | N | T | TS | F | B | D | M | E
deriving DecidableEq, Repr

/-- The format of each command (30_encoding R61, R63). -/
def Instr.format : Instr → Format
  | .nop => .N
  | .softReset => .N
  | .histClear _ => .T
  | .addSymbol _ => .TS
  | .buildTable _ => .T
  | .writeTable _ => .T
  | .readTable _ => .T
  | .encSym _ => .TS
  | .decSym _ => .T
  | .getCount _ => .TS
  | .getLen _ => .TS
  | .getMax _ => .T
  | .ecInit => .F
  | .push => .B
  | .finalize => .N
  | .writeOverhead => .N
  | .encode => .B
  | .encodeFinalize => .N
  | .decInit => .F
  | .decodeNext => .N
  | .lzInit => .D
  | .lzPush => .M
  | .lzFinalize => .N
  | .lzWriteOverhead => .N
  | .lzEncode => .M
  | .lzDecInit => .D
  | .lzDecode => .E

/-- The `tsel` field of a command: its table select in formats T and TS, 0 in every other format
(30_encoding R60, R61). -/
def Instr.tsel : Instr → BitVec 3
  | .histClear t => t
  | .addSymbol t => t
  | .buildTable t => t
  | .writeTable t => t
  | .readTable t => t
  | .encSym t => t
  | .decSym t => t
  | .getCount t => t
  | .getLen t => t
  | .getMax t => t
  | .nop => 0
  | .softReset => 0
  | .ecInit => 0
  | .push => 0
  | .finalize => 0
  | .writeOverhead => 0
  | .encode => 0
  | .encodeFinalize => 0
  | .decInit => 0
  | .decodeNext => 0
  | .lzInit => 0
  | .lzPush => 0
  | .lzFinalize => 0
  | .lzWriteOverhead => 0
  | .lzEncode => 0
  | .lzDecInit => 0
  | .lzDecode => 0

end Sys2Proof
end

