-- ==== Sys2Proof/WellFormed.lean ====
section
/-! DEFINITION. Which terms of `Instr` a command word can spell (30_encoding R64, R67). -/

namespace Sys2Proof

/-- The one check on a command: a table select is 0..4 (30_encoding R67: "`tsel` of 5, 6 or 7 is
illegal"). Commands of the other formats have no field to check. -/
def Instr.wf (i : Instr) : Bool :=
  decide (i.tsel.toNat ≤ 4)

end Sys2Proof
end

