-- ==== Sys2Proof/Decode.lean ====
section
/-! DEFINITION. The command word's layout, the decoder and, after it, the encoder (30_encoding R60 to
R65). -/

namespace Sys2Proof

/-- `opcode`, bits 7:0 of the command word (30_encoding R60). -/
def opcodeField (w : Word) : BitVec 8 := w.extractLsb' 0 8

/-- `tsel`, bits 10:8 of the command word (30_encoding R60). -/
def tselField (w : Word) : BitVec 3 := w.extractLsb' 8 3

/-- The reserved field, bits 31:11 of the command word (30_encoding R60). -/
def reservedField (w : Word) : BitVec 21 := w.extractLsb' 11 21

/-- Why a command word is illegal: the four cases of 30_encoding R64. -/
inductive Illegal where
  /-- bits 31:11 are not all 0 -/
  | reservedBits
  /-- the opcode is not one of the 27 -/
  | unknownOpcode
  /-- the format is not T or TS and `tsel` is not 0 -/
  | tselNotZero
  /-- the format is T or TS and `tsel` is 5, 6 or 7 -/
  | tselRange
deriving DecidableEq, Repr

/-- A command of a format other than T and TS: `tsel` must be 0 (30_encoding R61, R64). -/
def decodePlain (i : Instr) (t : BitVec 3) : Except Illegal Instr :=
  if t = 0 then .ok i else .error .tselNotZero

/-- A command of format T or TS: `tsel` names a table (30_encoding R61, R64, R67). -/
def decodeTable (f : BitVec 3 → Instr) (t : BitVec 3) : Except Illegal Instr :=
  if t.toNat ≤ 4 then .ok (f t) else .error .tselRange

/-- The opcode map (30_encoding R63): the command an opcode selects, its `tsel` checked. -/
def decodeOpcode (op : Nat) (t : BitVec 3) : Except Illegal Instr :=
  match op with
  | 0x00 => decodePlain .nop t
  | 0x01 => decodePlain .softReset t
  | 0x10 => decodeTable .histClear t
  | 0x11 => decodeTable .addSymbol t
  | 0x12 => decodeTable .buildTable t
  | 0x13 => decodeTable .writeTable t
  | 0x14 => decodeTable .readTable t
  | 0x15 => decodeTable .encSym t
  | 0x16 => decodeTable .decSym t
  | 0x17 => decodeTable .getCount t
  | 0x18 => decodeTable .getLen t
  | 0x19 => decodeTable .getMax t
  | 0x20 => decodePlain .ecInit t
  | 0x21 => decodePlain .push t
  | 0x22 => decodePlain .finalize t
  | 0x23 => decodePlain .writeOverhead t
  | 0x24 => decodePlain .encode t
  | 0x25 => decodePlain .encodeFinalize t
  | 0x28 => decodePlain .decInit t
  | 0x29 => decodePlain .decodeNext t
  | 0x30 => decodePlain .lzInit t
  | 0x31 => decodePlain .lzPush t
  | 0x32 => decodePlain .lzFinalize t
  | 0x33 => decodePlain .lzWriteOverhead t
  | 0x34 => decodePlain .lzEncode t
  | 0x38 => decodePlain .lzDecInit t
  | 0x39 => decodePlain .lzDecode t
  | _ => .error .unknownOpcode

/-- Decoding a command word (30_encoding R60, R63, R64): total, and every word that spells no command
is refused with the reason. -/
def decode (w : Word) : Except Illegal Instr :=
  if reservedField w ≠ 0 then .error .reservedBits
  else decodeOpcode (opcodeField w).toNat (tselField w)

/-- The opcode of each command (30_encoding R63). -/
def Instr.opcode : Instr → BitVec 8
  | .nop => 0x00
  | .softReset => 0x01
  | .histClear _ => 0x10
  | .addSymbol _ => 0x11
  | .buildTable _ => 0x12
  | .writeTable _ => 0x13
  | .readTable _ => 0x14
  | .encSym _ => 0x15
  | .decSym _ => 0x16
  | .getCount _ => 0x17
  | .getLen _ => 0x18
  | .getMax _ => 0x19
  | .ecInit => 0x20
  | .push => 0x21
  | .finalize => 0x22
  | .writeOverhead => 0x23
  | .encode => 0x24
  | .encodeFinalize => 0x25
  | .decInit => 0x28
  | .decodeNext => 0x29
  | .lzInit => 0x30
  | .lzPush => 0x31
  | .lzFinalize => 0x32
  | .lzWriteOverhead => 0x33
  | .lzEncode => 0x34
  | .lzDecInit => 0x38
  | .lzDecode => 0x39

/-- The command word of a command, `opcode | (t << 8)` (30_encoding R60, R69). -/
def encode (i : Instr) : Word :=
  (0 : BitVec 21) ++ i.tsel ++ i.opcode

/-- The command that the word `w` of `nbits` bits spells, bits above `nbits` being 0. Every command is
one 32-bit word (30_encoding R65), so a longer word spells none. -/
def decodeTableWord (nbits w : Nat) : Option Instr :=
  if w % 2 ^ nbits < 2 ^ 32 then
    match decode (BitVec.ofNat 32 (w % 2 ^ nbits)) with
    | .ok i => some i
    | .error _ => none
  else none

/-- A row of the opcode map (30_encoding R63). -/
structure OpcodeRow where
  mnemonic : String
  matchWord : Word
  mask : Word
  /-- the format is T or TS -/
  tabled : Bool
deriving DecidableEq, Repr

/-- The opcode map as 30_encoding R63 prints it; `decode` does not read it. -/
def opcodeMap : List OpcodeRow := [
  ⟨"NOP", 0x00000000, 0xFFFFFFFF, false⟩,
  ⟨"SOFT_RESET", 0x00000001, 0xFFFFFFFF, false⟩,
  ⟨"HIST_CLEAR", 0x00000010, 0xFFFFF8FF, true⟩,
  ⟨"ADD_SYMBOL", 0x00000011, 0xFFFFF8FF, true⟩,
  ⟨"BUILD_TABLE", 0x00000012, 0xFFFFF8FF, true⟩,
  ⟨"WRITE_TABLE", 0x00000013, 0xFFFFF8FF, true⟩,
  ⟨"READ_TABLE", 0x00000014, 0xFFFFF8FF, true⟩,
  ⟨"ENC_SYM", 0x00000015, 0xFFFFF8FF, true⟩,
  ⟨"DEC_SYM", 0x00000016, 0xFFFFF8FF, true⟩,
  ⟨"GET_COUNT", 0x00000017, 0xFFFFF8FF, true⟩,
  ⟨"GET_LEN", 0x00000018, 0xFFFFF8FF, true⟩,
  ⟨"GET_MAX", 0x00000019, 0xFFFFF8FF, true⟩,
  ⟨"EC_INIT", 0x00000020, 0xFFFFFFFF, false⟩,
  ⟨"PUSH", 0x00000021, 0xFFFFFFFF, false⟩,
  ⟨"FINALIZE", 0x00000022, 0xFFFFFFFF, false⟩,
  ⟨"WRITE_OVERHEAD", 0x00000023, 0xFFFFFFFF, false⟩,
  ⟨"ENCODE", 0x00000024, 0xFFFFFFFF, false⟩,
  ⟨"ENCODE_FINALIZE", 0x00000025, 0xFFFFFFFF, false⟩,
  ⟨"DEC_INIT", 0x00000028, 0xFFFFFFFF, false⟩,
  ⟨"DECODE_NEXT", 0x00000029, 0xFFFFFFFF, false⟩,
  ⟨"LZ_INIT", 0x00000030, 0xFFFFFFFF, false⟩,
  ⟨"LZ_PUSH", 0x00000031, 0xFFFFFFFF, false⟩,
  ⟨"LZ_FINALIZE", 0x00000032, 0xFFFFFFFF, false⟩,
  ⟨"LZ_WRITE_OVERHEAD", 0x00000033, 0xFFFFFFFF, false⟩,
  ⟨"LZ_ENCODE", 0x00000034, 0xFFFFFFFF, false⟩,
  ⟨"LZ_DEC_INIT", 0x00000038, 0xFFFFFFFF, false⟩,
  ⟨"LZ_DECODE", 0x00000039, 0xFFFFFFFF, false⟩]

/-- "a word `w` spells the command iff `w & mask = match` and, for formats T and TS, `tsel <= 4`"
(30_encoding R63). -/
def OpcodeRow.spelledBy (r : OpcodeRow) (w : Word) : Prop :=
  w &&& r.mask = r.matchWord ∧ (r.tabled = true → (tselField w).toNat ≤ 4)


end Sys2Proof
end

