-- ==== Sys2Proof/Machine/State.lean ====
section
/-! DEFINITION. Everything the spec gives the block (10_state), the two channels beside it (20_memory
R41), the host's pending accesses, the reasons a step can stop, and the state after reset (10_state R34). -/

namespace Sys2Proof.Machine

open Sys2Proof

/-- `TSTATE[t]` (10_state R22). -/
inductive TState where
  /-- 0: the histogram may be written, there is no code -/
  | collect
  /-- 1: the code table holds a canonical code, the histogram is frozen -/
  | valid
deriving DecidableEq, Repr, Inhabited

/-- `EC_PHASE` (10_state R24): "Values 6 and 7 never occur". -/
inductive EcPhase where
  | collect | finalized | emit | done | decode | eos
deriving DecidableEq, Repr, Inhabited

/-- `LZ_PHASE` (10_state R31): "Values 5 to 7 never occur". -/
inductive LzPhase where
  | off | collect | finalized | emit | decode
deriving DecidableEq, Repr, Inhabited

/-- One table instance over an alphabet of `n` symbols (10_state R20 to R22). -/
structure TableMem (n : Nat) where
  /-- `HIST[t][s]` (10_state R20) -/
  hist : Vector (BitVec 32) n
  /-- `HMAX[t]` (10_state R20) -/
  hmax : BitVec 32
  /-- `LEN[t][s]` (10_state R21) -/
  len : Vector (BitVec 5) n
  /-- `CODE[t][s]` (10_state R21) -/
  code : Vector (BitVec 16) n
  /-- `TSTATE[t]` (10_state R22) -/
  tstate : TState
deriving DecidableEq, Repr, Inhabited

/-- A table instance as reset leaves it (10_state R34) and as `HistClear` makes it (40 R80). -/
def TableMem.cleared (n : Nat) : TableMem n where
  hist := Vector.replicate n 0
  hmax := 0
  len := Vector.replicate n 0
  code := Vector.replicate n 0
  tstate := .collect

/-- The block's state whose value is not defined after a fault (60_exceptions R196): all of 10_state
R34 but `ERR`, `ERRINFO` and the constant `ID`. -/
structure Block where
  /-- `ARG0` (10_state R11) -/
  arg0 : Word
  /-- `ARG1` (10_state R11) -/
  arg1 : Word
  /-- `RES0` (10_state R11) -/
  res0 : Word
  /-- `RES1` (10_state R11) -/
  res1 : Word
  /-- `BITS_OUT` (10_state R18) -/
  bitsOut : Word
  /-- `BITS_IN` (10_state R18) -/
  bitsIn : Word
  /-- `XSIZE` (10_state R19) -/
  xsize : Half
  /-- `YSIZE` (10_state R19) -/
  ysize : Half
  /-- table instance 0, `T_BZ` -/
  tabBz : TableMem 384
  /-- table instance 1, `T_AZ` -/
  tabAz : TableMem 256
  /-- table instance 2, `T_LEN` -/
  tabLen : TableMem 256
  /-- table instance 3, `T_SD` -/
  tabSd : TableMem 256
  /-- table instance 4, `T_LD` -/
  tabLd : TableMem 256
  /-- `CTX_EN` (10_state R23) -/
  ctxEn : Bool
  /-- `CTX_AZ` (10_state R23) -/
  ctxAz : Bool
  /-- `EC_PHASE` (10_state R24) -/
  ecPhase : EcPhase
  /-- `RUN_CNT` (10_state R25) -/
  runCnt : BitVec 32
  /-- the run-list `RL`, head first (10_state R26) -/
  rl : List (BitVec 32)
  /-- `ENC_REM` (10_state R27) -/
  encRem : BitVec 32
  /-- `ENC_LASTZ` (10_state R27) -/
  encLastz : Bool
  /-- `ZPEND` (10_state R28) -/
  zpend : BitVec 7
  /-- `EOS` (10_state R29) -/
  eos : Bool
  /-- `CACHE[0..3]` (10_state R30) -/
  cache : Vector Half 4
  /-- `CUR`, the cache write cursor (10_state R30) -/
  cur : BitVec 2
  /-- `LZ_PHASE` (10_state R31) -/
  lzPhase : LzPhase
deriving DecidableEq, Repr, Inhabited

/-- What the host can do between two commands. -/
inductive HostAction where
  /-- a write of the register at a byte offset (10_state R12); at offset 0x04 it executes a command -/
  | write (offset : Nat) (value : Word)
  /-- a read of the register at a byte offset (10_state R12, R36) -/
  | read (offset : Nat)
  /-- bits appended to IN (20_memory R47; `.in` of 30_encoding R70) -/
  | appendIn (bits : List Bool)
  /-- bits removed from the head of IN (20_memory R47) -/
  | takeIn (n : Nat)
  /-- bits appended to OUT (20_memory R47) -/
  | appendOut (bits : List Bool)
  /-- bits removed from the head of OUT (20_memory R47) -/
  | drainOut (n : Nat)
  /-- every bit of OUT moved, in order, to IN (30_encoding R70, `.loopback`) -/
  | loopback
  /-- the hardware reset input (70_reset R210) -/
  | hardReset
deriving DecidableEq, Repr

/-- The machine: the block, its fault record, the channels, and the host's pending accesses. -/
structure State extends Block where
  /-- `STATUS.ERR`: 1 in the fault state (60_exceptions R188) -/
  err : Bool
  /-- `ERRINFO` (10_state R17) -/
  errinfo : Word
  /-- channel OUT, head first (20_memory R41): the host's, no reset of the block touches it -/
  chanOut : List Bool
  /-- channel IN, head first (20_memory R41): the host's, no reset of the block touches it -/
  chanIn : List Bool
  /-- MODEL: what the host does next, in order (log entry 5) -/
  pending : List HostAction
  /-- MODEL: the word the last host read returned (20_memory R55 `rdata`, log entry 6) -/
  rdata : Word
  /-- MODEL: where the next free value is taken (log entry 4) -/
  freeCtr : Nat
deriving DecidableEq, Repr

/-- The reasons a step could stop the machine. There is none: the spec's only exception is the block's
fault state, which is a next state (60_exceptions R185, R188). -/
inductive Fault where
deriving DecidableEq, Repr

/-- The reasons a step has no meaning. -/
inductive Refusal where
  /-- raised by an arm of `exec` for a command that has no meaning yet; no arm does so; safe -/
  | notModelled (mnemonic : String)
  /-- raised by a host access whose byte offset is not a multiple of 4 (20_memory R48,
  93_implementation_defined U6: not defined, the model refuses it); safe, log entry 7 -/
  | unalignedAccess (offset : Nat)
deriving DecidableEq, Repr

/-- FormatError codes (60_exceptions R186). -/
inductive FormatCode where
  | underflow | lenRange | oversub | undersub | badCode | escRange | distZero
deriving DecidableEq, Repr

/-- ContractViolation codes (60_exceptions R187). -/
inductive ContractCode where
  | illegalCmd | operand | sequence | tableState | noCode | desync | overflow
deriving DecidableEq, Repr

/-- A raised fault: its class and code (60_exceptions R185). -/
inductive Raise where
  | format (c : FormatCode)
  | contract (c : ContractCode)
deriving DecidableEq, Repr

/-- The block's part of the reset state (10_state R34). -/
def Block.reset : Block where
  arg0 := 0
  arg1 := 0
  res0 := 0
  res1 := 0
  bitsOut := 0
  bitsIn := 0
  xsize := 0
  ysize := 0
  tabBz := TableMem.cleared 384
  tabAz := TableMem.cleared 256
  tabLen := TableMem.cleared 256
  tabSd := TableMem.cleared 256
  tabLd := TableMem.cleared 256
  ctxEn := false
  ctxAz := false
  ecPhase := .collect
  runCnt := 0
  rl := []
  encRem := 0
  encLastz := false
  zpend := 0
  eos := false
  cache := Vector.replicate 4 0
  cur := 0
  lzPhase := .off

/-- The machine right after reset (10_state R34), both channels empty (log entry 8), the host idle. -/
def State.reset : State where
  toBlock := Block.reset
  err := false
  errinfo := 0
  chanOut := []
  chanIn := []
  pending := []
  rdata := 0
  freeCtr := 0

end Sys2Proof.Machine
end

