-- ==== Sys2Proof/Config/Free.lean ====
section
/-! DEFINITION. The free values: what 60_exceptions R196 leaves unspecified after a fault, and the one
register value the spec does not state. None has a body, so nothing can be proved of its value. Those of a
fault are taken at a fresh count (`State.freeCtr`), for the opcode of the command that faulted and the state
it was issued in, so that nothing ties the values of two faults together. -/

namespace Sys2Proof.Config

open Sys2Proof.Machine

/-- The block's state after a fault that is not exact (60_exceptions R196, U2; log entries 2, 12). -/
opaque unspecifiedBlock (count : Nat) (op : BitVec 8) (before : State) : Block

/-- The bits such a fault's command appended to OUT before it stopped (60_exceptions R196; log entry 3). -/
opaque unspecifiedOut (count : Nat) (op : BitVec 8) (before : State) : List Bool

/-- How many bits such a fault's command removed from IN (60_exceptions R196, 42_huffman_codec R114,
U16; log entry 3). -/
opaque unspecifiedTaken (count : Nat) (op : BitVec 8) (before : State) : Nat

/-- DESIGN CHOICE: what `RL_COUNT` reads when the run-list holds this many entries, 2^32 or more. 10_state
R26 says that it is their number and R12 that it is a 32-bit register; with `RUNLIST_CAP` open (00_scope R9)
the spec states no value for such a number (log entry 17). -/
opaque rlCountBeyondWord (entries : Nat) : Word

end Sys2Proof.Config
end

