-- ==== Sys2Proof/Machine/Bits.lean ====
section
/-! DEFINITION. Fields as bit sequences, most significant bit first (20_memory R44). -/

namespace Sys2Proof.Machine

/-- The `n` low bits of `v`, bit `n-1` first (20_memory R42, R44). -/
def bitsMsb : Nat → Nat → List Bool
  | 0, _ => []
  | n + 1, v => v.testBit n :: bitsMsb n v

/-- A bit sequence as a number, its first bit most significant (20_memory R43, R44). -/
def ofBitsMsb (bs : List Bool) : Nat :=
  bs.foldl (fun v b => 2 * v + b.toNat) 0

/-- The first `n` bits of a sequence and the rest, if it has `n` bits (20_memory R43). -/
def splitBits : Nat → List Bool → Option (List Bool × List Bool)
  | 0, l => some ([], l)
  | _ + 1, [] => none
  | n + 1, b :: l =>
    match splitBits n l with
    | some (bs, rest) => some (b :: bs, rest)
    | none => none

end Sys2Proof.Machine
end

