-- ==== Sys2Proof/Machine/Ops.lean ====
section
/-! DEFINITION. The shared operations: table access, result registers, the two channel primitives
(20_memory R42, R43), the recent-distance cache (45_lz_codec R152), fault entry and leaving it
(60_exceptions R188 to R196), and running a command's body (30_encoding R68). -/

namespace Sys2Proof.Machine

open Sys2Proof Host

/-! ### Tables -/

/-- Table instance `t` (10_state R20 to R22). -/
def State.tab (s : State) : (t : Tab) → TableMem (nsym t)
  | .bz => s.tabBz
  | .az => s.tabAz
  | .len => s.tabLen
  | .sd => s.tabSd
  | .ld => s.tabLd

/-- Table instance `t` replaced. -/
def State.setTab (s : State) : (t : Tab) → TableMem (nsym t) → State
  | .bz, m => { s with tabBz := m }
  | .az, m => { s with tabAz := m }
  | .len, m => { s with tabLen := m }
  | .sd, m => { s with tabSd := m }
  | .ld, m => { s with tabLd := m }

/-- `HIST[t][sym]` (10_state R20); 0 beyond the alphabet, where no rule reads. -/
def TableMem.count {n : Nat} (m : TableMem n) (sym : Nat) : BitVec 32 :=
  (m.hist[sym]?).getD 0

/-- `LEN[t][sym]` (10_state R21); 0 beyond the alphabet, where no rule reads. -/
def TableMem.lenAt {n : Nat} (m : TableMem n) (sym : Nat) : BitVec 5 :=
  (m.len[sym]?).getD 0

/-- `CODE[t][sym]` (10_state R21); 0 beyond the alphabet, where no rule reads. -/
def TableMem.codeAt {n : Nat} (m : TableMem n) (sym : Nat) : BitVec 16 :=
  (m.code[sym]?).getD 0

/-! ### Result registers -/

/-- `RES0 <- v`. Every result of 40 to 45 is below 2^32. -/
def State.setRes0 (s : State) (v : Nat) : State :=
  { s with res0 := BitVec.ofNat 32 v }

/-- `RES1 <- v`. -/
def State.setRes1 (s : State) (v : Nat) : State :=
  { s with res1 := BitVec.ofNat 32 v }

/-! ### The channels -/

/-- `WriteBits(v, n)` (20_memory R42, 10_state R18). -/
def writeBits (v n : Nat) (s : State) : State :=
  { s with
    chanOut := s.chanOut ++ bitsMsb n v
    bitsOut := s.bitsOut + BitVec.ofNat 32 n }

/-- `ReadBits(n)` (20_memory R43, 10_state R18): the number read, and the state after. -/
def readBits (n : Nat) (s : State) : Except Raise (Nat × State) :=
  match splitBits n s.chanIn with
  | none => .error (.format .underflow)
  | some (bs, rest) =>
    .ok (ofBitsMsb bs, { s with chanIn := rest, bitsIn := s.bitsIn + BitVec.ofNat 32 n })

/-! ### The recent-distance cache -/

/-- `CACHE[i]` (10_state R30). -/
def State.cacheAt (s : State) (i : BitVec 2) : Half :=
  s.cache[i.toNat]

/-- `CachePush(d)` (45_lz_codec R152). -/
def cachePush (d : Half) (s : State) : State :=
  { s with cache := s.cache.set s.cur.toNat d, cur := s.cur + 1 }

/-- The cache as every image starts with it: all slots empty, the cursor at 0 (45_lz_codec R154). -/
def cacheClear (s : State) : State :=
  { s with cache := Vector.replicate 4 0, cur := 0 }

/-! ### Taking a fault, and leaving the fault state -/

/-- `ERRINFO.CODE` of a FormatError (60_exceptions R186). -/
def FormatCode.code : FormatCode → BitVec 8
  | .underflow => 0x01
  | .lenRange => 0x02
  | .oversub => 0x03
  | .undersub => 0x04
  | .badCode => 0x05
  | .escRange => 0x06
  | .distZero => 0x07

/-- `ERRINFO.CODE` of a ContractViolation (60_exceptions R187). -/
def ContractCode.code : ContractCode → BitVec 8
  | .illegalCmd => 0x01
  | .operand => 0x02
  | .sequence => 0x03
  | .tableState => 0x04
  | .noCode => 0x05
  | .desync => 0x06
  | .overflow => 0x07

/-- `ERRINFO.CLASS` (10_state R17, 60_exceptions R185). -/
def Raise.cls : Raise → BitVec 2
  | .format _ => 1
  | .contract _ => 2

/-- `ERRINFO.CODE` (10_state R17). -/
def Raise.code : Raise → BitVec 8
  | .format c => c.code
  | .contract c => c.code

/-- `ERRINFO` as a fault writes it (10_state R17, 60_exceptions R189): OPCODE in 23:16, CLASS in 9:8,
CODE in 7:0, the rest 0. -/
def errinfoWord (op : BitVec 8) (r : Raise) : Word :=
  (0 : BitVec 8) ++ op ++ (0 : BitVec 6) ++ r.cls ++ r.code

/-- The faults after which nothing else has changed: `CV_ILLEGAL_CMD`, `CV_OPERAND` and `CV_SEQUENCE`
(60_exceptions R196). -/
def Raise.exact : Raise → Bool
  | .contract .illegalCmd => true
  | .contract .operand => true
  | .contract .sequence => true
  | _ => false

/-- What a command that stopped at a `raise` leaves of the rest of the block and of the channels when
R196 promises nothing: free values (60_exceptions R196; log entries 2, 3, 12). OUT is only appended to and
IN is only removed from (20_memory R41). -/
def State.scramble (s : State) (op : BitVec 8) : State :=
  { s with
    toBlock := Config.unspecifiedBlock s.freeCtr op s
    chanOut := s.chanOut ++ Config.unspecifiedOut s.freeCtr op s
    chanIn := s.chanIn.drop (Config.unspecifiedTaken s.freeCtr op s)
    freeCtr := s.freeCtr + 1 }

/-- Fault entry (60_exceptions R188, R189, R196): `ERR` becomes 1 and `ERRINFO` records class, code and
opcode; after an exact fault nothing else has changed. -/
def enterFault (op : BitVec 8) (r : Raise) (s : State) : State :=
  if r.exact then { s with err := true, errinfo := errinfoWord op r }
  else { s.scramble op with err := true, errinfo := errinfoWord op r }

/-- A reset of the block, hardware or `SOFT_RESET` (10_state R34, 70_reset R210 to R212): every piece of
the block's state takes its reset value, which also ends the fault state (60_exceptions R191); the channels
are not touched, nor is what belongs to the host or to the model. -/
def resetBlock (s : State) : State :=
  { s with toBlock := Block.reset, err := false, errinfo := 0 }

/-! ### Running a command -/

/-- One command (30_encoding R68, 60_exceptions R188, R190, R192): in the fault state it is ignored;
otherwise it completes, or stops at the first `raise` and the block takes the fault. -/
def runCommand (op : BitVec 8) (s : State) (body : Except Raise State) :
    Outcome State Fault Refusal :=
  if s.err then .next s
  else
    match body with
    | .ok s' => .next s'
    | .error r => .next (enterFault op r s)

/-- `raise` with the given fault unless the condition holds. -/
def need (p : Prop) [Decidable p] (r : Raise) : Except Raise Unit :=
  if p then .ok () else .error r

end Sys2Proof.Machine
end

