-- ==== Sys2Proof/Machine/Operands.lean ====
section
/-! DEFINITION. The operand formats (30_encoding R61, R62): which fields of `ARG0` and `ARG1` a command
reads, and the checks that raise `CV_OPERAND`. -/

namespace Sys2Proof.Machine

open Sys2Proof

/-- Formats T and TS: the table `tsel` names. The decoder has refused `tsel` of 5 to 7; on a term that is
not well formed the command is illegal all the same (30_encoding R64, R67; log entry 11). -/
def tableOperand (t : BitVec 3) : Except Raise Tab :=
  match Tab.ofSel t with
  | some tab => .ok tab
  | none => .error (.contract .illegalCmd)

/-- Format TS: `sym = ARG0[8:0]`, `ARG0[31:9]` must be 0, `sym < NSYM[t]` (30_encoding R61, R62). -/
def symOperand (t : Tab) (s : State) : Except Raise Nat :=
  let sym := (s.arg0.extractLsb' 0 9).toNat
  if s.arg0.extractLsb' 9 23 = 0 ∧ sym < nsym t then .ok sym else .error (.contract .operand)

/-- Format F: `ctx = ARG0[0]`, `ARG0[31:1]` must be 0 (30_encoding R61, R62). -/
def ctxOperand (s : State) : Except Raise Bool :=
  if s.arg0.extractLsb' 1 31 = 0 then .ok (s.arg0.getLsbD 0) else .error (.contract .operand)

/-- Format B: `byte = ARG0[7:0]`, `ARG0[31:8]` must be 0 (30_encoding R61, R62). -/
def byteOperand (s : State) : Except Raise Nat :=
  if s.arg0.extractLsb' 8 24 = 0 then .ok (s.arg0.extractLsb' 0 8).toNat
  else .error (.contract .operand)

/-- Format D: `xsize = ARG0[15:0]`, `ysize = ARG1[15:0]`, the upper halves must be 0 (30_encoding R61,
R62). -/
def sizeOperands (s : State) : Except Raise (Half × Half) :=
  if s.arg0.extractLsb' 16 16 = 0 ∧ s.arg1.extractLsb' 16 16 = 0 then
    .ok (s.arg0.extractLsb' 0 16, s.arg1.extractLsb' 0 16)
  else .error (.contract .operand)

/-- Format M: `len = ARG0[8:0]` in 2..257, `dist = ARG1[15:0]` in 1..65535, the bits above must be 0
(30_encoding R61, R62; 45_lz_codec R161). -/
def matchOperands (s : State) : Except Raise (Nat × Nat) :=
  let len := (s.arg0.extractLsb' 0 9).toNat
  let dist := (s.arg1.extractLsb' 0 16).toNat
  if s.arg0.extractLsb' 9 23 = 0 ∧ s.arg1.extractLsb' 16 16 = 0
      ∧ Config.lenMin ≤ len ∧ len ≤ Config.lenMax ∧ 1 ≤ dist then
    .ok (len, dist)
  else .error (.contract .operand)

/-- Format E: `esc = ARG0[7:0]`, `ARG0[31:8]` must be 0 (30_encoding R61, R62). -/
def escOperand (s : State) : Except Raise Nat :=
  if s.arg0.extractLsb' 8 24 = 0 then .ok (s.arg0.extractLsb' 0 8).toNat
  else .error (.contract .operand)

end Sys2Proof.Machine
end

