-- ==== Sys2Proof/Machine/Flags.lean ====
section
/-! DEFINITION. The context flag (44_entropy_coder R131), `STATUS` as a view (10_state R16) and the
register file (10_state R12, R36). -/

namespace Sys2Proof.Machine

open Sys2Proof

/-- `CtxTable()` (10_state R23, 44_entropy_coder R131). -/
def ctxTable (s : State) : Tab :=
  if s.ctxAz then .az else .bz

/-- `CtxAfter(sym)` (44_entropy_coder R131): only a terminal run symbol, 256..382, sets the flag, and only
in context mode. -/
def ctxAfter (sym : Nat) (s : State) : State :=
  { s with ctxAz := s.ctxEn && decide (Config.runBase ≤ sym) && decide (sym < Config.runCont) }

/-- `EC_PHASE` as its three bits (10_state R24). -/
def EcPhase.bits : EcPhase → BitVec 3
  | .collect => 0
  | .finalized => 1
  | .emit => 2
  | .done => 3
  | .decode => 4
  | .eos => 5

/-- `LZ_PHASE` as its three bits (10_state R31). -/
def LzPhase.bits : LzPhase → BitVec 3
  | .off => 0
  | .collect => 1
  | .finalized => 2
  | .emit => 3
  | .decode => 4

/-- `TSTATE[t]` as its bit (10_state R22). -/
def TState.bit : TState → Bool
  | .collect => false
  | .valid => true

/-- `STATUS` (10_state R16), high field first: reserved, `ENC_LASTZ`, `TVALID` (table 4 down to 0),
`LZ_PHASE`, `EC_PHASE`, `CTX_AZ`, `CTX_EN`, `EOS`, `ERR`, `BUSY` (always 0, 70_reset R217). -/
def statusWord (s : State) : Word :=
  (0 : BitVec 15) ++ BitVec.ofBool s.encLastz
    ++ BitVec.ofBool s.tabLd.tstate.bit ++ BitVec.ofBool s.tabSd.tstate.bit
    ++ BitVec.ofBool s.tabLen.tstate.bit ++ BitVec.ofBool s.tabAz.tstate.bit
    ++ BitVec.ofBool s.tabBz.tstate.bit
    ++ s.lzPhase.bits ++ s.ecPhase.bits
    ++ BitVec.ofBool s.ctxAz ++ BitVec.ofBool s.ctxEn ++ BitVec.ofBool s.eos
    ++ BitVec.ofBool s.err ++ (0 : BitVec 1)

/-- The output pin `err`, equal to `STATUS.ERR` (60_exceptions R194). -/
def errPin (s : State) : Bool := s.err

/-- The pin `in_end` of the informative signal view (20_memory R55): no bit is left in IN. -/
def inEndPin (s : State) : Bool := s.chanIn.isEmpty

/-- `RL_COUNT` (10_state R12, R26): the number of entries in the run-list. DESIGN CHOICE: the spec states no
value for 2^32 entries or more, which an open `RUNLIST_CAP` allows and a 32-bit register cannot show; the
model reads a free value there (log entry 17). -/
def rlCount (s : State) : Word :=
  if s.rl.length < 2 ^ 32 then BitVec.ofNat 32 s.rl.length
  else Config.rlCountBeyondWord s.rl.length

/-- What a host read of the register at a byte offset returns (10_state R12, R14, R15, R36): a view of the
state, zero-extended; an offset outside the map reads 0. Where the spec states no value for `RL_COUNT`, see
`rlCount` (log entry 17). -/
def readRegister (s : State) (offset : Nat) : Word :=
  match offset with
  | 0x00 => Config.idWord
  | 0x04 => 0
  | 0x08 => s.arg0
  | 0x0C => s.arg1
  | 0x10 => s.res0
  | 0x14 => s.res1
  | 0x18 => statusWord s
  | 0x1C => s.errinfo
  | 0x20 => s.bitsOut
  | 0x24 => s.bitsIn
  | 0x28 => s.xsize.setWidth 32
  | 0x2C => s.ysize.setWidth 32
  | 0x30 => rlCount s
  | 0x34 => s.runCnt
  | 0x38 => s.encRem
  | 0x3C => s.zpend.setWidth 32
  | 0x40 => (s.cacheAt 0).setWidth 32
  | 0x44 => (s.cacheAt 1).setWidth 32
  | 0x48 => (s.cacheAt 2).setWidth 32
  | 0x4C => (s.cacheAt 3).setWidth 32
  | 0x50 => s.cur.setWidth 32
  | _ => 0

/-- The general registers by index, `x[0]` to `x[3]` (00_scope section 4, 10_state R11). -/
def generalRegister (s : State) (i : BitVec 2) : Word :=
  match i.toNat with
  | 0 => s.arg0
  | 1 => s.arg1
  | 2 => s.res0
  | _ => s.res1

end Sys2Proof.Machine
end

