-- ==== Sys2Proof/Machine/CodeBuilder.lean ====
section
/-! DEFINITION. canonical_code_builder (40_canonical_code_builder, 41_table_serdes): the histogram, counts
to code lengths, lengths to canonical codes, and the length table on the wire. -/

namespace Sys2Proof.Machine

open Sys2Proof

/-! ### The histogram -/

/-- `HistClear(t)` (40_canonical_code_builder R80). -/
def histClear (t : Tab) (s : State) : State :=
  s.setTab t (TableMem.cleared (nsym t))

/-- `sat32(c + 1)` (40_canonical_code_builder R81). -/
def satIncr (c : BitVec 32) : BitVec 32 :=
  BitVec.ofNat 32 (min (c.toNat + 1) Config.countMax)

/-- The larger of two counts (40_canonical_code_builder R81). -/
def maxCount (a b : BitVec 32) : BitVec 32 :=
  if a.toNat < b.toNat then b else a

/-- One more occurrence of `sym`, and the running maximum (40_canonical_code_builder R81). -/
def TableMem.addOne {n : Nat} (m : TableMem n) (sym : Nat) : TableMem n :=
  let c := satIncr (m.count sym)
  { m with hist := m.hist.setIfInBounds sym c, hmax := maxCount m.hmax c }

/-- `AddSymbol(t, sym)` (40_canonical_code_builder R81). -/
def addSymbol (t : Tab) (sym : Nat) (s : State) : Except Raise State := do
  need ((s.tab t).tstate = .collect) (.contract .tableState)
  return s.setTab t ((s.tab t).addOne sym)

/-! ### From counts to code lengths -/

/-- The used symbols with their counts, ascending, the first count being that of symbol `sym`
(40_canonical_code_builder R83). -/
def usedFrom (sym : Nat) : List (BitVec 32) → List (Nat × Nat)
  | [] => []
  | c :: cs => if c = 0 then usedFrom (sym + 1) cs else (sym, c.toNat) :: usedFrom (sym + 1) cs

/-- A node of the Huffman construction (40_canonical_code_builder R84). -/
structure Node where
  weight : Nat
  /-- the key's second component: 0 for a leaf, 1 for a merged node -/
  kind : Nat
  /-- the key's third component: a leaf's symbol, a merged node's creation index -/
  idx : Nat
  /-- the leaves below the node, each with its depth in the tree built so far -/
  leaves : List (Nat × Nat)
deriving DecidableEq, Repr

/-- The lexicographic order of keys (40_canonical_code_builder R84): `a`'s key is smaller than `b`'s. -/
def Node.before (a b : Node) : Bool :=
  decide (a.weight < b.weight
    ∨ (a.weight = b.weight ∧ (a.kind < b.kind ∨ (a.kind = b.kind ∧ a.idx < b.idx))))

/-- A node put into a forest that is listed in the order of keys. -/
def insertNode (z : Node) : List Node → List Node
  | [] => [z]
  | y :: f => if z.before y then z :: y :: f else y :: insertNode z f

/-- The leaf of a used symbol of weight `w` (40_canonical_code_builder R84). -/
def leafNode (sw : Nat × Nat) : Node :=
  { weight := sw.2, kind := 0, idx := sw.1, leaves := [(sw.1, 0)] }

/-- The set of leaf nodes, listed in the order of keys (40_canonical_code_builder R84). -/
def leafForest (u : List (Nat × Nat)) : List Node :=
  u.foldr (fun sw f => insertNode (leafNode sw) f) []

/-- The node made of `x` and `y` as the `i`-th merge: every leaf below is one deeper
(40_canonical_code_builder R84). -/
def mergeNodes (i : Nat) (x y : Node) : Node :=
  { weight := x.weight + y.weight, kind := 1, idx := i,
    leaves := (x.leaves ++ y.leaves).map fun sd => (sd.1, sd.2 + 1) }

/-- The loop of `HuffDepths` (40_canonical_code_builder R84): the two nodes of smallest key, which lead
the list, are merged until one node is left. Each round takes one node away, so as many rounds as nodes
are enough. -/
def mergeAll : Nat → Nat → List Node → List Node
  | k + 1, i, x :: y :: f => mergeAll k (i + 1) (insertNode (mergeNodes i x y) f)
  | _, _, f => f

/-- `HuffDepths(w, U)` (40_canonical_code_builder R84): each used symbol with its depth. -/
def huffDepths (u : List (Nat × Nat)) : List (Nat × Nat) :=
  match mergeAll u.length 0 (leafForest u) with
  | [] => []
  | root :: _ => root.leaves

/-- The largest depth. -/
def maxDepth (d : List (Nat × Nat)) : Nat :=
  d.foldr (fun sd m => max sd.2 m) 0

/-- The weights halved, rounding up (40_canonical_code_builder R85). -/
def halveWeights (u : List (Nat × Nat)) : List (Nat × Nat) :=
  u.map fun sw => (sw.1, (sw.2 + 1) / 2)

/-- The loop of `BuildLengths` (40_canonical_code_builder R85): depths, and the rounds of rescaling. By
R86 the test has succeeded before the fuel of 32 rescalings is used up (log entry 10). -/
def limitLoop : Nat → Nat → List (Nat × Nat) → List (Nat × Nat) × Nat
  | 0, rounds, u => (huffDepths u, rounds)
  | k + 1, rounds, u =>
    let d := huffDepths u
    if maxDepth d ≤ Config.maxLen then (d, rounds) else limitLoop k (rounds + 1) (halveWeights u)

/-- The depths of the used symbols and the rounds (40_canonical_code_builder R83, R85): none for the
empty table, length 1 for a lone symbol, the limited Huffman construction from two on. -/
def lengthsOfUsed (u : List (Nat × Nat)) : List (Nat × Nat) × Nat :=
  match u with
  | [] => ([], 0)
  | [sw] => ([(sw.1, 1)], 0)
  | u => limitLoop Config.rescaleFuel 0 u

/-- The depth listed for a symbol, 0 for a symbol that is not listed. -/
def depthOf (d : List (Nat × Nat)) (sym : Nat) : Nat :=
  (d.lookup sym).getD 0

/-- `BuildLengths(c)` (40_canonical_code_builder R83, R85): the code lengths, and the rounds. -/
def buildLengths {n : Nat} (c : Vector (BitVec 32) n) : Vector (BitVec 5) n × Nat :=
  let r := lengthsOfUsed (usedFrom 0 c.toList)
  (Vector.ofFn fun sym => BitVec.ofNat 5 (depthOf r.1 sym.val), r.2)

/-! ### From code lengths to canonical codes -/

/-- `count[l]`: the symbols of length `l` (40_canonical_code_builder R87). -/
def lengthCount (ls : List (BitVec 5)) (l : Nat) : Nat :=
  ls.countP fun x => x.toNat == l

/-- `next[l]` before the first symbol (40_canonical_code_builder R87): `next[1] = 0`,
`next[l+1] = (next[l] + count[l]) * 2`. -/
def firstCode (ls : List (BitVec 5)) : Nat → Nat
  | 0 => 0
  | 1 => 0
  | l + 2 => (firstCode ls (l + 1) + lengthCount ls (l + 1)) * 2

/-- The second loop of `AssignCodes` (40_canonical_code_builder R87), `next` being the array. -/
def assignFrom : List Nat → List (BitVec 5) → List (BitVec 16)
  | _, [] => []
  | next, l :: ls =>
    if l = 0 then 0 :: assignFrom next ls
    else
      let c := next.getD l.toNat 0
      BitVec.ofNat 16 c :: assignFrom (next.set l.toNat (c + 1)) ls

/-- `AssignCodes` gives every symbol one entry. -/
theorem length_assignFrom (next : List Nat) (ls : List (BitVec 5)) :
    (assignFrom next ls).length = ls.length := by
  induction ls generalizing next with
  | nil => rfl
  | cons l ls ih =>
    simp only [assignFrom]
    split <;> simp [ih]

/-- `AssignCodes(L)` (40_canonical_code_builder R87). -/
def assignCodes {n : Nat} (len : Vector (BitVec 5) n) : Vector (BitVec 16) n :=
  ⟨(assignFrom ((List.range (Config.maxLen + 1)).map (firstCode len.toList)) len.toList).toArray, by
    simp [length_assignFrom]⟩

/-- A table whose lengths are given, its codes the canonical ones, valid (40_canonical_code_builder R88,
41_table_serdes R103). -/
def TableMem.withLengths {n : Nat} (m : TableMem n) (len : Vector (BitVec 5) n) : TableMem n :=
  { m with len := len, code := assignCodes len, tstate := .valid }

/-- What `BuildTable` returns: the used symbols, the rounds of rescaling (40_canonical_code_builder R88). -/
structure BuildResult where
  used : Nat
  rounds : Nat
deriving DecidableEq, Repr

/-- `BuildTable(t)` (40_canonical_code_builder R88). -/
def buildTable (t : Tab) (s : State) : Except Raise (BuildResult × State) := do
  need ((s.tab t).tstate = .collect) (.contract .tableState)
  let r := buildLengths (s.tab t).hist
  return (⟨(usedFrom 0 (s.tab t).hist.toList).length, r.2⟩, s.setTab t ((s.tab t).withLengths r.1))

/-! ### The length table on the wire -/

/-- The fields of a serialized table, in symbol order (41_table_serdes R100, R101). -/
def writeFields : List (BitVec 5) → State → State
  | [], s => s
  | l :: ls, s => writeFields ls (writeBits l.toNat Config.lenFieldW s)

/-- `WriteTable(t)` (41_table_serdes R101): the number of bits, and the state after. -/
def writeTable (t : Tab) (s : State) : Except Raise (Nat × State) := do
  need ((s.tab t).tstate = .valid) (.contract .tableState)
  return (Config.lenFieldW * nsym t, writeFields (s.tab t).len.toList s)

/-- The loop of `ReadTable` over `n` fields (41_table_serdes R103): each is tested as it is read. -/
def readFields : (n : Nat) → State → Except Raise (List (BitVec 5) × State)
  | 0, s => .ok ([], s)
  | n + 1, s => do
    let (v, s1) ← readBits Config.lenFieldW s
    need (v ≤ Config.maxLen) (.format .lenRange)
    let (ls, s2) ← readFields n s1
    return (BitVec.ofNat 5 v :: ls, s2)

/-- The number of symbols that have a code (41_table_serdes R103). -/
def usedLengths (ls : List (BitVec 5)) : Nat :=
  ls.countP fun l => l != 0

/-- The Kraft sum (00_scope glossary, 41_table_serdes R103). -/
def kraftSum (ls : List (BitVec 5)) : Nat :=
  (ls.map fun l => if l = 0 then 0 else 2 ^ (Config.maxLen - l.toNat)).sum

/-- The validity test on a length table whose fields are all at most 16 (41_table_serdes R103, R105). -/
def checkLengths (ls : List (BitVec 5)) : Except Raise Unit := do
  need (kraftSum ls ≤ Config.kraftOne) (.format .oversub)
  need (kraftSum ls = Config.kraftOne ∨ usedLengths ls = 0
    ∨ (usedLengths ls = 1 ∧ kraftSum ls = 2 ^ (Config.maxLen - 1))) (.format .undersub)

/-- A list of fields as the vector of a table's lengths, entry by entry. -/
def lengthVector (n : Nat) (ls : List (BitVec 5)) : Vector (BitVec 5) n :=
  if h : ls.length = n then ⟨ls.toArray, by simpa using h⟩ else Vector.replicate n 0

/-- `ReadTable(t)` (41_table_serdes R103): the number of used symbols, and the state after. -/
def readTable (t : Tab) (s : State) : Except Raise (Nat × State) := do
  let (ls, s1) ← readFields (nsym t) s
  checkLengths ls
  return (usedLengths ls, s1.setTab t ((s1.tab t).withLengths (lengthVector (nsym t) ls)))

end Sys2Proof.Machine
end

