-- ==== Sys2Proof/Machine/HuffmanCodec.lean ====
section
/-! DEFINITION. huffman_encoder and huffman_decoder (42_huffman_codec): one symbol across a channel. -/

namespace Sys2Proof.Machine

open Sys2Proof

/-- `EncSym(t, sym)` (42_huffman_codec R110): the bits written, and the state after. -/
def encSym (t : Tab) (sym : Nat) (s : State) : Except Raise (Nat × State) := do
  need ((s.tab t).tstate = .valid) (.contract .tableState)
  need ((s.tab t).lenAt sym ≠ 0) (.contract .noCode)
  let l := ((s.tab t).lenAt sym).toNat
  return (l, writeBits ((s.tab t).codeAt sym).toNat l s)

/-- The first symbol, counting from `sym`, whose length is `l` and whose code is `code`. -/
def findCode (l code : Nat) : Nat → List (BitVec 5) → List (BitVec 16) → Option Nat
  | sym, x :: ls, c :: cs =>
    if x.toNat = l ∧ c.toNat = code then some sym else findCode l code (sym + 1) ls cs
  | _, _, _ => none

/-- The symbol with `LEN[t][s] = l` and `CODE[t][s] = code`, if there is one (42_huffman_codec R112). In a
valid table there is at most one (10_state R33); where there were two this is the lower (log entry 13). -/
def TableMem.symbolOf {n : Nat} (m : TableMem n) (l code : Nat) : Option Nat :=
  findCode l code 0 m.len.toList m.code.toList

/-- A symbol read from a channel and the length of its code (42_huffman_codec R112). -/
structure Decoded where
  sym : Nat
  bits : Nat
deriving DecidableEq, Repr

/-- The bit walk of `DecSym` (42_huffman_codec R112): the `l`-th bit comes next, `code` holds the bits
before it, `k` bits may still be read. -/
def decodeWalk {n : Nat} (m : TableMem n) :
    (k l code : Nat) → State → Except Raise (Decoded × State)
  | 0, _, _, _ => .error (.format .badCode)
  | k + 1, l, code, s => do
    let (b, s1) ← readBits 1 s
    let code' := code * 2 + b
    match m.symbolOf l code' with
    | some sym => return (⟨sym, l⟩, s1)
    | none => decodeWalk m k (l + 1) code' s1

/-- `DecSym(t)` (42_huffman_codec R112). -/
def decSym (t : Tab) (s : State) : Except Raise (Decoded × State) := do
  need ((s.tab t).tstate = .valid) (.contract .tableState)
  decodeWalk (s.tab t) Config.maxLen 1 0 s

/-- The symbols of length `l`, ascending, counting from `sym`. -/
def symbolsOfLength (l : Nat) : Nat → List (BitVec 5) → List Nat
  | _, [] => []
  | sym, x :: ls =>
    if x.toNat = l then sym :: symbolsOfLength l (sym + 1) ls else symbolsOfLength l (sym + 1) ls

/-- `sorted`: the used symbols ordered by length, then symbol (42_huffman_codec R114). -/
def sortedSymbols (ls : List (BitVec 5)) : List Nat :=
  (List.range' 1 Config.maxLen).flatMap fun l => symbolsOfLength l 0 ls

/-- The walk that needs no search (42_huffman_codec R114), for tables with canonical codes. -/
def canonicalWalk (ls : List (BitVec 5)) :
    (k l code first index : Nat) → State → Except Raise (Decoded × State)
  | 0, _, _, _, _, _ => .error (.format .badCode)
  | k + 1, l, code, first, index, s => do
    let (b, s1) ← readBits 1 s
    let code' := code + b
    if first ≤ code' ∧ code' - first < lengthCount ls l then
      return (⟨(sortedSymbols ls).getD (index + (code' - first)) 0, l⟩, s1)
    else
      canonicalWalk ls k (l + 1) (code' * 2) ((first + lengthCount ls l) * 2)
        (index + lengthCount ls l) s1

/-- `DecSym(t)` by the walk of 42_huffman_codec R114; no command uses it. -/
def decSymCanonical (t : Tab) (s : State) : Except Raise (Decoded × State) := do
  need ((s.tab t).tstate = .valid) (.contract .tableState)
  canonicalWalk (s.tab t).len.toList Config.maxLen 1 0 0 0 s

end Sys2Proof.Machine
end

