-- ==== Sys2Proof/Machine/ZeroRun.lean ====
section
/-! DEFINITION. zero_run_encoder and zero_run_decoder (43_zero_run), and the chain's emission (44
R136). -/

namespace Sys2Proof.Machine

open Sys2Proof

/-- `Chain(L)` (43_zero_run R121): the run symbols that encode a run of `L` zero bytes. -/
def chain (L : Nat) : List Nat :=
  List.replicate (L / Config.runUnit) Config.runCont
    ++ (if L % Config.runUnit = 0 then [] else [255 + L % Config.runUnit])

/-- The zero bytes that a run symbol stands for (43_zero_run R120, R124). -/
def zerosOf (sym : Nat) : Nat := sym - 255

/-- The loop of `FlushRun` (43_zero_run R123): each symbol is counted in the base table. -/
def countChain : List Nat → State → Except Raise State
  | [], s => .ok s
  | sym :: rest, s => do
    let s1 ← addSymbol .bz sym s
    countChain rest (ctxAfter sym s1)

/-- `FlushRun()` (43_zero_run R123), the run-list holding at most `cap` entries. -/
def flushRun (cap : Nat) (s : State) : Except Raise State := do
  need (s.rl.length ≠ cap) (.contract .overflow)
  let s1 ← countChain (chain s.runCnt.toNat) { s with rl := s.rl ++ [s.runCnt] }
  return { s1 with runCnt := 0 }

/-- `TrackEnd()` (43_zero_run R122); also the flush before a non-zero byte. -/
def flushOpenRun (s : State) : Except Raise State :=
  if s.runCnt = 0 then .ok s else flushRun Config.runlistCap s

/-- `TrackByte(b)` (43_zero_run R122). -/
def trackByte (b : Nat) (s : State) : Except Raise State :=
  if b = 0 then do
    need (s.runCnt.toNat ≠ Config.countMax) (.contract .overflow)
    return { s with runCnt := s.runCnt + 1 }
  else flushOpenRun s

/-- `EmitChain(L)` over a list of run symbols (44_entropy_coder R136): the bits written, and the state
after. -/
def emitSymbols : List Nat → State → Except Raise (Nat × State)
  | [], s => .ok (0, s)
  | sym :: rest, s => do
    let (k, s1) ← encSym .bz sym s
    let (n, s2) ← emitSymbols rest (ctxAfter sym s1)
    return (k + n, s2)

/-- `EmitChain(L)` (44_entropy_coder R136). -/
def emitChain (L : Nat) (s : State) : Except Raise (Nat × State) :=
  emitSymbols (chain L) s

/-- `Expand(sym)` (43_zero_run R124), which returns the first zero byte: `RES0 <- 0`. -/
def expandRun (sym : Nat) (s : State) : State :=
  (ctxAfter sym { s with zpend := BitVec.ofNat 7 (sym - Config.runBase) }).setRes0 0

end Sys2Proof.Machine
end

