-- ==== Sys2Proof/Machine/LzCodec.lean ====
section
/-! DEFINITION. lz_distance_length_codec (45_lz_codec): bands, classification, the fields of a match. -/

namespace Sys2Proof.Machine

open Sys2Proof

/-- Which distance sub-coder a match needs (45_lz_codec R153). -/
inductive DistKind where
  | none | short | long
deriving DecidableEq, Repr

/-- What `Classify` returns (45_lz_codec R153). -/
structure MatchClass where
  esc : Nat
  needLen : Bool
  kind : DistKind
  push : Bool
deriving DecidableEq, Repr

/-- The distance of local-up offset `j`: `(XSIZE + j - 2) mod 65536` (45_lz_codec R151, R153). -/
def localUp (xsize : Half) (j : Nat) : Nat :=
  (xsize + BitVec.ofNat 16 j - 2).toNat

/-- The lowest offset `i` of a list of values at which `d` stands. -/
def lowestIndex (d : Nat) : Nat → List Nat → Option Nat
  | _, [] => none
  | i, x :: xs => if x = d then some i else lowestIndex d (i + 1) xs

/-- The local-up distances of offsets 0 to 4 (45_lz_codec R151). -/
def localUps (xsize : Half) : List Nat :=
  (List.range 5).map (localUp xsize)

/-- The cached distances, slot 0 first (10_state R30). -/
def cacheList (s : State) : List Nat :=
  s.cache.toList.map BitVec.toNat

/-- Bands 4 and 5 of `Classify` (45_lz_codec R153): a length of at most 9 is carried by the escape code. -/
def classifyExplicit (len base top : Nat) (kind : DistKind) : MatchClass :=
  if len ≤ Config.lenDirectMax then ⟨base + (len - 2), false, kind, true⟩
  else ⟨top, true, kind, true⟩

/-- `Classify(len, d)` (45_lz_codec R153), its tests in the normative order. -/
def classify (len d : Nat) (s : State) : MatchClass :=
  match lowestIndex d 0 (cacheList s) with
  | some i => ⟨i, true, .none, false⟩
  | none =>
    if d = 1 then ⟨Config.escLlBase, true, .none, true⟩
    else if 3 ≤ d ∧ d ≤ 6 then ⟨Config.escLlBase + (d - 2), true, .none, true⟩
    else
      match lowestIndex d 0 (localUps s.xsize) with
      | some j => ⟨Config.escLuBase + j, true, .none, true⟩
      | none =>
        if d ≤ Config.shortMax then classifyExplicit len Config.escSdBase Config.escSdTop .short
        else classifyExplicit len Config.escLdBase Config.escLdTop .long

/-- The cache after a match of distance `d` (45_lz_codec R152): pushed unless it came from the cache. -/
def pushIf (push : Bool) (d : Nat) (s : State) : State :=
  if push then cachePush (BitVec.ofNat 16 d) s else s

/-- The counts of pass one (45_lz_codec R155): the sub-coder symbols the match will need. -/
def countMatch (c : MatchClass) (len d : Nat) (s : State) : Except Raise State := do
  let s1 ← if c.needLen then addSymbol .len (len - 2) s else pure s
  match c.kind with
  | .none => pure s1
  | .short => addSymbol .sd (d - 1) s1
  | .long => addSymbol .ld (d / 256) s1

/-- The length code of pass two, if the match needs one (45_lz_codec R158, R162). -/
def emitLength (c : MatchClass) (len : Nat) (s : State) : Except Raise (Nat × State) :=
  if c.needLen then encSym .len (len - 2) s else pure (0, s)

/-- The distance field of pass two (45_lz_codec R158, R162): nothing, a short code, or a long code and
8 raw bits. -/
def emitDistance (c : MatchClass) (d : Nat) (s : State) : Except Raise (Nat × State) :=
  match c.kind with
  | .none => pure (0, s)
  | .short => encSym .sd (d - 1) s
  | .long => do
    let (n, s1) ← encSym .ld (d / 256) s
    return (n + 8, writeBits (d % 256) 8 s1)

/-- A length read from the length sub-coder (45_lz_codec R160, R161). -/
def readLength (s : State) : Except Raise (Nat × State) := do
  let (r, s1) ← decSym .len s
  return (r.sym + 2, s1)

/-- `RES0 <- len; RES1 <- d`. -/
def matchResult (len d : Nat) (s : State) : State :=
  (s.setRes0 len).setRes1 d

/-- Band 1 of `LZ_DECODE` (45_lz_codec R160): the cached distance, not pushed again. -/
def decodeRecent (esc : Nat) (s : State) : Except Raise State := do
  let d := (s.cacheAt (BitVec.ofNat 2 esc)).toNat
  need (d ≠ 0) (.format .distZero)
  let (len, s1) ← readLength s
  return matchResult len d s1

/-- Band 2 of `LZ_DECODE` (45_lz_codec R151, R160): the smallest code gives distance 1, not 2. -/
def decodeLocalLeft (esc : Nat) (s : State) : Except Raise State := do
  let j := esc - Config.escLlBase
  let d := if j = 0 then 1 else j + 2
  let (len, s1) ← readLength s
  return matchResult len d (cachePush (BitVec.ofNat 16 d) s1)

/-- Band 3 of `LZ_DECODE` (45_lz_codec R160). -/
def decodeLocalUp (esc : Nat) (s : State) : Except Raise State := do
  let d := localUp s.xsize (esc - Config.escLuBase)
  need (d ≠ 0) (.format .distZero)
  let (len, s1) ← readLength s
  return matchResult len d (cachePush (BitVec.ofNat 16 d) s1)

/-- Band 4 of `LZ_DECODE` (45_lz_codec R160). -/
def decodeShort (esc : Nat) (s : State) : Except Raise State := do
  let (len, s1) ← if esc < Config.escSdTop then pure (esc - 12, s) else readLength s
  let (r, s2) ← decSym .sd s1
  let d := r.sym + 1
  return matchResult len d (cachePush (BitVec.ofNat 16 d) s2)

/-- Band 5 of `LZ_DECODE` (45_lz_codec R160): the zero test needs the whole distance. -/
def decodeLong (esc : Nat) (s : State) : Except Raise State := do
  let (len, s1) ← if esc < Config.escLdTop then pure (esc - 21, s) else readLength s
  let (hi, s2) ← decSym .ld s1
  let (lo, s3) ← readBits 8 s2
  let d := hi.sym * 256 + lo
  need (d ≠ 0) (.format .distZero)
  return matchResult len d (cachePush (BitVec.ofNat 16 d) s3)

end Sys2Proof.Machine
end

