-- ==== Sys2Proof/Machine/EntropyCommands.lean ====
section
/-! DEFINITION. The entropy encoder and decoder sequencer (44_entropy_coder). -/

namespace Sys2Proof.Machine

open Sys2Proof Host

/-- The command is legal in one phase only (44_entropy_coder R130). -/
def needEcPhase (p : EcPhase) (s : State) : Except Raise Unit :=
  need (s.ecPhase = p) (.contract .sequence)

/-- The entropy path as a new image finds it, the tables aside (44_entropy_coder R132, R139). -/
def entropyRestart (ctx : Bool) (s : State) : State :=
  { s with
    ctxEn := ctx, ctxAz := false, runCnt := 0, rl := [],
    encRem := 0, encLastz := false, zpend := 0, eos := false }

/-- `EC_INIT ctx` (44_entropy_coder R132). -/
def execEcInit (s : State) : Outcome State Fault Refusal :=
  runCommand 0x20 s do
    let ctx ← ctxOperand s
    let s1 := entropyRestart ctx (histClear .az (histClear .bz s))
    return { s1 with ecPhase := .collect }

/-- `PUSH byte` (44_entropy_coder R133). -/
def execPush (s : State) : Outcome State Fault Refusal :=
  runCommand 0x21 s do
    let byte ← byteOperand s
    needEcPhase .collect s
    let s1 ← trackByte byte s
    if byte = 0 then pure s1
    else do
      let s2 ← addSymbol (ctxTable s1) byte s1
      return ctxAfter byte s2

/-- `FINALIZE` (44_entropy_coder R134). -/
def execFinalize (s : State) : Outcome State Fault Refusal :=
  runCommand 0x22 s do
    needEcPhase .collect s
    let s1 ← flushOpenRun s
    let s2 ← addSymbol (ctxTable s1) Config.eosSym s1
    let (_, s3) ← buildTable .bz s2
    let s4 ← if s3.ctxEn then (do let (_, s') ← buildTable .az s3; pure s') else pure s3
    return { s4 with ctxAz := false, encRem := 0, encLastz := false, ecPhase := .finalized }

/-- `WRITE_OVERHEAD` (44_entropy_coder R135). -/
def execWriteOverhead (s : State) : Outcome State Fault Refusal :=
  runCommand 0x23 s do
    needEcPhase .finalized s
    let (n, s1) ← writeTable .bz s
    let (n', s2) ← if s1.ctxEn then writeTable .az s1 else pure (0, s1)
    return { s2.setRes0 (n + n') with ecPhase := .emit }

/-- `ENCODE` of a zero byte (44_entropy_coder R137): the first zero of a run writes the run's chain. -/
def encodeZero (s : State) : Except Raise (Nat × State) :=
  if s.encRem ≠ 0 then pure (0, { s with encRem := s.encRem - 1, encLastz := true })
  else do
    need (s.encLastz = false) (.contract .desync)
    match s.rl with
    | [] => .error (.contract .desync)
    | L :: rest => do
      let (n, s1) ← emitChain L.toNat { s with rl := rest }
      return (n, { s1 with encRem := L - 1, encLastz := true })

/-- `ENCODE` of a non-zero byte (44_entropy_coder R137). -/
def encodeLiteral (byte : Nat) (s : State) : Except Raise (Nat × State) := do
  need (s.encRem = 0) (.contract .desync)
  let (n, s1) ← encSym (ctxTable s) byte s
  return (n, { ctxAfter byte s1 with encLastz := false })

/-- `ENCODE byte` (44_entropy_coder R137). -/
def execEncode (s : State) : Outcome State Fault Refusal :=
  runCommand 0x24 s do
    let byte ← byteOperand s
    needEcPhase .emit s
    let (n, s1) ← if byte = 0 then encodeZero s else encodeLiteral byte s
    return s1.setRes0 n

/-- `ENCODE_FINALIZE` (44_entropy_coder R138). DEDUCED: `CTX_AZ` stays as it was, since neither the
pseudocode of R138 nor its "Flags written" names it, although R131 has the flag updated after each entropy
symbol written (log entry 18). -/
def execEncodeFinalize (s : State) : Outcome State Fault Refusal :=
  runCommand 0x25 s do
    needEcPhase .emit s
    need (s.encRem = 0 ∧ s.rl = []) (.contract .desync)
    let (n, s1) ← encSym (ctxTable s) Config.eosSym s
    return { s1.setRes0 n with ecPhase := .done }

/-- `DEC_INIT ctx` (44_entropy_coder R139). -/
def execDecInit (s : State) : Outcome State Fault Refusal :=
  runCommand 0x28 s do
    let ctx ← ctxOperand s
    let (_, s1) ← readTable .bz (entropyRestart ctx s)
    let s2 ← if ctx then (do let (_, s') ← readTable .az s1; pure s') else pure s1
    return { s2.setRes0 (if ctx then 3200 else 1920) with ecPhase := .decode }

/-- What `DECODE_NEXT` does with the symbol it has read (44_entropy_coder R140). DEDUCED: the end marker
leaves `CTX_AZ` as it was, since the pseudocode of R140 runs no `CtxAfter` on it, although R131 has the flag
updated after each entropy symbol read (log entry 18). -/
def decodedSymbol (sym : Nat) (s : State) : State :=
  if sym = Config.eosSym then
    ({ s with eos := true, ecPhase := .eos }.setRes0 0).setRes1 1
  else if sym ≤ 255 then ((ctxAfter sym s).setRes0 sym).setRes1 0
  else (expandRun sym s).setRes1 0

/-- `DECODE_NEXT` (44_entropy_coder R140). -/
def execDecodeNext (s : State) : Outcome State Fault Refusal :=
  runCommand 0x29 s do
    needEcPhase .decode s
    if s.zpend ≠ 0 then
      return ({ s with zpend := s.zpend - 1 }.setRes0 0).setRes1 0
    else do
      let (r, s1) ← decSym (ctxTable s) s
      return decodedSymbol r.sym s1

end Sys2Proof.Machine
end

