-- ==== Sys2Proof/Machine/LzCommands.lean ====
section
/-! DEFINITION. The commands of the LZ unit (45_lz_codec). -/

namespace Sys2Proof.Machine

open Sys2Proof Host

/-- The command is legal in one phase only (45_lz_codec R150). -/
def needLzPhase (p : LzPhase) (s : State) : Except Raise Unit :=
  need (s.lzPhase = p) (.contract .sequence)

/-- The image's sizes latched and the cache cleared (45_lz_codec R154, R159). -/
def lzRestart (xsize ysize : Half) (s : State) : State :=
  cacheClear { s with xsize := xsize, ysize := ysize }

/-- `LZ_INIT xsize, ysize` (45_lz_codec R154). -/
def execLzInit (s : State) : Outcome State Fault Refusal :=
  runCommand 0x30 s do
    let (xsize, ysize) ← sizeOperands s
    let s1 := histClear .ld (histClear .sd (histClear .len (lzRestart xsize ysize s)))
    return { s1 with lzPhase := .collect }

/-- `LZ_PUSH len, dist` (45_lz_codec R155). -/
def execLzPush (s : State) : Outcome State Fault Refusal :=
  runCommand 0x31 s do
    let (len, dist) ← matchOperands s
    needLzPhase .collect s
    let c := classify len dist s
    let s1 ← countMatch c len dist s
    return (pushIf c.push dist s1).setRes0 c.esc

/-- `LZ_FINALIZE` (45_lz_codec R156). -/
def execLzFinalize (s : State) : Outcome State Fault Refusal :=
  runCommand 0x32 s do
    needLzPhase .collect s
    let (_, s1) ← buildTable .len s
    let (_, s2) ← buildTable .sd s1
    let (_, s3) ← buildTable .ld s2
    return { cacheClear s3 with lzPhase := .finalized }

/-- `LZ_WRITE_OVERHEAD` (45_lz_codec R157). -/
def execLzWriteOverhead (s : State) : Outcome State Fault Refusal :=
  runCommand 0x33 s do
    needLzPhase .finalized s
    let (a, s1) ← writeTable .len s
    let (b, s2) ← writeTable .sd s1
    let (c, s3) ← writeTable .ld s2
    return { s3.setRes0 (a + b + c) with lzPhase := .emit }

/-- `LZ_ENCODE len, dist` (45_lz_codec R158). -/
def execLzEncode (s : State) : Outcome State Fault Refusal :=
  runCommand 0x34 s do
    let (len, dist) ← matchOperands s
    needLzPhase .emit s
    let c := classify len dist s
    let (a, s1) ← emitLength c len s
    let (b, s2) ← emitDistance c dist s1
    return ((pushIf c.push dist s2).setRes0 c.esc).setRes1 (a + b)

/-- `LZ_DEC_INIT xsize, ysize` (45_lz_codec R159). -/
def execLzDecInit (s : State) : Outcome State Fault Refusal :=
  runCommand 0x38 s do
    let (xsize, ysize) ← sizeOperands s
    let (_, s1) ← readTable .len (lzRestart xsize ysize s)
    let (_, s2) ← readTable .sd s1
    let (_, s3) ← readTable .ld s2
    return { s3.setRes0 3840 with lzPhase := .decode }

/-- `LZ_DECODE esc` (45_lz_codec R160). -/
def execLzDecode (s : State) : Outcome State Fault Refusal :=
  runCommand 0x39 s do
    let esc ← escOperand s
    needLzPhase .decode s
    need (esc < Config.escSyms) (.format .escRange)
    if esc < Config.escLlBase then decodeRecent esc s
    else if esc < Config.escLuBase then decodeLocalLeft esc s
    else if esc < Config.escSdBase then decodeLocalUp esc s
    else if esc < Config.escLdBase then decodeShort esc s
    else decodeLong esc s

end Sys2Proof.Machine
end

