-- ==== Sys2Proof/Machine/SystemCommands.lean ====
section
/-! DEFINITION. The system commands (46_system_commands). -/

namespace Sys2Proof.Machine

open Sys2Proof Host

/-- `NOP` (46_system_commands R180): nothing changes. -/
def execNop (s : State) : Outcome State Fault Refusal :=
  runCommand 0x00 s (pure s)

/-- `SOFT_RESET` (46_system_commands R181): the one command that runs in the fault state too. -/
def execSoftReset (s : State) : Outcome State Fault Refusal :=
  .next (resetBlock s)

end Sys2Proof.Machine
end

