-- ==== Sys2Proof/Machine/TableCommands.lean ====
section
/-! DEFINITION. The table commands: canonical_code_builder (40, 41), huffman_encoder and
huffman_decoder (42). Each is legal in every phase (30_encoding R67). -/

namespace Sys2Proof.Machine

open Sys2Proof Host

/-- `HIST_CLEAR t` (40_canonical_code_builder R80). -/
def execHistClear (t : BitVec 3) (s : State) : Outcome State Fault Refusal :=
  runCommand 0x10 s do
    let tab ← tableOperand t
    return histClear tab s

/-- `ADD_SYMBOL t, sym` (40_canonical_code_builder R82). -/
def execAddSymbol (t : BitVec 3) (s : State) : Outcome State Fault Refusal :=
  runCommand 0x11 s do
    let tab ← tableOperand t
    let sym ← symOperand tab s
    addSymbol tab sym s

/-- `BUILD_TABLE t` (40_canonical_code_builder R89). -/
def execBuildTable (t : BitVec 3) (s : State) : Outcome State Fault Refusal :=
  runCommand 0x12 s do
    let tab ← tableOperand t
    let (r, s1) ← buildTable tab s
    return (s1.setRes0 r.used).setRes1 r.rounds

/-- `WRITE_TABLE t` (41_table_serdes R102). -/
def execWriteTable (t : BitVec 3) (s : State) : Outcome State Fault Refusal :=
  runCommand 0x13 s do
    let tab ← tableOperand t
    let (n, s1) ← writeTable tab s
    return s1.setRes0 n

/-- `READ_TABLE t` (41_table_serdes R104). -/
def execReadTable (t : BitVec 3) (s : State) : Outcome State Fault Refusal :=
  runCommand 0x14 s do
    let tab ← tableOperand t
    let (n, s1) ← readTable tab s
    return s1.setRes0 n

/-- `ENC_SYM t, sym` (42_huffman_codec R111). -/
def execEncSym (t : BitVec 3) (s : State) : Outcome State Fault Refusal :=
  runCommand 0x15 s do
    let tab ← tableOperand t
    let sym ← symOperand tab s
    let (n, s1) ← encSym tab sym s
    return s1.setRes0 n

/-- `DEC_SYM t` (42_huffman_codec R113). -/
def execDecSym (t : BitVec 3) (s : State) : Outcome State Fault Refusal :=
  runCommand 0x16 s do
    let tab ← tableOperand t
    let (r, s1) ← decSym tab s
    return (s1.setRes0 r.sym).setRes1 r.bits

/-- `GET_COUNT t, sym` (40_canonical_code_builder R90). -/
def execGetCount (t : BitVec 3) (s : State) : Outcome State Fault Refusal :=
  runCommand 0x17 s do
    let tab ← tableOperand t
    let sym ← symOperand tab s
    return s.setRes0 ((s.tab tab).count sym).toNat

/-- `GET_LEN t, sym` (40_canonical_code_builder R91). -/
def execGetLen (t : BitVec 3) (s : State) : Outcome State Fault Refusal :=
  runCommand 0x18 s do
    let tab ← tableOperand t
    let sym ← symOperand tab s
    return (s.setRes0 ((s.tab tab).lenAt sym).toNat).setRes1 ((s.tab tab).codeAt sym).toNat

/-- `GET_MAX t` (40_canonical_code_builder R92). -/
def execGetMax (t : BitVec 3) (s : State) : Outcome State Fault Refusal :=
  runCommand 0x19 s do
    let tab ← tableOperand t
    return (s.setRes0 (s.tab tab).hmax.toNat).setRes1 (s.tab tab).tstate.bit.toNat

end Sys2Proof.Machine
end

