-- ==== Sys2Proof/Machine/Dispatch.lean ====
section
/-! DEFINITION. Which meaning each command has (30_encoding R63). -/

namespace Sys2Proof.Machine

open Sys2Proof

/-- The meaning of a decoded command in the state in which `CMD` is written. -/
def exec (i : Instr) (s : State) : Host.Outcome State Fault Refusal :=
  match i with
  | .nop => Sys2Proof.Machine.execNop s
  | .softReset => Sys2Proof.Machine.execSoftReset s
  | .histClear t => Sys2Proof.Machine.execHistClear t s
  | .addSymbol t => Sys2Proof.Machine.execAddSymbol t s
  | .buildTable t => Sys2Proof.Machine.execBuildTable t s
  | .writeTable t => Sys2Proof.Machine.execWriteTable t s
  | .readTable t => Sys2Proof.Machine.execReadTable t s
  | .encSym t => Sys2Proof.Machine.execEncSym t s
  | .decSym t => Sys2Proof.Machine.execDecSym t s
  | .getCount t => Sys2Proof.Machine.execGetCount t s
  | .getLen t => Sys2Proof.Machine.execGetLen t s
  | .getMax t => Sys2Proof.Machine.execGetMax t s
  | .ecInit => Sys2Proof.Machine.execEcInit s
  | .push => Sys2Proof.Machine.execPush s
  | .finalize => Sys2Proof.Machine.execFinalize s
  | .writeOverhead => Sys2Proof.Machine.execWriteOverhead s
  | .encode => Sys2Proof.Machine.execEncode s
  | .encodeFinalize => Sys2Proof.Machine.execEncodeFinalize s
  | .decInit => Sys2Proof.Machine.execDecInit s
  | .decodeNext => Sys2Proof.Machine.execDecodeNext s
  | .lzInit => Sys2Proof.Machine.execLzInit s
  | .lzPush => Sys2Proof.Machine.execLzPush s
  | .lzFinalize => Sys2Proof.Machine.execLzFinalize s
  | .lzWriteOverhead => Sys2Proof.Machine.execLzWriteOverhead s
  | .lzEncode => Sys2Proof.Machine.execLzEncode s
  | .lzDecInit => Sys2Proof.Machine.execLzDecInit s
  | .lzDecode => Sys2Proof.Machine.execLzDecode s

end Sys2Proof.Machine
end

