-- ==== Sys2Proof/Machine/HostPort.lean ====
section
/-! DEFINITION. The host's side of one step: a write of `CMD` (30_encoding R68), the other register
accesses (10_state R12, R36), the channels (20_memory R47) and the reset input (70_reset R210). -/

namespace Sys2Proof.Machine

open Sys2Proof Host

/-- A write of `CMD` (10_state R15, 30_encoding R64, R68): the word is decoded and executed. An illegal
word raises `CV_ILLEGAL_CMD` with its own low byte as the opcode (60_exceptions R189), and in the fault
state it is ignored like every word but `SOFT_RESET` (60_exceptions R190). -/
def issueCommand (w : Word) (s : State) : Outcome State Fault Refusal :=
  match decode w with
  | .ok i => exec i s
  | .error _ => runCommand (opcodeField w) s (.error (.contract .illegalCmd))

/-- A host write of the register at a byte offset (10_state R12, R36): `CMD` executes, `ARG0` and `ARG1`
are stored, every other aligned offset ignores the write; an unaligned one is not defined (20_memory R48,
U6; log entry 7). -/
def writeRegister (offset : Nat) (v : Word) (s : State) : Outcome State Fault Refusal :=
  if offset % 4 ≠ 0 then .refused (.unalignedAccess offset)
  else
    match offset with
    | 0x04 => issueCommand v s
    | 0x08 => .next { s with arg0 := v }
    | 0x0C => .next { s with arg1 := v }
    | _ => .next s

/-- A host read (10_state R36): the value goes to the read port and nothing in the block changes. -/
def readPort (offset : Nat) (s : State) : Outcome State Fault Refusal :=
  if offset % 4 ≠ 0 then .refused (.unalignedAccess offset)
  else .next { s with rdata := readRegister s offset }

/-- One host action (20_memory R47, 30_encoding R70, 70_reset R210). -/
def hostAct (a : HostAction) (s : State) : Outcome State Fault Refusal :=
  match a with
  | .write offset v => writeRegister offset v s
  | .read offset => readPort offset s
  | .appendIn bits => .next { s with chanIn := s.chanIn ++ bits }
  | .takeIn n => .next { s with chanIn := s.chanIn.drop n }
  | .appendOut bits => .next { s with chanOut := s.chanOut ++ bits }
  | .drainOut n => .next { s with chanOut := s.chanOut.drop n }
  | .loopback => .next { s with chanIn := s.chanIn ++ s.chanOut, chanOut := [] }
  | .hardReset => .next (resetBlock s)

/-- The host action that issues a command word (10_state R12: `CMD` is at offset 0x04). -/
def commandWrite (w : Word) : HostAction := .write 0x04 w

end Sys2Proof.Machine
end

