-- ==== Sys2Proof/Machine/Step.lean ====
section
/-! DEFINITION. One step: the host's next action (10_state R10). -/

namespace Sys2Proof.Machine

open Sys2Proof Host

/-- One step of the machine (10_state R10): the host's next action is carried out whole. With none
pending the block does nothing on its own. -/
def step (s : State) : Outcome State Fault Refusal :=
  match s.pending with
  | [] => .next s
  | a :: rest => hostAct a { s with pending := rest }

/-- `s` with the write of the command word `w` (its `nbits` low bits) to `CMD` as the host's next action,
so that the very next step issues it (log entry 5). -/
def State.withFetchWord (s : State) (nbits w : Nat) : State :=
  { s with pending := commandWrite (BitVec.ofNat 32 (w % 2 ^ nbits)) :: s.pending }

end Sys2Proof.Machine
end

