-- ==== Sys2Proof/Safety.lean ====
section
/-! DEFINITION. The terms that claims use: what a fault records, the effect of counting, well-formed
tables and streams, and the invariants of a state outside the fault state. -/

namespace Sys2Proof.Machine

open Sys2Proof Host

/-! ### Faults -/

/-- `ERRINFO` as a number: OPCODE in 23:16, CLASS in 9:8, CODE in 7:0 (10_state R17). -/
def errinfoOf (op cls code : Nat) : Word :=
  BitVec.ofNat 32 (op * 65536 + cls * 256 + code)

/-- The state after a fault that changes nothing else (60_exceptions R196). -/
def exactFault (op cls code : Nat) (s : State) : State :=
  { s with err := true, errinfo := errinfoOf op cls code }

/-- The command issued in `s` took the fault: what is defined after it (60_exceptions R188, R189, R196).
OUT has only been appended to, IN only removed from, and what is the host's is as it was. -/
def FaultTaken (op cls code : Nat) (s s' : State) : Prop :=
  s'.err = true ∧ s'.errinfo = errinfoOf op cls code
    ∧ s'.pending = s.pending ∧ s'.rdata = s.rdata
    ∧ s.chanOut <+: s'.chanOut ∧ s'.chanIn <:+ s.chanIn

/-! ### Tables -/

/-- The table `m'` is `m` with one more occurrence counted for each entry of `syms`, saturating, and the
running maximum moved (40_canonical_code_builder R81); the code table is as it was. -/
def CountsAdded {n : Nat} (syms : List Nat) (m m' : TableMem n) : Prop :=
  (∀ y < n, (m'.count y).toNat = min ((m.count y).toNat + syms.count y) 4294967295)
    ∧ m.hmax.toNat ≤ m'.hmax.toNat
    ∧ (∀ y ∈ syms, (m'.count y).toNat ≤ m'.hmax.toNat)
    ∧ (m'.hmax = m.hmax ∨ ∃ y ∈ syms, m'.count y = m'.hmax)
    ∧ m'.len = m.len ∧ m'.code = m.code ∧ m'.tstate = m.tstate

/-- The code of a symbol as the bits a channel carries, first bit first (10_state R21, 20_memory R44). -/
def TableMem.codeBits {n : Nat} (m : TableMem n) (sym : Nat) : List Bool :=
  bitsMsb (m.lenAt sym).toNat (m.codeAt sym).toNat

/-- The serialized form of a length table: 5 bits for each symbol, ascending (41_table_serdes R100). -/
def lengthBits (ls : List (BitVec 5)) : List Bool :=
  ls.flatMap fun l => bitsMsb 5 l.toNat

/-- The length tables that `ReadTable` accepts (41_table_serdes R105). -/
def GoodLengths (ls : List (BitVec 5)) : Prop :=
  (∀ l ∈ ls, l.toNat ≤ 16)
    ∧ (kraftSum ls = 65536 ∨ usedLengths ls = 0 ∨ (usedLengths ls = 1 ∧ (1 : BitVec 5) ∈ ls))

/-- The streams from which no table of `n` symbols can be read, each with its FormatError code (41_table_serdes
R103): lengths that fail the Kraft test (3 over-, 4 under-subscribed), a field above 16 after good ones (2),
an end before the last field, after good ones (1). -/
def UnreadableTable (n : Nat) (bits : List Bool) (code : Nat) : Prop :=
  ∃ ls : List (BitVec 5), (∀ l ∈ ls, l.toNat ≤ 16)
    ∧ ((ls.length = n ∧ ¬ GoodLengths ls ∧ lengthBits ls <+: bits
          ∧ code = if 65536 < kraftSum ls then 3 else 4)
      ∨ (ls.length < n ∧ (∃ l : BitVec 5, 16 < l.toNat ∧ lengthBits (ls ++ [l]) <+: bits) ∧ code = 2)
      ∨ (ls.length < n ∧ (∃ tail : List Bool, tail.length < 5 ∧ bits = lengthBits ls ++ tail) ∧ code = 1))

/-- No code of the table is a prefix of the stream (42_huffman_codec R112). -/
def TableMem.NoCodeIn {n : Nat} (m : TableMem n) (bits : List Bool) : Prop :=
  ∀ sym, m.lenAt sym ≠ 0 → ¬ (m.codeBits sym <+: bits)

/-- The FormatError code of a symbol that cannot be read (42_huffman_codec R112): `FE_BAD_CODE` where 16 bits
can be read, `FE_UNDERFLOW` where not. -/
def unreadableCode (bits : List Bool) : Nat :=
  if 16 ≤ bits.length then 5 else 1

/-- What a valid table satisfies (10_state R33). -/
structure TableMem.Canonical {n : Nat} (m : TableMem n) : Prop where
  good : GoodLengths m.len.toList
  codes : m.code = assignCodes m.len
  /-- no code is a bit-prefix of another -/
  prefixFree : ∀ a b, a ≠ b → m.lenAt a ≠ 0 → m.lenAt b ≠ 0 → ¬ (m.codeBits a <+: m.codeBits b)

/-- `HMAX` is the largest count, 0 when all counts are 0 (10_state R20). -/
def TableMem.MaxOk {n : Nat} (m : TableMem n) : Prop :=
  (∀ y, (m.count y).toNat ≤ m.hmax.toNat) ∧ (m.hmax = 0 ∨ ∃ y < n, m.count y = m.hmax)

/-- At `COLLECT` there is no code (40_canonical_code_builder R91). -/
def TableMem.NoCodeYet {n : Nat} (m : TableMem n) : Prop :=
  m.tstate = .collect → ∀ y, m.lenAt y = 0 ∧ m.codeAt y = 0

/-! ### The Huffman construction, said without the builder's own functions -/

/-- The key of a node, compared lexicographically (40_canonical_code_builder R84). -/
def Node.key (z : Node) : List Nat := [z.weight, z.kind, z.idx]

/-- The set of nodes `F`, from the `i`-th merge on, ends in a tree that gives the depths `d`: each time the
two nodes of smallest key are merged, `x` before `y`, into a node of their summed weight, kind 1 and index
`i`, whose leaves are all one deeper (40_canonical_code_builder R84). -/
inductive HuffmanMerges : Nat → List Node → List (Nat × Nat) → Prop
  | root (i : Nat) (z : Node) : HuffmanMerges i [z] z.leaves
  | merge (i : Nat) (x y z : Node) (F rest : List Node) (d : List (Nat × Nat))
      (nodes : F.Perm (x :: y :: rest))
      (least : x.key < y.key ∧ ∀ v ∈ rest, x.key < v.key)
      (next : ∀ v ∈ rest, y.key < v.key)
      (key : z.key = [x.weight + y.weight, 1, i])
      (leaves : z.leaves = (x.leaves ++ y.leaves).map fun sd => (sd.1, sd.2 + 1))
      (after : HuffmanMerges (i + 1) (z :: rest) d) : HuffmanMerges i F d

/-- A count's weight after `k` rescalings, each halving it and rounding up (40_canonical_code_builder R85). -/
def weightAfter (c : Nat) : Nat → Nat
  | 0 => c
  | k + 1 => (weightAfter c k + 1) / 2

/-- `d` are the depths that the construction gives the used symbols of a histogram after `k` rescalings
(40_canonical_code_builder R84, R85): it starts from one leaf for each symbol with a count. -/
def DepthsAfter {n : Nat} (hist : Vector (BitVec 32) n) (k : Nat) (d : List (Nat × Nat)) : Prop :=
  ∃ F : List Node, F.Nodup
    ∧ (∀ z, z ∈ F ↔ ∃ (y : Nat) (h : y < n), hist[y] ≠ 0
        ∧ z = { weight := weightAfter hist[y].toNat k, kind := 0, idx := y, leaves := [(y, 0)] })
    ∧ HuffmanMerges 0 F d

/-! ### The choice of band -/

/-- `c` is the class of a match (45_lz_codec R153), test by test: the lowest cache slot that holds the
distance; distance 1; distances 3 to 6; the lowest local-up offset that gives it; a short distance; a long
one. -/
def IsClassOf (len d : Nat) (s : State) (c : MatchClass) : Prop :=
  let cached := fun i : Nat => (s.cacheAt (BitVec.ofNat 2 i)).toNat = d
  let above := fun j : Nat => (s.xsize.toNat + j + 65534) % 65536 = d
  (∃ i < 4, cached i ∧ (∀ m < i, ¬ cached m) ∧ c = ⟨i, true, .none, false⟩)
    ∨ ((∀ i < 4, ¬ cached i)
      ∧ ((d = 1 ∧ c = ⟨4, true, .none, true⟩)
        ∨ (3 ≤ d ∧ d ≤ 6 ∧ c = ⟨4 + (d - 2), true, .none, true⟩)
        ∨ (d ≠ 1 ∧ ¬ (3 ≤ d ∧ d ≤ 6)
          ∧ ((∃ j < 5, above j ∧ (∀ m < j, ¬ above m) ∧ c = ⟨9 + j, true, .none, true⟩)
            ∨ ((∀ j < 5, ¬ above j)
              ∧ c = if d ≤ 256 then
                  if len ≤ 9 then ⟨14 + (len - 2), false, .short, true⟩ else ⟨22, true, .short, true⟩
                else if len ≤ 9 then ⟨23 + (len - 2), false, .long, true⟩
                else ⟨31, true, .long, true⟩)))))

/-! ### Invariants. Each is about a state outside the fault state: in it R196 leaves all of this open. -/

/-- Every histogram's maximum is its largest count, and a table that is collecting has no code
(10_state R20, 40_canonical_code_builder R91). -/
def HistogramInv (s : State) : Prop :=
  s.err = false → ∀ t, (s.tab t).MaxOk ∧ (s.tab t).NoCodeYet

/-- Every valid table holds a canonical code (10_state R33). -/
def CanonicalInv (s : State) : Prop :=
  s.err = false → ∀ t, (s.tab t).tstate = .valid → (s.tab t).Canonical

/-- The entropy path outside the fault state. -/
structure EntropyPathOk (s : State) : Prop where
  /-- "always 0 when `CTX_EN = 0`" (10_state R23) -/
  context : s.ctxEn = false → s.ctxAz = false
  /-- "at most `RUNLIST_CAP` entries" (10_state R26) -/
  runsFit : s.rl.length ≤ Config.runlistCap
  /-- "each a run length >= 1" (10_state R26) -/
  runsPositive : ∀ L ∈ s.rl, L ≠ 0
  /-- an open run exists in pass one only -/
  openRun : s.runCnt ≠ 0 → s.ecPhase = .collect
  /-- runs are recorded in pass one and replayed in pass two -/
  runsLive : s.rl ≠ [] → s.ecPhase = .collect ∨ s.ecPhase = .finalized ∨ s.ecPhase = .emit
  /-- zeros are still to be replayed in pass two only (10_state R27) -/
  replaying : s.encRem ≠ 0 → s.ecPhase = .emit
  /-- zeros are owed while decoding only (10_state R28) -/
  owing : s.zpend ≠ 0 → s.ecPhase = .decode
  /-- `EOS` is set with the phase that the end marker enters (10_state R24, R29) -/
  ended : s.eos = true ↔ s.ecPhase = .eos

/-- The entropy path is consistent with its phase (10_state R23 to R29). -/
def EntropyPathInv (s : State) : Prop :=
  s.err = false → EntropyPathOk s

/-! ### What a flush counts, and what reset leaves -/

/-- The run symbols counted when an open run ends (43_zero_run R122, R123). -/
def flushedSymbols (s : State) : List Nat :=
  if s.runCnt = 0 then [] else chain s.runCnt.toNat

/-- The context after an open run has ended: after-zero exactly if the last run symbol is terminal, which
it is unless the run is a multiple of 128 (43_zero_run R121, 44_entropy_coder R131). -/
def flushedContext (s : State) : Bool :=
  if s.runCnt = 0 then s.ctxAz else s.ctxEn && decide (s.runCnt.toNat % 128 ≠ 0)

/-- The run-list after an open run has ended (43_zero_run R123). -/
def flushedRuns (s : State) : List (BitVec 32) :=
  if s.runCnt = 0 then s.rl else s.rl ++ [s.runCnt]

/-- Every piece of the block's state has the value of 10_state R34. -/
structure AtResetValues (s : State) : Prop where
  arg0 : s.arg0 = 0
  arg1 : s.arg1 = 0
  res0 : s.res0 = 0
  res1 : s.res1 = 0
  status : statusWord s = 0
  err : s.err = false
  errinfo : s.errinfo = 0
  bitsOut : s.bitsOut = 0
  bitsIn : s.bitsIn = 0
  xsize : s.xsize = 0
  ysize : s.ysize = 0
  hist : ∀ t y, (s.tab t).count y = 0
  hmax : ∀ t, (s.tab t).hmax = 0
  len : ∀ t y, (s.tab t).lenAt y = 0
  code : ∀ t y, (s.tab t).codeAt y = 0
  tstate : ∀ t, (s.tab t).tstate = .collect
  ctxEn : s.ctxEn = false
  ctxAz : s.ctxAz = false
  ecPhase : s.ecPhase = .collect
  runCnt : s.runCnt = 0
  rl : s.rl = []
  encRem : s.encRem = 0
  encLastz : s.encLastz = false
  zpend : s.zpend = 0
  eos : s.eos = false
  cache : ∀ i, s.cacheAt i = 0
  cur : s.cur = 0
  lzPhase : s.lzPhase = .off

end Sys2Proof.Machine
end

