-- ==== Sys2Proof/Certificates/Slice0/Obligations.lean ====
section
/-! DEFINITION. The statements for the provers. Each docstring names the rules it comes from. -/

open Sys2Proof Sys2Proof.Machine Host

/-! ### Encoding -/

/-- A word decodes to a command exactly when the command is well formed and the word is its encoding
(30_encoding R60, R63, R64). -/
def Obligations.DecodeAndEncodeAgree : Prop :=
  ∀ (w : Word) (i : Instr), decode w = .ok i ↔ i.wf = true ∧ encode i = w

/-- The opcode map (30_encoding R63): a word spells the command of a row exactly by the row's mask, match
and `tsel` condition, and a word that no row spells is illegal. -/
def Obligations.OpcodeMapSpellsTheCommands : Prop :=
  ∀ w : Word,
    (∀ r ∈ opcodeMap, r.spelledBy w → ∃ i, decode w = .ok i ∧ i.opcode = opcodeField r.matchWord)
      ∧ ((∀ r ∈ opcodeMap, ¬ r.spelledBy w) → ∃ e, decode w = .error e)

/-- Words written out from 30_encoding R63 and from the listings of 95_test_vectors. -/
def Obligations.SampleWordsDecode : Prop :=
  decode 0x00000000#32 = .ok .nop ∧ decode 0x00000001#32 = .ok .softReset
    ∧ decode 0x00000311#32 = .ok (.addSymbol 3) ∧ decode 0x00000112#32 = .ok (.buildTable 1)
    ∧ decode 0x00000415#32 = .ok (.encSym 4) ∧ decode 0x00000024#32 = .ok .encode
    ∧ decode 0x00000039#32 = .ok .lzDecode ∧ decode 0x00000510#32 = .error .tselRange
    ∧ decode 0x00000120#32 = .error .tselNotZero ∧ decode 0x80000000#32 = .error .reservedBits
    ∧ decode 0x0000001A#32 = .error .unknownOpcode

/-- Which words are illegal, and what issuing one does outside the fault state (30_encoding R64): the
fault `CV_ILLEGAL_CMD`, no other state changed. -/
def Obligations.IllegalWordRaisesAndChangesNothingElse : Prop :=
  ∀ (w : Word) (s : State), s.err = false →
    let op := w.toNat % 256
    let tsel := w.toNat / 256 % 8
    let tabled := [0x10, 0x11, 0x12, 0x13, 0x14, 0x15, 0x16, 0x17, 0x18, 0x19]
    let plain := [0x00, 0x01, 0x20, 0x21, 0x22, 0x23, 0x24, 0x25, 0x28, 0x29,
      0x30, 0x31, 0x32, 0x33, 0x34, 0x38, 0x39]
    ((∃ e, decode w = .error e) ↔
        (w.toNat / 2048 ≠ 0 ∨ (op ∉ tabled ∧ op ∉ plain) ∨ (op ∈ plain ∧ tsel ≠ 0)
          ∨ (op ∈ tabled ∧ 4 < tsel)))
      ∧ ((∃ e, decode w = .error e) → issueCommand w s = .next (exactFault op 2 1 s))

/-! ### Steps and the register file -/

/-- A step whose host action writes a word to `CMD` that decodes to a command runs that command, with the
action taken off the list (10_state R10, R15). -/
def Obligations.StepRunsTheIssuedCommand : Prop :=
  ∀ (s : State) (w : Word) (rest : List HostAction) (i : Instr),
    s.pending = .write 0x04 w :: rest → decode w = .ok i →
      i.wf = true ∧ step s = exec i { s with pending := rest }

/-- Register accesses at aligned offsets (10_state R11, R12, R36): a read changes nothing in the block, an
offset outside the map reads 0, and no write but that of `CMD`, `ARG0` or `ARG1` changes anything. The host's
list of actions and the read port `rdata` are the model's choice (log entries 5, 6). -/
def Obligations.RegisterAccessesHaveNoSideEffect : Prop :=
  ∀ (s : State) (offset : Nat) (v : Word) (rest : List HostAction), offset % 4 = 0 →
    (0x50 < offset → readRegister s offset = 0)
      ∧ step { s with pending := .read offset :: rest }
          = .next { s with pending := rest, rdata := readRegister s offset }
      ∧ (offset ≠ 0x04 → step { s with pending := .write offset v :: rest }
          = .next { s with
              pending := rest
              arg0 := if offset = 0x08 then v else s.arg0
              arg1 := if offset = 0x0C then v else s.arg1 })

/-- The register map (10_state R12): each register reads its own contents, zero-extended, `CMD` reads 0 and
`ID` its constant (10_state R14); `RL_COUNT` reads the number of runs where a word can hold it (above that
the spec states no value: log entry 17). `STATUS` (10_state R16) shows each field where the table puts it;
that `BUSY` and the reserved bits read 0 in the fault state too is the model's choice (log entry 9). -/
def Obligations.StatusShowsItsFields : Prop :=
  ∀ s : State,
    let w := readRegister s 0x18
    readRegister s 0x00 = 0x47434946#32 ∧ readRegister s 0x04 = 0
      ∧ readRegister s 0x08 = s.arg0 ∧ readRegister s 0x0C = s.arg1
      ∧ readRegister s 0x10 = s.res0 ∧ readRegister s 0x14 = s.res1
      ∧ readRegister s 0x1C = s.errinfo
      ∧ readRegister s 0x20 = s.bitsOut ∧ readRegister s 0x24 = s.bitsIn
      ∧ (readRegister s 0x28).toNat = s.xsize.toNat ∧ (readRegister s 0x2C).toNat = s.ysize.toNat
      ∧ (s.rl.length < 2 ^ 32 → (readRegister s 0x30).toNat = s.rl.length)
      ∧ readRegister s 0x34 = s.runCnt ∧ readRegister s 0x38 = s.encRem
      ∧ (readRegister s 0x3C).toNat = s.zpend.toNat
      ∧ (readRegister s 0x40).toNat = (s.cacheAt 0).toNat ∧ (readRegister s 0x44).toNat = (s.cacheAt 1).toNat
      ∧ (readRegister s 0x48).toNat = (s.cacheAt 2).toNat ∧ (readRegister s 0x4C).toNat = (s.cacheAt 3).toNat
      ∧ (readRegister s 0x50).toNat = s.cur.toNat
      ∧ w.getLsbD 0 = false ∧ w.getLsbD 1 = s.err ∧ w.getLsbD 2 = s.eos ∧ w.getLsbD 3 = s.ctxEn
      ∧ w.getLsbD 4 = s.ctxAz
      ∧ (s.ecPhase, (w.extractLsb' 5 3).toNat) ∈
          [(EcPhase.collect, 0), (.finalized, 1), (.emit, 2), (.done, 3), (.decode, 4), (.eos, 5)]
      ∧ (s.lzPhase, (w.extractLsb' 8 3).toNat) ∈
          [(LzPhase.off, 0), (.collect, 1), (.finalized, 2), (.emit, 3), (.decode, 4)]
      ∧ (∀ t : Tab, (w.getLsbD (11 + t.index) = true ↔ (s.tab t).tstate = .valid))
      ∧ w.getLsbD 16 = s.encLastz ∧ w.extractLsb' 17 15 = 0

/-! ### The fault state -/

/-- In the fault state a write of `CMD` with any word other than exactly 0x00000001 changes no state, and
writes of `ARG0` and `ARG1` and register reads work as always (60_exceptions R190). That a read's value goes
to the field `rdata` is the model's choice (log entry 6). -/
def Obligations.FaultStateIgnoresEveryOtherWord : Prop :=
  ∀ (s : State) (w : Word), s.err = true →
    (w ≠ 1 → hostAct (.write 0x04 w) s = .next s)
      ∧ hostAct (.write 0x08 w) s = .next { s with arg0 := w }
      ∧ hostAct (.write 0x0C w) s = .next { s with arg1 := w }
      ∧ (∀ offset, offset % 4 = 0 →
          hostAct (.read offset) s = .next { s with rdata := readRegister s offset })

/-- The fault state is left only by reset, after which the block is in the reset state and the channels
are as the fault left them (60_exceptions R191, 10_state R34). The list of host actions, and that the rest of
it stays, are the model's choice (log entry 5). -/
def Obligations.OnlyResetLeavesTheFaultState : Prop :=
  ∀ s s' : State, s.err = true → step s = .next s' → s'.err = false →
    ∃ rest, (s.pending = .hardReset :: rest ∨ s.pending = .write 0x04 1#32 :: rest)
      ∧ AtResetValues s' ∧ s'.chanOut = s.chanOut ∧ s'.chanIn = s.chanIn ∧ s'.pending = rest

/-- A command that faults records class, code and its opcode (60_exceptions R188, R189), and after
`CV_ILLEGAL_CMD`, `CV_OPERAND` and `CV_SEQUENCE` nothing else has changed (60_exceptions R196). -/
def Obligations.FaultsAreRecordedAndExactOnesChangeNothingElse : Prop :=
  ∀ (i : Instr) (s s' : State), s.err = false → exec i s = .next s' → s'.err = true →
    ∃ cls code, (cls = 1 ∨ cls = 2) ∧ 1 ≤ code ∧ code ≤ 7
      ∧ FaultTaken i.opcode.toNat cls code s s'
      ∧ (cls = 2 → code ≤ 3 → s' = exactFault i.opcode.toNat cls code s)

/-- After reset every piece of state has the value of 10_state R34: at `State.reset`, and after
`SOFT_RESET` and the hardware reset from any state, the fault state included, which leave the channels
(46_system_commands R181, 70_reset R210, R212). That `rdata`, `pending` and `freeCtr` survive a reset, and
that the reset input lands between commands, are the model's choice (log entries 4, 5, 6, 14). -/
def Obligations.ResetsGiveTheStatedValues : Prop :=
  AtResetValues State.reset
    ∧ ∀ s : State, ∃ s', exec .softReset s = .next s' ∧ hostAct .hardReset s = .next s'
        ∧ AtResetValues s' ∧ s'.chanOut = s.chanOut ∧ s'.chanIn = s.chanIn
        ∧ s'.pending = s.pending ∧ s'.rdata = s.rdata ∧ s'.freeCtr = s.freeCtr

/-- An operand outside its range raises `CV_OPERAND` and does nothing else (30_encoding R61, R62), in
every phase and table state, for each of the thirteen commands with operands. -/
def Obligations.OperandsOutOfRangeAreRefused : Prop :=
  ∀ s : State, s.err = false →
    (∀ t tab, Tab.ofSel t = some tab → nsym tab ≤ s.arg0.toNat →
        exec (.addSymbol t) s = .next (exactFault 0x11 2 2 s)
          ∧ exec (.encSym t) s = .next (exactFault 0x15 2 2 s)
          ∧ exec (.getCount t) s = .next (exactFault 0x17 2 2 s)
          ∧ exec (.getLen t) s = .next (exactFault 0x18 2 2 s))
      ∧ (2 ≤ s.arg0.toNat →
        exec .ecInit s = .next (exactFault 0x20 2 2 s) ∧ exec .decInit s = .next (exactFault 0x28 2 2 s))
      ∧ (256 ≤ s.arg0.toNat →
        exec .push s = .next (exactFault 0x21 2 2 s) ∧ exec .encode s = .next (exactFault 0x24 2 2 s)
          ∧ exec .lzDecode s = .next (exactFault 0x39 2 2 s))
      ∧ (65536 ≤ s.arg0.toNat ∨ 65536 ≤ s.arg1.toNat →
        exec .lzInit s = .next (exactFault 0x30 2 2 s)
          ∧ exec .lzDecInit s = .next (exactFault 0x38 2 2 s))
      ∧ (s.arg0.toNat < 2 ∨ 257 < s.arg0.toNat ∨ s.arg1.toNat = 0 ∨ 65535 < s.arg1.toNat →
        exec .lzPush s = .next (exactFault 0x31 2 2 s)
          ∧ exec .lzEncode s = .next (exactFault 0x34 2 2 s))

/-- The transitions of `EC_PHASE` (44_entropy_coder R130): a command issued in a phase not listed for it
raises `CV_SEQUENCE`, `EC_INIT` and `DEC_INIT` never do, and a command that completes leaves the phase
listed. -/
def Obligations.EntropyCommandsFollowTheirSequence : Prop :=
  (∀ ip ∈ [(Instr.push, EcPhase.collect), (.finalize, .collect), (.writeOverhead, .finalized),
        (.encode, .emit), (.encodeFinalize, .emit), (.decodeNext, .decode)],
      ∀ s : State, s.err = false → s.ecPhase ≠ ip.2 →
        (ip.1 = .push ∨ ip.1 = .encode → s.arg0.toNat < 256) →
        exec ip.1 s = .next (exactFault ip.1.opcode.toNat 2 3 s))
    ∧ (∀ iq ∈ [(Instr.ecInit, EcPhase.collect), (.push, .collect), (.finalize, .finalized),
        (.writeOverhead, .emit), (.encode, .emit), (.encodeFinalize, .done), (.decInit, .decode)],
      ∀ s s' : State, s.err = false → exec iq.1 s = .next s' → s'.err = false → s'.ecPhase = iq.2)
    ∧ (∀ s s' : State, s.err = false → exec .decodeNext s = .next s' → s'.err = false →
        s'.ecPhase = .decode ∨ (s'.ecPhase = .eos ∧ s'.eos = true ∧ s'.res1 = 1))
    ∧ (∀ i ∈ [Instr.ecInit, .decInit], ∀ s s' : State, s.err = false → exec i s = .next s' →
        s'.err = true → s'.errinfo ≠ errinfoOf i.opcode.toNat 2 3)

/-- The transitions of `LZ_PHASE` (45_lz_codec R150). -/
def Obligations.LzCommandsFollowTheirSequence : Prop :=
  (∀ ip ∈ [(Instr.lzPush, LzPhase.collect), (.lzFinalize, .collect), (.lzWriteOverhead, .finalized),
        (.lzEncode, .emit), (.lzDecode, .decode)],
      ∀ s : State, s.err = false → s.lzPhase ≠ ip.2 →
        (ip.1 = .lzPush ∨ ip.1 = .lzEncode →
          2 ≤ s.arg0.toNat ∧ s.arg0.toNat ≤ 257 ∧ 1 ≤ s.arg1.toNat ∧ s.arg1.toNat ≤ 65535) →
        (ip.1 = .lzDecode → s.arg0.toNat < 256) →
        exec ip.1 s = .next (exactFault ip.1.opcode.toNat 2 3 s))
    ∧ (∀ iq ∈ [(Instr.lzInit, LzPhase.collect), (.lzPush, .collect), (.lzFinalize, .finalized),
        (.lzWriteOverhead, .emit), (.lzEncode, .emit), (.lzDecInit, .decode), (.lzDecode, .decode)],
      ∀ s s' : State, s.err = false → exec iq.1 s = .next s' → s'.err = false → s'.lzPhase = iq.2)
    ∧ (∀ i ∈ [Instr.lzInit, .lzDecInit], ∀ s s' : State, s.err = false → exec i s = .next s' →
        s'.err = true → s'.errinfo ≠ errinfoOf i.opcode.toNat 2 3)

/-- A table command that finds the wrong `TSTATE` raises `CV_TABLE_STATE` (10_state R22). -/
def Obligations.WrongTableStateIsAFault : Prop :=
  ∀ (t : BitVec 3) (tab : Tab) (s : State), Tab.ofSel t = some tab → s.err = false →
    ((s.tab tab).tstate = .valid →
        (s.arg0.toNat < nsym tab → ∃ s', exec (.addSymbol t) s = .next s' ∧ FaultTaken 0x11 2 4 s s')
          ∧ ∃ s', exec (.buildTable t) s = .next s' ∧ FaultTaken 0x12 2 4 s s')
      ∧ ((s.tab tab).tstate = .collect →
        (∃ s', exec (.writeTable t) s = .next s' ∧ FaultTaken 0x13 2 4 s s')
          ∧ (s.arg0.toNat < nsym tab → ∃ s', exec (.encSym t) s = .next s' ∧ FaultTaken 0x15 2 4 s s')
          ∧ ∃ s', exec (.decSym t) s = .next s' ∧ FaultTaken 0x16 2 4 s s')

/-! ### The channels -/

/-- `WriteBits(v, n)` (20_memory R42): bit `n-1` first, `BITS_OUT` moved on by `n`. -/
def Obligations.WriteBitsAppendsMostSignificantFirst : Prop :=
  ∀ (n v : Nat) (s : State), n ≤ 16 → v < 2 ^ n →
    writeBits v n s = { s with
      chanOut := s.chanOut ++ (List.range n).map fun k => v.testBit (n - 1 - k)
      bitsOut := BitVec.ofNat 32 ((s.bitsOut.toNat + n) % 2 ^ 32) }

/-- `ReadBits(n)` (20_memory R43): too few bits raise `FE_UNDERFLOW`; otherwise the first `n` bits are
removed and returned, the first most significant. -/
def Obligations.ReadBitsTakesTheHeadOfIn : Prop :=
  ∀ (n : Nat) (s : State), 1 ≤ n → n ≤ 16 →
    (s.chanIn.length < n → readBits n s = .error (.format .underflow))
      ∧ (n ≤ s.chanIn.length →
        readBits n s = .ok
          (((List.range n).map fun k => (s.chanIn.getD k false).toNat * 2 ^ (n - 1 - k)).sum,
            { s with
              chanIn := s.chanIn.drop n
              bitsIn := BitVec.ofNat 32 ((s.bitsIn.toNat + n) % 2 ^ 32) }))

/-- A command that completes appends some bits to OUT and removes some from the head of IN, `BITS_OUT` and
`BITS_IN` count exactly these, modulo 2^32, and `ARG0`, `ARG1` and what is the host's do not change
(10_state R11, R18, 20_memory R41). -/
def Obligations.CommandsOnlyAppendAndRemoveAndCountBits : Prop :=
  ∀ (i : Instr) (s s' : State), i ≠ .softReset → s.err = false → exec i s = .next s' →
    s'.err = false →
    (∃ w, s'.chanOut = s.chanOut ++ w ∧ s'.bitsOut = s.bitsOut + BitVec.ofNat 32 w.length)
      ∧ (∃ k ≤ s.chanIn.length,
        s'.chanIn = s.chanIn.drop k ∧ s'.bitsIn = s.bitsIn + BitVec.ofNat 32 k)
      ∧ s'.arg0 = s.arg0 ∧ s'.arg1 = s.arg1
      ∧ s'.pending = s.pending ∧ s'.rdata = s.rdata ∧ s'.freeCtr = s.freeCtr

/-! ### canonical_code_builder -/

/-- The loop of R85 ends by its own test, not by its fuel: for every histogram of at most 384 symbols it
takes at most 32 rounds and no depth exceeds 16 (40_canonical_code_builder R85, R86). -/
def Obligations.RescalingEndsByItsTest : Prop :=
  ∀ (n : Nat) (hist : Vector (BitVec 32) n), n ≤ 384 →
    (buildLengths hist).2 ≤ 32 ∧ maxDepth (lengthsOfUsed (usedFrom 0 hist.toList)).1 ≤ 16

/-- The lengths built from counts (40_canonical_code_builder R83 to R85, R93): a symbol has a code exactly
if it was counted, no length exceeds 16, a lone symbol has length 1 without rescaling. From two used symbols
on, the lengths are the depths that the merge order of R84 gives after the rescalings of R85, before each of
which some depth exceeded 16; and the Kraft sum is exactly 65536: the code is complete. -/
def Obligations.BuiltLengthsAreACompleteCode : Prop :=
  ∀ (n : Nat) (hist : Vector (BitVec 32) n), n ≤ 384 →
    let L := (buildLengths hist).1
    let rounds := (buildLengths hist).2
    let used := hist.toList.countP fun x => x != 0
    (∀ (y : Nat) (h : y < n), (L[y] = 0 ↔ hist[y] = 0) ∧ L[y].toNat ≤ 16)
      ∧ (used = 1 → ∀ (y : Nat) (h : y < n), hist[y] ≠ 0 → L[y] = 1)
      ∧ (used ≤ 1 → rounds = 0)
      ∧ (2 ≤ used → kraftSum L.toList = 65536
        ∧ (∀ k < rounds, ∃ d, DepthsAfter hist k d ∧ ∃ sd ∈ d, 16 < sd.2)
        ∧ ∃ d, DepthsAfter hist rounds d ∧ (∀ sd ∈ d, sd.2 ≤ 16)
          ∧ ∀ (y : Nat) (h : y < n), hist[y] ≠ 0 → (y, L[y].toNat) ∈ d)

/-- The canonical codes of a length table that is not over-subscribed (40_canonical_code_builder R87): an
unused symbol has code 0; a used symbol's code fits its length and, as a fraction of `2^16`, is the sum of
the shares of the used symbols before it in (length, symbol) order. -/
def Obligations.CanonicalCodeIsTheShareOfItsPredecessors : Prop :=
  ∀ (n : Nat) (L : Vector (BitVec 5) n), (∀ l ∈ L.toList, l.toNat ≤ 16) →
    kraftSum L.toList ≤ 65536 →
    ∀ (y : Nat) (h : y < n),
      (L[y] = 0 → (assignCodes L)[y] = 0)
        ∧ (L[y] ≠ 0 →
          (assignCodes L)[y].toNat < 2 ^ L[y].toNat
            ∧ (assignCodes L)[y].toNat * 2 ^ (16 - L[y].toNat)
              = ((List.range n).map fun z =>
                  let l := ((L[z]?).getD 0).toNat
                  if l ≠ 0 ∧ (l < L[y].toNat ∨ (l = L[y].toNat ∧ z < y)) then 2 ^ (16 - l) else 0).sum)

/-- `HIST_CLEAR t` (40_canonical_code_builder R80): the table is as new and nothing else changes. -/
def Obligations.HistClearMakesTheTableNew : Prop :=
  ∀ (t : BitVec 3) (tab : Tab) (s : State), Tab.ofSel t = some tab → s.err = false →
    ∃ s', exec (.histClear t) s = .next s' ∧ s' = s.setTab tab (s'.tab tab)
      ∧ (∀ y, (s'.tab tab).count y = 0 ∧ (s'.tab tab).lenAt y = 0 ∧ (s'.tab tab).codeAt y = 0)
      ∧ (s'.tab tab).hmax = 0 ∧ (s'.tab tab).tstate = .collect

/-- `ADD_SYMBOL t, sym` (40_canonical_code_builder R81, R82): one more occurrence, saturating, the running
maximum, and nothing else. -/
def Obligations.AddSymbolCountsOneOccurrence : Prop :=
  ∀ (t : BitVec 3) (tab : Tab) (s : State), Tab.ofSel t = some tab → s.err = false →
    s.arg0.toNat < nsym tab → (s.tab tab).tstate = .collect →
    ∃ s', exec (.addSymbol t) s = .next s' ∧ s' = s.setTab tab (s'.tab tab)
      ∧ CountsAdded [s.arg0.toNat] (s.tab tab) (s'.tab tab)

/-- `BUILD_TABLE t` (40_canonical_code_builder R88, R89): the lengths built from the counts, their
canonical codes, the table valid; the histogram is as it was, and nothing else changes. -/
def Obligations.BuildTableBuildsFromTheCounts : Prop :=
  ∀ (t : BitVec 3) (tab : Tab) (s : State), Tab.ofSel t = some tab → s.err = false →
    (s.tab tab).tstate = .collect →
    ∃ s', exec (.buildTable t) s = .next s'
      ∧ s' = { s.setTab tab (s'.tab tab) with res0 := s'.res0, res1 := s'.res1 }
      ∧ (s'.tab tab).hist = (s.tab tab).hist ∧ (s'.tab tab).hmax = (s.tab tab).hmax
      ∧ (s'.tab tab).len = (buildLengths (s.tab tab).hist).1
      ∧ (s'.tab tab).code = assignCodes (s'.tab tab).len ∧ (s'.tab tab).tstate = .valid
      ∧ s'.res0.toNat = ((List.range (nsym tab)).countP fun y => (s.tab tab).count y != 0)
      ∧ s'.res1.toNat = (buildLengths (s.tab tab).hist).2

/-- `GET_COUNT`, `GET_LEN` and `GET_MAX` (40_canonical_code_builder R90 to R92) write the result registers
named and change nothing else, in every phase and table state. -/
def Obligations.ReadbacksChangeOnlyResults : Prop :=
  ∀ (t : BitVec 3) (tab : Tab) (s : State), Tab.ofSel t = some tab → s.err = false →
    (s.arg0.toNat < nsym tab →
        exec (.getCount t) s = .next { s with res0 := (s.tab tab).count s.arg0.toNat }
          ∧ exec (.getLen t) s = .next { s with
              res0 := ((s.tab tab).lenAt s.arg0.toNat).setWidth 32
              res1 := ((s.tab tab).codeAt s.arg0.toNat).setWidth 32 })
      ∧ exec (.getMax t) s = .next { s with
          res0 := (s.tab tab).hmax
          res1 := if (s.tab tab).tstate = .valid then 1 else 0 }

/-- `WRITE_TABLE t` (41_table_serdes R100 to R102): 5 bits for each symbol, ascending, and nothing else. -/
def Obligations.WriteTableWritesEveryLength : Prop :=
  ∀ (t : BitVec 3) (tab : Tab) (s : State), Tab.ofSel t = some tab → s.err = false →
    (s.tab tab).tstate = .valid →
    exec (.writeTable t) s = .next { s with
      res0 := BitVec.ofNat 32 (5 * nsym tab)
      chanOut := s.chanOut ++ lengthBits (s.tab tab).len.toList
      bitsOut := s.bitsOut + BitVec.ofNat 32 (5 * nsym tab) }

/-- `READ_TABLE t` (41_table_serdes R103 to R105) on the serialized form of an acceptable length table, at
either `TSTATE`: the lengths read, their canonical codes, the table valid, the histogram as it was. -/
def Obligations.ReadTableTakesAnAcceptableTable : Prop :=
  ∀ (t : BitVec 3) (tab : Tab) (s : State) (L : Vector (BitVec 5) (nsym tab)) (rest : List Bool),
    Tab.ofSel t = some tab → s.err = false → GoodLengths L.toList →
    s.chanIn = lengthBits L.toList ++ rest →
    exec (.readTable t) s = .next { s.setTab tab { s.tab tab with
          len := L, code := assignCodes L, tstate := .valid } with
      res0 := BitVec.ofNat 32 (L.toList.countP fun l => l != 0)
      chanIn := rest
      bitsIn := s.bitsIn + BitVec.ofNat 32 (5 * nsym tab) }

/-- What `READ_TABLE` rejects (41_table_serdes R103, R105): an over- or under-subscribed table, the first
field above 16, and a stream that ends before the last field. -/
def Obligations.CorruptTablesAreRejected : Prop :=
  ∀ (t : BitVec 3) (tab : Tab) (s : State), Tab.ofSel t = some tab → s.err = false →
    (∀ L : Vector (BitVec 5) (nsym tab), (∀ l ∈ L.toList, l.toNat ≤ 16) → ¬ GoodLengths L.toList →
        lengthBits L.toList <+: s.chanIn →
        ∃ s', exec (.readTable t) s = .next s'
          ∧ FaultTaken 0x14 1 (if 65536 < kraftSum L.toList then 3 else 4) s s')
      ∧ (∀ (ls : List (BitVec 5)) (l : BitVec 5), (∀ x ∈ ls, x.toNat ≤ 16) → ls.length < nsym tab →
        16 < l.toNat → lengthBits (ls ++ [l]) <+: s.chanIn →
        ∃ s', exec (.readTable t) s = .next s' ∧ FaultTaken 0x14 1 2 s s')
      ∧ (∀ (ls : List (BitVec 5)) (tail : List Bool), (∀ x ∈ ls, x.toNat ≤ 16) →
        ls.length < nsym tab → tail.length < 5 → s.chanIn = lengthBits ls ++ tail →
        ∃ s', exec (.readTable t) s = .next s' ∧ FaultTaken 0x14 1 1 s s')

/-- Reading inverts writing (41_table_serdes R106): for a valid table, in a state where the table is
canonical (10_state R33), the bits that `WRITE_TABLE` appends are read back by `READ_TABLE` into any table
of the same alphabet, with the same lengths and codes, and exactly those bits are consumed. -/
def Obligations.ReadTableInvertsWriteTable : Prop :=
  ∀ (t t' : BitVec 3) (tab tab' : Tab) (s r : State) (rest : List Bool),
    Tab.ofSel t = some tab → Tab.ofSel t' = some tab' → nsym tab' = nsym tab →
    s.err = false → (s.tab tab).tstate = .valid → (s.tab tab).Canonical → r.err = false →
    ∃ (s1 : State) (w : List Bool), exec (.writeTable t) s = .next s1 ∧ s1.chanOut = s.chanOut ++ w
      ∧ (r.chanIn = w ++ rest →
        ∃ r1, exec (.readTable t') r = .next r1 ∧ r1.err = false ∧ r1.chanIn = rest
          ∧ (r1.tab tab').tstate = .valid
          ∧ ∀ y, (r1.tab tab').lenAt y = (s.tab tab).lenAt y
              ∧ (r1.tab tab').codeAt y = (s.tab tab).codeAt y)

/-! ### huffman_encoder and huffman_decoder -/

/-- `ENC_SYM t, sym` (42_huffman_codec R110, R111): the symbol's code, first code bit first; a symbol
without a code raises `CV_NO_CODE`. -/
def Obligations.EncSymWritesTheCode : Prop :=
  ∀ (t : BitVec 3) (tab : Tab) (s : State), Tab.ofSel t = some tab → s.err = false →
    s.arg0.toNat < nsym tab → (s.tab tab).tstate = .valid →
    ((s.tab tab).lenAt s.arg0.toNat ≠ 0 →
        exec (.encSym t) s = .next { s with
          res0 := ((s.tab tab).lenAt s.arg0.toNat).setWidth 32
          chanOut := s.chanOut ++ (s.tab tab).codeBits s.arg0.toNat
          bitsOut := s.bitsOut + ((s.tab tab).lenAt s.arg0.toNat).setWidth 32 })
      ∧ ((s.tab tab).lenAt s.arg0.toNat = 0 →
        ∃ s', exec (.encSym t) s = .next s' ∧ FaultTaken 0x15 2 5 s s')

/-- Decoding inverts encoding (42_huffman_codec R115), and what else `DEC_SYM` changes: for a valid table
(canonical, 10_state R33) and a symbol with a code, if the code is the next bits of IN, `DEC_SYM` returns the
symbol and its length and consumes exactly those bits, whatever follows. -/
def Obligations.DecSymInvertsEncSym : Prop :=
  ∀ (t : BitVec 3) (tab : Tab) (s : State) (sym : Nat) (rest : List Bool),
    Tab.ofSel t = some tab → s.err = false → (s.tab tab).tstate = .valid → (s.tab tab).Canonical →
    (s.tab tab).lenAt sym ≠ 0 → s.chanIn = (s.tab tab).codeBits sym ++ rest →
    exec (.decSym t) s = .next { s with
      res0 := BitVec.ofNat 32 sym
      res1 := ((s.tab tab).lenAt sym).setWidth 32
      chanIn := rest
      bitsIn := s.bitsIn + ((s.tab tab).lenAt sym).setWidth 32 }

/-- The two faults of the bit walk (42_huffman_codec R112): where no code is a prefix of IN, 16 bits or
more raise `FE_BAD_CODE` and fewer raise `FE_UNDERFLOW`. -/
def Obligations.UnreadableCodesAreRejected : Prop :=
  ∀ (t : BitVec 3) (tab : Tab) (s : State), Tab.ofSel t = some tab → s.err = false →
    (s.tab tab).tstate = .valid → (s.tab tab).Canonical →
    (∀ sym, (s.tab tab).lenAt sym ≠ 0 → ¬ ((s.tab tab).codeBits sym <+: s.chanIn)) →
    ∃ s', exec (.decSym t) s = .next s'
      ∧ FaultTaken 0x16 1 (if 16 ≤ s.chanIn.length then 5 else 1) s s'

/-- The walk that needs no search returns the same symbol and length, leaves the same state and raises the
same faults as the bit walk, on every canonical table (42_huffman_codec R114). The spec marks this
equivalence as general knowledge and derived, and informative (93_implementation_defined G5): the result is
defined by R112. -/
def Obligations.CanonicalWalkAgreesWithTheBitWalk : Prop :=
  ∀ (tab : Tab) (s : State), (s.tab tab).Canonical → decSymCanonical tab s = decSym tab s

/-! ### Runs of zeros -/

/-- `Chain(L)` (43_zero_run R121, R125): the chain has `ceil(L / 128)` run symbols, all but the last are
383, the last is 383 exactly when `L` is a multiple of 128, and they stand for `L` zero bytes in all. -/
def Obligations.ChainCarriesItsRun : Prop :=
  ∀ L : Nat, 1 ≤ L →
    ((chain L).map zerosOf).sum = L ∧ (chain L).length = (L + 127) / 128
      ∧ (∀ sym ∈ chain L, 256 ≤ sym ∧ sym ≤ 383) ∧ (∀ sym ∈ (chain L).dropLast, sym = 383)
      ∧ ((chain L).getLast? = some 383 ↔ L % 128 = 0)

/-! ### System commands -/

/-- `NOP` (46_system_commands R180): no state changes, in the fault state or out of it; a word with opcode 0
and any other bit set is illegal. -/
def Obligations.NopChangesNothing : Prop :=
  (∀ s : State, exec .nop s = .next s)
    ∧ ∀ w : Word, w.toNat % 256 = 0 → w ≠ 0 → ∃ e, decode w = .error e

/-! ### The entropy path -/

/-- `EC_INIT ctx` (44_entropy_coder R132) and `LZ_INIT xsize, ysize` (45_lz_codec R154), each legal in every
phase: each starts its own path anew and leaves the other alone. -/
def Obligations.InitCommandsStartTheirPath : Prop :=
  ∀ s : State, s.err = false →
    (s.arg0.toNat < 2 → exec .ecInit s = .next { s with
        tabBz := TableMem.cleared 384, tabAz := TableMem.cleared 256
        ctxEn := decide (s.arg0 = 1), ctxAz := false, runCnt := 0, rl := [], encRem := 0
        encLastz := false, zpend := 0, eos := false, ecPhase := .collect })
      ∧ (s.arg0.toNat < 65536 → s.arg1.toNat < 65536 → exec .lzInit s = .next { s with
        xsize := s.arg0.setWidth 16, ysize := s.arg1.setWidth 16
        cache := Vector.replicate 4 0, cur := 0
        tabLen := TableMem.cleared 256, tabSd := TableMem.cleared 256, tabLd := TableMem.cleared 256
        lzPhase := .collect })

/-- `PUSH 0` (44_entropy_coder R133, 43_zero_run R122): the run counter moves on and nothing else changes,
or the run is at its limit and `CV_OVERFLOW` is raised. -/
def Obligations.PushZeroExtendsTheRun : Prop :=
  ∀ s : State, s.err = false → s.arg0 = 0 → s.ecPhase = .collect →
    (s.runCnt.toNat ≠ 4294967295 →
        exec .push s = .next { s with runCnt := BitVec.ofNat 32 (s.runCnt.toNat + 1) })
      ∧ (s.runCnt.toNat = 4294967295 → ∃ s', exec .push s = .next s' ∧ FaultTaken 0x21 2 7 s s')

/-- `PUSH` of a non-zero byte (44_entropy_coder R133, 43_zero_run R122, R123): an open run is flushed to the
run-list and its chain counted in the base table, then the byte is counted in the table the context selects,
after which the context is base. An open run with the run-list full raises `CV_OVERFLOW`, a frozen table that
it would count in `CV_TABLE_STATE` (60_exceptions R187). -/
def Obligations.PushNonZeroFlushesAndCounts : Prop :=
  ∀ s : State, s.err = false → 1 ≤ s.arg0.toNat → s.arg0.toNat ≤ 255 → s.ecPhase = .collect →
    let full := s.runCnt ≠ 0 ∧ s.rl.length = Config.runlistCap
    let collecting := (s.runCnt ≠ 0 ∨ flushedContext s = false → s.tabBz.tstate = .collect)
      ∧ (flushedContext s = true → s.tabAz.tstate = .collect)
    (¬ full → collecting → ∃ s', exec .push s = .next s'
        ∧ s' = { s with
            tabBz := s'.tabBz, tabAz := s'.tabAz, rl := flushedRuns s, runCnt := 0, ctxAz := false }
        ∧ CountsAdded (flushedSymbols s ++ if flushedContext s then [] else [s.arg0.toNat])
            s.tabBz s'.tabBz
        ∧ CountsAdded (if flushedContext s then [s.arg0.toNat] else []) s.tabAz s'.tabAz)
      ∧ (full → ∃ s', exec .push s = .next s' ∧ FaultTaken 0x21 2 7 s s')
      ∧ (¬ full → ¬ collecting → ∃ s', exec .push s = .next s' ∧ FaultTaken 0x21 2 4 s s')

/-- `FINALIZE` (44_entropy_coder R134): an open run is flushed, the end marker is counted in the table the
context selects, the base table is built, and in context mode the after-zero table too. An open run with the
run-list full raises `CV_OVERFLOW`, a table that is built already `CV_TABLE_STATE` (60_exceptions R187). -/
def Obligations.FinalizeBuildsTheTables : Prop :=
  ∀ s : State, s.err = false → s.ecPhase = .collect → (s.ctxEn = false → s.ctxAz = false) →
    let full := s.runCnt ≠ 0 ∧ s.rl.length = Config.runlistCap
    let collecting := s.tabBz.tstate = .collect ∧ (s.ctxEn = true → s.tabAz.tstate = .collect)
    (full → ∃ s', exec .finalize s = .next s' ∧ FaultTaken 0x22 2 7 s s')
    ∧ (¬ full → ¬ collecting → ∃ s', exec .finalize s = .next s' ∧ FaultTaken 0x22 2 4 s s')
    ∧ (¬ full → collecting → ∃ (bz : TableMem 384) (az : TableMem 256),
      CountsAdded (flushedSymbols s ++ if flushedContext s then [] else [0]) s.tabBz bz
        ∧ CountsAdded (if flushedContext s then [0] else []) s.tabAz az
        ∧ exec .finalize s = .next { s with
            tabBz := { bz with
              len := (buildLengths bz.hist).1
              code := assignCodes (buildLengths bz.hist).1
              tstate := .valid }
            tabAz := if s.ctxEn then { az with
                len := (buildLengths az.hist).1
                code := assignCodes (buildLengths az.hist).1
                tstate := .valid } else s.tabAz
            rl := flushedRuns s, runCnt := 0, ctxAz := false, encRem := 0, encLastz := false
            ecPhase := .finalized })

/-- `WRITE_OVERHEAD` (44_entropy_coder R135): the base table, then in context mode the after-zero table; a
table that is not valid raises `CV_TABLE_STATE` (60_exceptions R187). -/
def Obligations.WriteOverheadWritesTheTables : Prop :=
  ∀ s : State, s.err = false → s.ecPhase = .finalized →
    let built := s.tabBz.tstate = .valid ∧ (s.ctxEn = true → s.tabAz.tstate = .valid)
    (built → exec .writeOverhead s = .next { s with
        chanOut := s.chanOut ++ lengthBits s.tabBz.len.toList
          ++ if s.ctxEn then lengthBits s.tabAz.len.toList else []
        bitsOut := s.bitsOut + if s.ctxEn then 3200 else 1920
        res0 := if s.ctxEn then 3200 else 1920
        ecPhase := .emit })
      ∧ (¬ built → ∃ s', exec .writeOverhead s = .next s' ∧ FaultTaken 0x23 2 4 s s')

/-- `ENCODE 0` (44_entropy_coder R136, R137): a later zero of a run writes nothing; the first zero of a run
takes the run's length from the run-list and writes its whole chain in the base table. A run symbol without a
code raises `CV_NO_CODE`, a base table that is not valid `CV_TABLE_STATE` (60_exceptions R187). -/
def Obligations.EncodeZeroReplaysTheRun : Prop :=
  ∀ s : State, s.err = false → s.arg0 = 0 → s.ecPhase = .emit →
    (s.encRem ≠ 0 → exec .encode s = .next { s with
        encRem := BitVec.ofNat 32 (s.encRem.toNat - 1), encLastz := true, res0 := 0 })
      ∧ (∀ (L : BitVec 32) (rest : List (BitVec 32)), s.encRem = 0 → s.encLastz = false →
        s.rl = L :: rest → L ≠ 0 →
        (s.tabBz.tstate = .valid → (∀ sym ∈ chain L.toNat, s.tabBz.lenAt sym ≠ 0) →
            exec .encode s = .next { s with
              rl := rest
              chanOut := s.chanOut ++ (chain L.toNat).flatMap s.tabBz.codeBits
              bitsOut := s.bitsOut + BitVec.ofNat 32 ((chain L.toNat).flatMap s.tabBz.codeBits).length
              res0 := BitVec.ofNat 32 ((chain L.toNat).flatMap s.tabBz.codeBits).length
              encRem := BitVec.ofNat 32 (L.toNat - 1)
              encLastz := true
              ctxAz := s.ctxEn && decide (L.toNat % 128 ≠ 0) })
          ∧ (s.tabBz.tstate = .valid → (∃ sym ∈ chain L.toNat, s.tabBz.lenAt sym = 0) →
            ∃ s', exec .encode s = .next s' ∧ FaultTaken 0x24 2 5 s s')
          ∧ (s.tabBz.tstate = .collect → ∃ s', exec .encode s = .next s' ∧ FaultTaken 0x24 2 4 s s'))

/-- `ENCODE` of a non-zero byte (44_entropy_coder R137): its code in the table the context selects, after
which the context is base. A byte without a code there raises `CV_NO_CODE`, a table that is not valid
`CV_TABLE_STATE` (60_exceptions R187). -/
def Obligations.EncodeLiteralWritesItsCode : Prop :=
  ∀ s : State, s.err = false → 1 ≤ s.arg0.toNat → s.arg0.toNat ≤ 255 → s.ecPhase = .emit →
    s.encRem = 0 →
    ((s.tab (ctxTable s)).tstate = .valid → (s.tab (ctxTable s)).lenAt s.arg0.toNat ≠ 0 →
        exec .encode s = .next { s with
          chanOut := s.chanOut ++ (s.tab (ctxTable s)).codeBits s.arg0.toNat
          bitsOut := s.bitsOut + ((s.tab (ctxTable s)).lenAt s.arg0.toNat).setWidth 32
          res0 := ((s.tab (ctxTable s)).lenAt s.arg0.toNat).setWidth 32
          ctxAz := false, encLastz := false })
      ∧ ((s.tab (ctxTable s)).tstate = .valid → (s.tab (ctxTable s)).lenAt s.arg0.toNat = 0 →
        ∃ s', exec .encode s = .next s' ∧ FaultTaken 0x24 2 5 s s')
      ∧ ((s.tab (ctxTable s)).tstate = .collect →
        ∃ s', exec .encode s = .next s' ∧ FaultTaken 0x24 2 4 s s')

/-- A replay whose zeros do not fit the recorded runs raises `CV_DESYNC` (44_entropy_coder R137, R138): a
zero after a run that has ended, a zero with no run recorded, a non-zero byte inside a run, an end with
zeros or runs left. -/
def Obligations.UnfaithfulReplayIsDetected : Prop :=
  ∀ s : State, s.err = false → s.ecPhase = .emit →
    (s.arg0 = 0 → s.encRem = 0 → s.encLastz = true ∨ s.rl = [] →
        ∃ s', exec .encode s = .next s' ∧ FaultTaken 0x24 2 6 s s')
      ∧ (1 ≤ s.arg0.toNat → s.arg0.toNat ≤ 255 → s.encRem ≠ 0 →
        ∃ s', exec .encode s = .next s' ∧ FaultTaken 0x24 2 6 s s')
      ∧ (s.encRem ≠ 0 ∨ s.rl ≠ [] → ∃ s', exec .encodeFinalize s = .next s' ∧ FaultTaken 0x25 2 6 s s')

/-- `ENCODE_FINALIZE` (44_entropy_coder R138, R143): the end marker, symbol 0, in the table the context
selects; without a code there `CV_NO_CODE`, in a table that is not valid `CV_TABLE_STATE` (60_exceptions
R187). That `CTX_AZ` stays as it was is the model's reading (log entry 18). -/
def Obligations.EncodeFinalizeWritesTheEndMarker : Prop :=
  ∀ s : State, s.err = false → s.ecPhase = .emit → s.encRem = 0 → s.rl = [] →
    ((s.tab (ctxTable s)).tstate = .valid → (s.tab (ctxTable s)).lenAt 0 ≠ 0 →
        exec .encodeFinalize s = .next { s with
          chanOut := s.chanOut ++ (s.tab (ctxTable s)).codeBits 0
          bitsOut := s.bitsOut + ((s.tab (ctxTable s)).lenAt 0).setWidth 32
          res0 := ((s.tab (ctxTable s)).lenAt 0).setWidth 32
          ecPhase := .done })
      ∧ ((s.tab (ctxTable s)).tstate = .valid → (s.tab (ctxTable s)).lenAt 0 = 0 →
        ∃ s', exec .encodeFinalize s = .next s' ∧ FaultTaken 0x25 2 5 s s')
      ∧ ((s.tab (ctxTable s)).tstate = .collect →
        ∃ s', exec .encodeFinalize s = .next s' ∧ FaultTaken 0x25 2 4 s s')

/-- `DEC_INIT ctx` (44_entropy_coder R139), legal in every phase: the base table and, in context mode, the
after-zero table are read; the path starts anew; the histograms and, without context mode, table 1 are as
they were. A table that cannot be read raises its FormatError (60_exceptions R186), the base table first. -/
def Obligations.DecInitReadsTheTables : Prop :=
  ∀ s : State, s.err = false → s.arg0.toNat < 2 →
    (∀ (bz : Vector (BitVec 5) 384) (az : Vector (BitVec 5) 256) (rest : List Bool),
        GoodLengths bz.toList → GoodLengths az.toList →
        s.chanIn = lengthBits bz.toList
          ++ ((if s.arg0 = 1 then lengthBits az.toList else []) ++ rest) →
        exec .decInit s = .next { s with
          tabBz := { s.tabBz with len := bz, code := assignCodes bz, tstate := .valid }
          tabAz := if s.arg0 = 1 then { s.tabAz with len := az, code := assignCodes az, tstate := .valid }
            else s.tabAz
          ctxEn := decide (s.arg0 = 1), ctxAz := false, runCnt := 0, rl := [], encRem := 0
          encLastz := false, zpend := 0, eos := false, ecPhase := .decode
          chanIn := rest
          bitsIn := s.bitsIn + if s.arg0 = 1 then 3200 else 1920
          res0 := if s.arg0 = 1 then 3200 else 1920 })
      ∧ (∀ code, UnreadableTable 384 s.chanIn code →
        ∃ s', exec .decInit s = .next s' ∧ FaultTaken 0x28 1 code s s')
      ∧ (∀ (bz : Vector (BitVec 5) 384) (rest : List Bool) (code : Nat), s.arg0 = 1 →
        GoodLengths bz.toList → s.chanIn = lengthBits bz.toList ++ rest → UnreadableTable 256 rest code →
        ∃ s', exec .decInit s = .next s' ∧ FaultTaken 0x28 1 code s s')

/-- `DECODE_NEXT` (44_entropy_coder R140, 43_zero_run R124): an owed zero is returned without reading;
otherwise one code is read in the table the context selects (canonical, 10_state R33), and is the end
marker, a literal or a run symbol. Where no code can be read, `FE_BAD_CODE` or `FE_UNDERFLOW` is raised, in a
table that is not valid `CV_TABLE_STATE` (60_exceptions R186, R187). That the end marker leaves `CTX_AZ` as
it was is the model's reading (log entry 18). -/
def Obligations.DecodeNextReturnsTheNextByte : Prop :=
  ∀ s : State, s.err = false → s.ecPhase = .decode →
    (s.zpend ≠ 0 → exec .decodeNext s = .next { s with
        zpend := BitVec.ofNat 7 (s.zpend.toNat - 1), res0 := 0, res1 := 0 })
      ∧ (∀ (sym : Nat) (rest : List Bool), s.zpend = 0 → (s.tab (ctxTable s)).tstate = .valid →
        (s.tab (ctxTable s)).Canonical → (s.tab (ctxTable s)).lenAt sym ≠ 0 →
        s.chanIn = (s.tab (ctxTable s)).codeBits sym ++ rest →
        exec .decodeNext s = .next { s with
          chanIn := rest
          bitsIn := s.bitsIn + ((s.tab (ctxTable s)).lenAt sym).setWidth 32
          eos := if sym = 0 then true else s.eos
          ecPhase := if sym = 0 then .eos else .decode
          ctxAz := if sym = 0 then s.ctxAz else s.ctxEn && decide (256 ≤ sym ∧ sym ≤ 382)
          zpend := BitVec.ofNat 7 (sym - 256)
          res0 := BitVec.ofNat 32 (if sym ≤ 255 then sym else 0)
          res1 := if sym = 0 then 1 else 0 })
      ∧ (s.zpend = 0 → (s.tab (ctxTable s)).tstate = .valid →
        (s.tab (ctxTable s)).NoCodeIn s.chanIn →
        ∃ s', exec .decodeNext s = .next s' ∧ FaultTaken 0x29 1 (unreadableCode s.chanIn) s s')
      ∧ (s.zpend = 0 → (s.tab (ctxTable s)).tstate = .collect →
        ∃ s', exec .decodeNext s = .next s' ∧ FaultTaken 0x29 2 4 s s')

/-! ### The LZ path -/

/-- `LZ_PUSH len, dist` (45_lz_codec R153, R155): the match has the class that the tests of R153 give; the
sub-coder symbols it needs are counted, the cache moves unless the distance came from it, and the escape
code is returned. A frozen table that it would count in raises `CV_TABLE_STATE` (60_exceptions R187). -/
def Obligations.LzPushCountsTheMatch : Prop :=
  ∀ s : State, s.err = false → 2 ≤ s.arg0.toNat → s.arg0.toNat ≤ 257 → 1 ≤ s.arg1.toNat →
    s.arg1.toNat ≤ 65535 → s.lzPhase = .collect →
    ∃ c : MatchClass, IsClassOf s.arg0.toNat s.arg1.toNat s c ∧
      let collecting := (c.needLen = true → s.tabLen.tstate = .collect)
        ∧ (c.kind = .short → s.tabSd.tstate = .collect) ∧ (c.kind = .long → s.tabLd.tstate = .collect)
      (collecting → ∃ s', exec .lzPush s = .next s'
          ∧ s' = { s with
              tabLen := s'.tabLen, tabSd := s'.tabSd, tabLd := s'.tabLd
              cache := if c.push then s.cache.set s.cur.toNat (s.arg1.setWidth 16) else s.cache
              cur := if c.push then s.cur + 1 else s.cur
              res0 := BitVec.ofNat 32 c.esc }
          ∧ CountsAdded (if c.needLen then [s.arg0.toNat - 2] else []) s.tabLen s'.tabLen
          ∧ CountsAdded (if c.kind = .short then [s.arg1.toNat - 1] else []) s.tabSd s'.tabSd
          ∧ CountsAdded (if c.kind = .long then [s.arg1.toNat / 256] else []) s.tabLd s'.tabLd)
        ∧ (¬ collecting → ∃ s', exec .lzPush s = .next s' ∧ FaultTaken 0x31 2 4 s s')

/-- `LZ_FINALIZE` and `LZ_WRITE_OVERHEAD` (45_lz_codec R156, R157): the three sub-coder tables are built and
the cache cleared; the three tables are written in order. A table in the wrong state raises `CV_TABLE_STATE`
(60_exceptions R187). -/
def Obligations.LzTablesAreBuiltAndWritten : Prop :=
  ∀ s : State, s.err = false →
    let collecting := s.tabLen.tstate = .collect ∧ s.tabSd.tstate = .collect ∧ s.tabLd.tstate = .collect
    let valid := s.tabLen.tstate = .valid ∧ s.tabSd.tstate = .valid ∧ s.tabLd.tstate = .valid
    (s.lzPhase = .collect → collecting →
        let built := fun m : TableMem 256 => { m with
          len := (buildLengths m.hist).1
          code := assignCodes (buildLengths m.hist).1
          tstate := TState.valid }
        exec .lzFinalize s = .next { s with
          tabLen := built s.tabLen, tabSd := built s.tabSd, tabLd := built s.tabLd
          cache := Vector.replicate 4 0, cur := 0, lzPhase := .finalized })
      ∧ (s.lzPhase = .finalized → valid →
        exec .lzWriteOverhead s = .next { s with
          chanOut := s.chanOut ++ lengthBits s.tabLen.len.toList ++ lengthBits s.tabSd.len.toList
            ++ lengthBits s.tabLd.len.toList
          bitsOut := s.bitsOut + 3840, res0 := 3840, lzPhase := .emit })
      ∧ (s.lzPhase = .collect → ¬ collecting →
        ∃ s', exec .lzFinalize s = .next s' ∧ FaultTaken 0x32 2 4 s s')
      ∧ (s.lzPhase = .finalized → ¬ valid →
        ∃ s', exec .lzWriteOverhead s = .next s' ∧ FaultTaken 0x33 2 4 s s')

/-- `LZ_ENCODE len, dist` (45_lz_codec R153, R158, R162): the match has the class that the tests of R153
give; the length code if it needs one, then a short distance code, or a long one and 8 raw bits; the cache
moves unless the distance came from it. A symbol without a code raises `CV_NO_CODE`, a table that is not valid
`CV_TABLE_STATE`, the length's before the distance's (60_exceptions R187, R192). -/
def Obligations.LzEncodeWritesTheFields : Prop :=
  ∀ s : State, s.err = false → 2 ≤ s.arg0.toNat → s.arg0.toNat ≤ 257 → 1 ≤ s.arg1.toNat →
    s.arg1.toNat ≤ 65535 → s.lzPhase = .emit →
    ∃ c : MatchClass, IsClassOf s.arg0.toNat s.arg1.toNat s c ∧
      let lenSym := s.arg0.toNat - 2
      let short := s.arg1.toNat - 1
      let long := s.arg1.toNat / 256
      let lenOk := c.needLen = true → s.tabLen.tstate = .valid ∧ s.tabLen.lenAt lenSym ≠ 0
      let fields := (if c.needLen then s.tabLen.codeBits lenSym else [])
        ++ (match c.kind with
            | .none => []
            | .short => s.tabSd.codeBits short
            | .long => s.tabLd.codeBits long ++ bitsMsb 8 (s.arg1.toNat % 256))
      let faults := fun code => ∃ s', exec .lzEncode s = .next s' ∧ FaultTaken 0x34 2 code s s'
      (lenOk → (c.kind = .short → s.tabSd.tstate = .valid ∧ s.tabSd.lenAt short ≠ 0) →
          (c.kind = .long → s.tabLd.tstate = .valid ∧ s.tabLd.lenAt long ≠ 0) →
          exec .lzEncode s = .next { s with
            chanOut := s.chanOut ++ fields
            bitsOut := s.bitsOut + BitVec.ofNat 32 fields.length
            cache := if c.push then s.cache.set s.cur.toNat (s.arg1.setWidth 16) else s.cache
            cur := if c.push then s.cur + 1 else s.cur
            res0 := BitVec.ofNat 32 c.esc
            res1 := BitVec.ofNat 32 fields.length })
        ∧ (c.needLen = true → s.tabLen.tstate = .collect → faults 4)
        ∧ (c.needLen = true → s.tabLen.tstate = .valid → s.tabLen.lenAt lenSym = 0 → faults 5)
        ∧ (lenOk → c.kind = .short → s.tabSd.tstate = .collect → faults 4)
        ∧ (lenOk → c.kind = .short → s.tabSd.tstate = .valid → s.tabSd.lenAt short = 0 → faults 5)
        ∧ (lenOk → c.kind = .long → s.tabLd.tstate = .collect → faults 4)
        ∧ (lenOk → c.kind = .long → s.tabLd.tstate = .valid → s.tabLd.lenAt long = 0 → faults 5)

/-- `LZ_DEC_INIT xsize, ysize` (45_lz_codec R159), legal in every phase: the sizes are latched, the cache
cleared, the three tables read in order, the histograms as they were. The first table in this order that
cannot be read raises its FormatError (60_exceptions R186, R192). -/
def Obligations.LzDecInitReadsTheTables : Prop :=
  ∀ s : State, s.err = false → s.arg0.toNat < 65536 → s.arg1.toNat < 65536 →
    (∀ (a b c : Vector (BitVec 5) 256) (rest : List Bool),
        GoodLengths a.toList → GoodLengths b.toList → GoodLengths c.toList →
        s.chanIn = lengthBits a.toList ++ (lengthBits b.toList ++ (lengthBits c.toList ++ rest)) →
        exec .lzDecInit s = .next { s with
          xsize := s.arg0.setWidth 16, ysize := s.arg1.setWidth 16
          cache := Vector.replicate 4 0, cur := 0
          tabLen := { s.tabLen with len := a, code := assignCodes a, tstate := .valid }
          tabSd := { s.tabSd with len := b, code := assignCodes b, tstate := .valid }
          tabLd := { s.tabLd with len := c, code := assignCodes c, tstate := .valid }
          chanIn := rest, bitsIn := s.bitsIn + 3840, res0 := 3840, lzPhase := .decode })
      ∧ (∀ (before : List (Vector (BitVec 5) 256)) (rest : List Bool) (code : Nat), before.length < 3 →
        (∀ L ∈ before, GoodLengths L.toList) →
        s.chanIn = (before.flatMap fun L => lengthBits L.toList) ++ rest → UnreadableTable 256 rest code →
        ∃ s', exec .lzDecInit s = .next s' ∧ FaultTaken 0x38 1 code s s')

/-- `LZ_DECODE esc` in bands 1 to 3 (45_lz_codec R151, R160): the distance comes from the cache, from the
local-left map or from `XSIZE`; the length is read; bands 2 and 3 push the distance. -/
def Obligations.LzDecodeOfBandsWithoutDistanceCode : Prop :=
  ∀ (s : State) (sym d : Nat) (rest : List Bool), s.err = false → s.arg0.toNat ≤ 13 →
    s.lzPhase = .decode → s.tabLen.tstate = .valid → s.tabLen.Canonical → s.tabLen.lenAt sym ≠ 0 →
    s.chanIn = s.tabLen.codeBits sym ++ rest →
    d = (if s.arg0.toNat ≤ 3 then (s.cacheAt (s.arg0.setWidth 2)).toNat
      else if s.arg0.toNat ≤ 8 then [1, 3, 4, 5, 6].getD (s.arg0.toNat - 4) 0
      else (s.xsize.toNat + (s.arg0.toNat - 9) + 65534) % 65536) →
    d ≠ 0 →
    exec .lzDecode s = .next { s with
      chanIn := rest
      bitsIn := s.bitsIn + (s.tabLen.lenAt sym).setWidth 32
      cache := if s.arg0.toNat ≤ 3 then s.cache else s.cache.set s.cur.toNat (BitVec.ofNat 16 d)
      cur := if s.arg0.toNat ≤ 3 then s.cur else s.cur + 1
      res0 := BitVec.ofNat 32 (sym + 2)
      res1 := BitVec.ofNat 32 d }

/-- `LZ_DECODE esc` in bands 4 and 5 (45_lz_codec R151, R160): codes 14..21 and 23..30 carry the length,
22 and 31 have it read; the distance is a short code, or a long code and 8 raw bits; it is pushed. -/
def Obligations.LzDecodeOfBandsWithDistanceCode : Prop :=
  ∀ (s : State) (lsym dsym raw : Nat) (rest : List Bool), s.err = false → 14 ≤ s.arg0.toNat →
    s.arg0.toNat ≤ 31 → s.lzPhase = .decode →
    let esc := s.arg0.toNat
    let explicit := esc = 22 ∨ esc = 31
    let short := esc ≤ 22
    let dtab := if short then s.tabSd else s.tabLd
    (explicit → s.tabLen.tstate = .valid ∧ s.tabLen.Canonical ∧ s.tabLen.lenAt lsym ≠ 0) →
    dtab.tstate = .valid → dtab.Canonical → dtab.lenAt dsym ≠ 0 → raw < 256 →
    let fields := (if explicit then s.tabLen.codeBits lsym else []) ++ dtab.codeBits dsym
      ++ (if short then [] else bitsMsb 8 raw)
    let len := if explicit then lsym + 2 else if short then esc - 12 else esc - 21
    let d := if short then dsym + 1 else dsym * 256 + raw
    s.chanIn = fields ++ rest → d ≠ 0 →
    exec .lzDecode s = .next { s with
      chanIn := rest
      bitsIn := s.bitsIn + BitVec.ofNat 32 fields.length
      cache := s.cache.set s.cur.toNat (BitVec.ofNat 16 d)
      cur := s.cur + 1
      res0 := BitVec.ofNat 32 len
      res1 := BitVec.ofNat 32 d }

/-- What `LZ_DECODE` rejects (45_lz_codec R160, 60_exceptions R186, R192): an escape code of 32 or more; a
distance 0 in bands 1 and 3, before a bit is read, and in band 5, after the whole distance is; a code or a raw
byte that cannot be read, the length's before the distance's; a table that is not valid. -/
def Obligations.LzDecodeRejectsBadEscapesAndZeroDistances : Prop :=
  ∀ s : State, s.err = false → s.arg0.toNat < 256 → s.lzPhase = .decode →
    let esc := s.arg0.toNat
    let faults := fun cls code => ∃ s', exec .lzDecode s = .next s' ∧ FaultTaken 0x39 cls code s s'
    let emptySlot := esc ≤ 3 ∧ s.cacheAt (s.arg0.setWidth 2) = 0
    let zeroUp := 9 ≤ esc ∧ esc ≤ 13 ∧ (s.xsize.toNat + esc) % 65536 = 11
    let readsLen := esc ≤ 13 ∨ esc = 22 ∨ esc = 31
    let dtab := if esc ≤ 22 then s.tabSd else s.tabLd
    (32 ≤ esc → faults 1 6)
      ∧ (emptySlot → faults 1 7)
      ∧ (zeroUp → faults 1 7)
      ∧ (esc ≤ 31 → readsLen → ¬ emptySlot → ¬ zeroUp →
        (s.tabLen.tstate = .collect → faults 2 4)
          ∧ (s.tabLen.tstate = .valid → s.tabLen.NoCodeIn s.chanIn →
            faults 1 (unreadableCode s.chanIn)))
      ∧ (∀ (lsym : Nat) (rest : List Bool), 14 ≤ esc → esc ≤ 31 →
        (readsLen → s.tabLen.tstate = .valid ∧ s.tabLen.Canonical ∧ s.tabLen.lenAt lsym ≠ 0) →
        s.chanIn = (if readsLen then s.tabLen.codeBits lsym else []) ++ rest →
        (dtab.tstate = .collect → faults 2 4)
          ∧ (dtab.tstate = .valid → dtab.NoCodeIn rest → faults 1 (unreadableCode rest))
          ∧ (∀ (dsym : Nat) (tail : List Bool), 23 ≤ esc → dtab.tstate = .valid → dtab.Canonical →
            dtab.lenAt dsym ≠ 0 → rest = dtab.codeBits dsym ++ tail →
            (tail.length < 8 → faults 1 1)
              ∧ (dsym = 0 → List.replicate 8 false <+: tail → faults 1 7)))

/-- One match there and back (45_lz_codec R151, R153, R158, R160): whatever `LZ_ENCODE` wrote for a match,
`LZ_DECODE` of the escape code it returned, in a state with the same tables, cache and `XSIZE`, returns the
same length and distance, consumes exactly those bits and leaves the same cache. -/
def Obligations.LzDecodeInvertsLzEncode : Prop :=
  ∀ (s s1 r : State) (w rest : List Bool), s.err = false → s1.err = false →
    s.tabLen.Canonical → s.tabSd.Canonical → s.tabLd.Canonical →
    exec .lzEncode s = .next s1 → s1.chanOut = s.chanOut ++ w →
    r.err = false → r.lzPhase = .decode → r.arg0 = s1.res0 → r.tabLen = s.tabLen → r.tabSd = s.tabSd →
    r.tabLd = s.tabLd → r.cache = s.cache → r.cur = s.cur → r.xsize = s.xsize → r.chanIn = w ++ rest →
    ∃ r1, exec .lzDecode r = .next r1 ∧ r1.err = false ∧ r1.res0 = s.arg0 ∧ r1.res1 = s.arg1
      ∧ r1.chanIn = rest ∧ r1.cache = s1.cache ∧ r1.cur = s1.cur

/-- Recency (45_lz_codec R152, R164): a distance that was pushed selects the recent band until four
further pushes have happened, and after four pushes of other distances it no longer does. -/
def Obligations.PushedDistanceStaysRecentForThreePushes : Prop :=
  ∀ (s : State) (d : Half) (ds : List Half) (len : Nat), d ≠ 0 →
    let after := ds.foldl (fun r x => cachePush x r) (cachePush d s)
    (ds.length ≤ 3 → (classify len d.toNat after).esc ≤ 3 ∧ (classify len d.toNat after).push = false)
      ∧ (ds.length = 4 → d ∉ ds → (classify len d.toNat after).push = true)

/-- The two paths do not touch each other (45_lz_codec R150, R154; 44_entropy_coder R132): an LZ command
that completes leaves the entropy path's state, an entropy command that completes leaves the LZ state. -/
def Obligations.PathsDoNotInterfere : Prop :=
  ∀ s s' : State, s.err = false → s'.err = false →
    (∀ i ∈ [Instr.lzInit, .lzPush, .lzFinalize, .lzWriteOverhead, .lzEncode, .lzDecInit, .lzDecode],
        exec i s = .next s' →
        s'.tabBz = s.tabBz ∧ s'.tabAz = s.tabAz ∧ s'.ctxEn = s.ctxEn ∧ s'.ctxAz = s.ctxAz
          ∧ s'.ecPhase = s.ecPhase ∧ s'.runCnt = s.runCnt ∧ s'.rl = s.rl ∧ s'.encRem = s.encRem
          ∧ s'.encLastz = s.encLastz ∧ s'.zpend = s.zpend ∧ s'.eos = s.eos)
      ∧ (∀ i ∈ [Instr.ecInit, .push, .finalize, .writeOverhead, .encode, .encodeFinalize, .decInit,
          .decodeNext], exec i s = .next s' →
        s'.tabLen = s.tabLen ∧ s'.tabSd = s.tabSd ∧ s'.tabLd = s.tabLd ∧ s'.cache = s.cache
          ∧ s'.cur = s.cur ∧ s'.xsize = s.xsize ∧ s'.ysize = s.ysize ∧ s'.lzPhase = s.lzPhase)

/-! ### Invariants -/

/-- Every step, from every state that meets it, keeps: outside the fault state `HMAX[t]` is the largest
count, and a collecting table has no code (10_state R20, 40_canonical_code_builder R91). -/
def Obligations.EveryStepKeepsTheHistograms : Prop :=
  ∀ s s' : State, HistogramInv s → step s = .next s' → HistogramInv s'

/-- Every step, from every state that meets it, keeps: outside the fault state every valid table is
canonical: lengths at most 16, the canonical codes, prefix-free, complete or one of the two exemptions
(10_state R33). -/
def Obligations.EveryStepKeepsValidTablesCanonical : Prop :=
  ∀ s s' : State, CanonicalInv s → step s = .next s' → CanonicalInv s'

/-- Every step, from every state that meets it, keeps the entropy path consistent with its phase
(10_state R23 to R29, 44_entropy_coder R130, R131). -/
def Obligations.EveryStepKeepsTheEntropyPath : Prop :=
  ∀ s s' : State, EntropyPathInv s → step s = .next s' → EntropyPathInv s'

/-- The reset state meets the three invariants. -/
def Obligations.ResetMeetsTheInvariants : Prop :=
  HistogramInv State.reset ∧ CanonicalInv State.reset ∧ EntropyPathInv State.reset
end

