-- ==== Sys2Proof/Laws/State.lean ====
section
/-! SUPPORT. One lemma for each field of `State` under each named update, so that no proof unfolds a
record update, and the same for `State.tab`. -/

namespace Sys2Proof.Machine

open Sys2Proof

/-! ### Tables by name -/

@[simp] theorem State.tab_bz (s : State) : s.tab .bz = s.tabBz := rfl
@[simp] theorem State.tab_az (s : State) : s.tab .az = s.tabAz := rfl
@[simp] theorem State.tab_len (s : State) : s.tab .len = s.tabLen := rfl
@[simp] theorem State.tab_sd (s : State) : s.tab .sd = s.tabSd := rfl
@[simp] theorem State.tab_ld (s : State) : s.tab .ld = s.tabLd := rfl
theorem State.setTab_bz (s : State) (m : TableMem (nsym .bz)) :
    s.setTab .bz m = { s with tabBz := m } := rfl
theorem State.setTab_az (s : State) (m : TableMem (nsym .az)) :
    s.setTab .az m = { s with tabAz := m } := rfl
theorem State.setTab_len (s : State) (m : TableMem (nsym .len)) :
    s.setTab .len m = { s with tabLen := m } := rfl
theorem State.setTab_sd (s : State) (m : TableMem (nsym .sd)) :
    s.setTab .sd m = { s with tabSd := m } := rfl
theorem State.setTab_ld (s : State) (m : TableMem (nsym .ld)) :
    s.setTab .ld m = { s with tabLd := m } := rfl

@[simp] theorem State.setTab_bz_tabBz (s : State) (m : TableMem (nsym .bz)) :
    (s.setTab .bz m).tabBz = m := rfl
@[simp] theorem State.setTab_bz_tabAz (s : State) (m : TableMem (nsym .bz)) :
    (s.setTab .bz m).tabAz = s.tabAz := rfl
@[simp] theorem State.setTab_bz_tabLen (s : State) (m : TableMem (nsym .bz)) :
    (s.setTab .bz m).tabLen = s.tabLen := rfl
@[simp] theorem State.setTab_bz_tabSd (s : State) (m : TableMem (nsym .bz)) :
    (s.setTab .bz m).tabSd = s.tabSd := rfl
@[simp] theorem State.setTab_bz_tabLd (s : State) (m : TableMem (nsym .bz)) :
    (s.setTab .bz m).tabLd = s.tabLd := rfl
@[simp] theorem State.setTab_az_tabBz (s : State) (m : TableMem (nsym .az)) :
    (s.setTab .az m).tabBz = s.tabBz := rfl
@[simp] theorem State.setTab_az_tabAz (s : State) (m : TableMem (nsym .az)) :
    (s.setTab .az m).tabAz = m := rfl
@[simp] theorem State.setTab_az_tabLen (s : State) (m : TableMem (nsym .az)) :
    (s.setTab .az m).tabLen = s.tabLen := rfl
@[simp] theorem State.setTab_az_tabSd (s : State) (m : TableMem (nsym .az)) :
    (s.setTab .az m).tabSd = s.tabSd := rfl
@[simp] theorem State.setTab_az_tabLd (s : State) (m : TableMem (nsym .az)) :
    (s.setTab .az m).tabLd = s.tabLd := rfl
@[simp] theorem State.setTab_len_tabBz (s : State) (m : TableMem (nsym .len)) :
    (s.setTab .len m).tabBz = s.tabBz := rfl
@[simp] theorem State.setTab_len_tabAz (s : State) (m : TableMem (nsym .len)) :
    (s.setTab .len m).tabAz = s.tabAz := rfl
@[simp] theorem State.setTab_len_tabLen (s : State) (m : TableMem (nsym .len)) :
    (s.setTab .len m).tabLen = m := rfl
@[simp] theorem State.setTab_len_tabSd (s : State) (m : TableMem (nsym .len)) :
    (s.setTab .len m).tabSd = s.tabSd := rfl
@[simp] theorem State.setTab_len_tabLd (s : State) (m : TableMem (nsym .len)) :
    (s.setTab .len m).tabLd = s.tabLd := rfl
@[simp] theorem State.setTab_sd_tabBz (s : State) (m : TableMem (nsym .sd)) :
    (s.setTab .sd m).tabBz = s.tabBz := rfl
@[simp] theorem State.setTab_sd_tabAz (s : State) (m : TableMem (nsym .sd)) :
    (s.setTab .sd m).tabAz = s.tabAz := rfl
@[simp] theorem State.setTab_sd_tabLen (s : State) (m : TableMem (nsym .sd)) :
    (s.setTab .sd m).tabLen = s.tabLen := rfl
@[simp] theorem State.setTab_sd_tabSd (s : State) (m : TableMem (nsym .sd)) :
    (s.setTab .sd m).tabSd = m := rfl
@[simp] theorem State.setTab_sd_tabLd (s : State) (m : TableMem (nsym .sd)) :
    (s.setTab .sd m).tabLd = s.tabLd := rfl
@[simp] theorem State.setTab_ld_tabBz (s : State) (m : TableMem (nsym .ld)) :
    (s.setTab .ld m).tabBz = s.tabBz := rfl
@[simp] theorem State.setTab_ld_tabAz (s : State) (m : TableMem (nsym .ld)) :
    (s.setTab .ld m).tabAz = s.tabAz := rfl
@[simp] theorem State.setTab_ld_tabLen (s : State) (m : TableMem (nsym .ld)) :
    (s.setTab .ld m).tabLen = s.tabLen := rfl
@[simp] theorem State.setTab_ld_tabSd (s : State) (m : TableMem (nsym .ld)) :
    (s.setTab .ld m).tabSd = s.tabSd := rfl
@[simp] theorem State.setTab_ld_tabLd (s : State) (m : TableMem (nsym .ld)) :
    (s.setTab .ld m).tabLd = m := rfl

/-- The tables decide what `State.tab` reads. -/
theorem State.tab_eq_of_tables {s s' : State} (hbz : s'.tabBz = s.tabBz) (haz : s'.tabAz = s.tabAz)
    (hlen : s'.tabLen = s.tabLen) (hsd : s'.tabSd = s.tabSd) (hld : s'.tabLd = s.tabLd) (t : Tab) :
    s'.tab t = s.tab t := by
  cases t <;> assumption

@[simp] theorem State.tab_setTab (s : State) (t : Tab) (m : TableMem (nsym t)) :
    (s.setTab t m).tab t = m := by
  cases t <;> rfl

/-- Replacing one table leaves the others. -/
theorem State.tab_setTab_ne (s : State) {t u : Tab} (m : TableMem (nsym t)) (h : u ≠ t) :
    (s.setTab t m).tab u = s.tab u := by
  cases t <;> cases u <;> first | rfl | exact absurd rfl h

@[simp] theorem State.setTab_tab (s : State) (t : Tab) : s.setTab t (s.tab t) = s := by
  cases t <;> rfl

@[simp] theorem State.setTab_setTab (s : State) (t : Tab) (m m' : TableMem (nsym t)) :
    (s.setTab t m).setTab t m' = s.setTab t m' := by
  cases t <;> rfl

/-! ### `setTab` -/

@[simp] theorem State.setTab_arg0 (s : State) (t : Tab) (m : TableMem (nsym t)) :
    (s.setTab t m).arg0 = s.arg0 := by cases t <;> rfl
@[simp] theorem State.setTab_arg1 (s : State) (t : Tab) (m : TableMem (nsym t)) :
    (s.setTab t m).arg1 = s.arg1 := by cases t <;> rfl
@[simp] theorem State.setTab_res0 (s : State) (t : Tab) (m : TableMem (nsym t)) :
    (s.setTab t m).res0 = s.res0 := by cases t <;> rfl
@[simp] theorem State.setTab_res1 (s : State) (t : Tab) (m : TableMem (nsym t)) :
    (s.setTab t m).res1 = s.res1 := by cases t <;> rfl
@[simp] theorem State.setTab_bitsOut (s : State) (t : Tab) (m : TableMem (nsym t)) :
    (s.setTab t m).bitsOut = s.bitsOut := by cases t <;> rfl
@[simp] theorem State.setTab_bitsIn (s : State) (t : Tab) (m : TableMem (nsym t)) :
    (s.setTab t m).bitsIn = s.bitsIn := by cases t <;> rfl
@[simp] theorem State.setTab_xsize (s : State) (t : Tab) (m : TableMem (nsym t)) :
    (s.setTab t m).xsize = s.xsize := by cases t <;> rfl
@[simp] theorem State.setTab_ysize (s : State) (t : Tab) (m : TableMem (nsym t)) :
    (s.setTab t m).ysize = s.ysize := by cases t <;> rfl
@[simp] theorem State.setTab_ctxEn (s : State) (t : Tab) (m : TableMem (nsym t)) :
    (s.setTab t m).ctxEn = s.ctxEn := by cases t <;> rfl
@[simp] theorem State.setTab_ctxAz (s : State) (t : Tab) (m : TableMem (nsym t)) :
    (s.setTab t m).ctxAz = s.ctxAz := by cases t <;> rfl
@[simp] theorem State.setTab_ecPhase (s : State) (t : Tab) (m : TableMem (nsym t)) :
    (s.setTab t m).ecPhase = s.ecPhase := by cases t <;> rfl
@[simp] theorem State.setTab_runCnt (s : State) (t : Tab) (m : TableMem (nsym t)) :
    (s.setTab t m).runCnt = s.runCnt := by cases t <;> rfl
@[simp] theorem State.setTab_rl (s : State) (t : Tab) (m : TableMem (nsym t)) :
    (s.setTab t m).rl = s.rl := by cases t <;> rfl
@[simp] theorem State.setTab_encRem (s : State) (t : Tab) (m : TableMem (nsym t)) :
    (s.setTab t m).encRem = s.encRem := by cases t <;> rfl
@[simp] theorem State.setTab_encLastz (s : State) (t : Tab) (m : TableMem (nsym t)) :
    (s.setTab t m).encLastz = s.encLastz := by cases t <;> rfl
@[simp] theorem State.setTab_zpend (s : State) (t : Tab) (m : TableMem (nsym t)) :
    (s.setTab t m).zpend = s.zpend := by cases t <;> rfl
@[simp] theorem State.setTab_eos (s : State) (t : Tab) (m : TableMem (nsym t)) :
    (s.setTab t m).eos = s.eos := by cases t <;> rfl
@[simp] theorem State.setTab_cache (s : State) (t : Tab) (m : TableMem (nsym t)) :
    (s.setTab t m).cache = s.cache := by cases t <;> rfl
@[simp] theorem State.setTab_cur (s : State) (t : Tab) (m : TableMem (nsym t)) :
    (s.setTab t m).cur = s.cur := by cases t <;> rfl
@[simp] theorem State.setTab_lzPhase (s : State) (t : Tab) (m : TableMem (nsym t)) :
    (s.setTab t m).lzPhase = s.lzPhase := by cases t <;> rfl
@[simp] theorem State.setTab_err (s : State) (t : Tab) (m : TableMem (nsym t)) :
    (s.setTab t m).err = s.err := by cases t <;> rfl
@[simp] theorem State.setTab_errinfo (s : State) (t : Tab) (m : TableMem (nsym t)) :
    (s.setTab t m).errinfo = s.errinfo := by cases t <;> rfl
@[simp] theorem State.setTab_chanOut (s : State) (t : Tab) (m : TableMem (nsym t)) :
    (s.setTab t m).chanOut = s.chanOut := by cases t <;> rfl
@[simp] theorem State.setTab_chanIn (s : State) (t : Tab) (m : TableMem (nsym t)) :
    (s.setTab t m).chanIn = s.chanIn := by cases t <;> rfl
@[simp] theorem State.setTab_pending (s : State) (t : Tab) (m : TableMem (nsym t)) :
    (s.setTab t m).pending = s.pending := by cases t <;> rfl
@[simp] theorem State.setTab_rdata (s : State) (t : Tab) (m : TableMem (nsym t)) :
    (s.setTab t m).rdata = s.rdata := by cases t <;> rfl
@[simp] theorem State.setTab_freeCtr (s : State) (t : Tab) (m : TableMem (nsym t)) :
    (s.setTab t m).freeCtr = s.freeCtr := by cases t <;> rfl

/-! ### `histClear` -/

@[simp] theorem histClear_arg0 (t : Tab) (s : State) :
    (histClear t s).arg0 = s.arg0 := by cases t <;> rfl
@[simp] theorem histClear_arg1 (t : Tab) (s : State) :
    (histClear t s).arg1 = s.arg1 := by cases t <;> rfl
@[simp] theorem histClear_res0 (t : Tab) (s : State) :
    (histClear t s).res0 = s.res0 := by cases t <;> rfl
@[simp] theorem histClear_res1 (t : Tab) (s : State) :
    (histClear t s).res1 = s.res1 := by cases t <;> rfl
@[simp] theorem histClear_bitsOut (t : Tab) (s : State) :
    (histClear t s).bitsOut = s.bitsOut := by cases t <;> rfl
@[simp] theorem histClear_bitsIn (t : Tab) (s : State) :
    (histClear t s).bitsIn = s.bitsIn := by cases t <;> rfl
@[simp] theorem histClear_xsize (t : Tab) (s : State) :
    (histClear t s).xsize = s.xsize := by cases t <;> rfl
@[simp] theorem histClear_ysize (t : Tab) (s : State) :
    (histClear t s).ysize = s.ysize := by cases t <;> rfl
@[simp] theorem histClear_ctxEn (t : Tab) (s : State) :
    (histClear t s).ctxEn = s.ctxEn := by cases t <;> rfl
@[simp] theorem histClear_ctxAz (t : Tab) (s : State) :
    (histClear t s).ctxAz = s.ctxAz := by cases t <;> rfl
@[simp] theorem histClear_ecPhase (t : Tab) (s : State) :
    (histClear t s).ecPhase = s.ecPhase := by cases t <;> rfl
@[simp] theorem histClear_runCnt (t : Tab) (s : State) :
    (histClear t s).runCnt = s.runCnt := by cases t <;> rfl
@[simp] theorem histClear_rl (t : Tab) (s : State) : (histClear t s).rl = s.rl := by cases t <;> rfl
@[simp] theorem histClear_encRem (t : Tab) (s : State) :
    (histClear t s).encRem = s.encRem := by cases t <;> rfl
@[simp] theorem histClear_encLastz (t : Tab) (s : State) :
    (histClear t s).encLastz = s.encLastz := by cases t <;> rfl
@[simp] theorem histClear_zpend (t : Tab) (s : State) :
    (histClear t s).zpend = s.zpend := by cases t <;> rfl
@[simp] theorem histClear_eos (t : Tab) (s : State) :
    (histClear t s).eos = s.eos := by cases t <;> rfl
@[simp] theorem histClear_cache (t : Tab) (s : State) :
    (histClear t s).cache = s.cache := by cases t <;> rfl
@[simp] theorem histClear_cur (t : Tab) (s : State) :
    (histClear t s).cur = s.cur := by cases t <;> rfl
@[simp] theorem histClear_lzPhase (t : Tab) (s : State) :
    (histClear t s).lzPhase = s.lzPhase := by cases t <;> rfl
@[simp] theorem histClear_err (t : Tab) (s : State) :
    (histClear t s).err = s.err := by cases t <;> rfl
@[simp] theorem histClear_errinfo (t : Tab) (s : State) :
    (histClear t s).errinfo = s.errinfo := by cases t <;> rfl
@[simp] theorem histClear_chanOut (t : Tab) (s : State) :
    (histClear t s).chanOut = s.chanOut := by cases t <;> rfl
@[simp] theorem histClear_chanIn (t : Tab) (s : State) :
    (histClear t s).chanIn = s.chanIn := by cases t <;> rfl
@[simp] theorem histClear_pending (t : Tab) (s : State) :
    (histClear t s).pending = s.pending := by cases t <;> rfl
@[simp] theorem histClear_rdata (t : Tab) (s : State) :
    (histClear t s).rdata = s.rdata := by cases t <;> rfl
@[simp] theorem histClear_freeCtr (t : Tab) (s : State) :
    (histClear t s).freeCtr = s.freeCtr := by cases t <;> rfl
@[simp] theorem histClear_tab (t : Tab) (s : State) :
    (histClear t s).tab t = TableMem.cleared (nsym t) := by cases t <;> rfl
/-- Clearing one table leaves the others. -/
theorem histClear_tab_ne (s : State) {t u : Tab} (h : u ≠ t) : (histClear t s).tab u = s.tab u :=
  State.tab_setTab_ne s _ h

/-! ### `setRes0` -/

@[simp] theorem State.setRes0_arg0 (s : State) (v : Nat) : (s.setRes0 v).arg0 = s.arg0 := rfl
@[simp] theorem State.setRes0_arg1 (s : State) (v : Nat) : (s.setRes0 v).arg1 = s.arg1 := rfl
@[simp] theorem State.setRes0_res0 (s : State) (v : Nat) :
    (s.setRes0 v).res0 = BitVec.ofNat 32 v := rfl
@[simp] theorem State.setRes0_res1 (s : State) (v : Nat) : (s.setRes0 v).res1 = s.res1 := rfl
@[simp] theorem State.setRes0_bitsOut (s : State) (v : Nat) :
    (s.setRes0 v).bitsOut = s.bitsOut := rfl
@[simp] theorem State.setRes0_bitsIn (s : State) (v : Nat) : (s.setRes0 v).bitsIn = s.bitsIn := rfl
@[simp] theorem State.setRes0_xsize (s : State) (v : Nat) : (s.setRes0 v).xsize = s.xsize := rfl
@[simp] theorem State.setRes0_ysize (s : State) (v : Nat) : (s.setRes0 v).ysize = s.ysize := rfl
@[simp] theorem State.setRes0_tabBz (s : State) (v : Nat) : (s.setRes0 v).tabBz = s.tabBz := rfl
@[simp] theorem State.setRes0_tabAz (s : State) (v : Nat) : (s.setRes0 v).tabAz = s.tabAz := rfl
@[simp] theorem State.setRes0_tabLen (s : State) (v : Nat) : (s.setRes0 v).tabLen = s.tabLen := rfl
@[simp] theorem State.setRes0_tabSd (s : State) (v : Nat) : (s.setRes0 v).tabSd = s.tabSd := rfl
@[simp] theorem State.setRes0_tabLd (s : State) (v : Nat) : (s.setRes0 v).tabLd = s.tabLd := rfl
@[simp] theorem State.setRes0_ctxEn (s : State) (v : Nat) : (s.setRes0 v).ctxEn = s.ctxEn := rfl
@[simp] theorem State.setRes0_ctxAz (s : State) (v : Nat) : (s.setRes0 v).ctxAz = s.ctxAz := rfl
@[simp] theorem State.setRes0_ecPhase (s : State) (v : Nat) :
    (s.setRes0 v).ecPhase = s.ecPhase := rfl
@[simp] theorem State.setRes0_runCnt (s : State) (v : Nat) : (s.setRes0 v).runCnt = s.runCnt := rfl
@[simp] theorem State.setRes0_rl (s : State) (v : Nat) : (s.setRes0 v).rl = s.rl := rfl
@[simp] theorem State.setRes0_encRem (s : State) (v : Nat) : (s.setRes0 v).encRem = s.encRem := rfl
@[simp] theorem State.setRes0_encLastz (s : State) (v : Nat) :
    (s.setRes0 v).encLastz = s.encLastz := rfl
@[simp] theorem State.setRes0_zpend (s : State) (v : Nat) : (s.setRes0 v).zpend = s.zpend := rfl
@[simp] theorem State.setRes0_eos (s : State) (v : Nat) : (s.setRes0 v).eos = s.eos := rfl
@[simp] theorem State.setRes0_cache (s : State) (v : Nat) : (s.setRes0 v).cache = s.cache := rfl
@[simp] theorem State.setRes0_cur (s : State) (v : Nat) : (s.setRes0 v).cur = s.cur := rfl
@[simp] theorem State.setRes0_lzPhase (s : State) (v : Nat) :
    (s.setRes0 v).lzPhase = s.lzPhase := rfl
@[simp] theorem State.setRes0_err (s : State) (v : Nat) : (s.setRes0 v).err = s.err := rfl
@[simp] theorem State.setRes0_errinfo (s : State) (v : Nat) :
    (s.setRes0 v).errinfo = s.errinfo := rfl
@[simp] theorem State.setRes0_chanOut (s : State) (v : Nat) :
    (s.setRes0 v).chanOut = s.chanOut := rfl
@[simp] theorem State.setRes0_chanIn (s : State) (v : Nat) : (s.setRes0 v).chanIn = s.chanIn := rfl
@[simp] theorem State.setRes0_pending (s : State) (v : Nat) :
    (s.setRes0 v).pending = s.pending := rfl
@[simp] theorem State.setRes0_rdata (s : State) (v : Nat) : (s.setRes0 v).rdata = s.rdata := rfl
@[simp] theorem State.setRes0_freeCtr (s : State) (v : Nat) :
    (s.setRes0 v).freeCtr = s.freeCtr := rfl
@[simp] theorem State.setRes0_tab (s : State) (v : Nat) (u : Tab) :
    (s.setRes0 v).tab u = s.tab u := by cases u <;> rfl

/-! ### `setRes1` -/

@[simp] theorem State.setRes1_arg0 (s : State) (v : Nat) : (s.setRes1 v).arg0 = s.arg0 := rfl
@[simp] theorem State.setRes1_arg1 (s : State) (v : Nat) : (s.setRes1 v).arg1 = s.arg1 := rfl
@[simp] theorem State.setRes1_res0 (s : State) (v : Nat) : (s.setRes1 v).res0 = s.res0 := rfl
@[simp] theorem State.setRes1_res1 (s : State) (v : Nat) :
    (s.setRes1 v).res1 = BitVec.ofNat 32 v := rfl
@[simp] theorem State.setRes1_bitsOut (s : State) (v : Nat) :
    (s.setRes1 v).bitsOut = s.bitsOut := rfl
@[simp] theorem State.setRes1_bitsIn (s : State) (v : Nat) : (s.setRes1 v).bitsIn = s.bitsIn := rfl
@[simp] theorem State.setRes1_xsize (s : State) (v : Nat) : (s.setRes1 v).xsize = s.xsize := rfl
@[simp] theorem State.setRes1_ysize (s : State) (v : Nat) : (s.setRes1 v).ysize = s.ysize := rfl
@[simp] theorem State.setRes1_tabBz (s : State) (v : Nat) : (s.setRes1 v).tabBz = s.tabBz := rfl
@[simp] theorem State.setRes1_tabAz (s : State) (v : Nat) : (s.setRes1 v).tabAz = s.tabAz := rfl
@[simp] theorem State.setRes1_tabLen (s : State) (v : Nat) : (s.setRes1 v).tabLen = s.tabLen := rfl
@[simp] theorem State.setRes1_tabSd (s : State) (v : Nat) : (s.setRes1 v).tabSd = s.tabSd := rfl
@[simp] theorem State.setRes1_tabLd (s : State) (v : Nat) : (s.setRes1 v).tabLd = s.tabLd := rfl
@[simp] theorem State.setRes1_ctxEn (s : State) (v : Nat) : (s.setRes1 v).ctxEn = s.ctxEn := rfl
@[simp] theorem State.setRes1_ctxAz (s : State) (v : Nat) : (s.setRes1 v).ctxAz = s.ctxAz := rfl
@[simp] theorem State.setRes1_ecPhase (s : State) (v : Nat) :
    (s.setRes1 v).ecPhase = s.ecPhase := rfl
@[simp] theorem State.setRes1_runCnt (s : State) (v : Nat) : (s.setRes1 v).runCnt = s.runCnt := rfl
@[simp] theorem State.setRes1_rl (s : State) (v : Nat) : (s.setRes1 v).rl = s.rl := rfl
@[simp] theorem State.setRes1_encRem (s : State) (v : Nat) : (s.setRes1 v).encRem = s.encRem := rfl
@[simp] theorem State.setRes1_encLastz (s : State) (v : Nat) :
    (s.setRes1 v).encLastz = s.encLastz := rfl
@[simp] theorem State.setRes1_zpend (s : State) (v : Nat) : (s.setRes1 v).zpend = s.zpend := rfl
@[simp] theorem State.setRes1_eos (s : State) (v : Nat) : (s.setRes1 v).eos = s.eos := rfl
@[simp] theorem State.setRes1_cache (s : State) (v : Nat) : (s.setRes1 v).cache = s.cache := rfl
@[simp] theorem State.setRes1_cur (s : State) (v : Nat) : (s.setRes1 v).cur = s.cur := rfl
@[simp] theorem State.setRes1_lzPhase (s : State) (v : Nat) :
    (s.setRes1 v).lzPhase = s.lzPhase := rfl
@[simp] theorem State.setRes1_err (s : State) (v : Nat) : (s.setRes1 v).err = s.err := rfl
@[simp] theorem State.setRes1_errinfo (s : State) (v : Nat) :
    (s.setRes1 v).errinfo = s.errinfo := rfl
@[simp] theorem State.setRes1_chanOut (s : State) (v : Nat) :
    (s.setRes1 v).chanOut = s.chanOut := rfl
@[simp] theorem State.setRes1_chanIn (s : State) (v : Nat) : (s.setRes1 v).chanIn = s.chanIn := rfl
@[simp] theorem State.setRes1_pending (s : State) (v : Nat) :
    (s.setRes1 v).pending = s.pending := rfl
@[simp] theorem State.setRes1_rdata (s : State) (v : Nat) : (s.setRes1 v).rdata = s.rdata := rfl
@[simp] theorem State.setRes1_freeCtr (s : State) (v : Nat) :
    (s.setRes1 v).freeCtr = s.freeCtr := rfl
@[simp] theorem State.setRes1_tab (s : State) (v : Nat) (u : Tab) :
    (s.setRes1 v).tab u = s.tab u := by cases u <;> rfl

/-! ### `writeBits` -/

@[simp] theorem writeBits_arg0 (v n : Nat) (s : State) : (writeBits v n s).arg0 = s.arg0 := rfl
@[simp] theorem writeBits_arg1 (v n : Nat) (s : State) : (writeBits v n s).arg1 = s.arg1 := rfl
@[simp] theorem writeBits_res0 (v n : Nat) (s : State) : (writeBits v n s).res0 = s.res0 := rfl
@[simp] theorem writeBits_res1 (v n : Nat) (s : State) : (writeBits v n s).res1 = s.res1 := rfl
@[simp] theorem writeBits_bitsOut (v n : Nat) (s : State) :
    (writeBits v n s).bitsOut = s.bitsOut + BitVec.ofNat 32 n := rfl
@[simp] theorem writeBits_bitsIn (v n : Nat) (s : State) :
    (writeBits v n s).bitsIn = s.bitsIn := rfl
@[simp] theorem writeBits_xsize (v n : Nat) (s : State) : (writeBits v n s).xsize = s.xsize := rfl
@[simp] theorem writeBits_ysize (v n : Nat) (s : State) : (writeBits v n s).ysize = s.ysize := rfl
@[simp] theorem writeBits_tabBz (v n : Nat) (s : State) : (writeBits v n s).tabBz = s.tabBz := rfl
@[simp] theorem writeBits_tabAz (v n : Nat) (s : State) : (writeBits v n s).tabAz = s.tabAz := rfl
@[simp] theorem writeBits_tabLen (v n : Nat) (s : State) :
    (writeBits v n s).tabLen = s.tabLen := rfl
@[simp] theorem writeBits_tabSd (v n : Nat) (s : State) : (writeBits v n s).tabSd = s.tabSd := rfl
@[simp] theorem writeBits_tabLd (v n : Nat) (s : State) : (writeBits v n s).tabLd = s.tabLd := rfl
@[simp] theorem writeBits_ctxEn (v n : Nat) (s : State) : (writeBits v n s).ctxEn = s.ctxEn := rfl
@[simp] theorem writeBits_ctxAz (v n : Nat) (s : State) : (writeBits v n s).ctxAz = s.ctxAz := rfl
@[simp] theorem writeBits_ecPhase (v n : Nat) (s : State) :
    (writeBits v n s).ecPhase = s.ecPhase := rfl
@[simp] theorem writeBits_runCnt (v n : Nat) (s : State) :
    (writeBits v n s).runCnt = s.runCnt := rfl
@[simp] theorem writeBits_rl (v n : Nat) (s : State) : (writeBits v n s).rl = s.rl := rfl
@[simp] theorem writeBits_encRem (v n : Nat) (s : State) :
    (writeBits v n s).encRem = s.encRem := rfl
@[simp] theorem writeBits_encLastz (v n : Nat) (s : State) :
    (writeBits v n s).encLastz = s.encLastz := rfl
@[simp] theorem writeBits_zpend (v n : Nat) (s : State) : (writeBits v n s).zpend = s.zpend := rfl
@[simp] theorem writeBits_eos (v n : Nat) (s : State) : (writeBits v n s).eos = s.eos := rfl
@[simp] theorem writeBits_cache (v n : Nat) (s : State) : (writeBits v n s).cache = s.cache := rfl
@[simp] theorem writeBits_cur (v n : Nat) (s : State) : (writeBits v n s).cur = s.cur := rfl
@[simp] theorem writeBits_lzPhase (v n : Nat) (s : State) :
    (writeBits v n s).lzPhase = s.lzPhase := rfl
@[simp] theorem writeBits_err (v n : Nat) (s : State) : (writeBits v n s).err = s.err := rfl
@[simp] theorem writeBits_errinfo (v n : Nat) (s : State) :
    (writeBits v n s).errinfo = s.errinfo := rfl
@[simp] theorem writeBits_chanOut (v n : Nat) (s : State) :
    (writeBits v n s).chanOut = s.chanOut ++ bitsMsb n v := rfl
@[simp] theorem writeBits_chanIn (v n : Nat) (s : State) :
    (writeBits v n s).chanIn = s.chanIn := rfl
@[simp] theorem writeBits_pending (v n : Nat) (s : State) :
    (writeBits v n s).pending = s.pending := rfl
@[simp] theorem writeBits_rdata (v n : Nat) (s : State) : (writeBits v n s).rdata = s.rdata := rfl
@[simp] theorem writeBits_freeCtr (v n : Nat) (s : State) :
    (writeBits v n s).freeCtr = s.freeCtr := rfl
@[simp] theorem writeBits_tab (v n : Nat) (s : State) (u : Tab) :
    (writeBits v n s).tab u = s.tab u := by cases u <;> rfl

/-! ### `cachePush` -/

@[simp] theorem cachePush_arg0 (d : Half) (s : State) : (cachePush d s).arg0 = s.arg0 := rfl
@[simp] theorem cachePush_arg1 (d : Half) (s : State) : (cachePush d s).arg1 = s.arg1 := rfl
@[simp] theorem cachePush_res0 (d : Half) (s : State) : (cachePush d s).res0 = s.res0 := rfl
@[simp] theorem cachePush_res1 (d : Half) (s : State) : (cachePush d s).res1 = s.res1 := rfl
@[simp] theorem cachePush_bitsOut (d : Half) (s : State) :
    (cachePush d s).bitsOut = s.bitsOut := rfl
@[simp] theorem cachePush_bitsIn (d : Half) (s : State) : (cachePush d s).bitsIn = s.bitsIn := rfl
@[simp] theorem cachePush_xsize (d : Half) (s : State) : (cachePush d s).xsize = s.xsize := rfl
@[simp] theorem cachePush_ysize (d : Half) (s : State) : (cachePush d s).ysize = s.ysize := rfl
@[simp] theorem cachePush_tabBz (d : Half) (s : State) : (cachePush d s).tabBz = s.tabBz := rfl
@[simp] theorem cachePush_tabAz (d : Half) (s : State) : (cachePush d s).tabAz = s.tabAz := rfl
@[simp] theorem cachePush_tabLen (d : Half) (s : State) : (cachePush d s).tabLen = s.tabLen := rfl
@[simp] theorem cachePush_tabSd (d : Half) (s : State) : (cachePush d s).tabSd = s.tabSd := rfl
@[simp] theorem cachePush_tabLd (d : Half) (s : State) : (cachePush d s).tabLd = s.tabLd := rfl
@[simp] theorem cachePush_ctxEn (d : Half) (s : State) : (cachePush d s).ctxEn = s.ctxEn := rfl
@[simp] theorem cachePush_ctxAz (d : Half) (s : State) : (cachePush d s).ctxAz = s.ctxAz := rfl
@[simp] theorem cachePush_ecPhase (d : Half) (s : State) :
    (cachePush d s).ecPhase = s.ecPhase := rfl
@[simp] theorem cachePush_runCnt (d : Half) (s : State) : (cachePush d s).runCnt = s.runCnt := rfl
@[simp] theorem cachePush_rl (d : Half) (s : State) : (cachePush d s).rl = s.rl := rfl
@[simp] theorem cachePush_encRem (d : Half) (s : State) : (cachePush d s).encRem = s.encRem := rfl
@[simp] theorem cachePush_encLastz (d : Half) (s : State) :
    (cachePush d s).encLastz = s.encLastz := rfl
@[simp] theorem cachePush_zpend (d : Half) (s : State) : (cachePush d s).zpend = s.zpend := rfl
@[simp] theorem cachePush_eos (d : Half) (s : State) : (cachePush d s).eos = s.eos := rfl
@[simp] theorem cachePush_cache (d : Half) (s : State) :
    (cachePush d s).cache = s.cache.set s.cur.toNat d := rfl
@[simp] theorem cachePush_cur (d : Half) (s : State) : (cachePush d s).cur = s.cur + 1 := rfl
@[simp] theorem cachePush_lzPhase (d : Half) (s : State) :
    (cachePush d s).lzPhase = s.lzPhase := rfl
@[simp] theorem cachePush_err (d : Half) (s : State) : (cachePush d s).err = s.err := rfl
@[simp] theorem cachePush_errinfo (d : Half) (s : State) :
    (cachePush d s).errinfo = s.errinfo := rfl
@[simp] theorem cachePush_chanOut (d : Half) (s : State) :
    (cachePush d s).chanOut = s.chanOut := rfl
@[simp] theorem cachePush_chanIn (d : Half) (s : State) : (cachePush d s).chanIn = s.chanIn := rfl
@[simp] theorem cachePush_pending (d : Half) (s : State) :
    (cachePush d s).pending = s.pending := rfl
@[simp] theorem cachePush_rdata (d : Half) (s : State) : (cachePush d s).rdata = s.rdata := rfl
@[simp] theorem cachePush_freeCtr (d : Half) (s : State) :
    (cachePush d s).freeCtr = s.freeCtr := rfl
@[simp] theorem cachePush_tab (d : Half) (s : State) (u : Tab) :
    (cachePush d s).tab u = s.tab u := by cases u <;> rfl

/-! ### `cacheClear` -/

@[simp] theorem cacheClear_arg0 (s : State) : (cacheClear s).arg0 = s.arg0 := rfl
@[simp] theorem cacheClear_arg1 (s : State) : (cacheClear s).arg1 = s.arg1 := rfl
@[simp] theorem cacheClear_res0 (s : State) : (cacheClear s).res0 = s.res0 := rfl
@[simp] theorem cacheClear_res1 (s : State) : (cacheClear s).res1 = s.res1 := rfl
@[simp] theorem cacheClear_bitsOut (s : State) : (cacheClear s).bitsOut = s.bitsOut := rfl
@[simp] theorem cacheClear_bitsIn (s : State) : (cacheClear s).bitsIn = s.bitsIn := rfl
@[simp] theorem cacheClear_xsize (s : State) : (cacheClear s).xsize = s.xsize := rfl
@[simp] theorem cacheClear_ysize (s : State) : (cacheClear s).ysize = s.ysize := rfl
@[simp] theorem cacheClear_tabBz (s : State) : (cacheClear s).tabBz = s.tabBz := rfl
@[simp] theorem cacheClear_tabAz (s : State) : (cacheClear s).tabAz = s.tabAz := rfl
@[simp] theorem cacheClear_tabLen (s : State) : (cacheClear s).tabLen = s.tabLen := rfl
@[simp] theorem cacheClear_tabSd (s : State) : (cacheClear s).tabSd = s.tabSd := rfl
@[simp] theorem cacheClear_tabLd (s : State) : (cacheClear s).tabLd = s.tabLd := rfl
@[simp] theorem cacheClear_ctxEn (s : State) : (cacheClear s).ctxEn = s.ctxEn := rfl
@[simp] theorem cacheClear_ctxAz (s : State) : (cacheClear s).ctxAz = s.ctxAz := rfl
@[simp] theorem cacheClear_ecPhase (s : State) : (cacheClear s).ecPhase = s.ecPhase := rfl
@[simp] theorem cacheClear_runCnt (s : State) : (cacheClear s).runCnt = s.runCnt := rfl
@[simp] theorem cacheClear_rl (s : State) : (cacheClear s).rl = s.rl := rfl
@[simp] theorem cacheClear_encRem (s : State) : (cacheClear s).encRem = s.encRem := rfl
@[simp] theorem cacheClear_encLastz (s : State) : (cacheClear s).encLastz = s.encLastz := rfl
@[simp] theorem cacheClear_zpend (s : State) : (cacheClear s).zpend = s.zpend := rfl
@[simp] theorem cacheClear_eos (s : State) : (cacheClear s).eos = s.eos := rfl
@[simp] theorem cacheClear_cache (s : State) : (cacheClear s).cache = Vector.replicate 4 0 := rfl
@[simp] theorem cacheClear_cur (s : State) : (cacheClear s).cur = 0 := rfl
@[simp] theorem cacheClear_lzPhase (s : State) : (cacheClear s).lzPhase = s.lzPhase := rfl
@[simp] theorem cacheClear_err (s : State) : (cacheClear s).err = s.err := rfl
@[simp] theorem cacheClear_errinfo (s : State) : (cacheClear s).errinfo = s.errinfo := rfl
@[simp] theorem cacheClear_chanOut (s : State) : (cacheClear s).chanOut = s.chanOut := rfl
@[simp] theorem cacheClear_chanIn (s : State) : (cacheClear s).chanIn = s.chanIn := rfl
@[simp] theorem cacheClear_pending (s : State) : (cacheClear s).pending = s.pending := rfl
@[simp] theorem cacheClear_rdata (s : State) : (cacheClear s).rdata = s.rdata := rfl
@[simp] theorem cacheClear_freeCtr (s : State) : (cacheClear s).freeCtr = s.freeCtr := rfl
@[simp] theorem cacheClear_tab (s : State) (u : Tab) :
    (cacheClear s).tab u = s.tab u := by cases u <;> rfl

/-! ### `ctxAfter` -/

@[simp] theorem ctxAfter_arg0 (sym : Nat) (s : State) : (ctxAfter sym s).arg0 = s.arg0 := rfl
@[simp] theorem ctxAfter_arg1 (sym : Nat) (s : State) : (ctxAfter sym s).arg1 = s.arg1 := rfl
@[simp] theorem ctxAfter_res0 (sym : Nat) (s : State) : (ctxAfter sym s).res0 = s.res0 := rfl
@[simp] theorem ctxAfter_res1 (sym : Nat) (s : State) : (ctxAfter sym s).res1 = s.res1 := rfl
@[simp] theorem ctxAfter_bitsOut (sym : Nat) (s : State) :
    (ctxAfter sym s).bitsOut = s.bitsOut := rfl
@[simp] theorem ctxAfter_bitsIn (sym : Nat) (s : State) : (ctxAfter sym s).bitsIn = s.bitsIn := rfl
@[simp] theorem ctxAfter_xsize (sym : Nat) (s : State) : (ctxAfter sym s).xsize = s.xsize := rfl
@[simp] theorem ctxAfter_ysize (sym : Nat) (s : State) : (ctxAfter sym s).ysize = s.ysize := rfl
@[simp] theorem ctxAfter_tabBz (sym : Nat) (s : State) : (ctxAfter sym s).tabBz = s.tabBz := rfl
@[simp] theorem ctxAfter_tabAz (sym : Nat) (s : State) : (ctxAfter sym s).tabAz = s.tabAz := rfl
@[simp] theorem ctxAfter_tabLen (sym : Nat) (s : State) : (ctxAfter sym s).tabLen = s.tabLen := rfl
@[simp] theorem ctxAfter_tabSd (sym : Nat) (s : State) : (ctxAfter sym s).tabSd = s.tabSd := rfl
@[simp] theorem ctxAfter_tabLd (sym : Nat) (s : State) : (ctxAfter sym s).tabLd = s.tabLd := rfl
@[simp] theorem ctxAfter_ctxEn (sym : Nat) (s : State) : (ctxAfter sym s).ctxEn = s.ctxEn := rfl
@[simp] theorem ctxAfter_ctxAz (sym : Nat) (s : State) :
    (ctxAfter sym s).ctxAz = (s.ctxEn && decide (256 ≤ sym) && decide (sym < 383)) := rfl
@[simp] theorem ctxAfter_ecPhase (sym : Nat) (s : State) :
    (ctxAfter sym s).ecPhase = s.ecPhase := rfl
@[simp] theorem ctxAfter_runCnt (sym : Nat) (s : State) : (ctxAfter sym s).runCnt = s.runCnt := rfl
@[simp] theorem ctxAfter_rl (sym : Nat) (s : State) : (ctxAfter sym s).rl = s.rl := rfl
@[simp] theorem ctxAfter_encRem (sym : Nat) (s : State) : (ctxAfter sym s).encRem = s.encRem := rfl
@[simp] theorem ctxAfter_encLastz (sym : Nat) (s : State) :
    (ctxAfter sym s).encLastz = s.encLastz := rfl
@[simp] theorem ctxAfter_zpend (sym : Nat) (s : State) : (ctxAfter sym s).zpend = s.zpend := rfl
@[simp] theorem ctxAfter_eos (sym : Nat) (s : State) : (ctxAfter sym s).eos = s.eos := rfl
@[simp] theorem ctxAfter_cache (sym : Nat) (s : State) : (ctxAfter sym s).cache = s.cache := rfl
@[simp] theorem ctxAfter_cur (sym : Nat) (s : State) : (ctxAfter sym s).cur = s.cur := rfl
@[simp] theorem ctxAfter_lzPhase (sym : Nat) (s : State) :
    (ctxAfter sym s).lzPhase = s.lzPhase := rfl
@[simp] theorem ctxAfter_err (sym : Nat) (s : State) : (ctxAfter sym s).err = s.err := rfl
@[simp] theorem ctxAfter_errinfo (sym : Nat) (s : State) :
    (ctxAfter sym s).errinfo = s.errinfo := rfl
@[simp] theorem ctxAfter_chanOut (sym : Nat) (s : State) :
    (ctxAfter sym s).chanOut = s.chanOut := rfl
@[simp] theorem ctxAfter_chanIn (sym : Nat) (s : State) : (ctxAfter sym s).chanIn = s.chanIn := rfl
@[simp] theorem ctxAfter_pending (sym : Nat) (s : State) :
    (ctxAfter sym s).pending = s.pending := rfl
@[simp] theorem ctxAfter_rdata (sym : Nat) (s : State) : (ctxAfter sym s).rdata = s.rdata := rfl
@[simp] theorem ctxAfter_freeCtr (sym : Nat) (s : State) :
    (ctxAfter sym s).freeCtr = s.freeCtr := rfl
@[simp] theorem ctxAfter_tab (sym : Nat) (s : State) (u : Tab) :
    (ctxAfter sym s).tab u = s.tab u := by cases u <;> rfl

/-! ### `entropyRestart` -/

@[simp] theorem entropyRestart_arg0 (c : Bool) (s : State) :
    (entropyRestart c s).arg0 = s.arg0 := rfl
@[simp] theorem entropyRestart_arg1 (c : Bool) (s : State) :
    (entropyRestart c s).arg1 = s.arg1 := rfl
@[simp] theorem entropyRestart_res0 (c : Bool) (s : State) :
    (entropyRestart c s).res0 = s.res0 := rfl
@[simp] theorem entropyRestart_res1 (c : Bool) (s : State) :
    (entropyRestart c s).res1 = s.res1 := rfl
@[simp] theorem entropyRestart_bitsOut (c : Bool) (s : State) :
    (entropyRestart c s).bitsOut = s.bitsOut := rfl
@[simp] theorem entropyRestart_bitsIn (c : Bool) (s : State) :
    (entropyRestart c s).bitsIn = s.bitsIn := rfl
@[simp] theorem entropyRestart_xsize (c : Bool) (s : State) :
    (entropyRestart c s).xsize = s.xsize := rfl
@[simp] theorem entropyRestart_ysize (c : Bool) (s : State) :
    (entropyRestart c s).ysize = s.ysize := rfl
@[simp] theorem entropyRestart_tabBz (c : Bool) (s : State) :
    (entropyRestart c s).tabBz = s.tabBz := rfl
@[simp] theorem entropyRestart_tabAz (c : Bool) (s : State) :
    (entropyRestart c s).tabAz = s.tabAz := rfl
@[simp] theorem entropyRestart_tabLen (c : Bool) (s : State) :
    (entropyRestart c s).tabLen = s.tabLen := rfl
@[simp] theorem entropyRestart_tabSd (c : Bool) (s : State) :
    (entropyRestart c s).tabSd = s.tabSd := rfl
@[simp] theorem entropyRestart_tabLd (c : Bool) (s : State) :
    (entropyRestart c s).tabLd = s.tabLd := rfl
@[simp] theorem entropyRestart_ctxEn (c : Bool) (s : State) : (entropyRestart c s).ctxEn = c := rfl
@[simp] theorem entropyRestart_ctxAz (c : Bool) (s : State) :
    (entropyRestart c s).ctxAz = false := rfl
@[simp] theorem entropyRestart_ecPhase (c : Bool) (s : State) :
    (entropyRestart c s).ecPhase = s.ecPhase := rfl
@[simp] theorem entropyRestart_runCnt (c : Bool) (s : State) :
    (entropyRestart c s).runCnt = 0 := rfl
@[simp] theorem entropyRestart_rl (c : Bool) (s : State) : (entropyRestart c s).rl = [] := rfl
@[simp] theorem entropyRestart_encRem (c : Bool) (s : State) :
    (entropyRestart c s).encRem = 0 := rfl
@[simp] theorem entropyRestart_encLastz (c : Bool) (s : State) :
    (entropyRestart c s).encLastz = false := rfl
@[simp] theorem entropyRestart_zpend (c : Bool) (s : State) : (entropyRestart c s).zpend = 0 := rfl
@[simp] theorem entropyRestart_eos (c : Bool) (s : State) : (entropyRestart c s).eos = false := rfl
@[simp] theorem entropyRestart_cache (c : Bool) (s : State) :
    (entropyRestart c s).cache = s.cache := rfl
@[simp] theorem entropyRestart_cur (c : Bool) (s : State) : (entropyRestart c s).cur = s.cur := rfl
@[simp] theorem entropyRestart_lzPhase (c : Bool) (s : State) :
    (entropyRestart c s).lzPhase = s.lzPhase := rfl
@[simp] theorem entropyRestart_err (c : Bool) (s : State) : (entropyRestart c s).err = s.err := rfl
@[simp] theorem entropyRestart_errinfo (c : Bool) (s : State) :
    (entropyRestart c s).errinfo = s.errinfo := rfl
@[simp] theorem entropyRestart_chanOut (c : Bool) (s : State) :
    (entropyRestart c s).chanOut = s.chanOut := rfl
@[simp] theorem entropyRestart_chanIn (c : Bool) (s : State) :
    (entropyRestart c s).chanIn = s.chanIn := rfl
@[simp] theorem entropyRestart_pending (c : Bool) (s : State) :
    (entropyRestart c s).pending = s.pending := rfl
@[simp] theorem entropyRestart_rdata (c : Bool) (s : State) :
    (entropyRestart c s).rdata = s.rdata := rfl
@[simp] theorem entropyRestart_freeCtr (c : Bool) (s : State) :
    (entropyRestart c s).freeCtr = s.freeCtr := rfl
@[simp] theorem entropyRestart_tab (c : Bool) (s : State) (u : Tab) :
    (entropyRestart c s).tab u = s.tab u := by cases u <;> rfl

/-! ### `lzRestart` -/

@[simp] theorem lzRestart_arg0 (x y : Half) (s : State) : (lzRestart x y s).arg0 = s.arg0 := rfl
@[simp] theorem lzRestart_arg1 (x y : Half) (s : State) : (lzRestart x y s).arg1 = s.arg1 := rfl
@[simp] theorem lzRestart_res0 (x y : Half) (s : State) : (lzRestart x y s).res0 = s.res0 := rfl
@[simp] theorem lzRestart_res1 (x y : Half) (s : State) : (lzRestart x y s).res1 = s.res1 := rfl
@[simp] theorem lzRestart_bitsOut (x y : Half) (s : State) :
    (lzRestart x y s).bitsOut = s.bitsOut := rfl
@[simp] theorem lzRestart_bitsIn (x y : Half) (s : State) :
    (lzRestart x y s).bitsIn = s.bitsIn := rfl
@[simp] theorem lzRestart_xsize (x y : Half) (s : State) : (lzRestart x y s).xsize = x := rfl
@[simp] theorem lzRestart_ysize (x y : Half) (s : State) : (lzRestart x y s).ysize = y := rfl
@[simp] theorem lzRestart_tabBz (x y : Half) (s : State) : (lzRestart x y s).tabBz = s.tabBz := rfl
@[simp] theorem lzRestart_tabAz (x y : Half) (s : State) : (lzRestart x y s).tabAz = s.tabAz := rfl
@[simp] theorem lzRestart_tabLen (x y : Half) (s : State) :
    (lzRestart x y s).tabLen = s.tabLen := rfl
@[simp] theorem lzRestart_tabSd (x y : Half) (s : State) : (lzRestart x y s).tabSd = s.tabSd := rfl
@[simp] theorem lzRestart_tabLd (x y : Half) (s : State) : (lzRestart x y s).tabLd = s.tabLd := rfl
@[simp] theorem lzRestart_ctxEn (x y : Half) (s : State) : (lzRestart x y s).ctxEn = s.ctxEn := rfl
@[simp] theorem lzRestart_ctxAz (x y : Half) (s : State) : (lzRestart x y s).ctxAz = s.ctxAz := rfl
@[simp] theorem lzRestart_ecPhase (x y : Half) (s : State) :
    (lzRestart x y s).ecPhase = s.ecPhase := rfl
@[simp] theorem lzRestart_runCnt (x y : Half) (s : State) :
    (lzRestart x y s).runCnt = s.runCnt := rfl
@[simp] theorem lzRestart_rl (x y : Half) (s : State) : (lzRestart x y s).rl = s.rl := rfl
@[simp] theorem lzRestart_encRem (x y : Half) (s : State) :
    (lzRestart x y s).encRem = s.encRem := rfl
@[simp] theorem lzRestart_encLastz (x y : Half) (s : State) :
    (lzRestart x y s).encLastz = s.encLastz := rfl
@[simp] theorem lzRestart_zpend (x y : Half) (s : State) : (lzRestart x y s).zpend = s.zpend := rfl
@[simp] theorem lzRestart_eos (x y : Half) (s : State) : (lzRestart x y s).eos = s.eos := rfl
@[simp] theorem lzRestart_cache (x y : Half) (s : State) :
    (lzRestart x y s).cache = Vector.replicate 4 0 := rfl
@[simp] theorem lzRestart_cur (x y : Half) (s : State) : (lzRestart x y s).cur = 0 := rfl
@[simp] theorem lzRestart_lzPhase (x y : Half) (s : State) :
    (lzRestart x y s).lzPhase = s.lzPhase := rfl
@[simp] theorem lzRestart_err (x y : Half) (s : State) : (lzRestart x y s).err = s.err := rfl
@[simp] theorem lzRestart_errinfo (x y : Half) (s : State) :
    (lzRestart x y s).errinfo = s.errinfo := rfl
@[simp] theorem lzRestart_chanOut (x y : Half) (s : State) :
    (lzRestart x y s).chanOut = s.chanOut := rfl
@[simp] theorem lzRestart_chanIn (x y : Half) (s : State) :
    (lzRestart x y s).chanIn = s.chanIn := rfl
@[simp] theorem lzRestart_pending (x y : Half) (s : State) :
    (lzRestart x y s).pending = s.pending := rfl
@[simp] theorem lzRestart_rdata (x y : Half) (s : State) : (lzRestart x y s).rdata = s.rdata := rfl
@[simp] theorem lzRestart_freeCtr (x y : Half) (s : State) :
    (lzRestart x y s).freeCtr = s.freeCtr := rfl
@[simp] theorem lzRestart_tab (x y : Half) (s : State) (u : Tab) :
    (lzRestart x y s).tab u = s.tab u := by cases u <;> rfl

/-! ### `matchResult` -/

@[simp] theorem matchResult_arg0 (l d : Nat) (s : State) : (matchResult l d s).arg0 = s.arg0 := rfl
@[simp] theorem matchResult_arg1 (l d : Nat) (s : State) : (matchResult l d s).arg1 = s.arg1 := rfl
@[simp] theorem matchResult_res0 (l d : Nat) (s : State) :
    (matchResult l d s).res0 = BitVec.ofNat 32 l := rfl
@[simp] theorem matchResult_res1 (l d : Nat) (s : State) :
    (matchResult l d s).res1 = BitVec.ofNat 32 d := rfl
@[simp] theorem matchResult_bitsOut (l d : Nat) (s : State) :
    (matchResult l d s).bitsOut = s.bitsOut := rfl
@[simp] theorem matchResult_bitsIn (l d : Nat) (s : State) :
    (matchResult l d s).bitsIn = s.bitsIn := rfl
@[simp] theorem matchResult_xsize (l d : Nat) (s : State) :
    (matchResult l d s).xsize = s.xsize := rfl
@[simp] theorem matchResult_ysize (l d : Nat) (s : State) :
    (matchResult l d s).ysize = s.ysize := rfl
@[simp] theorem matchResult_tabBz (l d : Nat) (s : State) :
    (matchResult l d s).tabBz = s.tabBz := rfl
@[simp] theorem matchResult_tabAz (l d : Nat) (s : State) :
    (matchResult l d s).tabAz = s.tabAz := rfl
@[simp] theorem matchResult_tabLen (l d : Nat) (s : State) :
    (matchResult l d s).tabLen = s.tabLen := rfl
@[simp] theorem matchResult_tabSd (l d : Nat) (s : State) :
    (matchResult l d s).tabSd = s.tabSd := rfl
@[simp] theorem matchResult_tabLd (l d : Nat) (s : State) :
    (matchResult l d s).tabLd = s.tabLd := rfl
@[simp] theorem matchResult_ctxEn (l d : Nat) (s : State) :
    (matchResult l d s).ctxEn = s.ctxEn := rfl
@[simp] theorem matchResult_ctxAz (l d : Nat) (s : State) :
    (matchResult l d s).ctxAz = s.ctxAz := rfl
@[simp] theorem matchResult_ecPhase (l d : Nat) (s : State) :
    (matchResult l d s).ecPhase = s.ecPhase := rfl
@[simp] theorem matchResult_runCnt (l d : Nat) (s : State) :
    (matchResult l d s).runCnt = s.runCnt := rfl
@[simp] theorem matchResult_rl (l d : Nat) (s : State) : (matchResult l d s).rl = s.rl := rfl
@[simp] theorem matchResult_encRem (l d : Nat) (s : State) :
    (matchResult l d s).encRem = s.encRem := rfl
@[simp] theorem matchResult_encLastz (l d : Nat) (s : State) :
    (matchResult l d s).encLastz = s.encLastz := rfl
@[simp] theorem matchResult_zpend (l d : Nat) (s : State) :
    (matchResult l d s).zpend = s.zpend := rfl
@[simp] theorem matchResult_eos (l d : Nat) (s : State) : (matchResult l d s).eos = s.eos := rfl
@[simp] theorem matchResult_cache (l d : Nat) (s : State) :
    (matchResult l d s).cache = s.cache := rfl
@[simp] theorem matchResult_cur (l d : Nat) (s : State) : (matchResult l d s).cur = s.cur := rfl
@[simp] theorem matchResult_lzPhase (l d : Nat) (s : State) :
    (matchResult l d s).lzPhase = s.lzPhase := rfl
@[simp] theorem matchResult_err (l d : Nat) (s : State) : (matchResult l d s).err = s.err := rfl
@[simp] theorem matchResult_errinfo (l d : Nat) (s : State) :
    (matchResult l d s).errinfo = s.errinfo := rfl
@[simp] theorem matchResult_chanOut (l d : Nat) (s : State) :
    (matchResult l d s).chanOut = s.chanOut := rfl
@[simp] theorem matchResult_chanIn (l d : Nat) (s : State) :
    (matchResult l d s).chanIn = s.chanIn := rfl
@[simp] theorem matchResult_pending (l d : Nat) (s : State) :
    (matchResult l d s).pending = s.pending := rfl
@[simp] theorem matchResult_rdata (l d : Nat) (s : State) :
    (matchResult l d s).rdata = s.rdata := rfl
@[simp] theorem matchResult_freeCtr (l d : Nat) (s : State) :
    (matchResult l d s).freeCtr = s.freeCtr := rfl
@[simp] theorem matchResult_tab (l d : Nat) (s : State) (u : Tab) :
    (matchResult l d s).tab u = s.tab u := by cases u <;> rfl

/-! ### `expandRun` -/

@[simp] theorem expandRun_arg0 (sym : Nat) (s : State) : (expandRun sym s).arg0 = s.arg0 := rfl
@[simp] theorem expandRun_arg1 (sym : Nat) (s : State) : (expandRun sym s).arg1 = s.arg1 := rfl
@[simp] theorem expandRun_res0 (sym : Nat) (s : State) : (expandRun sym s).res0 = 0 := rfl
@[simp] theorem expandRun_res1 (sym : Nat) (s : State) : (expandRun sym s).res1 = s.res1 := rfl
@[simp] theorem expandRun_bitsOut (sym : Nat) (s : State) :
    (expandRun sym s).bitsOut = s.bitsOut := rfl
@[simp] theorem expandRun_bitsIn (sym : Nat) (s : State) :
    (expandRun sym s).bitsIn = s.bitsIn := rfl
@[simp] theorem expandRun_xsize (sym : Nat) (s : State) : (expandRun sym s).xsize = s.xsize := rfl
@[simp] theorem expandRun_ysize (sym : Nat) (s : State) : (expandRun sym s).ysize = s.ysize := rfl
@[simp] theorem expandRun_tabBz (sym : Nat) (s : State) : (expandRun sym s).tabBz = s.tabBz := rfl
@[simp] theorem expandRun_tabAz (sym : Nat) (s : State) : (expandRun sym s).tabAz = s.tabAz := rfl
@[simp] theorem expandRun_tabLen (sym : Nat) (s : State) :
    (expandRun sym s).tabLen = s.tabLen := rfl
@[simp] theorem expandRun_tabSd (sym : Nat) (s : State) : (expandRun sym s).tabSd = s.tabSd := rfl
@[simp] theorem expandRun_tabLd (sym : Nat) (s : State) : (expandRun sym s).tabLd = s.tabLd := rfl
@[simp] theorem expandRun_ctxEn (sym : Nat) (s : State) : (expandRun sym s).ctxEn = s.ctxEn := rfl
@[simp] theorem expandRun_ctxAz (sym : Nat) (s : State) :
    (expandRun sym s).ctxAz = (s.ctxEn && decide (256 ≤ sym) && decide (sym < 383)) := rfl
@[simp] theorem expandRun_ecPhase (sym : Nat) (s : State) :
    (expandRun sym s).ecPhase = s.ecPhase := rfl
@[simp] theorem expandRun_runCnt (sym : Nat) (s : State) :
    (expandRun sym s).runCnt = s.runCnt := rfl
@[simp] theorem expandRun_rl (sym : Nat) (s : State) : (expandRun sym s).rl = s.rl := rfl
@[simp] theorem expandRun_encRem (sym : Nat) (s : State) :
    (expandRun sym s).encRem = s.encRem := rfl
@[simp] theorem expandRun_encLastz (sym : Nat) (s : State) :
    (expandRun sym s).encLastz = s.encLastz := rfl
@[simp] theorem expandRun_zpend (sym : Nat) (s : State) :
    (expandRun sym s).zpend = BitVec.ofNat 7 (sym - 256) := rfl
@[simp] theorem expandRun_eos (sym : Nat) (s : State) : (expandRun sym s).eos = s.eos := rfl
@[simp] theorem expandRun_cache (sym : Nat) (s : State) : (expandRun sym s).cache = s.cache := rfl
@[simp] theorem expandRun_cur (sym : Nat) (s : State) : (expandRun sym s).cur = s.cur := rfl
@[simp] theorem expandRun_lzPhase (sym : Nat) (s : State) :
    (expandRun sym s).lzPhase = s.lzPhase := rfl
@[simp] theorem expandRun_err (sym : Nat) (s : State) : (expandRun sym s).err = s.err := rfl
@[simp] theorem expandRun_errinfo (sym : Nat) (s : State) :
    (expandRun sym s).errinfo = s.errinfo := rfl
@[simp] theorem expandRun_chanOut (sym : Nat) (s : State) :
    (expandRun sym s).chanOut = s.chanOut := rfl
@[simp] theorem expandRun_chanIn (sym : Nat) (s : State) :
    (expandRun sym s).chanIn = s.chanIn := rfl
@[simp] theorem expandRun_pending (sym : Nat) (s : State) :
    (expandRun sym s).pending = s.pending := rfl
@[simp] theorem expandRun_rdata (sym : Nat) (s : State) : (expandRun sym s).rdata = s.rdata := rfl
@[simp] theorem expandRun_freeCtr (sym : Nat) (s : State) :
    (expandRun sym s).freeCtr = s.freeCtr := rfl
@[simp] theorem expandRun_tab (sym : Nat) (s : State) (u : Tab) :
    (expandRun sym s).tab u = s.tab u := by cases u <;> rfl

/-! ### `scramble` -/

@[simp] theorem State.scramble_err (s : State) (op : BitVec 8) : (s.scramble op).err = s.err := rfl
@[simp] theorem State.scramble_errinfo (s : State) (op : BitVec 8) :
    (s.scramble op).errinfo = s.errinfo := rfl
@[simp] theorem State.scramble_chanOut (s : State) (op : BitVec 8) :
    (s.scramble op).chanOut = s.chanOut ++ Config.unspecifiedOut s.freeCtr op s := rfl
@[simp] theorem State.scramble_chanIn (s : State) (op : BitVec 8) :
    (s.scramble op).chanIn = s.chanIn.drop (Config.unspecifiedTaken s.freeCtr op s) := rfl
@[simp] theorem State.scramble_pending (s : State) (op : BitVec 8) :
    (s.scramble op).pending = s.pending := rfl
@[simp] theorem State.scramble_rdata (s : State) (op : BitVec 8) :
    (s.scramble op).rdata = s.rdata := rfl
@[simp] theorem State.scramble_freeCtr (s : State) (op : BitVec 8) :
    (s.scramble op).freeCtr = s.freeCtr + 1 := rfl
@[simp] theorem State.scramble_toBlock (s : State) (op : BitVec 8) :
    (s.scramble op).toBlock = Config.unspecifiedBlock s.freeCtr op s := rfl

/-! ### `resetBlock` -/

@[simp] theorem resetBlock_err (s : State) : (resetBlock s).err = false := rfl
@[simp] theorem resetBlock_errinfo (s : State) : (resetBlock s).errinfo = 0 := rfl
@[simp] theorem resetBlock_chanOut (s : State) : (resetBlock s).chanOut = s.chanOut := rfl
@[simp] theorem resetBlock_chanIn (s : State) : (resetBlock s).chanIn = s.chanIn := rfl
@[simp] theorem resetBlock_pending (s : State) : (resetBlock s).pending = s.pending := rfl
@[simp] theorem resetBlock_rdata (s : State) : (resetBlock s).rdata = s.rdata := rfl
@[simp] theorem resetBlock_freeCtr (s : State) : (resetBlock s).freeCtr = s.freeCtr := rfl
@[simp] theorem resetBlock_toBlock (s : State) : (resetBlock s).toBlock = Block.reset := rfl

/-! ### Fields of a table under its updates -/

@[simp] theorem TableMem.addOne_len {n : Nat} (m : TableMem n) (sym : Nat) : (m.addOne sym).len = m.len := rfl
@[simp] theorem TableMem.addOne_code {n : Nat} (m : TableMem n) (sym : Nat) : (m.addOne sym).code = m.code := rfl
@[simp] theorem TableMem.addOne_tstate {n : Nat} (m : TableMem n) (sym : Nat) :
    (m.addOne sym).tstate = m.tstate := rfl
@[simp] theorem TableMem.withLengths_hist {n : Nat} (m : TableMem n) (L : Vector (BitVec 5) n) :
    (m.withLengths L).hist = m.hist := rfl
@[simp] theorem TableMem.withLengths_hmax {n : Nat} (m : TableMem n) (L : Vector (BitVec 5) n) :
    (m.withLengths L).hmax = m.hmax := rfl
@[simp] theorem TableMem.withLengths_len {n : Nat} (m : TableMem n) (L : Vector (BitVec 5) n) :
    (m.withLengths L).len = L := rfl
@[simp] theorem TableMem.withLengths_code {n : Nat} (m : TableMem n) (L : Vector (BitVec 5) n) :
    (m.withLengths L).code = assignCodes L := rfl
@[simp] theorem TableMem.withLengths_tstate {n : Nat} (m : TableMem n) (L : Vector (BitVec 5) n) :
    (m.withLengths L).tstate = .valid := rfl

end Sys2Proof.Machine
end

