-- ==== Sys2Proof/Laws/Run.lean ====
section
/-! SUPPORT. Running a command: what a `do` block of raises can answer, what `runCommand` can answer, and
what a fault records. -/

namespace Sys2Proof.Machine

open Sys2Proof Host

/-! ### `Except` -/

/-- What a sequence of two steps needs to complete. -/
theorem bind_eq_ok {α β : Type} {x : Except Raise α} {f : α → Except Raise β} {b : β} :
    (x >>= f) = .ok b ↔ ∃ a, x = .ok a ∧ f a = .ok b := by
  cases x <;> simp [bind, Except.bind]

/-- Where a sequence of two steps can raise. -/
theorem bind_eq_error {α β : Type} {x : Except Raise α} {f : α → Except Raise β} {r : Raise} :
    (x >>= f) = .error r ↔ x = .error r ∨ ∃ a, x = .ok a ∧ f a = .error r := by
  cases x <;> simp [bind, Except.bind]

@[simp] theorem ok_bind {α β : Type} (a : α) (f : α → Except Raise β) :
    ((.ok a : Except Raise α) >>= f) = f a := rfl

@[simp] theorem error_bind {α β : Type} (r : Raise) (f : α → Except Raise β) :
    ((.error r : Except Raise α) >>= f) = .error r := rfl

@[simp] theorem pure_eq_ok {α : Type} (a : α) : (pure a : Except Raise α) = .ok a := rfl

/-- A condition that holds raises nothing. -/
@[simp] theorem need_of {p : Prop} [Decidable p] (h : p) (r : Raise) : need p r = .ok () := by
  simp [need, h]

/-- A condition that fails raises the fault named. -/
@[simp] theorem need_of_not {p : Prop} [Decidable p] (h : ¬ p) (r : Raise) : need p r = .error r := by
  simp [need, h]

@[simp] theorem need_eq_ok {p : Prop} [Decidable p] {r : Raise} {u : Unit} : need p r = .ok u ↔ p := by
  by_cases h : p <;> simp [need, h]

@[simp] theorem need_eq_error {p : Prop} [Decidable p] {r r' : Raise} :
    need p r = .error r' ↔ ¬ p ∧ r = r' := by
  by_cases h : p <;> simp [need, h]

/-! ### `runCommand` -/

/-- Outside the fault state a body that completes gives the next state. -/
theorem runCommand_of_ok {op : BitVec 8} {s t : State} {body : Except Raise State}
    (he : s.err = false) (h : body = .ok t) : runCommand op s body = .next t := by
  simp [runCommand, he, h]

/-- Outside the fault state a body that raises takes the fault. -/
theorem runCommand_of_error {op : BitVec 8} {s : State} {body : Except Raise State} {r : Raise}
    (he : s.err = false) (h : body = .error r) : runCommand op s body = .next (enterFault op r s) := by
  simp [runCommand, he, h]

/-- In the fault state the command is ignored (60_exceptions R190). -/
theorem runCommand_of_err {op : BitVec 8} {s : State} {body : Except Raise State}
    (he : s.err = true) : runCommand op s body = .next s := by
  simp [runCommand, he]

/-- Every state `runCommand` can answer. -/
theorem runCommand_cases {op : BitVec 8} {s t : State} {body : Except Raise State}
    (h : runCommand op s body = .next t) :
    (s.err = true ∧ t = s) ∨ (s.err = false ∧ body = .ok t)
      ∨ (s.err = false ∧ ∃ r, body = .error r ∧ t = enterFault op r s) := by
  unfold runCommand at h
  cases he : s.err <;> rw [he] at h
  · cases body with
    | ok u => exact .inr (.inl ⟨rfl, by simpa using h⟩)
    | error r => exact .inr (.inr ⟨rfl, r, rfl, by simpa using h.symm⟩)
  · exact .inl ⟨rfl, by simpa using h.symm⟩

/-- A command that leaves the block outside the fault state has completed. -/
theorem runCommand_completed {op : BitVec 8} {s t : State} {body : Except Raise State}
    (h : runCommand op s body = .next t) (ht : t.err = false) : body = .ok t := by
  rcases runCommand_cases h with ⟨he, rfl⟩ | ⟨-, hb⟩ | ⟨-, r, -, rfl⟩
  · simp [he] at ht
  · exact hb
  · simp [enterFault] at ht; split at ht <;> simp at ht

/-! ### Faults -/

@[simp] theorem enterFault_err (op : BitVec 8) (r : Raise) (s : State) : (enterFault op r s).err = true := by
  unfold enterFault; split <;> rfl

@[simp] theorem enterFault_errinfo (op : BitVec 8) (r : Raise) (s : State) :
    (enterFault op r s).errinfo = errinfoWord op r := by
  unfold enterFault; split <;> rfl

@[simp] theorem enterFault_pending (op : BitVec 8) (r : Raise) (s : State) :
    (enterFault op r s).pending = s.pending := by
  unfold enterFault; split <;> rfl

@[simp] theorem enterFault_rdata (op : BitVec 8) (r : Raise) (s : State) :
    (enterFault op r s).rdata = s.rdata := by
  unfold enterFault; split <;> rfl

/-- Each class and code is in the range of 60_exceptions R186, R187. -/
theorem Raise.code_range (r : Raise) :
    (r.cls.toNat = 1 ∨ r.cls.toNat = 2) ∧ 1 ≤ r.code.toNat ∧ r.code.toNat ≤ 7 := by
  cases r with
  | format c => cases c <;> decide
  | contract c => cases c <;> decide

/-- The faults after which nothing else has changed, by class and code (60_exceptions R196). -/
theorem Raise.exact_iff (r : Raise) : r.exact = true ↔ r.cls.toNat = 2 ∧ r.code.toNat ≤ 3 := by
  cases r with
  | format c => cases c <;> decide
  | contract c => cases c <;> decide

/-- `ERRINFO` as a word of fields and as a number (10_state R17). -/
theorem errinfoWord_eq (op : BitVec 8) (r : Raise) :
    errinfoWord op r = errinfoOf op.toNat r.cls.toNat r.code.toNat := by
  have hc := r.code.isLt
  have hk := r.cls.isLt
  have ho := op.isLt
  have h8 : (0 : BitVec 8).toNat = 0 := rfl
  have h6 : (0 : BitVec 6).toNat = 0 := rfl
  apply BitVec.eq_of_toNat_eq
  simp only [errinfoWord, errinfoOf, BitVec.toNat_append, BitVec.toNat_ofNat]
  generalize r.code.toNat = c at *
  generalize r.cls.toNat = k at *
  generalize op.toNat = o at *
  rw [← Nat.shiftLeft_add_eq_or_of_lt hc, ← Nat.shiftLeft_add_eq_or_of_lt hk,
    ← Nat.shiftLeft_add_eq_or_of_lt (by decide), ← Nat.shiftLeft_add_eq_or_of_lt ho]
  simp only [Nat.shiftLeft_eq]
  omega

/-- After an exact fault nothing else has changed. -/
theorem enterFault_of_exact {op : BitVec 8} {r : Raise} (h : r.exact = true) (s : State) :
    enterFault op r s = exactFault op.toNat r.cls.toNat r.code.toNat s := by
  simp [enterFault, h, exactFault, errinfoWord_eq]

/-- What every fault leaves defined. -/
theorem enterFault_faultTaken (op : BitVec 8) (r : Raise) (s : State) :
    FaultTaken op.toNat r.cls.toNat r.code.toNat s (enterFault op r s) := by
  refine ⟨by simp, by simp [errinfoWord_eq], by simp, by simp, ?_, ?_⟩ <;> unfold enterFault <;> split
  · exact List.prefix_rfl
  · exact List.prefix_append _ _
  · exact List.suffix_rfl
  · exact List.drop_suffix _ _

/-- A command outside the fault state that raises, in the terms claims use. -/
theorem runCommand_faultTaken {op : BitVec 8} {s : State} {body : Except Raise State} {r : Raise}
    (he : s.err = false) (h : body = .error r) :
    ∃ t, runCommand op s body = .next t ∧ FaultTaken op.toNat r.cls.toNat r.code.toNat s t :=
  ⟨_, runCommand_of_error he h, enterFault_faultTaken op r s⟩

/-- A reset leaves every table cleared. -/
@[simp] theorem resetBlock_tab (s : State) (t : Tab) :
    (resetBlock s).tab t = TableMem.cleared (nsym t) := by
  cases t <;> rfl

end Sys2Proof.Machine
end

