-- ==== Sys2Proof/Laws/Channel.lean ====
section
/-! SUPPORT. Bit sequences and the two channel primitives. -/

namespace Sys2Proof.Machine

open Sys2Proof

/-! ### Bit sequences -/

@[simp] theorem length_bitsMsb (n v : Nat) : (bitsMsb n v).length = n := by
  induction n with
  | zero => rfl
  | succ n ih => simp [bitsMsb, ih]

/-- `ofBitsMsb` with the bits before them given as a number. -/
theorem foldl_ofBitsMsb (bs : List Bool) (a : Nat) :
    bs.foldl (fun v b => 2 * v + b.toNat) a = a * 2 ^ bs.length + ofBitsMsb bs := by
  unfold ofBitsMsb
  induction bs generalizing a with
  | nil => simp
  | cons b bs ih =>
    simp only [List.foldl_cons, List.length_cons]
    rw [ih, ih (2 * 0 + b.toNat), Nat.pow_succ]
    ring

@[simp] theorem ofBitsMsb_nil : ofBitsMsb [] = 0 := rfl

/-- The first bit is the most significant. -/
theorem ofBitsMsb_cons (b : Bool) (bs : List Bool) :
    ofBitsMsb (b :: bs) = b.toNat * 2 ^ bs.length + ofBitsMsb bs := by
  simpa [ofBitsMsb] using foldl_ofBitsMsb bs b.toNat

theorem ofBitsMsb_append (as bs : List Bool) :
    ofBitsMsb (as ++ bs) = ofBitsMsb as * 2 ^ bs.length + ofBitsMsb bs := by
  rw [← foldl_ofBitsMsb bs (ofBitsMsb as)]; simp [ofBitsMsb]

theorem ofBitsMsb_lt (bs : List Bool) : ofBitsMsb bs < 2 ^ bs.length := by
  induction bs with
  | nil => simp
  | cons b bs ih => rw [ofBitsMsb_cons, List.length_cons, Nat.pow_succ]; cases b <;> simp <;> omega

/-- A field written and read as a number is its value. -/
theorem ofBitsMsb_bitsMsb (n v : Nat) : ofBitsMsb (bitsMsb n v) = v % 2 ^ n := by
  induction n with
  | zero => simp [bitsMsb, Nat.mod_one]
  | succ n ih =>
    rw [bitsMsb, ofBitsMsb_cons, ih, length_bitsMsb, Nat.mod_pow_succ, Nat.toNat_testBit, Nat.mul_comm,
      Nat.add_comm]

/-- Higher bits do not matter. -/
theorem bitsMsb_mod (n v : Nat) : bitsMsb n (v % 2 ^ n) = bitsMsb n v := by
  suffices h : ∀ k, k ≤ n → bitsMsb k (v % 2 ^ n) = bitsMsb k v from h n le_rfl
  intro k hk
  induction k with
  | zero => rfl
  | succ k ih =>
    simp [bitsMsb, ih (by omega), Nat.testBit_mod_two_pow, show k < n by omega]

/-- A bit sequence is the field of its number. -/
theorem bitsMsb_ofBitsMsb (bs : List Bool) : bitsMsb bs.length (ofBitsMsb bs) = bs := by
  induction bs with
  | nil => rfl
  | cons b bs ih =>
    have hlt := ofBitsMsb_lt bs
    rw [List.length_cons, bitsMsb, ← bitsMsb_mod, ofBitsMsb_cons, Nat.mul_add_mod', Nat.mod_eq_of_lt hlt,
      ih, Nat.mul_comm, Nat.testBit_two_pow_mul_add _ hlt]
    cases b <;> simp

/-- Two fields of one width are the same bits exactly if their values agree on that width. -/
theorem bitsMsb_inj {n v w : Nat} (hv : v < 2 ^ n) (hw : w < 2 ^ n) :
    bitsMsb n v = bitsMsb n w ↔ v = w := by
  refine ⟨fun h => ?_, fun h => h ▸ rfl⟩
  have := congrArg ofBitsMsb h
  rwa [ofBitsMsb_bitsMsb, ofBitsMsb_bitsMsb, Nat.mod_eq_of_lt hv, Nat.mod_eq_of_lt hw] at this

/-- A field as the bits at positions `n-1` down to 0. -/
theorem bitsMsb_eq_map (n v : Nat) :
    bitsMsb n v = (List.range n).map fun k => v.testBit (n - 1 - k) := by
  induction n with
  | zero => rfl
  | succ n ih =>
    rw [bitsMsb, ih, List.range_succ_eq_map]
    simp only [List.map_cons, List.map_map, Nat.add_sub_cancel, Nat.sub_zero]
    congr 1
    apply List.map_congr_left
    intro k _
    simp only [Function.comp]
    congr 1
    omega

/-! ### Taking bits from the head -/

theorem splitBits_eq_some {n : Nat} {l bs rest : List Bool} :
    splitBits n l = some (bs, rest) ↔ l = bs ++ rest ∧ bs.length = n := by
  induction n generalizing l bs rest with
  | zero =>
    constructor
    · intro h; simp only [splitBits, Option.some.injEq, Prod.mk.injEq] at h
      obtain ⟨rfl, rfl⟩ := h; exact ⟨rfl, rfl⟩
    · rintro ⟨rfl, h⟩; rw [List.length_eq_zero_iff.mp h]; rfl
  | succ n ih =>
    cases l with
    | nil =>
      simp only [splitBits, reduceCtorEq, false_iff, not_and]
      intro h hl
      have := congrArg List.length h
      simp only [List.length_append, List.length_nil] at this
      omega
    | cons b l =>
      simp only [splitBits]
      cases hs : splitBits n l with
      | none =>
        simp only [reduceCtorEq, false_iff, not_and]
        intro h hl
        cases bs with
        | nil => simp at hl
        | cons c bs =>
          simp only [List.cons_append, List.cons.injEq] at h
          have := ih.mpr ⟨h.2, by simpa using hl⟩
          rw [hs] at this; cases this
      | some p =>
        obtain ⟨cs, r⟩ := p
        obtain ⟨hl, hn⟩ := ih.mp hs
        simp only [Option.some.injEq, Prod.mk.injEq]
        constructor
        · rintro ⟨rfl, rfl⟩; simp [hl, hn]
        · rintro ⟨h, hb⟩
          cases bs with
          | nil => simp at hb
          | cons c bs =>
            simp only [List.cons_append, List.cons.injEq] at h
            have := ih.mpr ⟨h.2, by simpa using hb⟩
            rw [hs] at this
            simp only [Option.some.injEq, Prod.mk.injEq] at this
            obtain ⟨rfl, rfl⟩ := this
            exact ⟨by rw [h.1], rfl⟩

theorem splitBits_eq_none {n : Nat} {l : List Bool} : splitBits n l = none ↔ l.length < n := by
  constructor
  · intro h
    by_contra hn
    have := splitBits_eq_some.mpr
      ⟨(List.take_append_drop n l).symm, List.length_take_of_le (Nat.le_of_not_lt hn)⟩
    rw [h] at this; cases this
  · intro h
    cases hs : splitBits n l with
    | none => rfl
    | some p =>
      obtain ⟨hl, hn⟩ := splitBits_eq_some.mp hs
      have := congrArg List.length hl
      simp at this; omega

/-! ### `ReadBits` and `WriteBits` -/

/-- Everything a read that succeeds does (20_memory R43). -/
theorem readBits_eq_ok {n v : Nat} {s t : State} :
    readBits n s = .ok (v, t) ↔ ∃ bs, bs.length = n ∧ s.chanIn = bs ++ t.chanIn ∧ v = ofBitsMsb bs
      ∧ t = { s with chanIn := t.chanIn, bitsIn := s.bitsIn + BitVec.ofNat 32 n } := by
  unfold readBits
  cases hs : splitBits n s.chanIn with
  | none =>
    simp only [reduceCtorEq, false_iff]
    rintro ⟨bs, hl, h, -⟩
    rw [splitBits_eq_some.mpr ⟨h, hl⟩] at hs; cases hs
  | some p =>
    obtain ⟨bs, rest⟩ := p
    obtain ⟨hl, hn⟩ := splitBits_eq_some.mp hs
    simp only [Except.ok.injEq, Prod.mk.injEq]
    constructor
    · rintro ⟨rfl, rfl⟩; exact ⟨bs, hn, hl, rfl, rfl⟩
    · rintro ⟨cs, hcn, hcl, rfl, ht⟩
      rw [hl] at hcl
      obtain ⟨rfl, hr⟩ := List.append_inj hcl (by omega)
      exact ⟨rfl, by rw [ht, ← hr]⟩

/-- A read faults exactly when too few bits are left (20_memory R43, R46). -/
theorem readBits_eq_error {n : Nat} {s : State} {r : Raise} :
    readBits n s = .error r ↔ s.chanIn.length < n ∧ r = .format .underflow := by
  rw [← splitBits_eq_none]
  unfold readBits
  cases splitBits n s.chanIn <;> simp [eq_comm]

/-- Reading the field that comes next. -/
theorem readBits_append {n v : Nat} {s : State} {rest : List Bool} (hv : v < 2 ^ n)
    (h : s.chanIn = bitsMsb n v ++ rest) :
    readBits n s = .ok (v, { s with chanIn := rest, bitsIn := s.bitsIn + BitVec.ofNat 32 n }) :=
  readBits_eq_ok.mpr ⟨bitsMsb n v, by simp, h, by rw [ofBitsMsb_bitsMsb, Nat.mod_eq_of_lt hv], rfl⟩

/-- Reading one bit. -/
theorem readBits_one {s : State} {b : Bool} {rest : List Bool} (h : s.chanIn = b :: rest) :
    readBits 1 s = .ok (b.toNat, { s with chanIn := rest, bitsIn := s.bitsIn + 1 }) :=
  readBits_eq_ok.mpr ⟨[b], rfl, h, by cases b <;> rfl, rfl⟩

end Sys2Proof.Machine
end

