-- ==== Sys2Proof/Laws/Tables.lean ====
section
/-! SUPPORT. What each operation on a table can do: counting, building, writing, reading. -/

namespace Sys2Proof.Machine

open Sys2Proof

/-! ### Reading one entry -/

theorem TableMem.count_of_le {n : Nat} (m : TableMem n) {y : Nat} (h : n ≤ y) : m.count y = 0 := by
  simp [TableMem.count, Vector.getElem?_eq_none h]

theorem TableMem.lenAt_of_le {n : Nat} (m : TableMem n) {y : Nat} (h : n ≤ y) : m.lenAt y = 0 := by
  simp [TableMem.lenAt, Vector.getElem?_eq_none h]

theorem TableMem.codeAt_of_le {n : Nat} (m : TableMem n) {y : Nat} (h : n ≤ y) : m.codeAt y = 0 := by
  simp [TableMem.codeAt, Vector.getElem?_eq_none h]

theorem TableMem.count_of_lt {n : Nat} (m : TableMem n) {y : Nat} (h : y < n) : m.count y = m.hist[y] := by
  simp [TableMem.count, Vector.getElem?_eq_getElem h]

theorem TableMem.lenAt_of_lt {n : Nat} (m : TableMem n) {y : Nat} (h : y < n) : m.lenAt y = m.len[y] := by
  simp [TableMem.lenAt, Vector.getElem?_eq_getElem h]

theorem TableMem.codeAt_of_lt {n : Nat} (m : TableMem n) {y : Nat} (h : y < n) :
    m.codeAt y = m.code[y] := by
  simp [TableMem.codeAt, Vector.getElem?_eq_getElem h]

/-- A symbol with a code is in the alphabet. -/
theorem TableMem.lt_of_lenAt {n : Nat} {m : TableMem n} {y : Nat} (h : m.lenAt y ≠ 0) : y < n := by
  by_contra hn
  exact h (m.lenAt_of_le (Nat.le_of_not_lt hn))

@[simp] theorem TableMem.count_cleared (n y : Nat) : (TableMem.cleared n).count y = 0 := by
  by_cases h : y < n
  · simp [TableMem.count_of_lt _ h, TableMem.cleared]
  · exact TableMem.count_of_le _ (Nat.le_of_not_lt h)

@[simp] theorem TableMem.lenAt_cleared (n y : Nat) : (TableMem.cleared n).lenAt y = 0 := by
  by_cases h : y < n
  · simp [TableMem.lenAt_of_lt _ h, TableMem.cleared]
  · exact TableMem.lenAt_of_le _ (Nat.le_of_not_lt h)

@[simp] theorem TableMem.codeAt_cleared (n y : Nat) : (TableMem.cleared n).codeAt y = 0 := by
  by_cases h : y < n
  · simp [TableMem.codeAt_of_lt _ h, TableMem.cleared]
  · exact TableMem.codeAt_of_le _ (Nat.le_of_not_lt h)

@[simp] theorem TableMem.cleared_tstate (n : Nat) : (TableMem.cleared n).tstate = .collect := rfl
@[simp] theorem TableMem.cleared_hmax (n : Nat) : (TableMem.cleared n).hmax = 0 := rfl

@[simp] theorem TableMem.lenAt_addOne {n : Nat} (m : TableMem n) (sym y : Nat) :
    (m.addOne sym).lenAt y = m.lenAt y := rfl

@[simp] theorem TableMem.codeAt_addOne {n : Nat} (m : TableMem n) (sym y : Nat) :
    (m.addOne sym).codeAt y = m.codeAt y := rfl

@[simp] theorem TableMem.count_withLengths {n : Nat} (m : TableMem n) (L : Vector (BitVec 5) n) (y : Nat) :
    (m.withLengths L).count y = m.count y := rfl

/-! ### Counting -/

/-- A saturated count (40_canonical_code_builder R81). -/
theorem toNat_satIncr (c : BitVec 32) : (satIncr c).toNat = min (c.toNat + 1) 4294967295 := by
  simp only [satIncr, Config.countMax, BitVec.toNat_ofNat]
  exact Nat.mod_eq_of_lt (by omega)

theorem toNat_maxCount (a b : BitVec 32) : (maxCount a b).toNat = max a.toNat b.toNat := by
  unfold maxCount
  split <;> omega

/-- The count of each symbol after one more occurrence of `sym`. -/
theorem TableMem.count_addOne {n : Nat} (m : TableMem n) {sym : Nat} (h : sym < n) (y : Nat) :
    (m.addOne sym).count y = if y = sym then satIncr (m.count sym) else m.count y := by
  by_cases hy : y < n
  · rw [TableMem.count_of_lt _ hy, TableMem.count_of_lt m hy]
    simp only [TableMem.addOne, Vector.getElem_setIfInBounds hy, eq_comm]
  · rw [TableMem.count_of_le _ (Nat.le_of_not_lt hy), TableMem.count_of_le _ (Nat.le_of_not_lt hy),
      if_neg (by omega)]

/-- Counting no symbol changes nothing. -/
theorem CountsAdded.nil {n : Nat} (m : TableMem n) : CountsAdded [] m m := by
  refine ⟨fun y _ => ?_, le_rfl, by simp, .inl rfl, rfl, rfl, rfl⟩
  have := (m.count y).isLt
  simp; omega

/-- Counting one symbol (40_canonical_code_builder R81). -/
theorem CountsAdded.addOne {n : Nat} (m : TableMem n) {sym : Nat} (h : sym < n) :
    CountsAdded [sym] m (m.addOne sym) := by
  have hmax : (m.addOne sym).hmax = maxCount m.hmax (satIncr (m.count sym)) := rfl
  have hm := toNat_maxCount m.hmax (satIncr (m.count sym))
  refine ⟨fun y _ => ?_, ?_, ?_, ?_, rfl, rfl, rfl⟩
  · rw [m.count_addOne h]
    have := (m.count y).isLt
    by_cases hy : y = sym
    · subst hy; simp [toNat_satIncr]
    · have hs : ¬ sym = y := fun e => hy e.symm
      simp [hy, hs]; omega
  · rw [hmax, hm]; exact le_max_left _ _
  · intro y hy
    rw [List.mem_singleton] at hy
    rw [hmax, hm, m.count_addOne h, if_pos hy]; exact le_max_right _ _
  · rw [hmax]
    unfold maxCount
    split
    · exact .inr ⟨sym, by simp, by simp [m.count_addOne h]⟩
    · exact .inl rfl

/-- Counting one list of symbols after another. -/
theorem CountsAdded.append {n : Nat} {as bs : List Nat} {m m1 m2 : TableMem n}
    (ha : CountsAdded as m m1) (hb : CountsAdded bs m1 m2) : CountsAdded (as ++ bs) m m2 := by
  obtain ⟨a1, a2, a3, a4, a5, a6, a7⟩ := ha
  obtain ⟨b1, b2, b3, b4, b5, b6, b7⟩ := hb
  have mono : ∀ y, (m1.count y).toNat ≤ (m2.count y).toNat := fun y => by
    by_cases hy : y < n
    · have := (m1.count y).isLt
      rw [b1 y hy]; omega
    · rw [m1.count_of_le (Nat.le_of_not_lt hy)]; simp
  have keep : ∀ y ∉ bs, m2.count y = m1.count y := fun y hy => by
    by_cases hn : y < n
    · apply BitVec.eq_of_toNat_eq
      have := (m1.count y).isLt
      rw [b1 y hn, List.count_eq_zero.mpr hy]; omega
    · rw [m1.count_of_le (Nat.le_of_not_lt hn), m2.count_of_le (Nat.le_of_not_lt hn)]
  refine ⟨fun y hy => ?_, le_trans a2 b2, fun y hy => ?_, ?_, by rw [b5, a5], by rw [b6, a6],
    by rw [b7, a7]⟩
  · rw [b1 y hy, a1 y hy, List.count_append]; omega
  · by_cases hyb : y ∈ bs
    · exact b3 y hyb
    · rw [keep y hyb]
      exact le_trans (a3 y ((List.mem_append.mp hy).resolve_right hyb)) b2
  · rcases b4 with hb4 | ⟨y, hy, hb4⟩
    · rcases a4 with ha4 | ⟨y, hy, ha4⟩
      · exact .inl (by rw [hb4, ha4])
      · refine .inr ⟨y, List.mem_append_left _ hy, BitVec.eq_of_toNat_eq ?_⟩
        have h1 := mono y
        rw [ha4] at h1
        by_cases hyb : y ∈ bs
        · have := b3 y hyb; rw [hb4] at this ⊢; omega
        · rw [keep y hyb, ha4, hb4]
    · exact .inr ⟨y, List.mem_append_right _ hy, hb4⟩

/-- Everything `AddSymbol` does when it completes (40_canonical_code_builder R81). -/
theorem addSymbol_eq_ok {t : Tab} {sym : Nat} {s s' : State} :
    addSymbol t sym s = .ok s' ↔
      (s.tab t).tstate = .collect ∧ s' = s.setTab t ((s.tab t).addOne sym) := by
  by_cases h : (s.tab t).tstate = .collect <;> simp [addSymbol, h, eq_comm]

/-- `AddSymbol` raises exactly on a frozen histogram. -/
theorem addSymbol_eq_error {t : Tab} {sym : Nat} {s : State} {r : Raise} :
    addSymbol t sym s = .error r ↔ (s.tab t).tstate = .valid ∧ r = .contract .tableState := by
  cases h : (s.tab t).tstate <;> simp [addSymbol, h, eq_comm]

/-! ### Building -/

/-- The used symbols are those with a count. -/
theorem length_usedFrom (k : Nat) (cs : List (BitVec 32)) :
    (usedFrom k cs).length = cs.countP fun c => c != 0 := by
  induction cs generalizing k with
  | nil => rfl
  | cons c cs ih =>
    by_cases h : c = 0
    · subst h; simp [usedFrom, ih]
    · rw [usedFrom, if_neg h, List.length_cons, ih, List.countP_cons_of_pos (by simpa using h)]

/-- Everything `BuildTable` does when it completes (40_canonical_code_builder R88). -/
theorem buildTable_eq_ok {t : Tab} {r : BuildResult} {s s' : State} :
    buildTable t s = .ok (r, s') ↔ (s.tab t).tstate = .collect
      ∧ r = ⟨(s.tab t).hist.toList.countP fun c => c != 0, (buildLengths (s.tab t).hist).2⟩
      ∧ s' = s.setTab t ((s.tab t).withLengths (buildLengths (s.tab t).hist).1) := by
  by_cases h : (s.tab t).tstate = .collect <;> simp [buildTable, h, length_usedFrom, eq_comm]

/-- `BuildTable` raises exactly on a table that is valid already. -/
theorem buildTable_eq_error {t : Tab} {s : State} {r : Raise} :
    buildTable t s = .error r ↔ (s.tab t).tstate = .valid ∧ r = .contract .tableState := by
  cases h : (s.tab t).tstate <;> simp [buildTable, h, eq_comm]

/-! ### The wire form -/

@[simp] theorem lengthBits_nil : lengthBits [] = [] := rfl

theorem lengthBits_cons (l : BitVec 5) (ls : List (BitVec 5)) :
    lengthBits (l :: ls) = bitsMsb 5 l.toNat ++ lengthBits ls := by
  simp [lengthBits]

theorem lengthBits_append (as bs : List (BitVec 5)) :
    lengthBits (as ++ bs) = lengthBits as ++ lengthBits bs := by
  simp [lengthBits]

@[simp] theorem length_lengthBits (ls : List (BitVec 5)) : (lengthBits ls).length = 5 * ls.length := by
  induction ls with
  | nil => rfl
  | cons l ls ih => rw [lengthBits_cons, List.length_append, ih]; simp; omega

/-- Everything the loop of `WriteTable` does (41_table_serdes R101). -/
theorem writeFields_eq (ls : List (BitVec 5)) (s : State) :
    writeFields ls s = { s with
      chanOut := s.chanOut ++ lengthBits ls
      bitsOut := s.bitsOut + BitVec.ofNat 32 (5 * ls.length) } := by
  induction ls generalizing s with
  | nil => simp [writeFields]
  | cons l ls ih =>
    rw [writeFields, ih, lengthBits_cons]
    simp only [writeBits, Config.lenFieldW, List.append_assoc, List.length_cons, State.mk.injEq,
      Block.mk.injEq, true_and, and_true]
    rw [BitVec.add_assoc, ← BitVec.ofNat_add]
    congr 2
    omega

/-- Everything `WriteTable` does when it completes (41_table_serdes R101). -/
theorem writeTable_eq_ok {t : Tab} {k : Nat} {s s' : State} :
    writeTable t s = .ok (k, s') ↔ (s.tab t).tstate = .valid ∧ k = 5 * nsym t
      ∧ s' = { s with
          chanOut := s.chanOut ++ lengthBits (s.tab t).len.toList
          bitsOut := s.bitsOut + BitVec.ofNat 32 (5 * nsym t) } := by
  by_cases h : (s.tab t).tstate = .valid <;>
    simp [writeTable, h, writeFields_eq, Config.lenFieldW, eq_comm]

/-- `WriteTable` raises exactly on a table that is not valid. -/
theorem writeTable_eq_error {t : Tab} {s : State} {r : Raise} :
    writeTable t s = .error r ↔ (s.tab t).tstate = .collect ∧ r = .contract .tableState := by
  cases h : (s.tab t).tstate <;> simp [writeTable, h, eq_comm]

/-- Everything the loop of `ReadTable` does when it completes (41_table_serdes R103). -/
theorem readFields_eq_ok {n : Nat} {ls : List (BitVec 5)} {s s' : State} :
    readFields n s = .ok (ls, s') ↔ ls.length = n ∧ (∀ l ∈ ls, l.toNat ≤ 16)
      ∧ s.chanIn = lengthBits ls ++ s'.chanIn
      ∧ s' = { s with chanIn := s'.chanIn, bitsIn := s.bitsIn + BitVec.ofNat 32 (5 * n) } := by
  induction n generalizing ls s with
  | zero =>
    simp only [readFields, Except.ok.injEq, Prod.mk.injEq]
    constructor
    · rintro ⟨rfl, rfl⟩; simp
    · rintro ⟨hl, -, hc, ht⟩
      rw [List.length_eq_zero_iff] at hl
      subst hl
      refine ⟨rfl, ?_⟩
      rw [ht, ← show s.chanIn = s'.chanIn from hc]
      simp
  | succ n ih =>
    simp only [readFields, bind_eq_ok, need_eq_ok, Prod.exists, pure_eq_ok, Except.ok.injEq,
      Prod.mk.injEq]
    simp only [Config.lenFieldW, Config.maxLen]
    constructor
    · rintro ⟨v, s1, h1, -, hv, ls', s2, h2, rfl, rfl⟩
      obtain ⟨bs, hbl, hc, rfl, hs1⟩ := readBits_eq_ok.mp h1
      obtain ⟨hl, hle, hc2, hs2⟩ := ih.mp h2
      have hv' : (BitVec.ofNat 5 (ofBitsMsb bs)).toNat = ofBitsMsb bs := by simp; omega
      refine ⟨by simp [hl], ?_, ?_, ?_⟩
      · rintro l (_ | ⟨_, hm⟩)
        · rw [hv']; exact hv
        · exact hle l hm
      · rw [lengthBits_cons, hv', ← hbl, bitsMsb_ofBitsMsb, hc, hc2, List.append_assoc]
      · rw [hs2, hs1]
        simp only [State.mk.injEq, Block.mk.injEq, true_and, and_true]
        rw [BitVec.add_assoc, ← BitVec.ofNat_add]
        congr 2
        omega
    · rintro ⟨hl, hle, hc, hs'⟩
      cases ls with
      | nil => simp at hl
      | cons l ls =>
        have hl16 := hle l List.mem_cons_self
        rw [lengthBits_cons, List.append_assoc] at hc
        refine ⟨_, _, readBits_append l.isLt hc, ⟨⟩, hl16, ls, s', ?_, by simp, rfl⟩
        refine ih.mpr ⟨by simpa using hl, fun x hx => hle x (List.mem_cons_of_mem _ hx), rfl, ?_⟩
        rw [hs']
        simp only [State.mk.injEq, Block.mk.injEq, true_and, and_true]
        rw [BitVec.add_assoc, ← BitVec.ofNat_add]
        congr 2
        omega

/-- The vector of a list of the right length. -/
theorem toList_lengthVector {n : Nat} {ls : List (BitVec 5)} (h : ls.length = n) :
    (lengthVector n ls).toList = ls := by
  simp [lengthVector, h]

@[simp] theorem lengthVector_toList {n : Nat} (L : Vector (BitVec 5) n) : lengthVector n L.toList = L := by
  apply Vector.toList_inj.mp
  rw [toList_lengthVector (by simp)]

/-- A lone symbol of length 1 has half the Kraft sum (41_table_serdes R103). -/
theorem checkLengths_eq_ok {ls : List (BitVec 5)} {u : Unit} :
    checkLengths ls = .ok u ↔ kraftSum ls ≤ 65536 ∧ (kraftSum ls = 65536 ∨ usedLengths ls = 0
      ∨ (usedLengths ls = 1 ∧ kraftSum ls = 32768)) := by
  simp only [checkLengths, bind_eq_ok, need_eq_ok]
  simp [Config.kraftOne, Config.maxLen]

/-- The validity test raises the fault of the side on which the Kraft sum fails (41_table_serdes R105). -/
theorem checkLengths_eq_error {ls : List (BitVec 5)} {r : Raise} :
    checkLengths ls = .error r ↔
      (65536 < kraftSum ls ∧ r = .format .oversub)
        ∨ (kraftSum ls < 65536 ∧ usedLengths ls ≠ 0 ∧ ¬ (usedLengths ls = 1 ∧ kraftSum ls = 32768)
            ∧ r = .format .undersub) := by
  simp only [checkLengths, bind_eq_error, need_eq_ok, need_eq_error]
  simp only [Config.kraftOne, Config.maxLen, not_or]
  constructor
  · rintro (⟨h, rfl⟩ | ⟨-, h, ⟨h1, h2, h3⟩, rfl⟩)
    · exact .inl ⟨by omega, rfl⟩
    · exact .inr ⟨by omega, h2, h3, rfl⟩
  · rintro (⟨h, rfl⟩ | ⟨h, h2, h3, rfl⟩)
    · exact .inl ⟨by omega, rfl⟩
    · exact .inr ⟨⟨⟩, by omega, ⟨by omega, h2, h3⟩, rfl⟩

/-- Everything `ReadTable` does when it completes (41_table_serdes R103): the lengths that came next, which
pass the validity test, with their canonical codes. -/
theorem readTable_eq_ok {t : Tab} {k : Nat} {s s' : State} :
    readTable t s = .ok (k, s') ↔ ∃ (L : Vector (BitVec 5) (nsym t)) (rest : List Bool),
      (∀ l ∈ L.toList, l.toNat ≤ 16) ∧ checkLengths L.toList = .ok ()
        ∧ s.chanIn = lengthBits L.toList ++ rest ∧ k = usedLengths L.toList
        ∧ s' = { s.setTab t ((s.tab t).withLengths L) with
            chanIn := rest, bitsIn := s.bitsIn + BitVec.ofNat 32 (5 * nsym t) } := by
  have key : ∀ (L : Vector (BitVec 5) (nsym t)) (rest : List Bool) (k : Word),
      ({ s with chanIn := rest, bitsIn := k } : State).setTab t
          ((({ s with chanIn := rest, bitsIn := k } : State).tab t).withLengths L)
        = { s.setTab t ((s.tab t).withLengths L) with chanIn := rest, bitsIn := k } := by
    intros; cases t <;> rfl
  simp only [readTable, bind_eq_ok, Prod.exists, pure_eq_ok, Except.ok.injEq, Prod.mk.injEq]
  constructor
  · rintro ⟨ls, s1, h1, u, h2, rfl, rfl⟩
    obtain ⟨hl, hle, hc, hs1⟩ := readFields_eq_ok.mp h1
    have ht := toList_lengthVector hl
    refine ⟨lengthVector _ ls, s1.chanIn, by rwa [ht], by rw [ht]; exact h2, by rw [ht]; exact hc,
      by rw [ht], ?_⟩
    generalize s1.chanIn = c at hs1
    subst hs1
    exact key _ _ _
  · rintro ⟨L, rest, hle, hck, hc, rfl, rfl⟩
    refine ⟨L.toList, { s with chanIn := rest, bitsIn := s.bitsIn + BitVec.ofNat 32 (5 * nsym t) },
      readFields_eq_ok.mpr ⟨by simp, hle, hc, rfl⟩, ⟨⟩, hck, rfl, ?_⟩
    rw [lengthVector_toList]
    exact key _ _ _

end Sys2Proof.Machine
end

