-- ==== Sys2Proof/Laws/Huffman.lean ====
section
/-! SUPPORT. What the Huffman construction and the rescaling loop do (40_canonical_code_builder R83 to R85),
as the relations of Safety say it. -/

namespace Sys2Proof.Machine

open Sys2Proof

/-! ### The order of nodes, and the forest -/

/-- The builder's order of nodes is the lexicographic order of their keys (40_canonical_code_builder R84). -/
theorem Node.before_eq (a b : Node) : a.before b = decide (a.key < b.key) := by
  simp only [Node.before, Node.key, List.cons_lt_cons_iff, List.not_lt_nil, or_false,
    and_false]

/-- Keys are linearly ordered. -/
theorem Node.key_lt_of_not_lt {a b : Node} (h : ¬ a.key < b.key) (hne : a.key ≠ b.key) : b.key < a.key :=
  lt_of_le_of_ne (not_lt.mp h) (Ne.symm hne)

/-- The nodes stand in the order of their keys, which are all different. -/
def Ordered (f : List Node) : Prop := f.Pairwise fun a b => a.key < b.key

/-- Inserting a node adds that node and no other. -/
theorem insertNode_perm (z : Node) (f : List Node) : (insertNode z f).Perm (z :: f) := by
  induction f with
  | nil => exact .refl _
  | cons y f ih =>
    rw [insertNode]
    split
    · exact .refl _
    · exact (ih.cons y).trans (.swap z y f)

/-- Inserting a node of a new key keeps the order. -/
theorem Ordered.insertNode {z : Node} {f : List Node} (h : Ordered f) (hz : ∀ y ∈ f, z.key ≠ y.key) :
    Ordered (insertNode z f) := by
  induction f with
  | nil => exact List.pairwise_singleton _ _
  | cons y f ih =>
    obtain ⟨hy, hf⟩ := List.pairwise_cons.mp h
    rw [Machine.insertNode, Node.before_eq]
    by_cases hlt : z.key < y.key
    · rw [if_pos (decide_eq_true hlt)]
      refine List.pairwise_cons.mpr ⟨fun v hv => ?_, h⟩
      rcases List.mem_cons.mp hv with rfl | hv
      · exact hlt
      · exact lt_trans hlt (hy v hv)
    · rw [if_neg (by simpa using hlt)]
      refine List.pairwise_cons.mpr ⟨fun v hv => ?_, ih hf fun v hv => hz v (List.mem_cons_of_mem _ hv)⟩
      rcases List.mem_cons.mp ((insertNode_perm z f).mem_iff.mp hv) with rfl | hv
      · exact Node.key_lt_of_not_lt hlt (hz y List.mem_cons_self)
      · exact hy v hv

/-- The construction does not depend on how its set of nodes is listed. -/
theorem HuffmanMerges.perm {i : Nat} {F G : List Node} {d : List (Nat × Nat)} (h : HuffmanMerges i F d)
    (p : G.Perm F) : HuffmanMerges i G d := by
  cases h with
  | root i z => rw [List.perm_singleton.mp p]; exact .root i z
  | merge i x y z F rest d nodes least next key leaves after =>
    exact .merge i x y z G rest d (p.trans nodes) least next key leaves after

/-- The key of a merged node (40_canonical_code_builder R84). -/
theorem mergeNodes_key (i : Nat) (x y : Node) :
    (mergeNodes i x y).key = [x.weight + y.weight, 1, i] := rfl

/-- A merged node's key is new: the nodes there are leaves or were made earlier. -/
theorem mergeNodes_key_ne {i : Nat} {x y v : Node} (hv : v.kind ≠ 1 ∨ v.idx < i) :
    (mergeNodes i x y).key ≠ v.key := by
  rw [mergeNodes_key, Node.key]
  intro e
  simp only [List.cons.injEq, and_true] at e
  omega

/-- The builder's loop is the construction of 40_canonical_code_builder R84 on every ordered forest. -/
theorem mergeAll_merges {k i : Nat} {f : List Node} (hf : Ordered f) (hne : f ≠ []) (hk : f.length ≤ k + 1)
    (hi : ∀ v ∈ f, v.kind ≠ 1 ∨ v.idx < i) :
    ∃ root, mergeAll k i f = [root] ∧ HuffmanMerges i f root.leaves := by
  induction k generalizing i f with
  | zero =>
    obtain ⟨z, rfl⟩ := List.length_eq_one_iff.mp
      (Nat.le_antisymm hk (List.length_pos_iff.mpr hne))
    exact ⟨z, rfl, .root i z⟩
  | succ k ih =>
    match f, hne with
    | [z], _ => exact ⟨z, rfl, .root i z⟩
    | x :: y :: rest, _ =>
      obtain ⟨hx, hyr⟩ := List.pairwise_cons.mp hf
      obtain ⟨hy, hr⟩ := List.pairwise_cons.mp hyr
      have hp := insertNode_perm (mergeNodes i x y) rest
      have hi' : ∀ v ∈ rest, v.kind ≠ 1 ∨ v.idx < i := fun v hv =>
        hi v (List.mem_cons_of_mem _ (List.mem_cons_of_mem _ hv))
      obtain ⟨root, hm, hd⟩ := ih (i := i + 1) (f := insertNode (mergeNodes i x y) rest)
        (Ordered.insertNode hr fun v hv => mergeNodes_key_ne (hi' v hv))
        (fun e => by rw [e] at hp; exact absurd hp.length_eq (by simp))
        (by rw [hp.length_eq]; simpa using hk)
        (fun v hv => by
          rcases List.mem_cons.mp (hp.mem_iff.mp hv) with rfl | hv
          · exact .inr (Nat.lt_succ_self i)
          · exact (hi' v hv).imp id Nat.lt_succ_of_lt)
      refine ⟨root, hm, .merge i x y _ _ rest _ (.refl _) ⟨hx y List.mem_cons_self, fun v hv =>
        hx v (List.mem_cons_of_mem _ hv)⟩ hy (mergeNodes_key i x y) rfl (hd.perm hp.symm)⟩

/-- The forest of leaves is the set of leaves, in order when no symbol is listed twice. -/
theorem leafForest_perm (u : List (Nat × Nat)) : (leafForest u).Perm (u.map leafNode) := by
  induction u with
  | nil => exact .refl _
  | cons sw u ih => exact (insertNode_perm _ _).trans (ih.cons _)

theorem leafForest_ordered {u : List (Nat × Nat)} (h : (u.map Prod.fst).Nodup) : Ordered (leafForest u) := by
  induction u with
  | nil => exact .nil
  | cons sw u ih =>
    obtain ⟨hs, hu⟩ := List.nodup_cons.mp h
    refine (ih hu).insertNode fun v hv => ?_
    obtain ⟨tv, ht, rfl⟩ := List.mem_map.mp ((leafForest_perm u).mem_iff.mp hv)
    intro e
    simp only [Node.key, leafNode, List.cons.injEq, and_true, true_and] at e
    exact hs (e.2 ▸ List.mem_map_of_mem ht)

/-- Everything `HuffDepths` does (40_canonical_code_builder R84): the construction of R84 on the leaves of
the used symbols, none listed twice. -/
theorem huffDepths_merges {u : List (Nat × Nat)} (hne : u ≠ []) (h : (u.map Prod.fst).Nodup) :
    HuffmanMerges 0 (u.map leafNode) (huffDepths u) := by
  have hp := leafForest_perm u
  obtain ⟨root, hm, hd⟩ := mergeAll_merges (k := u.length) (i := 0) (leafForest_ordered h)
    (fun e => hne (by simpa [e] using hp)) (by simp [hp.length_eq])
    (fun v hv => by
      obtain ⟨sw, -, rfl⟩ := List.mem_map.mp (hp.mem_iff.mp hv)
      exact .inl (by simp [leafNode]))
  rw [huffDepths, hm]
  exact hd.perm hp.symm

/-- The construction lists each leaf once: the symbols of its depths are those of its nodes. -/
theorem HuffmanMerges.symbols {i : Nat} {F : List Node} {d : List (Nat × Nat)} (h : HuffmanMerges i F d) :
    (d.map Prod.fst).Perm (F.flatMap fun z => z.leaves.map Prod.fst) := by
  induction h with
  | root i z => simp
  | merge i x y z F rest d nodes least next key leaves after ih =>
    refine (ih.trans ?_).trans (nodes.flatMap_right _).symm
    simp [leaves, Function.comp_def]

/-! ### The loop of R85, and the lengths built -/

/-- The largest depth bounds every depth, and is no larger than need be. -/
theorem maxDepth_le {d : List (Nat × Nat)} {m : Nat} : maxDepth d ≤ m ↔ ∀ sd ∈ d, sd.2 ≤ m := by
  induction d with
  | nil => simp [maxDepth]
  | cons sd d ih =>
    rw [maxDepth, List.foldr_cons, ← maxDepth, Nat.max_le, ih, List.forall_mem_cons]

/-- The weights after `k` rescalings (40_canonical_code_builder R85). -/
def rescaled (u : List (Nat × Nat)) (k : Nat) : List (Nat × Nat) :=
  u.map fun sw => (sw.1, weightAfter sw.2 k)

theorem rescaled_zero (u : List (Nat × Nat)) : rescaled u 0 = u := by
  simp [rescaled, weightAfter]

theorem halveWeights_rescaled (u : List (Nat × Nat)) (k : Nat) :
    halveWeights (rescaled u k) = rescaled u (k + 1) := by
  simp [halveWeights, rescaled, weightAfter]

@[simp] theorem rescaled_fst (u : List (Nat × Nat)) (k : Nat) :
    (rescaled u k).map Prod.fst = u.map Prod.fst := by
  simp [rescaled]

/-- Everything the loop of `BuildLengths` does (40_canonical_code_builder R85): it answers the depths of the
first rescaling that needs no further one, or of the last that its fuel allows. -/
theorem limitLoop_eq {k r r' : Nat} {u : List (Nat × Nat)} {d : List (Nat × Nat)}
    (h : limitLoop k r (rescaled u r) = (d, r')) :
    d = huffDepths (rescaled u r') ∧ r ≤ r' ∧ r' ≤ r + k
      ∧ (∀ j, r ≤ j → j < r' → ∃ sd ∈ huffDepths (rescaled u j), 16 < sd.2)
      ∧ (r' < r + k → ∀ sd ∈ d, sd.2 ≤ 16) := by
  induction k generalizing r with
  | zero =>
    obtain ⟨rfl, rfl⟩ := Prod.mk.injEq .. ▸ h
    exact ⟨rfl, le_rfl, le_rfl, fun j h1 h2 => absurd h2 (Nat.not_lt.mpr h1), fun h => absurd h (lt_irrefl _)⟩
  | succ k ih =>
    rw [limitLoop] at h
    by_cases hd : maxDepth (huffDepths (rescaled u r)) ≤ Config.maxLen
    · rw [if_pos hd] at h
      obtain ⟨rfl, rfl⟩ := Prod.mk.injEq .. ▸ h
      exact ⟨rfl, le_rfl, by omega, fun j h1 h2 => absurd h2 (Nat.not_lt.mpr h1), fun _ => maxDepth_le.mp hd⟩
    · rw [if_neg hd, halveWeights_rescaled] at h
      obtain ⟨h1, h2, h3, h4, h5⟩ := ih h
      refine ⟨h1, by omega, by omega, fun j hj hj' => ?_, fun hr => h5 (by omega)⟩
      rcases Nat.eq_or_lt_of_le hj with rfl | hj
      · by_contra hn
        refine hd (maxDepth_le.mpr fun sd hsd => Nat.le_of_not_lt fun hlt => hn ⟨sd, hsd, hlt⟩)
      · exact h4 j hj hj'

/-- The used symbols are those with a count, each listed once with its count (40_canonical_code_builder R83). -/
theorem mem_usedFrom {k y w : Nat} {cs : List (BitVec 32)} :
    (y, w) ∈ usedFrom k cs ↔ ∃ c, k ≤ y ∧ cs[y - k]? = some c ∧ c ≠ 0 ∧ w = c.toNat := by
  induction cs generalizing k with
  | nil => simp [usedFrom]
  | cons c cs ih =>
    have step : (∃ c', k + 1 ≤ y ∧ cs[y - (k + 1)]? = some c' ∧ c' ≠ 0 ∧ w = c'.toNat)
        ↔ ∃ c', k < y ∧ (c :: cs)[y - k]? = some c' ∧ c' ≠ 0 ∧ w = c'.toNat := by
      refine exists_congr fun c' => and_congr_right fun hk => ?_
      rw [show y - k = y - (k + 1) + 1 by omega, List.getElem?_cons_succ]
    rw [usedFrom]
    split
    · rename_i h0
      rw [ih, step]
      refine exists_congr fun c' => ⟨fun ⟨h, g⟩ => ⟨le_of_lt h, g⟩, fun ⟨h, g, hc, e⟩ => ⟨?_, g, hc, e⟩⟩
      rcases Nat.eq_or_lt_of_le h with rfl | h
      · simp only [Nat.sub_self, List.getElem?_cons_zero, Option.some.injEq] at g
        exact absurd (g ▸ h0) hc
      · exact h
    · rename_i h0
      rw [List.mem_cons, ih, step, Prod.mk.injEq]
      constructor
      · rintro (⟨rfl, rfl⟩ | ⟨c', h, g⟩)
        · exact ⟨c, le_rfl, by simp, h0, rfl⟩
        · exact ⟨c', le_of_lt h, g⟩
      · rintro ⟨c', h, g, hc, rfl⟩
        rcases Nat.eq_or_lt_of_le h with rfl | h
        · simp only [Nat.sub_self, List.getElem?_cons_zero, Option.some.injEq] at g
          exact .inl ⟨rfl, g ▸ rfl⟩
        · exact .inr ⟨c', h, g, hc, rfl⟩

theorem nodup_usedFrom (k : Nat) (cs : List (BitVec 32)) : ((usedFrom k cs).map Prod.fst).Nodup := by
  induction cs generalizing k with
  | nil => exact .nil
  | cons c cs ih =>
    rw [usedFrom]
    split
    · exact ih _
    · refine List.nodup_cons.mpr ⟨fun h => ?_, ih _⟩
      obtain ⟨⟨y, w⟩, hm, rfl⟩ := List.mem_map.mp h
      obtain ⟨-, hk, -⟩ := mem_usedFrom.mp hm
      exact absurd hk (by simp)

/-- The construction on the rescaled used symbols of a histogram gives the depths after as many rescalings
(40_canonical_code_builder R84, R85). -/
theorem depthsAfter_huffDepths {n : Nat} (hist : Vector (BitVec 32) n) (k : Nat)
    (hne : usedFrom 0 hist.toList ≠ []) :
    DepthsAfter hist k (huffDepths (rescaled (usedFrom 0 hist.toList) k)) := by
  have hd : ((rescaled (usedFrom 0 hist.toList) k).map Prod.fst).Nodup := by
    rw [rescaled_fst]; exact nodup_usedFrom _ _
  refine ⟨_, ?_, fun z => ?_, huffDepths_merges (by simpa [rescaled] using hne) hd⟩
  · refine List.Nodup.map_on (fun a ha b hb e => ?_) hd.of_map
    simp only [leafNode, Node.mk.injEq] at e
    exact Prod.ext e.2.2.1 e.1
  · simp only [rescaled, List.map_map, List.mem_map, Function.comp, leafNode, Prod.exists, mem_usedFrom]
    constructor
    · rintro ⟨y, w, ⟨c, -, hc, h0, rfl⟩, rfl⟩
      obtain ⟨hy, rfl⟩ := List.getElem?_eq_some_iff.mp hc
      exact ⟨y, by simpa using hy, by simpa using h0, by simp⟩
    · rintro ⟨y, hy, h0, rfl⟩
      exact ⟨y, _, ⟨hist[y], Nat.zero_le _, by simp [hy], h0, rfl⟩, rfl⟩

/-- The depths of the construction list exactly the used symbols, each once. -/
theorem huffDepths_symbols {u : List (Nat × Nat)} (hne : u ≠ []) (h : (u.map Prod.fst).Nodup) :
    ((huffDepths u).map Prod.fst).Perm (u.map Prod.fst) := by
  simpa [leafNode, List.flatMap_map, List.map_eq_flatMap, List.flatMap_assoc] using (huffDepths_merges hne h).symbols

/-- A depth listed once is the one found. -/
theorem depthOf_eq {d : List (Nat × Nat)} (h : (d.map Prod.fst).Nodup) {y k : Nat} (hm : (y, k) ∈ d) :
    depthOf d y = k := by
  induction d with
  | nil => simp at hm
  | cons sd d ih =>
    obtain ⟨hs, hd⟩ := List.nodup_cons.mp h
    rw [depthOf, List.lookup_cons]
    rcases List.mem_cons.mp hm with rfl | hm
    · simp
    · have hne : (y == sd.1) = false := beq_false_of_ne fun e => hs (e ▸ List.mem_map_of_mem hm)
      rw [hne]
      exact ih hd hm

/-- A symbol that is not listed has depth 0. -/
theorem depthOf_eq_zero {d : List (Nat × Nat)} {y : Nat} (h : y ∉ d.map Prod.fst) : depthOf d y = 0 := by
  induction d with
  | nil => rfl
  | cons sd d ih =>
    rw [List.map_cons, List.mem_cons, not_or] at h
    rw [depthOf, List.lookup_cons, beq_false_of_ne h.1]
    exact ih h.2

/-- The length built for a symbol is its depth, in 5 bits (40_canonical_code_builder R85). -/
theorem buildLengths_getElem {n : Nat} (hist : Vector (BitVec 32) n) {y : Nat} (h : y < n) :
    (buildLengths hist).1[y]
      = BitVec.ofNat 5 (depthOf (lengthsOfUsed (usedFrom 0 hist.toList)).1 y) := by
  simp [buildLengths]

/-- From two used symbols on, the loop of R85 runs (40_canonical_code_builder R83). -/
theorem lengthsOfUsed_of_two_le {u : List (Nat × Nat)} (h : 2 ≤ u.length) :
    lengthsOfUsed u = limitLoop 32 0 u := by
  match u, h with
  | _ :: _ :: _, _ => rfl

end Sys2Proof.Machine
end

