-- ==== Sys2Proof/Laws/Symbols.lean ====
section
/-! SUPPORT. What writing and reading one symbol can do (42_huffman_codec). -/

namespace Sys2Proof.Machine

open Sys2Proof

/-! ### `EncSym` -/

/-- Everything `EncSym` does when it completes (42_huffman_codec R110). -/
theorem encSym_eq_ok {t : Tab} {sym k : Nat} {s s' : State} :
    encSym t sym s = .ok (k, s') ↔ (s.tab t).tstate = .valid ∧ (s.tab t).lenAt sym ≠ 0
      ∧ k = ((s.tab t).lenAt sym).toNat
      ∧ s' = { s with
          chanOut := s.chanOut ++ (s.tab t).codeBits sym
          bitsOut := s.bitsOut + ((s.tab t).lenAt sym).setWidth 32 } := by
  have hw : BitVec.ofNat 32 ((s.tab t).lenAt sym).toNat = ((s.tab t).lenAt sym).setWidth 32 := by
    rw [BitVec.ofNat_toNat]
  simp only [encSym, bind_eq_ok, need_eq_ok, pure_eq_ok, Except.ok.injEq, Prod.mk.injEq, writeBits, hw,
    TableMem.codeBits]
  constructor
  · rintro ⟨-, hv, -, hl, rfl, rfl⟩; exact ⟨hv, hl, rfl, rfl⟩
  · rintro ⟨hv, hl, rfl, rfl⟩; exact ⟨(), hv, (), hl, rfl, rfl⟩

/-- `EncSym` raises on a table that is not valid and on a symbol without a code. -/
theorem encSym_eq_error {t : Tab} {sym : Nat} {s : State} {r : Raise} :
    encSym t sym s = .error r ↔
      ((s.tab t).tstate = .collect ∧ r = .contract .tableState)
        ∨ ((s.tab t).tstate = .valid ∧ (s.tab t).lenAt sym = 0 ∧ r = .contract .noCode) := by
  simp only [encSym, bind_eq_error, need_eq_ok, need_eq_error]
  by_cases h0 : (s.tab t).lenAt sym = 0 <;> cases h : (s.tab t).tstate <;> simp [h0, eq_comm (a := r)]

@[simp] theorem TableMem.length_codeBits {n : Nat} (m : TableMem n) (sym : Nat) :
    (m.codeBits sym).length = (m.lenAt sym).toNat := by
  simp [TableMem.codeBits]

/-! ### The search -/

/-- A search that succeeds, starting at symbol `k`. -/
theorem findCode_eq_some {l c k y : Nat} {ls : List (BitVec 5)} {cs : List (BitVec 16)}
    (h : findCode l c k ls cs = some y) :
    ∃ i x z, y = k + i ∧ ls[i]? = some x ∧ cs[i]? = some z ∧ x.toNat = l ∧ z.toNat = c := by
  induction ls generalizing k cs with
  | nil => simp [findCode] at h
  | cons x ls ih =>
    cases cs with
    | nil => simp [findCode] at h
    | cons z cs =>
      simp only [findCode] at h
      split at h
      · rename_i hx
        exact ⟨0, x, z, by simpa using h.symm, rfl, rfl, hx.1, hx.2⟩
      · obtain ⟨i, a, b, hy, ha, hb, hl, hc⟩ := ih h
        exact ⟨i + 1, a, b, by omega, by simpa using ha, by simpa using hb, hl, hc⟩

/-- A search that fails, starting at symbol `k`. -/
theorem findCode_eq_none {l c k : Nat} {ls : List (BitVec 5)} {cs : List (BitVec 16)}
    (h : findCode l c k ls cs = none) {i : Nat} {x : BitVec 5} {z : BitVec 16}
    (hx : ls[i]? = some x) (hz : cs[i]? = some z) : ¬ (x.toNat = l ∧ z.toNat = c) := by
  induction ls generalizing k cs i with
  | nil => simp at hx
  | cons a ls ih =>
    cases cs with
    | nil => simp at hz
    | cons b cs =>
      simp only [findCode] at h
      split at h
      · cases h
      · rename_i hn
        cases i with
        | zero =>
          simp only [List.getElem?_cons_zero, Option.some.injEq] at hx hz
          subst hx; subst hz; exact hn
        | succ i => exact ih h (by simpa using hx) (by simpa using hz)

/-- A symbol that is found has the length and the code searched for. -/
theorem TableMem.symbolOf_eq_some {n : Nat} {m : TableMem n} {l c y : Nat} (h : m.symbolOf l c = some y) :
    y < n ∧ (m.lenAt y).toNat = l ∧ (m.codeAt y).toNat = c := by
  obtain ⟨i, x, z, rfl, hx, hz, hl, hc⟩ := findCode_eq_some h
  have hi : i < n := by
    have := (List.getElem?_eq_some_iff.mp hx).1
    simpa using this
  rw [Nat.zero_add, m.lenAt_of_lt hi, m.codeAt_of_lt hi]
  simp only [Vector.getElem?_toList, Vector.getElem?_eq_getElem hi, Option.some.injEq] at hx hz
  exact ⟨hi, by rw [hx, hl], by rw [hz, hc]⟩

/-- No symbol is found exactly if none has the length and the code searched for. -/
theorem TableMem.symbolOf_eq_none {n : Nat} {m : TableMem n} {l c : Nat} :
    m.symbolOf l c = none ↔ ∀ y < n, ¬ ((m.lenAt y).toNat = l ∧ (m.codeAt y).toNat = c) := by
  constructor
  · intro h y hy
    rw [m.lenAt_of_lt hy, m.codeAt_of_lt hy]
    exact findCode_eq_none h (i := y) (by simp [Vector.getElem?_eq_getElem hy])
      (by simp [Vector.getElem?_eq_getElem hy])
  · intro h
    cases hs : m.symbolOf l c with
    | none => rfl
    | some y =>
      obtain ⟨hy, hl, hc⟩ := TableMem.symbolOf_eq_some hs
      exact absurd ⟨hl, hc⟩ (h y hy)

/-! ### `DecSym` -/

/-- Everything the bit walk does when it completes (42_huffman_codec R112): it takes the bits `bs`, the
first at length `l` after the code bits `code`, and stops at the first length at which a code matches. -/
theorem decodeWalk_eq_ok {n : Nat} {m : TableMem n} {k l code : Nat} {r : Decoded} {s s' : State} :
    decodeWalk m k l code s = .ok (r, s') ↔ ∃ bs, bs ≠ [] ∧ bs.length ≤ k ∧ s.chanIn = bs ++ s'.chanIn
      ∧ r.bits + 1 = l + bs.length
      ∧ m.symbolOf r.bits (code * 2 ^ bs.length + ofBitsMsb bs) = some r.sym
      ∧ (∀ j, 0 < j → j < bs.length →
          m.symbolOf (l + j - 1) (code * 2 ^ j + ofBitsMsb (bs.take j)) = none)
      ∧ s' = { s with chanIn := s'.chanIn, bitsIn := s.bitsIn + BitVec.ofNat 32 bs.length } := by
  induction k generalizing l code s with
  | zero =>
    simp only [decodeWalk, reduceCtorEq, Nat.le_zero, List.length_eq_zero_iff, false_iff]
    rintro ⟨bs, h1, h2, -⟩; exact h1 h2
  | succ k ih =>
    simp only [decodeWalk, bind_eq_ok, Prod.exists]
    cases hc : s.chanIn with
    | nil =>
      have he : ∀ v t, readBits 1 s ≠ .ok (v, t) := fun v t h => by
        obtain ⟨bs, hl, hs, -⟩ := readBits_eq_ok.mp h
        rw [hc] at hs
        have := congrArg List.length hs
        simp only [List.length_nil, List.length_append, hl] at this
        omega
      constructor
      · rintro ⟨v, t, h, -⟩; exact absurd h (he v t)
      · rintro ⟨bs, h1, -, h3, -⟩
        have := congrArg List.length h3
        simp only [List.length_nil, List.length_append] at this
        exact absurd (List.length_eq_zero_iff.mp (by omega)) h1
    | cons b tail =>
      have hb := readBits_one hc
      rw [hb]
      simp only [Except.ok.injEq, Prod.mk.injEq]
      constructor
      · rintro ⟨v, t, ⟨rfl, rfl⟩, h⟩
        split at h
        · rename_i sym hsym
          simp only [pure_eq_ok, Except.ok.injEq, Prod.mk.injEq] at h
          obtain ⟨rfl, rfl⟩ := h
          refine ⟨[b], by simp, by simp, rfl, rfl, ?_, ?_, rfl⟩
          · simpa [ofBitsMsb] using hsym
          · intro j h0 h1; simp at h1; omega
        · rename_i hnone
          obtain ⟨bs, h1, h2, h3, h4, h5, h6, h7⟩ := ih.mp h
          have e : ∀ cs : List Bool, (code * 2 + b.toNat) * 2 ^ cs.length + ofBitsMsb cs
              = code * 2 ^ (cs.length + 1) + ofBitsMsb (b :: cs) := by
            intro cs; rw [ofBitsMsb_cons]; ring
          refine ⟨b :: bs, by simp, by simpa using h2, by rw [List.cons_append, ← h3], ?_, ?_, ?_, ?_⟩
          · rw [h4, List.length_cons]; omega
          · rw [List.length_cons, ← e]; exact h5
          · intro j h0 hj
            obtain ⟨i, rfl⟩ : ∃ i, j = i + 1 := ⟨j - 1, by omega⟩
            rw [List.take_succ_cons]
            cases i with
            | zero => simpa [ofBitsMsb] using hnone
            | succ i =>
              have := h6 (i + 1) (by omega) (by simpa using hj)
              have hlen : (bs.take (i + 1)).length = i + 1 :=
                List.length_take_of_le (by simp only [List.length_cons] at hj; omega)
              have e' := e (bs.take (i + 1))
              rw [hlen] at e'
              rw [← e', show l + (i + 1 + 1) - 1 = l + 1 + (i + 1) - 1 by omega]
              exact this
          · rw [h7]
            simp only [State.mk.injEq, Block.mk.injEq, true_and, and_true, List.length_cons]
            rw [BitVec.add_assoc, show (1 : BitVec 32) = BitVec.ofNat 32 1 from rfl, ← BitVec.ofNat_add,
              Nat.add_comm 1]
      · rintro ⟨bs, h1, h2, h3, h4, h5, h6, h7⟩
        refine ⟨_, _, ⟨rfl, rfl⟩, ?_⟩
        cases bs with
        | nil => exact absurd rfl h1
        | cons b' bs =>
          simp only [List.cons_append, List.cons.injEq] at h3
          obtain ⟨rfl, h3⟩ := h3
          have e : ∀ cs : List Bool, (code * 2 + b.toNat) * 2 ^ cs.length + ofBitsMsb cs
              = code * 2 ^ (cs.length + 1) + ofBitsMsb (b :: cs) := by
            intro cs; rw [ofBitsMsb_cons]; ring
          cases bs with
          | nil =>
            have hbits : r.bits = l := by simpa using h4
            have hsym : m.symbolOf l (code * 2 + b.toNat) = some r.sym := by
              rw [← hbits]; simpa [ofBitsMsb] using h5
            rw [hsym]
            simp only [pure_eq_ok, Except.ok.injEq, Prod.mk.injEq]
            refine ⟨by obtain ⟨sym, bits⟩ := r; simp only at hbits; rw [hbits], ?_⟩
            rw [h7, h3]; rfl
          | cons c cs =>
            have hnone : m.symbolOf l (code * 2 + b.toNat) = none := by
              simpa [ofBitsMsb] using h6 1 (by omega) (by simp)
            rw [hnone]
            refine ih.mpr ⟨c :: cs, by simp, by simpa using h2, h3, ?_, ?_, ?_, ?_⟩
            · rw [h4]; simp only [List.length_cons]; omega
            · rw [e]; exact h5
            · intro j h0 hj
              have := h6 (j + 1) (by omega) (by simpa using hj)
              have hlen : ((c :: cs).take j).length = j := List.length_take_of_le (by omega)
              have e' := e ((c :: cs).take j)
              rw [hlen] at e'
              rw [e', show l + 1 + j - 1 = l + (j + 1) - 1 by omega]
              simpa using this
            · rw [h7]
              simp only [State.mk.injEq, Block.mk.injEq, true_and, and_true, List.length_cons]
              rw [BitVec.add_assoc, show (1 : BitVec 32) = BitVec.ofNat 32 1 from rfl, ← BitVec.ofNat_add,
                Nat.add_comm 1]

/-- Everything `DecSym` does when it completes (42_huffman_codec R112). -/
theorem decSym_eq_ok {t : Tab} {r : Decoded} {s s' : State} :
    decSym t s = .ok (r, s') ↔ (s.tab t).tstate = .valid ∧ ∃ bs, bs ≠ [] ∧ bs.length ≤ 16
      ∧ s.chanIn = bs ++ s'.chanIn ∧ r.bits = bs.length
      ∧ (s.tab t).symbolOf bs.length (ofBitsMsb bs) = some r.sym
      ∧ (∀ j, 0 < j → j < bs.length → (s.tab t).symbolOf j (ofBitsMsb (bs.take j)) = none)
      ∧ s' = { s with chanIn := s'.chanIn, bitsIn := s.bitsIn + BitVec.ofNat 32 bs.length } := by
  simp only [decSym, bind_eq_ok, need_eq_ok, decodeWalk_eq_ok]
  simp only [Config.maxLen, Nat.zero_mul, Nat.zero_add, Nat.add_sub_cancel_left]
  constructor
  · rintro ⟨-, hv, bs, h1, h2, h3, h4, h5, h6, h7⟩
    obtain rfl' : r.bits = bs.length := by omega
    exact ⟨hv, bs, h1, h2, h3, rfl', rfl' ▸ h5, h6, h7⟩
  · rintro ⟨hv, bs, h1, h2, h3, h4, h5, h6, h7⟩
    exact ⟨(), hv, bs, h1, h2, h3, by omega, h4 ▸ h5, h6, h7⟩

/-- What the bit walk can raise (42_huffman_codec R112). -/
theorem decodeWalk_eq_error {n : Nat} {m : TableMem n} {k l code : Nat} {s : State} {e : Raise}
    (h : decodeWalk m k l code s = .error e) :
    (k ≤ s.chanIn.length ∧ e = .format .badCode) ∨ (s.chanIn.length < k ∧ e = .format .underflow) := by
  induction k generalizing l code s with
  | zero => simp only [decodeWalk, Except.error.injEq] at h; exact .inl ⟨Nat.zero_le _, h.symm⟩
  | succ k ih =>
    simp only [decodeWalk, bind_eq_error, Prod.exists] at h
    rcases h with h | ⟨v, t, h1, h⟩
    · obtain ⟨hl, rfl⟩ := readBits_eq_error.mp h
      exact .inr ⟨by omega, rfl⟩
    · obtain ⟨bs, hb, hc, -, -⟩ := readBits_eq_ok.mp h1
      have hlen := congrArg List.length hc
      rw [List.length_append] at hlen
      split at h
      · cases h
      · rcases ih h with ⟨h2, rfl⟩ | ⟨h2, rfl⟩
        · exact .inl ⟨by omega, rfl⟩
        · exact .inr ⟨by omega, rfl⟩

/-- What `DecSym` can raise (42_huffman_codec R112). -/
theorem decSym_eq_error {t : Tab} {s : State} {e : Raise} (h : decSym t s = .error e) :
    ((s.tab t).tstate = .collect ∧ e = .contract .tableState)
      ∨ ((s.tab t).tstate = .valid ∧ 16 ≤ s.chanIn.length ∧ e = .format .badCode)
      ∨ ((s.tab t).tstate = .valid ∧ s.chanIn.length < 16 ∧ e = .format .underflow) := by
  simp only [decSym, bind_eq_error, need_eq_error, need_eq_ok] at h
  rcases h with ⟨hn, rfl⟩ | ⟨-, hv, h⟩
  · left
    cases ht : (s.tab t).tstate
    · exact ⟨rfl, rfl⟩
    · exact absurd ht hn
  · rcases decodeWalk_eq_error h with ⟨h1, rfl⟩ | ⟨h1, rfl⟩
    · exact .inr (.inl ⟨hv, h1, rfl⟩)
    · exact .inr (.inr ⟨hv, h1, rfl⟩)

/-- Where no code is a prefix of IN, `DecSym` raises the fault of the bits that are there
(42_huffman_codec R112). -/
theorem decSym_of_noCodeIn {t : Tab} {s : State} (hv : (s.tab t).tstate = .valid)
    (h : (s.tab t).NoCodeIn s.chanIn) :
    decSym t s = .error (.format (if 16 ≤ s.chanIn.length then .badCode else .underflow)) := by
  cases hd : decSym t s with
  | ok p =>
    obtain ⟨r, s'⟩ := p
    obtain ⟨-, bs, hne, -, hc, -, hs, -, -⟩ := decSym_eq_ok.mp hd
    obtain ⟨-, hl, hcode⟩ := TableMem.symbolOf_eq_some hs
    have hb : (s.tab t).codeBits r.sym = bs := by
      rw [TableMem.codeBits, hl, hcode, bitsMsb_ofBitsMsb]
    refine absurd (hb ▸ hc ▸ List.prefix_append bs s'.chanIn) (h r.sym fun h0 => hne ?_)
    rw [h0] at hl
    exact List.length_eq_zero_iff.mp hl.symm
  | error e =>
    rcases decSym_eq_error hd with ⟨hc, -⟩ | ⟨-, hl, rfl⟩ | ⟨-, hl, rfl⟩
    · rw [hv] at hc; cases hc
    · rw [if_pos hl]
    · rw [if_neg (by omega)]

end Sys2Proof.Machine
end

