-- ==== Sys2Proof/Laws/Runs.lean ====
section
/-! SUPPORT. What tracking, flushing and emitting a run of zeros can do (43_zero_run, 44 R136). -/

namespace Sys2Proof.Machine

open Sys2Proof

/-! ### The chain of a run -/

/-- A run's symbols are run symbols (43_zero_run R120). -/
theorem mem_chain {L y : Nat} (h : y ∈ chain L) : 256 ≤ y ∧ y ≤ 383 := by
  simp only [chain, Config.runUnit, Config.runCont, List.mem_append] at h
  rcases h with h | h
  · have := List.eq_of_mem_replicate h; omega
  · by_cases h0 : L % 128 = 0
    · simp [h0] at h
    · have := Nat.mod_lt L (show 0 < 128 by decide)
      simp only [h0, if_false, List.mem_singleton] at h; omega

/-- A run that is not a multiple of 128 ends with a terminal symbol, one that is with 383. -/
theorem chain_getLast {L : Nat} (h : 1 ≤ L) :
    (chain L).getLast? = some (if L % 128 = 0 then 383 else 255 + L % 128) := by
  unfold chain Config.runUnit Config.runCont
  by_cases h0 : L % 128 = 0
  · rw [if_pos h0, if_pos h0, List.append_nil, List.getLast?_replicate, if_neg (by omega)]
  · rw [if_neg h0, if_neg h0, List.getLast?_append]; simp

theorem chain_zero : chain 0 = [] := rfl

theorem chain_ne_nil {L : Nat} (h : 1 ≤ L) : chain L ≠ [] := fun e => by
  have := chain_getLast h; rw [e] at this; simp at this

/-- The context after each of a list of symbols in turn (44_entropy_coder R131) depends on the last. -/
theorem foldl_ctx (en : Bool) (syms : List Nat) (az : Bool) :
    syms.foldl (fun _ y => en && decide (256 ≤ y) && decide (y < 383)) az
      = match syms.getLast? with
        | none => az
        | some y => en && decide (256 ≤ y) && decide (y < 383) := by
  induction syms using List.reverseRecOn with
  | nil => rfl
  | append_singleton syms y _ => simp

/-- The context after a run's chain: after-zero exactly if the last symbol is terminal. -/
theorem foldl_ctx_chain (en az : Bool) {L : Nat} (h : 1 ≤ L) :
    (chain L).foldl (fun _ y => en && decide (256 ≤ y) && decide (y < 383)) az
      = (en && decide (L % 128 ≠ 0)) := by
  rw [foldl_ctx, chain_getLast h]
  have := Nat.mod_lt L (show 0 < 128 by decide)
  by_cases h0 : L % 128 = 0
  · simp [h0]
  · have h1 : 256 ≤ 255 + L % 128 := by omega
    have h2 : 255 + L % 128 < 383 := by omega
    simp [h0, h1, h2]

/-! ### Counting a chain -/

/-- Counting a list of symbols one by one. -/
theorem CountsAdded.foldl {n : Nat} {syms : List Nat} (h : ∀ y ∈ syms, y < n) (m : TableMem n) :
    CountsAdded syms m (syms.foldl TableMem.addOne m) := by
  induction syms generalizing m with
  | nil => exact CountsAdded.nil m
  | cons y ys ih =>
    exact (CountsAdded.addOne m (h y List.mem_cons_self)).append
      (ih (fun z hz => h z (List.mem_cons_of_mem _ hz)) _)

@[simp] theorem TableMem.foldl_addOne_tstate {n : Nat} (syms : List Nat) (m : TableMem n) :
    (syms.foldl TableMem.addOne m).tstate = m.tstate := by
  induction syms generalizing m with
  | nil => rfl
  | cons y ys ih => rw [List.foldl_cons, ih]; rfl

/-- Everything the loop of `FlushRun` does when it completes (43_zero_run R123). -/
theorem countChain_eq_ok {syms : List Nat} {s s' : State} :
    countChain syms s = .ok s' ↔ (syms = [] ∨ s.tabBz.tstate = .collect)
      ∧ s' = { s with
          tabBz := syms.foldl TableMem.addOne s.tabBz
          ctxAz := syms.foldl (fun _ y => s.ctxEn && decide (256 ≤ y) && decide (y < 383)) s.ctxAz } := by
  induction syms generalizing s with
  | nil => simp [countChain, eq_comm]
  | cons y ys ih =>
    simp only [countChain, bind_eq_ok, addSymbol_eq_ok, ih]
    constructor
    · rintro ⟨t, ⟨hc, rfl⟩, -, rfl⟩
      exact ⟨.inr hc, rfl⟩
    · rintro ⟨hc, rfl⟩
      have hc : s.tabBz.tstate = .collect := by simpa using hc
      exact ⟨_, ⟨hc, rfl⟩, .inr (by simpa using hc), rfl⟩

/-- `FlushRun` raises only on a frozen base table. -/
theorem countChain_eq_error {syms : List Nat} {s : State} {r : Raise} (h : countChain syms s = .error r) :
    s.tabBz.tstate = .valid ∧ r = .contract .tableState := by
  induction syms generalizing s with
  | nil => simp [countChain] at h
  | cons y ys ih =>
    simp only [countChain, bind_eq_error, addSymbol_eq_ok] at h
    rcases h with h | ⟨t, ⟨hc, rfl⟩, h⟩
    · exact addSymbol_eq_error.mp h
    · have := (ih h).1
      simp [State.setTab, State.tab] at this hc
      rw [hc] at this; cases this

/-! ### Flushing and tracking -/

/-- Everything the end of an open run does when it completes (43_zero_run R122, R123). -/
theorem flushOpenRun_eq_ok {s s' : State} :
    flushOpenRun s = .ok s' ↔
      (s.runCnt ≠ 0 → s.rl.length ≠ Config.runlistCap ∧ s.tabBz.tstate = .collect)
        ∧ s' = { s with
            tabBz := (flushedSymbols s).foldl TableMem.addOne s.tabBz
            rl := flushedRuns s, runCnt := 0, ctxAz := flushedContext s } := by
  unfold flushOpenRun flushedSymbols flushedRuns flushedContext
  by_cases h : s.runCnt = 0
  · simp only [h, if_true, Except.ok.injEq, ne_eq, not_true_eq_false, false_implies, true_and,
      List.foldl_nil]
    rw [eq_comm, ← h]
  · have h1 : 1 ≤ s.runCnt.toNat := by
      rcases Nat.eq_zero_or_pos s.runCnt.toNat with h0 | h0
      · exact absurd (BitVec.eq_of_toNat_eq h0) h
      · exact h0
    simp only [if_neg h, flushRun, bind_eq_ok, need_eq_ok, countChain_eq_ok, chain_ne_nil h1,
      false_or, foldl_ctx_chain _ _ h1, pure_eq_ok, Except.ok.injEq]
    constructor
    · rintro ⟨-, hr, t, ⟨hc, rfl⟩, rfl⟩; exact ⟨fun _ => ⟨hr, hc⟩, rfl⟩
    · rintro ⟨hp, rfl⟩
      exact ⟨(), (hp h).1, _, ⟨(hp h).2, rfl⟩, rfl⟩

/-- The end of an open run raises on a full run-list, and on a frozen base table. -/
theorem flushOpenRun_eq_error {s : State} {r : Raise} (h : flushOpenRun s = .error r) :
    s.runCnt ≠ 0 ∧ ((s.rl.length = Config.runlistCap ∧ r = .contract .overflow)
      ∨ (s.rl.length ≠ Config.runlistCap ∧ s.tabBz.tstate = .valid ∧ r = .contract .tableState)) := by
  unfold flushOpenRun at h
  by_cases h0 : s.runCnt = 0
  · simp [h0] at h
  · rw [if_neg h0] at h
    refine ⟨h0, ?_⟩
    simp only [flushRun, bind_eq_error, need_eq_error, need_eq_ok, pure_eq_ok, reduceCtorEq, and_false,
      exists_false, or_false, ne_eq, not_not] at h
    rcases h with ⟨hl, rfl⟩ | ⟨-, hl, h⟩
    · exact .inl ⟨hl, rfl⟩
    · obtain ⟨hv, rfl⟩ := countChain_eq_error h
      exact .inr ⟨hl, hv, rfl⟩

/-- Everything `TrackByte` of a zero byte does when it completes (43_zero_run R122). -/
theorem trackByte_zero_eq_ok {s s' : State} :
    trackByte 0 s = .ok s' ↔ s.runCnt.toNat ≠ 4294967295 ∧ s' = { s with runCnt := s.runCnt + 1 } := by
  by_cases h : s.runCnt.toNat = 4294967295 <;> simp [trackByte, Config.countMax, h, eq_comm]

/-- `TrackByte` of any other byte ends the open run (43_zero_run R122). -/
theorem trackByte_of_ne {b : Nat} (h : b ≠ 0) (s : State) : trackByte b s = flushOpenRun s := by
  simp [trackByte, h]

/-! ### Emitting a chain -/

/-- Everything `EmitChain` does when it completes (44_entropy_coder R136). -/
theorem emitSymbols_eq_ok {syms : List Nat} {k : Nat} {s s' : State} :
    emitSymbols syms s = .ok (k, s') ↔ (syms = [] ∨ s.tabBz.tstate = .valid)
      ∧ (∀ y ∈ syms, s.tabBz.lenAt y ≠ 0) ∧ k = (syms.flatMap s.tabBz.codeBits).length
      ∧ s' = { s with
          chanOut := s.chanOut ++ syms.flatMap s.tabBz.codeBits
          bitsOut := s.bitsOut + BitVec.ofNat 32 (syms.flatMap s.tabBz.codeBits).length
          ctxAz := syms.foldl (fun _ y => s.ctxEn && decide (256 ≤ y) && decide (y < 383)) s.ctxAz } := by
  induction syms generalizing s s' k with
  | nil =>
    simp only [emitSymbols, Except.ok.injEq, Prod.mk.injEq, List.flatMap_nil, List.append_nil,
      List.length_nil, List.foldl_nil, true_or, true_and, List.not_mem_nil, false_implies, implies_true]
    rw [eq_comm, eq_comm (a := s)]
    simp
  | cons y ys ih =>
    simp only [emitSymbols, bind_eq_ok, Prod.exists, encSym_eq_ok, ih, pure_eq_ok, Except.ok.injEq,
      Prod.mk.injEq, State.tab_bz]
    constructor
    · rintro ⟨j, t, ⟨hv, hl, rfl, rfl⟩, i, u, ⟨-, hy, rfl, rfl⟩, rfl, rfl⟩
      refine ⟨.inr hv, ?_, ?_, ?_⟩
      · rintro z (_ | ⟨_, hz⟩)
        · exact hl
        · exact hy z hz
      · simp
      · simp only [ctxAfter_chanOut, ctxAfter_bitsOut, ctxAfter_tabBz, List.flatMap_cons,
          List.append_assoc, List.length_append, TableMem.length_codeBits, BitVec.ofNat_add,
          BitVec.ofNat_toNat, BitVec.add_assoc]
        rfl
    · rintro ⟨hv, hy, rfl, rfl⟩
      have hv : s.tabBz.tstate = .valid := by simpa using hv
      refine ⟨_, _, ⟨hv, hy y List.mem_cons_self, rfl, rfl⟩, _, _,
        ⟨.inr hv, fun z hz => hy z (List.mem_cons_of_mem _ hz), rfl, rfl⟩, by simp, ?_⟩
      simp only [ctxAfter_chanOut, ctxAfter_bitsOut, ctxAfter_tabBz, List.flatMap_cons,
        List.append_assoc, List.length_append, TableMem.length_codeBits, BitVec.ofNat_add,
        BitVec.ofNat_toNat, BitVec.add_assoc]
      rfl

/-- `EmitChain` raises on a base table that is not valid and on a run symbol without a code. -/
theorem emitSymbols_eq_error {syms : List Nat} {s : State} {r : Raise} (h : emitSymbols syms s = .error r) :
    (s.tabBz.tstate = .collect ∧ r = .contract .tableState)
      ∨ (s.tabBz.tstate = .valid ∧ (∃ y ∈ syms, s.tabBz.lenAt y = 0) ∧ r = .contract .noCode) := by
  induction syms generalizing s with
  | nil => simp [emitSymbols] at h
  | cons y ys ih =>
    simp only [emitSymbols, bind_eq_error, Prod.exists, encSym_eq_ok, pure_eq_ok, reduceCtorEq,
      and_false, exists_false, or_false] at h
    rcases h with h | ⟨j, t, ⟨hv, hl, rfl, rfl⟩, h⟩
    · rcases encSym_eq_error.mp h with ⟨h1, rfl⟩ | ⟨h1, h2, rfl⟩
      · exact .inl ⟨h1, rfl⟩
      · exact .inr ⟨h1, ⟨y, List.mem_cons_self, h2⟩, rfl⟩
    · rcases ih h with ⟨h1, rfl⟩ | ⟨h1, ⟨z, hz, h2⟩, rfl⟩
      · exact .inl ⟨h1, rfl⟩
      · exact .inr ⟨h1, ⟨z, List.mem_cons_of_mem _ hz, h2⟩, rfl⟩

end Sys2Proof.Machine
end

