-- ==== Sys2Proof/Laws/Matches.lean ====
section
/-! SUPPORT. What classifying, counting, writing and reading a match can do (45_lz_codec). -/

namespace Sys2Proof.Machine

open Sys2Proof

/-! ### The lowest offset -/

/-- The offset found holds the value, and no lower one does. -/
theorem lowestIndex_eq_some {d k i : Nat} {l : List Nat} :
    lowestIndex d k l = some i ↔ ∃ j, i = k + j ∧ l[j]? = some d ∧ ∀ m < j, l[m]? ≠ some d := by
  induction l generalizing k with
  | nil => simp [lowestIndex]
  | cons x xs ih =>
    simp only [lowestIndex]
    by_cases h : x = d
    · simp only [h, if_true, Option.some.injEq]
      constructor
      · rintro rfl; exact ⟨0, rfl, rfl, fun m hm => absurd hm (Nat.not_lt_zero m)⟩
      · rintro ⟨j, rfl, -, hm⟩
        rcases Nat.eq_zero_or_pos j with rfl | hj
        · rfl
        · exact absurd rfl (hm 0 hj)
    · rw [if_neg h, ih]
      constructor
      · rintro ⟨j, rfl, hj, hm⟩
        refine ⟨j + 1, by omega, by simpa using hj, fun m hlt => ?_⟩
        cases m with
        | zero => simpa using h
        | succ m => simpa using hm m (by omega)
      · rintro ⟨j, rfl, hj, hm⟩
        cases j with
        | zero => simp only [List.getElem?_cons_zero, Option.some.injEq] at hj; exact absurd hj h
        | succ j =>
          exact ⟨j, by omega, by simpa using hj, fun m hlt => by simpa using hm (m + 1) (by omega)⟩

/-- Nothing is found exactly if the value is not in the list. -/
theorem lowestIndex_eq_none {d k : Nat} {l : List Nat} : lowestIndex d k l = none ↔ d ∉ l := by
  induction l generalizing k with
  | nil => simp [lowestIndex]
  | cons x xs ih =>
    simp only [lowestIndex]
    by_cases h : x = d
    · simp [h]
    · rw [if_neg h, ih, List.mem_cons, not_or]; exact ⟨fun g => ⟨fun e => h e.symm, g⟩, fun g => g.2⟩

/-! ### The cache -/

theorem cacheList_length (s : State) : (cacheList s).length = 4 := by
  simp [cacheList]

/-- Slot `i` of the list of cached distances. -/
theorem cacheList_getElem? (s : State) {i : Nat} (h : i < 4) :
    (cacheList s)[i]? = some (s.cacheAt (BitVec.ofNat 2 i)).toNat := by
  have : (BitVec.ofNat 2 i).toNat = i := by simp; omega
  simp only [cacheList, State.cacheAt, this]
  rw [List.getElem?_map, Vector.getElem?_toList, Vector.getElem?_eq_getElem h]
  rfl

/-- A push puts the distance in the slot under the cursor and leaves the others. -/
theorem cacheAt_cachePush (d : Half) (s : State) (i : BitVec 2) :
    (cachePush d s).cacheAt i = if i = s.cur then d else s.cacheAt i := by
  simp only [State.cacheAt, cachePush_cache, Vector.getElem_set, BitVec.toNat_inj, eq_comm]

/-- Everything the cache update after a match does (45_lz_codec R152). -/
theorem pushIf_eq (push : Bool) (d : Nat) (s : State) :
    pushIf push d s = { s with
      cache := if push then s.cache.set s.cur.toNat (BitVec.ofNat 16 d) else s.cache
      cur := if push then s.cur + 1 else s.cur } := by
  cases push <;> rfl

/-! ### `Classify` -/

/-- The local-up distance as a number (45_lz_codec R151). -/
theorem localUp_eq (x : Half) (j : Nat) : localUp x j = (x.toNat + j + 65534) % 65536 := by
  have h2 : (2 : BitVec 16).toNat = 2 := rfl
  simp only [localUp, BitVec.toNat_sub, BitVec.toNat_add, BitVec.toNat_ofNat, h2]
  omega

theorem localUps_length (x : Half) : (localUps x).length = 5 := by
  simp [localUps]

theorem localUps_getElem? (x : Half) {j : Nat} (h : j < 5) : (localUps x)[j]? = some (localUp x j) := by
  simp [localUps, List.getElem?_range h]

/-- Everything `Classify` answers (45_lz_codec R153). -/
theorem classify_isClassOf (len d : Nat) (s : State) : IsClassOf len d s (classify len d s) := by
  have cached : ∀ i < 4, ((cacheList s)[i]? = some d ↔ (s.cacheAt (BitVec.ofNat 2 i)).toNat = d) :=
    fun i hi => by rw [cacheList_getElem? s hi, Option.some.injEq]
  unfold classify IsClassOf
  cases hc : lowestIndex d 0 (cacheList s) with
  | some i =>
    obtain ⟨j, rfl, hj, hm⟩ := lowestIndex_eq_some.mp hc
    have hlt := (List.getElem?_eq_some_iff.mp hj).1
    rw [cacheList_length] at hlt
    exact .inl ⟨j, hlt, (cached j hlt).mp hj, fun m h e => hm m h ((cached m (by omega)).mpr e), by simp⟩
  | none =>
    have hn := lowestIndex_eq_none.mp hc
    refine .inr ⟨fun i hi e => hn (List.mem_of_getElem? ((cached i hi).mpr e)), ?_⟩
    simp only [Config.escLlBase, Config.escLuBase, Config.shortMax]
    by_cases h1 : d = 1
    · exact .inl ⟨h1, by rw [if_pos h1]⟩
    by_cases h2 : 3 ≤ d ∧ d ≤ 6
    · exact .inr (.inl ⟨h2.1, h2.2, by rw [if_neg h1, if_pos h2]⟩)
    refine .inr (.inr ⟨h1, h2, ?_⟩)
    rw [if_neg h1, if_neg h2]
    have up : ∀ j < 5, ((localUps s.xsize)[j]? = some d ↔ (s.xsize.toNat + j + 65534) % 65536 = d) :=
      fun j hj => by rw [localUps_getElem? _ hj, Option.some.injEq, localUp_eq]
    cases hu : lowestIndex d 0 (localUps s.xsize) with
    | some i =>
      obtain ⟨j, rfl, hj, hm⟩ := lowestIndex_eq_some.mp hu
      have hlt := (List.getElem?_eq_some_iff.mp hj).1
      rw [localUps_length] at hlt
      exact .inl ⟨j, hlt, (up j hlt).mp hj, fun m h e => hm m h ((up m (by omega)).mpr e), by simp⟩
    | none =>
      have hn := lowestIndex_eq_none.mp hu
      exact .inr ⟨fun j hj e => hn (List.mem_of_getElem? ((up j hj).mpr e)), rfl⟩

/-! ### Counting a match -/

/-- Everything pass one counts for a match when it completes (45_lz_codec R155). -/
theorem countMatch_eq_ok {c : MatchClass} {len d : Nat} {s s' : State} :
    countMatch c len d s = .ok s' ↔
      (c.needLen = true → s.tabLen.tstate = .collect) ∧ (c.kind = .short → s.tabSd.tstate = .collect)
        ∧ (c.kind = .long → s.tabLd.tstate = .collect)
        ∧ s' = { s with
            tabLen := if c.needLen then s.tabLen.addOne (len - 2) else s.tabLen
            tabSd := if c.kind = .short then s.tabSd.addOne (d - 1) else s.tabSd
            tabLd := if c.kind = .long then s.tabLd.addOne (d / 256) else s.tabLd } := by
  obtain ⟨esc, needLen, kind, push⟩ := c
  cases needLen <;> cases kind <;>
    simp only [countMatch, if_true, if_false, bind_eq_ok, addSymbol_eq_ok, pure_eq_ok, Except.ok.injEq,
      reduceCtorEq, false_implies, true_implies, true_and, State.tab_len, State.tab_sd, State.tab_ld,
      Bool.false_eq_true, eq_comm (a := s), exists_eq_left]
  · rfl
  · rfl
  · constructor
    · rintro ⟨t, ⟨h1, rfl⟩, rfl⟩; exact ⟨h1, rfl⟩
    · rintro ⟨h1, rfl⟩; exact ⟨_, ⟨h1, rfl⟩, rfl⟩
  · constructor
    · rintro ⟨t, ⟨h1, rfl⟩, h2, rfl⟩; exact ⟨h1, h2, rfl⟩
    · rintro ⟨h1, h2, rfl⟩; exact ⟨_, ⟨h1, rfl⟩, h2, rfl⟩
  · constructor
    · rintro ⟨t, ⟨h1, rfl⟩, h2, rfl⟩; exact ⟨h1, h2, rfl⟩
    · rintro ⟨h1, h2, rfl⟩; exact ⟨_, ⟨h1, rfl⟩, h2, rfl⟩

/-! ### Writing a match -/

/-- Everything the length field of pass two does when it completes (45_lz_codec R158). -/
theorem emitLength_eq_ok {c : MatchClass} {len k : Nat} {s s' : State} :
    emitLength c len s = .ok (k, s') ↔
      (c.needLen = true → s.tabLen.tstate = .valid ∧ s.tabLen.lenAt (len - 2) ≠ 0)
        ∧ k = (if c.needLen then s.tabLen.codeBits (len - 2) else []).length
        ∧ s' = { s with
            chanOut := s.chanOut ++ if c.needLen then s.tabLen.codeBits (len - 2) else []
            bitsOut := s.bitsOut + BitVec.ofNat 32 k } := by
  obtain ⟨esc, needLen, kind, push⟩ := c
  cases needLen
  · simp [emitLength, eq_comm]
    rintro rfl
    simp only [BitVec.add_zero]
    exact eq_comm
  · simp only [emitLength, if_true, encSym_eq_ok, State.tab_len, true_implies, TableMem.length_codeBits]
    constructor
    · rintro ⟨h1, h2, rfl, rfl⟩; exact ⟨⟨h1, h2⟩, rfl, by rw [BitVec.ofNat_toNat]⟩
    · rintro ⟨⟨h1, h2⟩, rfl, rfl⟩; exact ⟨h1, h2, rfl, by rw [BitVec.ofNat_toNat]⟩

/-- The distance field of a match as bits (45_lz_codec R158, R162). -/
def distanceBits (c : MatchClass) (d : Nat) (s : State) : List Bool :=
  match c.kind with
  | .none => []
  | .short => s.tabSd.codeBits (d - 1)
  | .long => s.tabLd.codeBits (d / 256) ++ bitsMsb 8 (d % 256)

/-- Everything the distance field of pass two does when it completes (45_lz_codec R158). -/
theorem emitDistance_eq_ok {c : MatchClass} {d k : Nat} {s s' : State} :
    emitDistance c d s = .ok (k, s') ↔
      (c.kind = .short → s.tabSd.tstate = .valid ∧ s.tabSd.lenAt (d - 1) ≠ 0)
        ∧ (c.kind = .long → s.tabLd.tstate = .valid ∧ s.tabLd.lenAt (d / 256) ≠ 0)
        ∧ k = (distanceBits c d s).length
        ∧ s' = { s with
            chanOut := s.chanOut ++ distanceBits c d s
            bitsOut := s.bitsOut + BitVec.ofNat 32 k } := by
  obtain ⟨esc, needLen, kind, push⟩ := c
  cases kind
  · simp [emitDistance, distanceBits, eq_comm]
    rintro rfl
    simp only [BitVec.add_zero]
    exact eq_comm
  · simp only [emitDistance, distanceBits, encSym_eq_ok, State.tab_sd, true_implies, reduceCtorEq,
      false_implies, true_and, TableMem.length_codeBits]
    constructor
    · rintro ⟨h1, h2, rfl, rfl⟩; exact ⟨⟨h1, h2⟩, rfl, by rw [BitVec.ofNat_toNat]⟩
    · rintro ⟨⟨h1, h2⟩, rfl, rfl⟩; exact ⟨h1, h2, rfl, by rw [BitVec.ofNat_toNat]⟩
  · simp only [emitDistance, distanceBits, encSym_eq_ok, State.tab_ld, true_implies, reduceCtorEq,
      false_implies, true_and, TableMem.length_codeBits, bind_eq_ok, Prod.exists, pure_eq_ok,
      Except.ok.injEq, Prod.mk.injEq, writeBits, List.length_append, length_bitsMsb]
    constructor
    · rintro ⟨j, t, ⟨h1, h2, rfl, rfl⟩, rfl, rfl⟩
      refine ⟨⟨h1, h2⟩, rfl, ?_⟩
      rw [List.append_assoc, BitVec.add_assoc, BitVec.ofNat_add, BitVec.ofNat_toNat]
    · rintro ⟨⟨h1, h2⟩, rfl, rfl⟩
      refine ⟨_, _, ⟨h1, h2, rfl, rfl⟩, rfl, ?_⟩
      rw [List.append_assoc, BitVec.add_assoc, BitVec.ofNat_add, BitVec.ofNat_toNat]

/-! ### Reading a length -/

/-- A length read is a length symbol and 2 (45_lz_codec R160, R161). -/
theorem readLength_eq_ok {s s' : State} {len : Nat} :
    readLength s = .ok (len, s') ↔ ∃ r, decSym .len s = .ok (r, s') ∧ len = r.sym + 2 := by
  simp only [readLength, bind_eq_ok, Prod.exists, pure_eq_ok, Except.ok.injEq, Prod.mk.injEq]
  constructor
  · rintro ⟨r, t, h, rfl, rfl⟩; exact ⟨r, h, rfl⟩
  · rintro ⟨r, h, rfl⟩; exact ⟨r, s', h, rfl, rfl⟩

end Sys2Proof.Machine
end

