-- ==== Sys2Proof/Laws/Operands.lean ====
section
/-! SUPPORT. Each operand format as a condition on the numbers in `ARG0` and `ARG1`. -/

namespace Sys2Proof.Machine

open Sys2Proof

/-- The bits of a word from bit `k` up are 0 exactly if its value is below `2^k`. -/
theorem extract_high_eq_zero (w : Word) (k : Nat) (hk : k ≤ 32) :
    w.extractLsb' k (32 - k) = 0 ↔ w.toNat < 2 ^ k := by
  have hw := w.isLt
  have hp : 2 ^ 32 = 2 ^ k * 2 ^ (32 - k) := by rw [← Nat.pow_add]; congr 1; omega
  rw [← BitVec.toNat_inj, BitVec.extractLsb'_toNat, Nat.shiftRight_eq_div_pow]
  have hq : w.toNat / 2 ^ k < 2 ^ (32 - k) := by
    rw [Nat.div_lt_iff_lt_mul (Nat.two_pow_pos k), Nat.mul_comm, ← hp]; exact hw
  rw [Nat.mod_eq_of_lt hq]
  simp [Nat.div_eq_zero_iff]

/-- The low field of a word whose value fits it. -/
theorem extract_low_toNat (w : Word) {k : Nat} (h : w.toNat < 2 ^ k) :
    (w.extractLsb' 0 k).toNat = w.toNat := by
  rw [BitVec.extractLsb'_toNat, Nat.shiftRight_zero, Nat.mod_eq_of_lt h]

/-- The low field of a word, as a word of that width. -/
theorem extract_low_eq_setWidth (w : Word) (k : Nat) : w.extractLsb' 0 k = w.setWidth k := by
  apply BitVec.eq_of_toNat_eq
  simp [BitVec.extractLsb'_toNat]

@[simp] theorem tableOperand_eq_ok {t : BitVec 3} {tab : Tab} :
    tableOperand t = .ok tab ↔ Tab.ofSel t = some tab := by
  unfold tableOperand
  cases Tab.ofSel t <;> simp

/-- `sym`, format TS. -/
theorem symOperand_eq (t : Tab) (s : State) :
    symOperand t s = if s.arg0.toNat < nsym t then .ok s.arg0.toNat else .error (.contract .operand) := by
  have hn : nsym t < 2 ^ 9 := by cases t <;> decide
  unfold symOperand
  have hx : s.arg0.extractLsb' 9 23 = 0 ↔ s.arg0.toNat < 2 ^ 9 :=
    extract_high_eq_zero s.arg0 9 (by decide)
  by_cases h : s.arg0.toNat < 2 ^ 9
  · simp only [extract_low_toNat _ h, hx.mpr h, true_and]
  · rw [if_neg (fun g => h (hx.mp g.1)), if_neg (by omega)]

/-- `ctx`, format F. -/
theorem ctxOperand_eq (s : State) :
    ctxOperand s = if s.arg0.toNat < 2 then .ok (decide (s.arg0 = 1)) else .error (.contract .operand) := by
  unfold ctxOperand
  have hx : s.arg0.extractLsb' 1 31 = 0 ↔ s.arg0.toNat < 2 ^ 1 :=
    extract_high_eq_zero s.arg0 1 (by decide)
  by_cases h : s.arg0.toNat < 2 ^ 1
  · rw [if_pos (hx.mpr h), if_pos (by omega)]
    congr 1
    have : s.arg0.toNat = 0 ∨ s.arg0.toNat = 1 := by omega
    rcases this with h0 | h0
    · rw [show s.arg0 = 0 from BitVec.eq_of_toNat_eq h0]; decide
    · rw [show s.arg0 = 1 from BitVec.eq_of_toNat_eq h0]; decide
  · rw [if_neg (fun g => h (hx.mp g)), if_neg (by omega)]

/-- `byte`, format B. -/
theorem byteOperand_eq (s : State) :
    byteOperand s = if s.arg0.toNat < 256 then .ok s.arg0.toNat else .error (.contract .operand) := by
  unfold byteOperand
  have hx : s.arg0.extractLsb' 8 24 = 0 ↔ s.arg0.toNat < 2 ^ 8 :=
    extract_high_eq_zero s.arg0 8 (by decide)
  by_cases h : s.arg0.toNat < 2 ^ 8
  · rw [if_pos (hx.mpr h), if_pos (by omega), extract_low_toNat _ h]
  · rw [if_neg (fun g => h (hx.mp g)), if_neg (by omega)]

/-- `esc`, format E. -/
theorem escOperand_eq (s : State) :
    escOperand s = if s.arg0.toNat < 256 then .ok s.arg0.toNat else .error (.contract .operand) :=
  byteOperand_eq s

/-- `xsize`, `ysize`, format D. -/
theorem sizeOperands_eq (s : State) :
    sizeOperands s = if s.arg0.toNat < 65536 ∧ s.arg1.toNat < 65536 then
      .ok (s.arg0.setWidth 16, s.arg1.setWidth 16) else .error (.contract .operand) := by
  unfold sizeOperands
  have h := extract_high_eq_zero s.arg0 16 (by decide)
  have h' := extract_high_eq_zero s.arg1 16 (by decide)
  norm_num at h h'
  simp only [extract_low_eq_setWidth]
  congr 1
  exact propext (and_congr h h')

/-- `len`, `dist`, format M. -/
theorem matchOperands_eq (s : State) :
    matchOperands s =
      if 2 ≤ s.arg0.toNat ∧ s.arg0.toNat ≤ 257 ∧ 1 ≤ s.arg1.toNat ∧ s.arg1.toNat ≤ 65535 then
        .ok (s.arg0.toNat, s.arg1.toNat) else .error (.contract .operand) := by
  unfold matchOperands
  have h := extract_high_eq_zero s.arg0 9 (by decide)
  have h' := extract_high_eq_zero s.arg1 16 (by decide)
  norm_num at h h'
  by_cases ha : s.arg0.toNat < 512
  · by_cases hb : s.arg1.toNat < 65536
    · simp only [extract_low_toNat _ (show s.arg0.toNat < 2 ^ 9 from ha),
        extract_low_toNat _ (show s.arg1.toNat < 2 ^ 16 from hb), Config.lenMin, Config.lenMax]
      congr 1
      exact propext ⟨fun g => ⟨g.2.2.1, g.2.2.2.1, g.2.2.2.2, by omega⟩,
        fun g => ⟨h.mpr ha, h'.mpr hb, g.1, g.2.1, g.2.2.1⟩⟩
    · rw [if_neg (fun g => hb (h'.mp g.2.1)), if_neg (by omega)]
  · rw [if_neg (fun g => ha (h.mp g.1)), if_neg (by omega)]

end Sys2Proof.Machine
end

