-- ==== Sys2Proof/Laws/PerInstr.lean ====
section
/-! SUPPORT. What holds of each command as syntax, one lemma per constructor. -/

open Sys2Proof

/-- The encoding of a well-formed command holds its opcode and its `tsel` where 30_encoding R60 places
them, with the reserved bits 0. -/
def Sys2Proof.Laws.EncodingOf.Statement (i : Instr) : Prop :=
  i.wf = true →
    opcodeField (encode i) = i.opcode ∧ tselField (encode i) = i.tsel ∧ reservedField (encode i) = 0

namespace Sys2Proof.Laws.EncodingOf

/-- The three fields of a word put together from them. -/
theorem fields_of_append (r : BitVec 21) (t : BitVec 3) (o : BitVec 8) :
    opcodeField (r ++ t ++ o) = o ∧ tselField (r ++ t ++ o) = t ∧ reservedField (r ++ t ++ o) = r := by
  have hr := r.isLt
  have ht := t.isLt
  have ho := o.isLt
  refine ⟨?_, ?_, ?_⟩ <;> apply BitVec.eq_of_toNat_eq <;>
    simp only [opcodeField, tselField, reservedField, BitVec.extractLsb'_toNat, BitVec.toNat_append,
      Nat.shiftRight_eq_div_pow] <;>
    rw [← Nat.shiftLeft_add_eq_or_of_lt ho, ← Nat.shiftLeft_add_eq_or_of_lt ht, Nat.shiftLeft_eq,
      Nat.shiftLeft_eq] <;>
    omega

/-- The statement holds of every command; the lemmas below say it constructor by constructor. -/
theorem of_encode (i : Instr) : Statement i := fun _ => fields_of_append 0 i.tsel i.opcode

theorem nop : Statement .nop := of_encode _
theorem softReset : Statement .softReset := of_encode _
theorem histClear (t : BitVec 3) : Statement (.histClear t) := of_encode _
theorem addSymbol (t : BitVec 3) : Statement (.addSymbol t) := of_encode _
theorem buildTable (t : BitVec 3) : Statement (.buildTable t) := of_encode _
theorem writeTable (t : BitVec 3) : Statement (.writeTable t) := of_encode _
theorem readTable (t : BitVec 3) : Statement (.readTable t) := of_encode _
theorem encSym (t : BitVec 3) : Statement (.encSym t) := of_encode _
theorem decSym (t : BitVec 3) : Statement (.decSym t) := of_encode _
theorem getCount (t : BitVec 3) : Statement (.getCount t) := of_encode _
theorem getLen (t : BitVec 3) : Statement (.getLen t) := of_encode _
theorem getMax (t : BitVec 3) : Statement (.getMax t) := of_encode _
theorem ecInit : Statement .ecInit := of_encode _
theorem push : Statement .push := of_encode _
theorem finalize : Statement .finalize := of_encode _
theorem writeOverhead : Statement .writeOverhead := of_encode _
theorem encode : Statement .encode := of_encode _
theorem encodeFinalize : Statement .encodeFinalize := of_encode _
theorem decInit : Statement .decInit := of_encode _
theorem decodeNext : Statement .decodeNext := of_encode _
theorem lzInit : Statement .lzInit := of_encode _
theorem lzPush : Statement .lzPush := of_encode _
theorem lzFinalize : Statement .lzFinalize := of_encode _
theorem lzWriteOverhead : Statement .lzWriteOverhead := of_encode _
theorem lzEncode : Statement .lzEncode := of_encode _
theorem lzDecInit : Statement .lzDecInit := of_encode _
theorem lzDecode : Statement .lzDecode := of_encode _

end Sys2Proof.Laws.EncodingOf
end

