-- ==== Sys2Proof/Machine/Assembler.lean ====
section
/-! DEFINITION. The assembler syntax, its pseudo-instructions and directives (30_encoding R69, R70): a
line is a list of host actions. None of this is state of the block. -/

namespace Sys2Proof.Machine

open Sys2Proof

/-- The mnemonics in lower case (30_encoding R69), each with its command at a table select. -/
def mnemonicMap : List (String × (BitVec 3 → Instr)) := [
  ("nop", fun _ => .nop), ("soft_reset", fun _ => .softReset),
  ("hist_clear", .histClear), ("add_symbol", .addSymbol), ("build_table", .buildTable),
  ("write_table", .writeTable), ("read_table", .readTable), ("enc_sym", .encSym),
  ("dec_sym", .decSym), ("get_count", .getCount), ("get_len", .getLen), ("get_max", .getMax),
  ("ec_init", fun _ => .ecInit), ("push", fun _ => .push), ("finalize", fun _ => .finalize),
  ("write_overhead", fun _ => .writeOverhead), ("encode", fun _ => .encode),
  ("encode_finalize", fun _ => .encodeFinalize), ("dec_init", fun _ => .decInit),
  ("decode_next", fun _ => .decodeNext), ("lz_init", fun _ => .lzInit), ("lz_push", fun _ => .lzPush),
  ("lz_finalize", fun _ => .lzFinalize), ("lz_write_overhead", fun _ => .lzWriteOverhead),
  ("lz_encode", fun _ => .lzEncode), ("lz_dec_init", fun _ => .lzDecInit),
  ("lz_decode", fun _ => .lzDecode)]

/-- A table operand: `t0` to `t4` or its alias (30_encoding R69). -/
def tableNames : List (String × BitVec 3) := [
  ("t0", 0), ("t1", 1), ("t2", 2), ("t3", 3), ("t4", 4),
  ("bz", 0), ("az", 1), ("len", 2), ("sd", 3), ("ld", 4)]

/-- One digit of a numeral. -/
def digitValue (c : Char) : Option Nat :=
  if '0' ≤ c ∧ c ≤ '9' then some (c.toNat - 48)
  else if 'a' ≤ c ∧ c ≤ 'f' then some (c.toNat - 87)
  else if 'A' ≤ c ∧ c ≤ 'F' then some (c.toNat - 55)
  else none

/-- The digits of a numeral to a base, `acc` holding those before. -/
def numeralFrom (base acc : Nat) : List Char → Option Nat
  | [] => some acc
  | c :: cs =>
    match digitValue c with
    | some d => if d < base then numeralFrom base (acc * base + d) cs else none
    | none => none

/-- A number, decimal or `0x` hexadecimal (30_encoding R69). -/
def numeral : List Char → Option Nat
  | [] => none
  | '0' :: 'x' :: c :: cs => numeralFrom 16 0 (c :: cs)
  | c :: cs => numeralFrom 10 0 (c :: cs)

/-- The words of a line: its mnemonic and its operands, `cur` holding the word begun. -/
def lineWords (cur : List Char) : List Char → List (List Char)
  | [] => if cur.isEmpty then [] else [cur.reverse]
  | c :: cs =>
    if c = ' ' ∨ c = ',' then
      if cur.isEmpty then lineWords [] cs else cur.reverse :: lineWords [] cs
    else lineWords (c :: cur) cs

/-- What a command line assembles to (30_encoding R69): a write of `ARG0` and of `ARG1` if the format has
the field, then the write of `CMD`. -/
def commandActions (i : Instr) (args : List Nat) : Option (List HostAction) :=
  match i.format, args with
  | .N, [] => some [commandWrite (encode i)]
  | .T, [] => some [commandWrite (encode i)]
  | .TS, [a] => some [.write 0x08 (BitVec.ofNat 32 a), commandWrite (encode i)]
  | .F, [a] => some [.write 0x08 (BitVec.ofNat 32 a), commandWrite (encode i)]
  | .B, [a] => some [.write 0x08 (BitVec.ofNat 32 a), commandWrite (encode i)]
  | .E, [a] => some [.write 0x08 (BitVec.ofNat 32 a), commandWrite (encode i)]
  | .D, [a, b] =>
    some [.write 0x08 (BitVec.ofNat 32 a), .write 0x0C (BitVec.ofNat 32 b), commandWrite (encode i)]
  | .M, [a, b] =>
    some [.write 0x08 (BitVec.ofNat 32 a), .write 0x0C (BitVec.ofNat 32 b), commandWrite (encode i)]
  | _, _ => none

/-- A command's mnemonic and operands, the table operand first where the format has one (R69). -/
def assembleCommand (mnemonic : String) (operands : List (List Char)) : Option (List HostAction) := do
  let mk ← mnemonicMap.lookup mnemonic
  if (mk 0).format = .T ∨ (mk 0).format = .TS then
    match operands with
    | t :: rest =>
      let sel ← tableNames.lookup (String.ofList t)
      let args ← rest.mapM numeral
      commandActions (mk sel) args
    | [] => none
  else
    let args ← operands.mapM numeral
    commandActions (mk 0) args

/-- `push_all` and `encode_all`: the command once per byte (30_encoding R70). -/
def forAllBytes (mnemonic : String) (operands : List (List Char)) : Option (List HostAction) := do
  let lines ← operands.mapM fun b => assembleCommand mnemonic [b]
  return lines.flatten

/-- `add_symbol_n t, sym, n`: `add_symbol t, sym` repeated `n` times (30_encoding R70). -/
def addSymbolTimes (operands : List (List Char)) : Option (List HostAction) :=
  match operands with
  | [t, sym, n] => do
    let once ← assembleCommand "add_symbol" [t, sym]
    let k ← numeral n
    return (List.replicate k once).flatten
  | _ => none

/-- The bits of a bit string, first bit leftmost (00_scope section 4). -/
def bitString (cs : List Char) : Option (List Bool) :=
  cs.mapM fun c => if c = '0' then some false else if c = '1' then some true else none

/-- `.in "bits"`: the host action between the two quotation marks (30_encoding R70). -/
def assembleIn (operands : List (List Char)) : Option (List HostAction) :=
  match operands with
  | [cs] => do
    let bits ← bitString (cs.filter fun c => c ≠ '"')
    return [.appendIn bits]
  | _ => none

/-- One line of a listing (30_encoding R69, R70). `.expect` has no effect on the machine. -/
def assemble (line : String) : Option (List HostAction) :=
  match lineWords [] line.toList with
  | [] => some []
  | m :: operands =>
    let name := String.ofList m
    if name = "push_all" then forAllBytes "push" operands
    else if name = "encode_all" then forAllBytes "encode" operands
    else if name = "add_symbol_n" then addSymbolTimes operands
    else if name = ".in" then assembleIn operands
    else if name = ".loopback" then some [.loopback]
    else if name = ".expect" then some []
    else assembleCommand name operands

/-- The check that `.expect reg = v` makes of a register (30_encoding R70). -/
def expectRegister (offset : Nat) (v : Word) (s : State) : Bool :=
  readRegister s offset == v

end Sys2Proof.Machine
end

