-- ==== Sys2Proof/Tests/Slice0.lean ====
section
/-! SUPPORT. The model's own tests: ill-formed terms refused, words written out from 30_encoding R60 and
R63, single steps with the values of 95_test_vectors, and for each obligation a state and operands that
meet its hypotheses. -/

namespace Sys2Proof.Tests

/- The theorems below are evaluated by the kernel one after another, so that few threads wait at a time. -/
set_option Elab.async false

open Sys2Proof Sys2Proof.Machine Host

/-! ### WellFormed -/

theorem test_wf_refuses_table_5 : (Instr.histClear 5).wf = false := by decide
theorem test_wf_refuses_table_6 : (Instr.encSym 6).wf = false := by decide
theorem test_wf_refuses_table_7 : (Instr.getMax 7).wf = false := by decide
theorem test_wf_accepts_table_4 : (Instr.addSymbol 4).wf = true := by decide

/-! ### Decoding. Each word is reserved(21) tsel(3) opcode(8), written from 30_encoding R60, R63. -/

theorem test_decode_nop :
    decode 0b000000000000000000000_000_00000000#32 = .ok .nop := by decide
theorem test_decode_softReset :
    decode 0b000000000000000000000_000_00000001#32 = .ok .softReset := by decide
theorem test_decode_histClear :
    decode 0b000000000000000000000_000_00010000#32 = .ok (.histClear 0) := by decide
theorem test_decode_addSymbol :
    decode 0b000000000000000000000_001_00010001#32 = .ok (.addSymbol 1) := by decide
theorem test_decode_buildTable :
    decode 0b000000000000000000000_010_00010010#32 = .ok (.buildTable 2) := by decide
theorem test_decode_writeTable :
    decode 0b000000000000000000000_011_00010011#32 = .ok (.writeTable 3) := by decide
theorem test_decode_readTable :
    decode 0b000000000000000000000_100_00010100#32 = .ok (.readTable 4) := by decide
theorem test_decode_encSym :
    decode 0b000000000000000000000_001_00010101#32 = .ok (.encSym 1) := by decide
theorem test_decode_decSym :
    decode 0b000000000000000000000_010_00010110#32 = .ok (.decSym 2) := by decide
theorem test_decode_getCount :
    decode 0b000000000000000000000_011_00010111#32 = .ok (.getCount 3) := by decide
theorem test_decode_getLen :
    decode 0b000000000000000000000_100_00011000#32 = .ok (.getLen 4) := by decide
theorem test_decode_getMax :
    decode 0b000000000000000000000_011_00011001#32 = .ok (.getMax 3) := by decide
theorem test_decode_ecInit :
    decode 0b000000000000000000000_000_00100000#32 = .ok .ecInit := by decide
theorem test_decode_push :
    decode 0b000000000000000000000_000_00100001#32 = .ok .push := by decide
theorem test_decode_finalize :
    decode 0b000000000000000000000_000_00100010#32 = .ok .finalize := by decide
theorem test_decode_writeOverhead :
    decode 0b000000000000000000000_000_00100011#32 = .ok .writeOverhead := by decide
theorem test_decode_encode :
    decode 0b000000000000000000000_000_00100100#32 = .ok .encode := by decide
theorem test_decode_encodeFinalize :
    decode 0b000000000000000000000_000_00100101#32 = .ok .encodeFinalize := by decide
theorem test_decode_decInit :
    decode 0b000000000000000000000_000_00101000#32 = .ok .decInit := by decide
theorem test_decode_decodeNext :
    decode 0b000000000000000000000_000_00101001#32 = .ok .decodeNext := by decide
theorem test_decode_lzInit :
    decode 0b000000000000000000000_000_00110000#32 = .ok .lzInit := by decide
theorem test_decode_lzPush :
    decode 0b000000000000000000000_000_00110001#32 = .ok .lzPush := by decide
theorem test_decode_lzFinalize :
    decode 0b000000000000000000000_000_00110010#32 = .ok .lzFinalize := by decide
theorem test_decode_lzWriteOverhead :
    decode 0b000000000000000000000_000_00110011#32 = .ok .lzWriteOverhead := by decide
theorem test_decode_lzEncode :
    decode 0b000000000000000000000_000_00110100#32 = .ok .lzEncode := by decide
theorem test_decode_lzDecInit :
    decode 0b000000000000000000000_000_00111000#32 = .ok .lzDecInit := by decide
theorem test_decode_lzDecode :
    decode 0b000000000000000000000_000_00111001#32 = .ok .lzDecode := by decide

/-- V40: reserved bit set. -/
theorem test_decode_reserved : decode 0x00000800#32 = .error .reservedBits := by decide
/-- V40: no such opcode. -/
theorem test_decode_unknown : decode 0x00000026#32 = .error .unknownOpcode := by decide
/-- V40: `soft_reset` with `tsel = 1`. -/
theorem test_decode_tsel_not_zero : decode 0x00000101#32 = .error .tselNotZero := by decide
/-- V40: `add_symbol` with `tsel = 7`. -/
theorem test_decode_tsel_range : decode 0x00000711#32 = .error .tselRange := by decide
/-- A second word makes no command longer (30_encoding R65). -/
theorem test_table_word : decodeTableWord 32 0x00000415 = some (.encSym 4)
    ∧ decodeTableWord 40 0x0100000415 = none := by decide

/-! ### States for single steps -/

/-- A property of the state that a command leaves. -/
def after (o : Outcome State Fault Refusal) (p : State → Bool) : Bool :=
  match o with
  | .next t => p t
  | .fault _ => false
  | .refused _ => false

/-- Two symbols of length 1: the code of `a` is "0", that of `b` is "1". -/
def pairLengths (n a b : Nat) : Vector (BitVec 5) n :=
  ((Vector.replicate n 0).setIfInBounds a 1).setIfInBounds b 1

/-- A valid table with two symbols. -/
def pair (n a b : Nat) : TableMem n := (TableMem.cleared n).withLengths (pairLengths n a b)

/-- Both sequencers with valid tables: literals 0 and 7, run symbols in the base table of `runs`. -/
def ready : State :=
  { State.reset with
    tabBz := pair 384 0 7, tabAz := pair 256 0 7, tabLen := pair 256 0 8
    tabSd := pair 256 1 9, tabLd := pair 256 1 255 }

/-- As `ready`, in the phases of pass two. -/
def emitting : State := { ready with ecPhase := .emit, lzPhase := .emit }

/-- As `ready`, in the decoding phases. -/
def decoding : State := { ready with ecPhase := .decode, lzPhase := .decode }

/-- As reset, in the counting phases. -/
def counting : State := { State.reset with lzPhase := .collect }

/-! ### System commands -/

/-- V37. -/
theorem test_nop : after (exec .nop decoding) (fun t => t.ecPhase == .decode && t.tabBz.lenAt 7 == 1) := by
  decide +kernel
/-- V39: the fault state is left. -/
theorem test_softReset : after (exec .softReset { ready with err := true, errinfo := 0x00290203 })
    (fun t => t.err == false && t.errinfo == 0 && statusWord t == 0) := by decide +kernel
/-- V39: `decode_next` from reset. -/
theorem test_fault_entry : after (issueCommand 0x00000029 State.reset)
    (fun t => statusWord t == 2 && t.errinfo == 0x00290203) := by decide +kernel
/-- V39: the illegal word 0x80000001 is not `SOFT_RESET`. -/
theorem test_fault_state_ignores : after (issueCommand 0x80000001 { State.reset with err := true, errinfo := 3 })
    (fun t => t.err && t.errinfo == 3) := by decide +kernel
/-- V44: the operand check comes before the phase check. -/
theorem test_check_order : after (exec .lzPush { State.reset with arg0 := 1, arg1 := 5 })
    (fun t => t.errinfo == 0x00310202) := by decide +kernel

/-! ### Table commands -/

/-- V1. -/
theorem test_histClear : after (exec (.histClear 1) ready)
    (fun t => t.tabAz.lenAt 7 == 0 && t.tabAz.tstate == .collect && t.tabBz.lenAt 7 == 1) := by
  decide +kernel
/-- V1: `add_symbol t0, 5`. -/
theorem test_addSymbol : after (exec (.addSymbol 0) { State.reset with arg0 := 5 })
    (fun t => t.tabBz.count 5 == 1 && t.tabBz.count 6 == 0 && t.tabBz.hmax == 1) := by decide +kernel
/-- V2: saturation. -/
theorem test_addSymbol_saturates : after (exec (.addSymbol 3) { State.reset with
      arg0 := 4, tabSd := { TableMem.cleared 256 with
        hist := (Vector.replicate 256 0).setIfInBounds 4 0xFFFFFFFF, hmax := 0xFFFFFFFF } })
    (fun t => t.tabSd.count 4 == 0xFFFFFFFF && t.tabSd.hmax == 0xFFFFFFFF && !t.err) := by decide +kernel

/-- The counts of V3 in table 0. -/
def threeCounts : Vector (BitVec 32) 384 :=
  (((Vector.replicate 384 0).setIfInBounds 0 1).setIfInBounds 7 1).setIfInBounds 258 1

/-- V3. -/
theorem test_buildTable : after (exec (.buildTable 0) { State.reset with
      tabBz := { TableMem.cleared 384 with hist := threeCounts, hmax := 1 } })
    (fun t => t.res0 == 3 && t.res1 == 0 && statusWord t == 0x800 && t.tabBz.lenAt 0 == 2
      && t.tabBz.codeAt 7 == 3 && t.tabBz.lenAt 258 == 1) := by decide +kernel
/-- V4: an empty table. -/
theorem test_buildTable_empty : after (exec (.buildTable 1) State.reset)
    (fun t => t.res0 == 0 && statusWord t == 0x1000 && t.tabAz.lenAt 3 == 0) := by decide +kernel
/-- V8. -/
theorem test_writeTable : after (exec (.writeTable 1) ready)
    (fun t => t.res0 == 1280 && t.bitsOut == 1280 && t.chanOut.length == 1280
      && t.chanOut.take 5 == [false, false, false, false, true]) := by decide +kernel
/-- V12: only field 5 is "00001". -/
theorem test_readTable : after (exec (.readTable 2) { State.reset with
      chanIn := List.replicate 29 false ++ true :: List.replicate 1250 false })
    (fun t => t.res0 == 1 && t.tabLen.lenAt 5 == 1 && t.tabLen.tstate == .valid && t.chanIn == []) := by
  decide +kernel
/-- V12: only field 5 is "00010": under-subscribed. -/
theorem test_readTable_undersub : after (exec (.readTable 2) { State.reset with
      chanIn := List.replicate 28 false ++ true :: List.replicate 1251 false })
    (fun t => t.errinfo == 0x00140104) := by decide +kernel
/-- V13, with a two-symbol table. -/
theorem test_encSym : after (exec (.encSym 0) { ready with arg0 := 7, chanOut := [false] })
    (fun t => t.chanOut == [false, true] && t.res0 == 1 && t.bitsOut == 1) := by decide +kernel
/-- V15. -/
theorem test_encSym_noCode : after (exec (.encSym 0) { ready with arg0 := 5 })
    (fun t => t.errinfo == 0x00150205) := by decide +kernel
/-- V16. -/
theorem test_decSym : after (exec (.decSym 0) { ready with chanIn := [true, false] })
    (fun t => t.res0 == 7 && t.res1 == 1 && t.chanIn == [false] && t.bitsIn == 1) := by decide +kernel
/-- V17. -/
theorem test_decSym_underflow : after (exec (.decSym 0) ready) (fun t => t.errinfo == 0x00160101) := by
  decide +kernel
/-- V1. -/
theorem test_getCount : after (exec (.getCount 0) { State.reset with
      arg0 := 258, tabBz := { TableMem.cleared 384 with hist := threeCounts } })
    (fun t => t.res0 == 1) := by decide +kernel
/-- V3: `get_len`. -/
theorem test_getLen : after (exec (.getLen 0) { ready with arg0 := 7 })
    (fun t => t.res0 == 1 && t.res1 == 1) := by decide +kernel
/-- V1: `get_max`. -/
theorem test_getMax : after (exec (.getMax 3) { ready with tabSd := { ready.tabSd with hmax := 1000 } })
    (fun t => t.res0 == 1000 && t.res1 == 1) := by decide +kernel

/-! ### The entropy path -/

/-- P2, step 1, from a decoder. -/
theorem test_ecInit : after (exec .ecInit { decoding with arg0 := 1 })
    (fun t => t.ctxEn && t.ecPhase == .collect && t.tabBz.tstate == .collect && t.tabLen.tstate == .valid) := by
  decide +kernel
/-- V20: `push 0`. -/
theorem test_push_zero : after (exec .push { State.reset with runCnt := 2 })
    (fun t => t.runCnt == 3 && t.rl == [] && t.tabBz.count 256 == 0) := by decide +kernel
/-- P2, step 5 without an open run: the after-zero context goes back to base. -/
theorem test_push_literal : after (exec .push { State.reset with arg0 := 7, ctxEn := true, ctxAz := true })
    (fun t => t.tabAz.count 7 == 1 && t.tabBz.count 7 == 0 && t.ctxAz == false) := by decide +kernel
/-- V24: the empty stream. -/
theorem test_finalize : after (exec .finalize State.reset)
    (fun t => t.tabBz.count 0 == 1 && t.tabBz.lenAt 0 == 1 && statusWord t == 0x820) := by decide +kernel
/-- V24: overhead of 1920 bits. -/
theorem test_writeOverhead : after (exec .writeOverhead { ready with ecPhase := .finalized })
    (fun t => t.res0 == 1920 && t.bitsOut == 1920 && t.ecPhase == .emit) := by decide +kernel
/-- P2, step 8. -/
theorem test_encode_zero : after (exec .encode { emitting with
      tabBz := pair 384 0 258, rl := [3], ctxEn := true })
    (fun t => t.res0 == 1 && t.chanOut == [true] && t.encRem == 2 && t.ctxAz && t.encLastz && t.rl == []) := by
  decide +kernel
/-- V29: a zero too many. -/
theorem test_encode_desync : after (exec .encode { emitting with encLastz := true })
    (fun t => t.errinfo == 0x00240206) := by decide +kernel
/-- P2, step 12. -/
theorem test_encodeFinalize : after (exec .encodeFinalize emitting)
    (fun t => t.res0 == 1 && t.chanOut == [false] && t.ecPhase == .done) := by decide +kernel
/-- V47: an empty base table is accepted. -/
theorem test_decInit : after (exec .decInit { State.reset with chanIn := List.replicate 1920 false })
    (fun t => t.res0 == 1920 && statusWord t == 0x880 && t.bitsIn == 1920) := by decide +kernel
/-- P2, step 15. -/
theorem test_decodeNext_run : after (exec .decodeNext { decoding with
      tabBz := pair 384 0 258, ctxEn := true, chanIn := [true] })
    (fun t => t.res0 == 0 && t.res1 == 0 && t.zpend == 2 && t.ctxAz) := by decide +kernel
/-- V46: the end marker. -/
theorem test_decodeNext_end : after (exec .decodeNext { decoding with chanIn := [false, true] })
    (fun t => t.res0 == 0 && t.res1 == 1 && t.eos && t.ecPhase == .eos && t.chanIn == [true]) := by
  decide +kernel

/-! ### The LZ path -/

/-- V30: `lz_init 100, 1`. -/
theorem test_lzInit : after (exec .lzInit { ready with arg0 := 100, arg1 := 1, cur := 3 })
    (fun t => t.xsize == 100 && t.ysize == 1 && t.cur == 0 && t.lzPhase == .collect
      && t.tabLen.tstate == .collect && t.tabBz.tstate == .valid) := by decide +kernel
/-- V30: the first match is of band 4 with an explicit length. -/
theorem test_lzPush : after (exec .lzPush { counting with arg0 := 4, arg1 := 10, xsize := 100 })
    (fun t => t.res0 == 16 && t.tabSd.count 9 == 1 && t.tabLen.count 2 == 0 && t.cacheAt 0 == 10
      && t.cur == 1) := by decide +kernel
/-- V30: the second match is recent and is not pushed. -/
theorem test_lzPush_recent : after (exec .lzPush { counting with
      arg0 := 4, arg1 := 10, xsize := 100, cache := #v[10, 0, 0, 0], cur := 1 })
    (fun t => t.res0 == 0 && t.tabLen.count 2 == 1 && t.tabSd.count 9 == 0 && t.cur == 1) := by
  decide +kernel
/-- V42, the other way round: legal in `LZ_COLLECT`. -/
theorem test_lzFinalize : after (exec .lzFinalize { counting with cur := 2 })
    (fun t => t.lzPhase == .finalized && t.cur == 0 && statusWord t == 0xE200) := by decide +kernel
/-- 45_lz_codec R157: 3840 bits. -/
theorem test_lzWriteOverhead : after (exec .lzWriteOverhead { ready with lzPhase := .finalized })
    (fun t => t.res0 == 3840 && t.bitsOut == 3840 && t.lzPhase == .emit) := by decide +kernel
/-- V33, match 8, with two-symbol tables: length code, long code, 8 raw bits. -/
theorem test_lzEncode : after (exec .lzEncode { emitting with arg0 := 10, arg1 := 257, xsize := 100 })
    (fun t => t.res0 == 31 && t.res1 == 10 && t.cacheAt 0 == 257
      && t.chanOut == [true, false, false, false, false, false, false, false, false, true]) := by
  decide +kernel
/-- V35: three empty tables but for nothing read after them. -/
theorem test_lzDecInit : after (exec .lzDecInit { State.reset with
      arg0 := 100, arg1 := 1, chanIn := List.replicate 3840 false })
    (fun t => t.res0 == 3840 && statusWord t == 0xE400 && t.xsize == 100) := by decide +kernel
/-- V35: `lz_decode 9` with `xsize = 0`. -/
theorem test_lzDecode : after (exec .lzDecode { decoding with arg0 := 9, chanIn := [false] })
    (fun t => t.res0 == 2 && t.res1 == 65534 && t.cacheAt 0 == 65534 && t.cur == 1) := by decide +kernel
/-- V35: an empty cache slot. -/
theorem test_lzDecode_empty_slot : after (exec .lzDecode { decoding with chanIn := [false] })
    (fun t => t.errinfo == 0x00390107) := by decide +kernel

/-! ### The host's side -/

/-- A command placed by `withFetchWord` runs at the very next step. -/
theorem test_withFetchWord : after (step (State.reset.withFetchWord 32 0x00000022))
    (fun t => t.ecPhase == .finalized && t.pending == []) := by decide +kernel
/-- 20_memory R48, U6. -/
theorem test_unaligned_refused :
    step { State.reset with pending := [.read 0x19] } = .refused (.unalignedAccess 0x19) := rfl
/-- 30_encoding R69: `lz_push 4, 10` is three writes. -/
theorem test_assemble : assemble "lz_push 4, 10"
    = some [.write 0x08 4, .write 0x0C 10, .write 0x04 0x00000031] := by decide +kernel
/-- 30_encoding R69, R70: the alias of a table and a repetition. -/
theorem test_assemble_repeat : assemble "add_symbol_n sd, 0x9, 2"
    = some [.write 0x08 9, .write 0x04 0x00000311, .write 0x08 9, .write 0x04 0x00000311] := by
  decide +kernel
/-- 30_encoding R70: `.loopback`. -/
theorem test_loopback : after (hostAct .loopback { State.reset with chanOut := [true], chanIn := [false] })
    (fun t => t.chanIn == [false, true] && t.chanOut == []) := by decide +kernel

/-! ### Canonical tables for the witnesses -/

/-- One symbol, of length 1, its code "0". -/
def lone (n a : Nat) : TableMem n :=
  (TableMem.cleared n).withLengths ((Vector.replicate n 0).setIfInBounds a 1)

theorem lenAt_lone {n a y : Nat} (h : (lone n a).lenAt y ≠ 0) : y = a := by
  have hy := TableMem.lt_of_lenAt h
  rw [TableMem.lenAt_of_lt _ hy] at h
  simp only [lone, TableMem.withLengths_len, Vector.getElem_setIfInBounds hy, Vector.getElem_replicate] at h
  split at h
  · rename_i e; exact e.symm
  · exact absurd rfl h

theorem lenAt_pair {n a b y : Nat} (h : (pair n a b).lenAt y ≠ 0) : y = a ∨ y = b := by
  have hy := TableMem.lt_of_lenAt h
  rw [TableMem.lenAt_of_lt _ hy] at h
  simp only [pair, pairLengths, TableMem.withLengths_len, Vector.getElem_setIfInBounds hy,
    Vector.getElem_replicate] at h
  split at h
  · rename_i e; exact .inr e.symm
  · split at h
    · rename_i e; exact .inl e.symm
    · exact absurd rfl h

theorem lone_canonical {n a : Nat} (hg : GoodLengths (lone n a).len.toList) : (lone n a).Canonical :=
  ⟨hg, rfl, fun _ _ hne hx hy => absurd ((lenAt_lone hx).trans (lenAt_lone hy).symm) hne⟩

theorem pair_canonical {n a b : Nat} (hg : GoodLengths (pair n a b).len.toList)
    (ha : (pair n a b).codeBits a = [false]) (hb : (pair n a b).codeBits b = [true]) :
    (pair n a b).Canonical := by
  refine ⟨hg, rfl, fun x y hne hx hy => ?_⟩
  rcases lenAt_pair hx with rfl | rfl <;> rcases lenAt_pair hy with rfl | rfl
  · exact absurd rfl hne
  · rw [ha, hb]; decide
  · rw [ha, hb]; decide
  · exact absurd rfl hne

theorem good_pair_384_0_7 : GoodLengths (pair 384 0 7).len.toList := by unfold GoodLengths; decide +kernel
theorem good_pair_256_0_7 : GoodLengths (pair 256 0 7).len.toList := by unfold GoodLengths; decide +kernel
theorem good_pair_256_0_8 : GoodLengths (pair 256 0 8).len.toList := by unfold GoodLengths; decide +kernel
theorem good_pair_256_1_9 : GoodLengths (pair 256 1 9).len.toList := by unfold GoodLengths; decide +kernel
theorem good_pair_256_1_255 : GoodLengths (pair 256 1 255).len.toList := by
  unfold GoodLengths; decide +kernel
theorem good_lone_256_200 : GoodLengths (lone 256 200).len.toList := by unfold GoodLengths; decide +kernel

theorem ready_canonical : ∀ t, (ready.tab t).Canonical
  | .bz => pair_canonical good_pair_384_0_7 (by decide +kernel) (by decide +kernel)
  | .az => pair_canonical good_pair_256_0_7 (by decide +kernel) (by decide +kernel)
  | .len => pair_canonical good_pair_256_0_8 (by decide +kernel) (by decide +kernel)
  | .sd => pair_canonical good_pair_256_1_9 (by decide +kernel) (by decide +kernel)
  | .ld => pair_canonical good_pair_256_1_255 (by decide +kernel) (by decide +kernel)

/-- The step that a test saw. -/
theorem exists_of_after {o : Outcome State Fault Refusal} {p : State → Bool} (h : after o p = true) :
    ∃ t, o = .next t ∧ p t = true := by
  cases o with
  | next t => exact ⟨t, rfl, h⟩
  | fault f => cases h
  | refused r => cases h

/-- A command that completed. -/
theorem completes_of_after {o : Outcome State Fault Refusal} (h : after o (fun t => !t.err) = true) :
    ∃ t, o = .next t ∧ t.err = false := by
  obtain ⟨t, ht, hp⟩ := exists_of_after h
  exact ⟨t, ht, by simpa using hp⟩

/-! ### Witnesses: states and operands that meet the hypotheses of each obligation -/

theorem witness_OpcodeMapSpellsTheCommands :
    (∃ w : Word, ∃ r ∈ opcodeMap, r.spelledBy w) ∧ (∃ w : Word, ∀ r ∈ opcodeMap, ¬ r.spelledBy w) := by
  refine ⟨⟨0x00000412, ⟨"BUILD_TABLE", 0x00000012, 0xFFFFF8FF, true⟩, by decide, ?_⟩,
    ⟨0x00000026, ?_⟩⟩ <;> unfold OpcodeRow.spelledBy <;> decide

theorem witness_IllegalWordRaisesAndChangesNothingElse : State.reset.err = false
    ∧ decode 0x00000800#32 = .error .reservedBits ∧ decode 0x0000001A#32 = .error .unknownOpcode
    ∧ decode 0x00000120#32 = .error .tselNotZero ∧ decode 0x00000510#32 = .error .tselRange := by
  decide +kernel

theorem witness_StepRunsTheIssuedCommand :
    ({ State.reset with pending := [.write 0x04 0x00000410, .loopback] } : State).pending
      = .write 0x04 0x00000410 :: [.loopback] ∧ decode 0x00000410#32 = .ok (.histClear 4) := by decide

theorem witness_RegisterAccessesHaveNoSideEffect :
    (0x54 % 4 = 0 ∧ 0x50 < 0x54) ∧ (0x08 % 4 = 0 ∧ 0x08 ≠ 0x04) := by decide

/-- Two runs are recorded. -/
theorem witness_StatusShowsItsFields : ({ State.reset with rl := [3, 128] } : State).rl.length < 2 ^ 32 := by
  decide

theorem witness_FaultStateIgnoresEveryOtherWord :
    ({ ready with err := true } : State).err = true ∧ (0x80000001 : Word) ≠ 1 ∧ 0x50 % 4 = 0 := by
  decide +kernel

theorem witness_OnlyResetLeavesTheFaultState : ∃ s s' : State,
    s.err = true ∧ step s = .next s' ∧ s'.err = false :=
  ⟨{ ready with err := true, pending := [.hardReset] }, _, rfl, rfl, rfl⟩

theorem witness_FaultsAreRecordedAndExactOnesChangeNothingElse : ∃ s' : State,
    State.reset.err = false ∧ exec .decodeNext State.reset = .next s' ∧ s'.err = true := by
  obtain ⟨t, h, he⟩ := exists_of_after (o := exec .decodeNext State.reset) (p := fun t => t.err)
    (by decide +kernel)
  exact ⟨t, rfl, h, he⟩

theorem witness_FaultsAreRecorded_inexact : ∃ s' : State,
    ready.err = false ∧ exec (.encSym 0) { ready with arg0 := 5 } = .next s' ∧ s'.err = true := by
  obtain ⟨t, h, he⟩ := exists_of_after (o := exec (.encSym 0) { ready with arg0 := 5 })
    (p := fun t => t.err) (by decide +kernel)
  exact ⟨t, rfl, h, he⟩

theorem witness_OperandsOutOfRangeAreRefused : State.reset.err = false
    ∧ (Tab.ofSel 0 = some .bz ∧ nsym .bz ≤ (384 : Word).toNat) ∧ 2 ≤ (2 : Word).toNat
    ∧ 256 ≤ (256 : Word).toNat ∧ 65536 ≤ (65536 : Word).toNat ∧ (1 : Word).toNat < 2
    ∧ 257 < (258 : Word).toNat ∧ (0 : Word).toNat = 0 ∧ 65535 < (65536 : Word).toNat := by decide

theorem witness_EntropyCommandsFollowTheirSequence_phase :
    ready.err = false ∧ ready.ecPhase ≠ .decode ∧ emitting.err = false ∧ emitting.ecPhase ≠ .collect
      ∧ (emitting.arg0.toNat < 256) := by decide +kernel

theorem witness_EntropyCommandsFollowTheirSequence_completes :
    (∃ t, exec .ecInit emitting = .next t ∧ t.err = false)
      ∧ (∃ t, exec .push State.reset = .next t ∧ t.err = false)
      ∧ (∃ t, exec .finalize State.reset = .next t ∧ t.err = false)
      ∧ (∃ t, exec .writeOverhead { ready with ecPhase := .finalized } = .next t ∧ t.err = false)
      ∧ (∃ t, exec .encode { emitting with arg0 := 7 } = .next t ∧ t.err = false)
      ∧ (∃ t, exec .encodeFinalize emitting = .next t ∧ t.err = false)
      ∧ (∃ t, exec .decodeNext { decoding with chanIn := [true] } = .next t ∧ t.err = false) :=
  ⟨completes_of_after (by decide +kernel), completes_of_after (by decide +kernel),
    completes_of_after (by decide +kernel), completes_of_after (by decide +kernel),
    completes_of_after (by decide +kernel), completes_of_after (by decide +kernel),
    completes_of_after (by decide +kernel)⟩

theorem witness_EntropyCommandsFollowTheirSequence_init :
    ∃ t, exec .decInit emitting = .next t ∧ t.err = true := by
  obtain ⟨t, h, he⟩ := exists_of_after (o := exec .decInit emitting) (p := fun t => t.err)
    (by decide +kernel)
  exact ⟨t, h, he⟩

theorem witness_LzCommandsFollowTheirSequence_phase :
    ready.err = false ∧ ready.lzPhase ≠ .collect ∧ ready.lzPhase ≠ .decode
      ∧ 2 ≤ (257 : Word).toNat ∧ (257 : Word).toNat ≤ 257 ∧ 1 ≤ (65535 : Word).toNat
      ∧ (65535 : Word).toNat ≤ 65535 ∧ (255 : Word).toNat < 256 := by decide +kernel

theorem witness_LzCommandsFollowTheirSequence_completes :
    (∃ t, exec .lzInit emitting = .next t ∧ t.err = false)
      ∧ (∃ t, exec .lzPush { counting with arg0 := 2, arg1 := 1 } = .next t ∧ t.err = false)
      ∧ (∃ t, exec .lzFinalize counting = .next t ∧ t.err = false)
      ∧ (∃ t, exec .lzWriteOverhead { ready with lzPhase := .finalized } = .next t ∧ t.err = false)
      ∧ (∃ t, exec .lzEncode { emitting with arg0 := 10, arg1 := 1 } = .next t ∧ t.err = false)
      ∧ (∃ t, exec .lzDecode { decoding with arg0 := 4, chanIn := [true] } = .next t ∧ t.err = false) :=
  ⟨completes_of_after (by decide +kernel), completes_of_after (by decide +kernel),
    completes_of_after (by decide +kernel), completes_of_after (by decide +kernel),
    completes_of_after (by decide +kernel), completes_of_after (by decide +kernel)⟩

theorem witness_WrongTableStateIsAFault : Tab.ofSel 4 = some .ld
    ∧ (ready.err = false ∧ (ready.tab .ld).tstate = .valid ∧ ready.arg0.toNat < nsym .ld)
    ∧ (State.reset.err = false ∧ (State.reset.tab .ld).tstate = .collect) := by decide +kernel

theorem witness_WriteBitsAppendsMostSignificantFirst :
    (16 ≤ 16 ∧ 65535 < 2 ^ 16) ∧ (0 ≤ 16 ∧ 0 < 2 ^ 0) := by decide

theorem witness_ReadBitsTakesTheHeadOfIn : (1 ≤ 16 ∧ 16 ≤ 16)
    ∧ ({ State.reset with chanIn := List.replicate 15 true } : State).chanIn.length < 16
    ∧ 16 ≤ ({ State.reset with chanIn := List.replicate 16 true } : State).chanIn.length := by decide

theorem witness_CommandsOnlyAppendAndRemoveAndCountBits : ∃ t,
    Instr.decSym 0 ≠ .softReset ∧ ready.err = false
      ∧ exec (.decSym 0) { ready with chanIn := [true, true] } = .next t ∧ t.err = false := by
  obtain ⟨t, h, he⟩ := completes_of_after (o := exec (.decSym 0) { ready with chanIn := [true, true] })
    (by decide +kernel)
  exact ⟨t, by decide, rfl, h, he⟩

theorem witness_BuiltLengthsAreACompleteCode : 384 ≤ 384
    ∧ 2 ≤ threeCounts.toList.countP (fun x => x != 0)
    ∧ ((Vector.replicate 384 (0 : BitVec 32)).setIfInBounds 383 9).toList.countP (fun x => x != 0) = 1
    ∧ ((Vector.replicate 384 (0 : BitVec 32)).setIfInBounds 383 9)[383] ≠ 0 := by decide +kernel

/-- Two leaves of weight 1, merged in the order of their indexes into the tree that ends the construction. -/
theorem witness_HuffmanMerges : HuffmanMerges 0
    [⟨1, 0, 9, [(9, 0)]⟩, ⟨1, 0, 4, [(4, 0)]⟩] [(4, 1), (9, 1)] :=
  .merge 0 ⟨1, 0, 4, [(4, 0)]⟩ ⟨1, 0, 9, [(9, 0)]⟩ ⟨2, 1, 0, [(4, 1), (9, 1)]⟩ _ [] _
    (List.Perm.swap _ _ _) (by decide) (by simp) rfl rfl (.root 1 _)

theorem witness_CanonicalCodeIsTheShareOfItsPredecessors :
    (∀ l ∈ (pairLengths 384 0 7).toList, l.toNat ≤ 16) ∧ kraftSum (pairLengths 384 0 7).toList ≤ 65536
      ∧ (pairLengths 384 0 7)[7] ≠ 0 ∧ (pairLengths 384 0 7)[6] = 0 := by decide +kernel

theorem witness_HistClearMakesTheTableNew : Tab.ofSel 4 = some .ld ∧ ready.err = false := by decide

theorem witness_AddSymbolCountsOneOccurrence : Tab.ofSel 0 = some .bz ∧ State.reset.err = false
    ∧ ({ State.reset with arg0 := 383 } : State).arg0.toNat < nsym .bz
    ∧ (State.reset.tab .bz).tstate = .collect := by decide

theorem witness_BuildTableBuildsFromTheCounts : Tab.ofSel 1 = some .az ∧ State.reset.err = false
    ∧ (State.reset.tab .az).tstate = .collect := by decide

theorem witness_ReadbacksChangeOnlyResults : Tab.ofSel 0 = some .bz ∧ ready.err = false
    ∧ ({ ready with arg0 := 383 } : State).arg0.toNat < nsym .bz := by decide +kernel

theorem witness_WriteTableWritesEveryLength : Tab.ofSel 4 = some .ld ∧ ready.err = false
    ∧ (ready.tab .ld).tstate = .valid := by decide +kernel

theorem witness_ReadTableTakesAnAcceptableTable : ∃ (s : State) (L : Vector (BitVec 5) (nsym .az)),
    Tab.ofSel 1 = some .az ∧ s.err = false ∧ GoodLengths L.toList
      ∧ s.chanIn = lengthBits L.toList ++ [true] :=
  ⟨{ ready with chanIn := lengthBits (lone 256 200).len.toList ++ [true] }, (lone 256 200).len, rfl, rfl,
    good_lone_256_200, rfl⟩

/-- The three rejections: a Kraft sum above and below 65536, a field of 17, four bits left over. -/
theorem witness_CorruptTablesAreRejected : Tab.ofSel 1 = some .az ∧ State.reset.err = false
    ∧ (∀ l ∈ ((pairLengths 256 0 7).setIfInBounds 255 16).toList, l.toNat ≤ 16)
    ∧ 65536 < kraftSum ((pairLengths 256 0 7).setIfInBounds 255 16).toList
    ∧ kraftSum ((Vector.replicate 256 (0 : BitVec 5)).setIfInBounds 0 2).toList < 65536
    ∧ usedLengths ((Vector.replicate 256 (0 : BitVec 5)).setIfInBounds 0 2).toList = 1
    ∧ (1 : BitVec 5) ∉ ((Vector.replicate 256 (0 : BitVec 5)).setIfInBounds 0 2).toList
    ∧ (List.replicate 255 (16 : BitVec 5)).length < nsym .az ∧ 16 < (17 : BitVec 5).toNat
    ∧ [true, false, true, true].length < 5 := by decide +kernel

theorem witness_ReadTableInvertsWriteTable : Tab.ofSel 1 = some .az ∧ Tab.ofSel 4 = some .ld
    ∧ nsym .ld = nsym .az ∧ ready.err = false ∧ (ready.tab .az).tstate = .valid
    ∧ (ready.tab .az).Canonical ∧ State.reset.err = false
    ∧ (∃ t, exec (.writeTable 1) ready = .next t
        ∧ (t.chanOut == ready.chanOut ++ lengthBits (pairLengths 256 0 7).toList) = true) :=
  ⟨rfl, rfl, rfl, rfl, rfl, ready_canonical .az, rfl, exists_of_after (by decide +kernel)⟩

theorem witness_EncSymWritesTheCode : Tab.ofSel 0 = some .bz ∧ ready.err = false
    ∧ (ready.tab .bz).tstate = .valid
    ∧ ((7 : Word).toNat < nsym .bz ∧ (ready.tab .bz).lenAt 7 ≠ 0)
    ∧ ((383 : Word).toNat < nsym .bz ∧ (ready.tab .bz).lenAt 383 = 0) := by decide +kernel

theorem witness_DecSymInvertsEncSym : Tab.ofSel 0 = some .bz ∧ ready.err = false
    ∧ (ready.tab .bz).tstate = .valid ∧ (ready.tab .bz).Canonical ∧ (ready.tab .bz).lenAt 7 ≠ 0
    ∧ ({ ready with chanIn := [true, false] } : State).chanIn = (ready.tab .bz).codeBits 7 ++ [false] :=
  ⟨rfl, rfl, rfl, ready_canonical .bz, by decide +kernel, by decide +kernel⟩

/-- Sixteen and fifteen bits "1" before a table whose only code is "0". -/
theorem witness_UnreadableCodesAreRejected : ∃ s r : State, Tab.ofSel 1 = some .az ∧ s.err = false
    ∧ (s.tab .az).tstate = .valid ∧ (s.tab .az).Canonical
    ∧ (∀ sym, (s.tab .az).lenAt sym ≠ 0 → ¬ ((s.tab .az).codeBits sym <+: s.chanIn))
    ∧ s.chanIn.length = 16 ∧ r.tab .az = s.tab .az ∧ r.err = false
    ∧ (∀ sym, (r.tab .az).lenAt sym ≠ 0 → ¬ ((r.tab .az).codeBits sym <+: r.chanIn))
    ∧ r.chanIn.length = 15 := by
  refine ⟨{ ready with tabAz := lone 256 200, chanIn := List.replicate 16 true },
    { ready with tabAz := lone 256 200, chanIn := List.replicate 15 true }, rfl, rfl, rfl,
    lone_canonical good_lone_256_200, fun sym h => ?_, rfl, rfl, rfl, fun sym h => ?_, rfl⟩ <;>
  · obtain rfl := lenAt_lone h
    decide +kernel

theorem witness_CanonicalWalkAgreesWithTheBitWalk : (ready.tab .bz).Canonical := ready_canonical .bz

theorem witness_ChainCarriesItsRun : 1 ≤ 1 ∧ 1 ≤ 128 := by decide

theorem witness_NopChangesNothing : (0x100 : Word).toNat % 256 = 0 ∧ (0x100 : Word) ≠ 0 := by decide

theorem witness_InitCommandsStartTheirPath : ready.err = false ∧ (1 : Word).toNat < 2
    ∧ (65535 : Word).toNat < 65536 := by decide

theorem witness_PushZeroExtendsTheRun : State.reset.err = false ∧ State.reset.arg0 = 0
    ∧ State.reset.ecPhase = .collect ∧ (4294967294 : BitVec 32).toNat ≠ 4294967295
    ∧ (4294967295 : BitVec 32).toNat = 4294967295 := by decide

/-- An open run of 3 in context mode, the byte 255. -/
theorem witness_PushNonZeroFlushesAndCounts : ∃ s : State, s.err = false ∧ 1 ≤ s.arg0.toNat
    ∧ s.arg0.toNat ≤ 255 ∧ s.ecPhase = .collect ∧ s.runCnt ≠ 0 ∧ s.rl.length ≠ Config.runlistCap
    ∧ s.tabBz.tstate = .collect ∧ flushedContext s = true ∧ s.tabAz.tstate = .collect :=
  ⟨{ State.reset with arg0 := 255, ctxEn := true, runCnt := 3 }, rfl, by decide, by decide, rfl, by decide,
    by simp [State.reset, Block.reset, Config.runlistCap], rfl, by decide, rfl⟩

/-- As reset, with an open run and the run-list full (V23). -/
def crowded : State := { State.reset with runCnt := 3, rl := List.replicate Config.runlistCap 1 }

/-- The faults of `PUSH` and `FINALIZE`: the run-list full; a table that is built already. -/
theorem witness_PushNonZeroFlushesAndCounts_faults :
    (crowded.err = false ∧ crowded.ecPhase = .collect ∧ crowded.ctxAz = false ∧ crowded.runCnt ≠ 0
      ∧ crowded.rl.length = Config.runlistCap)
    ∧ ready.err = false ∧ ready.ecPhase = .collect ∧ ready.ctxAz = false ∧ ready.runCnt = 0
    ∧ flushedContext ready = false ∧ ready.tabBz.tstate ≠ .collect := by
  refine ⟨⟨rfl, rfl, rfl, by decide, by simp [crowded]⟩, ?_⟩
  decide +kernel

theorem witness_FinalizeBuildsTheTables : ∃ s : State, s.err = false ∧ s.ecPhase = .collect
    ∧ s.ctxEn = true ∧ s.runCnt ≠ 0 ∧ s.rl.length ≠ Config.runlistCap ∧ s.tabBz.tstate = .collect
    ∧ s.tabAz.tstate = .collect :=
  ⟨{ State.reset with ctxEn := true, runCnt := 128 }, rfl, rfl, rfl, by decide,
    by simp [State.reset, Block.reset, Config.runlistCap], rfl, rfl⟩

theorem witness_WriteOverheadWritesTheTables :
    ({ ready with ecPhase := .finalized, ctxEn := true } : State).err = false
      ∧ ready.tabBz.tstate = .valid ∧ ready.tabAz.tstate = .valid
      ∧ ¬ (({ State.reset with ecPhase := .finalized } : State).tabBz.tstate = .valid) := by decide +kernel

/-- The first zero of a run of 2, whose symbol 257 has a code; and a later one. -/
theorem witness_EncodeZeroReplaysTheRun : emitting.err = false ∧ emitting.arg0 = 0
    ∧ emitting.ecPhase = .emit ∧ emitting.encRem = 0 ∧ emitting.encLastz = false ∧ (2 : BitVec 32) ≠ 0
    ∧ (pair 384 0 257).tstate = .valid
    ∧ (∀ sym ∈ chain (2 : BitVec 32).toNat, (pair 384 0 257).lenAt sym ≠ 0)
    ∧ ({ emitting with encRem := 1 } : State).encRem ≠ 0
    ∧ (∃ sym ∈ chain (3 : BitVec 32).toNat, emitting.tabBz.lenAt sym = 0)
    ∧ ({ State.reset with ecPhase := .emit } : State).tabBz.tstate = .collect := by decide +kernel

theorem witness_EncodeLiteralWritesItsCode : emitting.err = false ∧ 1 ≤ (7 : Word).toNat
    ∧ (7 : Word).toNat ≤ 255 ∧ emitting.ecPhase = .emit ∧ emitting.encRem = 0
    ∧ (emitting.tab (ctxTable emitting)).tstate = .valid
    ∧ (emitting.tab (ctxTable emitting)).lenAt 7 ≠ 0
    ∧ (emitting.tab (ctxTable emitting)).lenAt 5 = 0
    ∧ (let s : State := { State.reset with ecPhase := .emit }; (s.tab (ctxTable s)).tstate = .collect) := by
  decide +kernel

theorem witness_UnfaithfulReplayIsDetected : emitting.err = false ∧ emitting.ecPhase = .emit
    ∧ emitting.arg0 = 0 ∧ emitting.encRem = 0 ∧ emitting.rl = []
    ∧ ({ emitting with encLastz := true } : State).encLastz = true
    ∧ ({ emitting with encRem := 1 } : State).encRem ≠ 0
    ∧ ({ emitting with rl := [1] } : State).rl ≠ [] := by decide +kernel

theorem witness_EncodeFinalizeWritesTheEndMarker : emitting.err = false ∧ emitting.ecPhase = .emit
    ∧ emitting.encRem = 0 ∧ emitting.rl = [] ∧ (emitting.tab (ctxTable emitting)).tstate = .valid
    ∧ (emitting.tab (ctxTable emitting)).lenAt 0 ≠ 0
    ∧ (pair 384 3 7).tstate = .valid ∧ (pair 384 3 7).lenAt 0 = 0
    ∧ (let s : State := { State.reset with ecPhase := .emit }; (s.tab (ctxTable s)).tstate = .collect) := by
  decide +kernel

/-- Each of the four ways in which a table of 256 symbols cannot be read: a stream of four bits, a field of
17, a Kraft sum of one and a half, a Kraft sum of a quarter. -/
theorem witness_UnreadableTable : UnreadableTable 256 [false, true, true, false] 1
    ∧ UnreadableTable 256 [true, false, false, false, true] 2
    ∧ (∃ bits, UnreadableTable 256 bits 3) ∧ ∃ bits, UnreadableTable 256 bits 4 := by
  refine ⟨⟨[], by simp, .inr (.inr ⟨by decide, ⟨_, by decide, rfl⟩, rfl⟩)⟩,
    ⟨[], by simp, .inr (.inl ⟨by decide, ⟨17, by decide, by decide⟩, rfl⟩)⟩,
    ⟨_, ((pairLengths 256 0 7).setIfInBounds 255 1).toList, by decide +kernel, .inl ⟨by decide +kernel,
      by unfold GoodLengths; decide +kernel, List.prefix_rfl, by decide +kernel⟩⟩,
    ⟨_, ((Vector.replicate 256 0).setIfInBounds 0 2).toList, by decide +kernel, .inl ⟨by decide +kernel,
      by unfold GoodLengths; decide +kernel, List.prefix_rfl, by decide +kernel⟩⟩⟩

theorem witness_DecInitReadsTheTables : ∃ s : State, s.err = false ∧ s.arg0.toNat < 2
    ∧ GoodLengths (pair 384 0 7).len.toList ∧ GoodLengths (lone 256 200).len.toList
    ∧ s.chanIn = lengthBits (pair 384 0 7).len.toList
      ++ ((if s.arg0 = 1 then lengthBits (lone 256 200).len.toList else []) ++ [true]) :=
  ⟨{ ready with
      arg0 := 1
      chanIn := lengthBits (pair 384 0 7).len.toList
        ++ (lengthBits (lone 256 200).len.toList ++ [true]) },
    rfl, by decide, good_pair_384_0_7, good_lone_256_200, by rw [if_pos rfl]⟩

/-- No base table; a base table and then four bits. -/
theorem witness_DecInitReadsTheTables_faults :
    UnreadableTable 384 ({ ready with chanIn := [true] } : State).chanIn 1
      ∧ GoodLengths (pair 384 0 7).len.toList ∧ UnreadableTable 256 [false, true, true, false] 1 :=
  ⟨⟨[], by simp, .inr (.inr ⟨by decide, ⟨[true], by decide, rfl⟩, rfl⟩)⟩, good_pair_384_0_7,
    witness_UnreadableTable.1⟩

theorem noCodeIn_lone {n a : Nat} {bits : List Bool} (h : ¬ ((lone n a).codeBits a <+: bits)) :
    (lone n a).NoCodeIn bits := fun sym hs => by
  obtain rfl := lenAt_lone hs
  exact h

/-- Sixteen bits "1", and none, before a table whose only code is "0"; a table that is not built. -/
theorem witness_DecodeNextReturnsTheNextByte_faults :
    (lone 384 200).tstate = .valid ∧ (lone 384 200).NoCodeIn (List.replicate 16 true)
      ∧ unreadableCode (List.replicate 16 true) = 5
      ∧ (lone 384 200).NoCodeIn [] ∧ unreadableCode [] = 1
      ∧ (let s : State := { State.reset with ecPhase := .decode }; (s.tab (ctxTable s)).tstate = .collect) :=
  ⟨rfl, noCodeIn_lone (by decide +kernel), rfl, noCodeIn_lone (by decide +kernel), rfl, rfl⟩

theorem witness_DecodeNextReturnsTheNextByte : decoding.err = false ∧ decoding.ecPhase = .decode
    ∧ ({ decoding with zpend := 127 } : State).zpend ≠ 0 ∧ decoding.zpend = 0
    ∧ (decoding.tab (ctxTable decoding)).tstate = .valid
    ∧ (decoding.tab (ctxTable decoding)).Canonical ∧ (decoding.tab (ctxTable decoding)).lenAt 7 ≠ 0
    ∧ ({ decoding with chanIn := [true] } : State).chanIn
      = (decoding.tab (ctxTable decoding)).codeBits 7 ++ [] :=
  ⟨rfl, rfl, by decide, rfl, rfl, ready_canonical .bz, by decide +kernel, by decide +kernel⟩

/-- One match of each class, with the escape code that the table of 45_lz_codec R151 gives it: a cache slot,
distances 1 and 4, local-up, short and long with the length in the code and read. -/
theorem witness_IsClassOf :
    IsClassOf 4 10 { counting with cache := #v[7, 10, 10, 0] } ⟨1, true, .none, false⟩
      ∧ IsClassOf 2 1 counting ⟨4, true, .none, true⟩ ∧ IsClassOf 2 4 counting ⟨6, true, .none, true⟩
      ∧ IsClassOf 2 100 { counting with xsize := 100 } ⟨11, true, .none, true⟩
      ∧ IsClassOf 9 256 counting ⟨21, false, .short, true⟩
      ∧ IsClassOf 10 256 counting ⟨22, true, .short, true⟩
      ∧ IsClassOf 9 257 counting ⟨30, false, .long, true⟩
      ∧ IsClassOf 257 65532 counting ⟨31, true, .long, true⟩ := by
  refine ⟨?_, ?_, ?_, ?_, ?_, ?_, ?_, ?_⟩ <;>
  · simp only [IsClassOf]
    decide +kernel

/-- A match of band 5 with an explicit length, and its tables collecting; frozen in `ready`. -/
theorem witness_LzPushCountsTheMatch : counting.err = false ∧ counting.lzPhase = .collect
    ∧ 2 ≤ (257 : Word).toNat ∧ (257 : Word).toNat ≤ 257 ∧ 1 ≤ (65532 : Word).toNat
    ∧ (65532 : Word).toNat ≤ 65535 ∧ counting.tabLen.tstate = .collect
    ∧ counting.tabSd.tstate = .collect ∧ counting.tabLd.tstate = .collect
    ∧ ready.tabLen.tstate ≠ .collect := by decide +kernel

theorem witness_LzTablesAreBuiltAndWritten : counting.err = false ∧ counting.lzPhase = .collect
    ∧ counting.tabLen.tstate = .collect ∧ counting.tabSd.tstate = .collect
    ∧ counting.tabLd.tstate = .collect
    ∧ ({ ready with lzPhase := .finalized } : State).lzPhase = .finalized
    ∧ ready.tabLen.tstate = .valid ∧ ready.tabSd.tstate = .valid ∧ ready.tabLd.tstate = .valid
    ∧ ({ ready with lzPhase := .collect } : State).tabLen.tstate ≠ .collect
    ∧ ({ counting with lzPhase := .finalized } : State).tabLen.tstate ≠ .valid := by decide +kernel

/-- Length 10 and distance 257: an explicit length, a long distance. -/
theorem witness_LzEncodeWritesTheFields : ∃ s : State, s.err = false ∧ 2 ≤ s.arg0.toNat
    ∧ s.arg0.toNat ≤ 257 ∧ 1 ≤ s.arg1.toNat ∧ s.arg1.toNat ≤ 65535 ∧ s.lzPhase = .emit
    ∧ IsClassOf s.arg0.toNat s.arg1.toNat s ⟨31, true, .long, true⟩
    ∧ s.tabLen.tstate = .valid ∧ s.tabLen.lenAt (s.arg0.toNat - 2) ≠ 0
    ∧ s.tabLd.tstate = .valid ∧ s.tabLd.lenAt (s.arg1.toNat / 256) ≠ 0 :=
  ⟨{ emitting with arg0 := 10, arg1 := 257, xsize := 100 }, by simp only [IsClassOf]; decide +kernel⟩

/-- Symbols without a code: the length 11, the short distance 200, the long distance 65532; tables that are
not valid in `counting`. -/
theorem witness_LzEncodeWritesTheFields_faults :
    emitting.tabLen.lenAt (11 - 2) = 0 ∧ emitting.tabSd.tstate = .valid ∧ emitting.tabSd.lenAt (200 - 1) = 0
      ∧ (pair 256 1 9).lenAt (65532 / 256) = 0 ∧ IsClassOf 11 200 emitting ⟨22, true, .short, true⟩
      ∧ IsClassOf 9 200 emitting ⟨21, false, .short, true⟩
      ∧ IsClassOf 9 65532 emitting ⟨30, false, .long, true⟩
      ∧ counting.tabLen.tstate = .collect ∧ counting.tabSd.tstate = .collect
      ∧ counting.tabLd.tstate = .collect := by
  refine ⟨by decide +kernel, rfl, by decide +kernel, by decide +kernel, ?_, ?_, ?_, rfl, rfl, rfl⟩ <;>
  · simp only [IsClassOf]
    decide +kernel

theorem witness_LzDecInitReadsTheTables : ∃ s : State, s.err = false ∧ s.arg0.toNat < 65536
    ∧ s.arg1.toNat < 65536 ∧ GoodLengths (pair 256 0 8).len.toList
    ∧ GoodLengths (pair 256 1 9).len.toList ∧ GoodLengths (lone 256 200).len.toList
    ∧ s.chanIn = lengthBits (pair 256 0 8).len.toList ++ (lengthBits (pair 256 1 9).len.toList
      ++ (lengthBits (lone 256 200).len.toList ++ [true])) :=
  ⟨{ ready with
      arg0 := 65535
      chanIn := lengthBits (pair 256 0 8).len.toList ++ (lengthBits (pair 256 1 9).len.toList
        ++ (lengthBits (lone 256 200).len.toList ++ [true])) },
    rfl, by decide, by decide, good_pair_256_0_8, good_pair_256_1_9, good_lone_256_200, rfl⟩

/-- Two tables, and then four bits. -/
theorem witness_LzDecInitReadsTheTables_faults : ∃ s : State, ∃ before : List (Vector (BitVec 5) 256),
    before.length < 3 ∧ (∀ L ∈ before, GoodLengths L.toList)
      ∧ s.chanIn = (before.flatMap fun L => lengthBits L.toList) ++ [false, true, true, false]
      ∧ UnreadableTable 256 [false, true, true, false] 1 :=
  let before := [(pair 256 0 8).len, (pair 256 1 9).len]
  ⟨{ ready with chanIn := (before.flatMap fun L => lengthBits L.toList) ++ [false, true, true, false] }, before,
    by decide, by
      intro L hL
      rcases List.mem_cons.1 hL with rfl | hL
      · exact good_pair_256_0_8
      · rw [List.mem_singleton.1 hL]; exact good_pair_256_1_9,
    rfl, witness_UnreadableTable.1⟩

/-- Bands 1 (slot 3), 2 (code 8) and 3 (code 13), each with the length 10. -/
theorem witness_LzDecodeOfBandsWithoutDistanceCode : decoding.err = false ∧ decoding.lzPhase = .decode
    ∧ decoding.tabLen.tstate = .valid ∧ decoding.tabLen.Canonical ∧ decoding.tabLen.lenAt 8 ≠ 0
    ∧ ({ decoding with chanIn := [true] } : State).chanIn = decoding.tabLen.codeBits 8 ++ []
    ∧ (3 ≤ 3 ∧ (({ decoding with cache := #v[0, 0, 0, 9] } : State).cacheAt 3).toNat ≠ 0)
    ∧ [1, 3, 4, 5, 6].getD (8 - 4) 0 ≠ 0 ∧ (0 + (13 - 9) + 65534) % 65536 ≠ 0 :=
  ⟨rfl, rfl, rfl, ready_canonical .len, by decide +kernel, by decide +kernel, by decide +kernel, by decide,
    by decide⟩

/-- Code 14 (short, length in the code) and code 31 (long, length read). -/
theorem witness_LzDecodeOfBandsWithDistanceCode : decoding.err = false ∧ decoding.lzPhase = .decode
    ∧ (14 ≤ (14 : Word).toNat ∧ (14 : Word).toNat ≤ 31) ∧ (14 ≤ (31 : Word).toNat ∧ (31 : Word).toNat ≤ 31)
    ∧ decoding.tabLen.tstate = .valid ∧ decoding.tabLen.Canonical ∧ decoding.tabLen.lenAt 8 ≠ 0
    ∧ decoding.tabSd.tstate = .valid ∧ decoding.tabSd.Canonical ∧ decoding.tabSd.lenAt 9 ≠ 0
    ∧ decoding.tabLd.tstate = .valid ∧ decoding.tabLd.Canonical ∧ decoding.tabLd.lenAt 255 ≠ 0
    ∧ 255 < 256 ∧ 9 + 1 ≠ 0 ∧ 255 * 256 + 255 ≠ 0 :=
  ⟨rfl, rfl, by decide, by decide, rfl, ready_canonical .len, by decide +kernel, rfl, ready_canonical .sd,
    by decide +kernel, rfl, ready_canonical .ld, by decide +kernel, by decide, by decide, by decide⟩

theorem witness_LzDecodeRejectsBadEscapesAndZeroDistances : decoding.err = false ∧ decoding.lzPhase = .decode
    ∧ ((32 : Word).toNat < 256 ∧ 32 ≤ (32 : Word).toNat)
    ∧ ((3 : Word).toNat ≤ 3 ∧ decoding.cacheAt ((3 : Word).setWidth 2) = 0)
    ∧ (9 ≤ (9 : Word).toNat ∧ ((2 : Half).toNat + (9 : Word).toNat) % 65536 = 11)
    ∧ ((13 : Word).toNat ≤ 13 ∧ ((65534 : Half).toNat + (13 : Word).toNat) % 65536 = 11) := by
  decide +kernel

/-- Code 31 with the length 10: a long distance code of symbol 0 and then eight zeros, or seven; the code
that stands before them; tables without a code in the stream, and tables that are not valid. -/
theorem witness_LzDecodeRejectsBadEscapesAndZeroDistances_fields :
    (31 ≤ (31 : Word).toNat ∧ (31 : Word).toNat ≤ 31) ∧ decoding.tabLen.tstate = .valid
      ∧ decoding.tabLen.Canonical ∧ decoding.tabLen.lenAt 8 ≠ 0
      ∧ (pair 256 0 7).tstate = .valid ∧ (pair 256 0 7).Canonical ∧ (pair 256 0 7).lenAt 0 ≠ 0
      ∧ ({ decoding with chanIn := true :: false :: List.replicate 8 false } : State).chanIn
        = decoding.tabLen.codeBits 8 ++ ((pair 256 0 7).codeBits 0 ++ List.replicate 8 false)
      ∧ List.replicate 8 false <+: List.replicate 8 false ∧ (List.replicate 7 false).length < 8
      ∧ (lone 256 200).NoCodeIn [true]
      ∧ counting.tabLen.tstate = .collect ∧ counting.tabSd.tstate = .collect
      ∧ counting.tabLd.tstate = .collect :=
  ⟨by decide, rfl, ready_canonical .len, by decide +kernel, rfl, ready_canonical .az, by decide +kernel,
    by decide +kernel, List.prefix_rfl, by decide, noCodeIn_lone (by decide +kernel), rfl, rfl, rfl⟩

/-- V33, match 8, written and then read with the same tables. -/
theorem witness_LzDecodeInvertsLzEncode : ∃ (s s1 r : State), s.err = false ∧ s1.err = false
    ∧ s.tabLen.Canonical ∧ s.tabSd.Canonical ∧ s.tabLd.Canonical ∧ exec .lzEncode s = .next s1
    ∧ s1.chanOut = s.chanOut ++ [true, false, false, false, false, false, false, false, false, true]
    ∧ r.err = false ∧ r.lzPhase = .decode ∧ r.arg0 = s1.res0 ∧ r.tabLen = s.tabLen ∧ r.tabSd = s.tabSd
    ∧ r.tabLd = s.tabLd ∧ r.cache = s.cache ∧ r.cur = s.cur ∧ r.xsize = s.xsize
    ∧ r.chanIn = [true, false, false, false, false, false, false, false, false, true] ++ [] := by
  obtain ⟨t, h, hp⟩ := exists_of_after (o := exec .lzEncode { emitting with arg0 := 10, arg1 := 257, xsize := 100 })
    (p := fun t => !t.err && t.res0 == 31
      && t.chanOut == [true, false, false, false, false, false, false, false, false, true])
    (by decide +kernel)
  simp only [Bool.and_eq_true, Bool.not_eq_true', beq_iff_eq] at hp
  let w := [true, false, false, false, false, false, false, false, false, true]
  exact ⟨{ emitting with arg0 := 10, arg1 := 257, xsize := 100 }, t,
    { decoding with arg0 := 31, xsize := 100, chanIn := w },
    rfl, hp.1.1, ready_canonical .len, ready_canonical .sd, ready_canonical .ld, h, hp.2, rfl, rfl, hp.1.2.symm, rfl,
    rfl, rfl, rfl, rfl, rfl, rfl⟩

theorem witness_PushedDistanceStaysRecentForThreePushes : (5 : Half) ≠ 0 ∧ [(1 : Half), 2, 3].length ≤ 3
    ∧ [(1 : Half), 2, 3, 4].length = 4 ∧ (5 : Half) ∉ [(1 : Half), 2, 3, 4] := by decide

theorem witness_PathsDoNotInterfere :
    (∃ t, exec .lzFinalize counting = .next t ∧ t.err = false)
      ∧ (∃ t, exec .push State.reset = .next t ∧ t.err = false) :=
  ⟨completes_of_after (by decide +kernel), completes_of_after (by decide +kernel)⟩

/-- A state that meets the histogram invariant outside the fault state, and a step from it. -/
theorem witness_EveryStepKeepsTheHistograms : ∃ s s' : State,
    s.err = false ∧ HistogramInv s ∧ step s = .next s' := by
  refine ⟨{ ready with pending := [.loopback] }, _, rfl, fun _ t => ?_, rfl⟩
  cases t <;> refine ⟨⟨fun y => ?_, .inl rfl⟩, fun h => by cases h⟩ <;>
  · show (TableMem.count ((TableMem.cleared _).withLengths _) y).toNat ≤ _
    simp

/-- A state whose five tables are valid and canonical, and a step from it. -/
theorem witness_EveryStepKeepsValidTablesCanonical : ∃ s s' : State,
    s.err = false ∧ CanonicalInv s ∧ (∀ t, (s.tab t).tstate = .valid) ∧ step s = .next s' :=
  ⟨{ ready with pending := [.loopback] }, _, rfl, fun _ t _ => by
    cases t
    exacts [ready_canonical .bz, ready_canonical .az, ready_canonical .len, ready_canonical .sd,
      ready_canonical .ld], fun t => by cases t <;> rfl, rfl⟩

/-- A decoder that owes zeros, and a step from it. -/
theorem witness_EveryStepKeepsTheEntropyPath : ∃ s s' : State,
    s.err = false ∧ EntropyPathInv s ∧ step s = .next s' := by
  refine ⟨{ decoding with zpend := 5, pending := [.loopback] }, _, rfl, fun _ => ?_, rfl⟩
  constructor <;> simp [decoding, ready, State.reset, Block.reset]

end Sys2Proof.Tests
end

section
/-! SUPPORT. Canonical codes (40_canonical_code_builder R87): the code of a symbol, as a fraction of `2^16`, is
the sum of the shares of the symbols that precede it, so no code begins another. -/

namespace Sys2Proof.Machine

open Sys2Proof

/-! ### Lengths, shares and the order of symbols -/

/-- The length of a symbol as a number, 0 beyond the alphabet (10_state R21). -/
def lengthIn {n : Nat} (L : Vector (BitVec 5) n) (z : Nat) : Nat := ((L[z]?).getD 0).toNat

/-- What one length contributes to the Kraft sum (41_table_serdes R103). -/
def lengthShare (l : BitVec 5) : Nat := if l = 0 then 0 else 2 ^ (16 - l.toNat)

/-- What one symbol contributes to the Kraft sum. -/
def shareOf {n : Nat} (L : Vector (BitVec 5) n) (z : Nat) : Nat := lengthShare ((L[z]?).getD 0)

/-- `z` comes before `y` in the order by length, then symbol (40_canonical_code_builder R87). -/
abbrev Precedes {n : Nat} (L : Vector (BitVec 5) n) (z y : Nat) : Prop :=
  lengthIn L z < lengthIn L y ∨ (lengthIn L z = lengthIn L y ∧ z < y)

/-- The shares of all symbols that precede `y`. -/
def shareBefore {n : Nat} (L : Vector (BitVec 5) n) (y : Nat) : Nat :=
  ∑ z ∈ Finset.range n, if Precedes L z y then shareOf L z else 0

theorem lengthIn_of_lt {n : Nat} (L : Vector (BitVec 5) n) {y : Nat} (h : y < n) :
    lengthIn L y = L[y].toNat := by
  simp [lengthIn, Vector.getElem?_eq_getElem h]

theorem toNat_ne_zero_of_ne {w : Nat} {x : BitVec w} (h : x ≠ 0) : x.toNat ≠ 0 := fun e =>
  h (BitVec.eq_of_toNat_eq (by simpa using e))

theorem shareOf_of_ne {n : Nat} {L : Vector (BitVec 5) n} {y : Nat} (h : y < n) (h0 : L[y] ≠ 0) :
    shareOf L y = 2 ^ (16 - L[y].toNat) := by
  rw [shareOf, Vector.getElem?_eq_getElem h, Option.getD_some, lengthShare, if_neg h0]

/-- The share of one symbol as a sum over the alphabet. -/
theorem shareOf_eq_sum {n : Nat} (L : Vector (BitVec 5) n) {y : Nat} (h : y < n) :
    shareOf L y = ∑ z ∈ Finset.range n, if z = y then shareOf L z else 0 := by
  rw [Finset.sum_ite_eq' (Finset.range n) y, if_pos (Finset.mem_range.mpr h)]

theorem kraftSum_eq_map (ls : List (BitVec 5)) : kraftSum ls = (ls.map lengthShare).sum := rfl

/-- A sum over a list is a sum over its positions. -/
theorem sum_map_eq_sum_range {α : Type} (d : α) (f : α → Nat) (ls : List α) :
    (ls.map f).sum = ∑ z ∈ Finset.range ls.length, f (ls[z]?.getD d) := by
  induction ls using List.reverseRecOn with
  | nil => rfl
  | append_singleton ls a ih =>
    rw [List.map_append, List.sum_append, ih, List.length_append, List.length_singleton,
      Finset.sum_range_succ]
    congr 1
    · refine Finset.sum_congr rfl fun z hz => ?_
      rw [List.getElem?_append_left (Finset.mem_range.mp hz)]
    · simp

theorem kraftSum_eq_sum_shareOf {n : Nat} (L : Vector (BitVec 5) n) :
    kraftSum L.toList = ∑ z ∈ Finset.range n, shareOf L z := by
  rw [kraftSum_eq_map, sum_map_eq_sum_range 0, Vector.length_toList]
  simp only [shareOf, Vector.getElem?_toList]

/-- The shares before a symbol, and then its own, are within those of all symbols. -/
theorem shareBefore_add_shareOf_le_kraftSum {n : Nat} (L : Vector (BitVec 5) n) {y : Nat} (h : y < n) :
    shareBefore L y + shareOf L y ≤ kraftSum L.toList := by
  rw [kraftSum_eq_sum_shareOf, shareBefore, shareOf_eq_sum L h, ← Finset.sum_add_distrib]
  refine Finset.sum_le_sum fun z _ => ?_
  by_cases hz : z = y
  · subst hz; simp [Precedes]
  · rw [if_neg hz]; split <;> omega

/-- The shares before a symbol, and then its own, are within those before any later symbol. -/
theorem shareBefore_add_shareOf_le_of_precedes {n : Nat} {L : Vector (BitVec 5) n} {a b : Nat} (ha : a < n)
    (hab : Precedes L a b) : shareBefore L a + shareOf L a ≤ shareBefore L b := by
  rw [shareBefore, shareOf_eq_sum L ha, ← Finset.sum_add_distrib, shareBefore]
  refine Finset.sum_le_sum fun z _ => ?_
  by_cases hz : z = a
  · subst hz; simp [Precedes] at hab ⊢; simp [hab]
  · have trans : Precedes L z a → Precedes L z b := by unfold Precedes at *; omega
    rw [if_neg hz]
    by_cases hza : Precedes L z a
    · rw [if_pos hza, if_pos (trans hza), Nat.add_zero]
    · rw [if_neg hza]; exact Nat.zero_le _

/-! ### `AssignCodes` -/

/-- The second loop of `AssignCodes` gives an unused symbol code 0 (40_canonical_code_builder R87). -/
theorem assignFrom_getElem?_zero {next : List Nat} {ls : List (BitVec 5)} {i : Nat}
    (h : ls[i]? = some 0) : (assignFrom next ls)[i]? = some 0 := by
  induction ls generalizing next i with
  | nil => simp at h
  | cons x xs ih =>
    cases i with
    | zero =>
      simp only [List.getElem?_cons_zero, Option.some.injEq] at h
      simp [assignFrom, h]
    | succ i =>
      rw [List.getElem?_cons_succ] at h
      rw [assignFrom]
      split
      · exact ih h
      · exact ih h

/-- The second loop of `AssignCodes` numbers the symbols of one length consecutively
(40_canonical_code_builder R87). -/
theorem assignFrom_getElem? {next : List Nat} {ls : List (BitVec 5)} {i : Nat} {l : BitVec 5}
    (hn : ∀ x ∈ ls, x.toNat < next.length) (h : ls[i]? = some l) (hl : l ≠ 0) :
    (assignFrom next ls)[i]? = some (BitVec.ofNat 16 (next.getD l.toNat 0 + (ls.take i).count l)) := by
  induction ls generalizing next i with
  | nil => simp at h
  | cons x xs ih =>
    obtain ⟨hx, hxs⟩ := List.forall_mem_cons.mp hn
    cases i with
    | zero =>
      simp only [List.getElem?_cons_zero, Option.some.injEq] at h
      subst h
      rw [assignFrom, if_neg hl]
      simp
    | succ i =>
      rw [List.getElem?_cons_succ] at h
      rw [assignFrom, List.take_succ_cons, List.count_cons]
      by_cases h0 : x = 0
      · have hne : (x == l) = false := beq_false_of_ne fun e => hl (e ▸ h0)
        rw [if_pos h0, List.getElem?_cons_succ, ih hxs h, hne]
        simp
      · rw [if_neg h0, List.getElem?_cons_succ, ih (by simpa using hxs) h]
        by_cases hxl : x = l
        · subst hxl
          simp only [List.getD_eq_getElem?_getD, List.getElem?_set_self hx, Option.getD_some, beq_self_eq_true,
            if_true]
          congr 2; omega
        · have hne : x.toNat ≠ l.toNat := fun e => hxl (BitVec.eq_of_toNat_eq e)
          rw [beq_false_of_ne hxl]
          simp only [List.getD_eq_getElem?_getD, List.getElem?_set_ne hne, Bool.false_eq_true, if_false,
            Nat.add_zero]

/-- The shares of the shorter lengths, one length more. -/
theorem sum_share_lt_succ (ls : List (BitVec 5)) {l : Nat} (hl : l ≠ 0) :
    (ls.map fun x => if x.toNat < l + 1 then lengthShare x else 0).sum
      = (ls.map fun x => if x.toNat < l then lengthShare x else 0).sum + lengthCount ls l * 2 ^ (16 - l) := by
  induction ls with
  | nil => simp [lengthCount]
  | cons x xs ih =>
    rw [List.map_cons, List.sum_cons, List.map_cons, List.sum_cons, ih, lengthCount, lengthCount,
      List.countP_cons]
    by_cases hx : x.toNat = l
    · have h0 : x ≠ 0 := fun e => hl (by rw [← hx, e]; rfl)
      simp only [hx, Nat.lt_succ_self, if_true, Nat.lt_irrefl, if_false, lengthShare, h0,
        beq_self_eq_true]
      ring
    · have hiff : x.toNat < l + 1 ↔ x.toNat < l := by omega
      simp only [hiff, beq_false_of_ne hx, Bool.false_eq_true, if_false, Nat.add_zero]
      ring

/-- The first code of a length, as a fraction of `2^16`, is the share of all shorter lengths
(40_canonical_code_builder R87). -/
theorem firstCode_mul_eq_sum (ls : List (BitVec 5)) {l : Nat} (h1 : 1 ≤ l) (h16 : l ≤ 16) :
    firstCode ls l * 2 ^ (16 - l) = (ls.map fun x => if x.toNat < l then lengthShare x else 0).sum := by
  induction l, h1 using Nat.le_induction with
  | base =>
    have h0 : ∀ x : BitVec 5, (if x.toNat < 1 then lengthShare x else 0) = 0 := fun x =>
      ite_eq_right_iff.mpr fun hx => if_pos (BitVec.eq_of_toNat_eq (Nat.lt_one_iff.mp hx))
    simp only [h0, firstCode, Nat.zero_mul, List.map_const', List.sum_replicate, smul_zero]
  | succ l h1 ih =>
    obtain ⟨k, rfl⟩ : ∃ k, l = k + 1 := ⟨l - 1, by omega⟩
    rw [sum_share_lt_succ ls (Nat.succ_ne_zero k), ← ih (by omega), firstCode, Nat.mul_assoc, ← Nat.pow_succ',
      show (16 - (k + 1 + 1)).succ = 16 - (k + 1) by omega, Nat.add_mul]

/-- The symbols of one length in an initial part of the list have that length's share each. -/
theorem count_mul_eq_sum (ls : List (BitVec 5)) {l : BitVec 5} (hl : l ≠ 0) :
    ls.count l * 2 ^ (16 - l.toNat) = (ls.map fun x => if x = l then lengthShare x else 0).sum := by
  induction ls with
  | nil => simp
  | cons x xs ih =>
    rw [List.count_cons, Nat.add_mul, ih, List.map_cons, List.sum_cons, Nat.add_comm]
    by_cases hx : x = l
    · rw [hx, beq_self_eq_true, if_pos rfl, if_pos rfl, lengthShare, if_neg hl, Nat.one_mul]
    · rw [beq_false_of_ne hx, if_neg hx, if_neg Bool.false_ne_true, Nat.zero_mul]

/-- The shares before a symbol are those of the shorter lengths and those of its own length among the lower
symbols. -/
theorem shareBefore_eq {n : Nat} (L : Vector (BitVec 5) n) {y : Nat} (h : y < n) :
    shareBefore L y
      = (L.toList.map fun x => if x.toNat < L[y].toNat then lengthShare x else 0).sum
        + ((L.toList.take y).map fun x => if x = L[y] then lengthShare x else 0).sum := by
  have hlow : Finset.range y = (Finset.range n).filter (· < y) := by
    ext z; simp only [Finset.mem_range, Finset.mem_filter]; omega
  rw [sum_map_eq_sum_range 0, sum_map_eq_sum_range 0, List.length_take_of_le (by simpa using h.le),
    Vector.length_toList, hlow, Finset.sum_filter, ← Finset.sum_add_distrib, shareBefore]
  refine Finset.sum_congr rfl fun z hz => ?_
  have hz := Finset.mem_range.mp hz
  have hlist : L.toList[z]?.getD 0 = L[z] := by simp [hz]
  have htake : z < y → (L.toList.take y)[z]?.getD 0 = L[z] := fun hzy => by
    rw [List.getElem?_take_of_lt hzy, hlist]
  have hshare : shareOf L z = lengthShare L[z] := by simp [shareOf, hz]
  have heq : L[z].toNat = L[y].toNat ↔ L[z] = L[y] := BitVec.toNat_inj
  simp only [Precedes, lengthIn_of_lt L h, lengthIn_of_lt L hz, hlist, hshare]
  by_cases hzy : z < y
  · rw [htake hzy, if_pos hzy]
    by_cases he : L[z] = L[y]
    · simp [he, hzy]
    · simp [he, heq]
  · simp [hzy]

/-- The canonical code of a used symbol, as a fraction of `2^16`, is the sum of the shares of the symbols
before it (40_canonical_code_builder R87). -/
theorem assignCodes_mul_eq_shareBefore {n : Nat} {L : Vector (BitVec 5) n}
    (h16 : ∀ l ∈ L.toList, l.toNat ≤ 16) (hk : kraftSum L.toList ≤ 65536) {y : Nat} (h : y < n)
    (h0 : L[y] ≠ 0) :
    (assignCodes L)[y].toNat * 2 ^ (16 - L[y].toNat) = shareBefore L y := by
  have hle : L[y].toNat ≤ 16 := h16 _ (by simp)
  have hpos : 1 ≤ L[y].toNat := Nat.one_le_iff_ne_zero.mpr (toNat_ne_zero_of_ne h0)
  have hget : (assignFrom ((List.range 17).map (firstCode L.toList)) L.toList)[y]?
      = some (BitVec.ofNat 16 (firstCode L.toList L[y].toNat + (L.toList.take y).count L[y])) := by
    rw [assignFrom_getElem? (l := L[y]) (fun x hx => by simpa using Nat.lt_succ_of_le (h16 x hx))
      (by simp [h]) h0]
    simp [show L[y].toNat < 17 by omega]
  have hcode : (assignCodes L)[y]
      = BitVec.ofNat 16 (firstCode L.toList L[y].toNat + (L.toList.take y).count L[y]) := by
    obtain ⟨_, hget⟩ := List.getElem?_eq_some_iff.mp hget
    exact hget
  have hval : (firstCode L.toList L[y].toNat + (L.toList.take y).count L[y]) * 2 ^ (16 - L[y].toNat)
      = shareBefore L y := by
    rw [Nat.add_mul, firstCode_mul_eq_sum _ hpos hle, count_mul_eq_sum _ h0, shareBefore_eq L h]
  have hshare := shareOf_of_ne h h0
  have hlt := shareBefore_add_shareOf_le_kraftSum L h
  have hp : 0 < 2 ^ (16 - L[y].toNat) := Nat.two_pow_pos _
  rw [hcode, BitVec.toNat_ofNat, Nat.mod_eq_of_lt, hval]
  calc firstCode L.toList L[y].toNat + (L.toList.take y).count L[y]
      ≤ (firstCode L.toList L[y].toNat + (L.toList.take y).count L[y]) * 2 ^ (16 - L[y].toNat) :=
        Nat.le_mul_of_pos_right _ hp
    _ < 2 ^ 16 := by rw [hval]; omega

/-- The canonical code of a used symbol fits its length (40_canonical_code_builder R87). -/
theorem assignCodes_lt {n : Nat} {L : Vector (BitVec 5) n} (h16 : ∀ l ∈ L.toList, l.toNat ≤ 16)
    (hk : kraftSum L.toList ≤ 65536) {y : Nat} (h : y < n) (h0 : L[y] ≠ 0) :
    (assignCodes L)[y].toNat < 2 ^ L[y].toNat := by
  have hle : L[y].toNat ≤ 16 := h16 _ (by simp)
  have hlt := shareBefore_add_shareOf_le_kraftSum L h
  have hp : 0 < 2 ^ (16 - L[y].toNat) := Nat.two_pow_pos _
  rw [← assignCodes_mul_eq_shareBefore h16 hk h h0, shareOf_of_ne h h0] at hlt
  refine Nat.lt_of_mul_lt_mul_right (a := 2 ^ (16 - L[y].toNat)) ?_
  rw [← Nat.pow_add, Nat.add_sub_cancel' hle]
  omega

/-! ### Prefixes -/

/-- A field that another begins with holds that field's high bits. -/
theorem bitsMsb_prefix {a b c d : Nat} (hc : c < 2 ^ a) (hd : d < 2 ^ b)
    (h : bitsMsb a c <+: bitsMsb b d) :
    a ≤ b ∧ c * 2 ^ (b - a) ≤ d ∧ d < (c + 1) * 2 ^ (b - a) := by
  obtain ⟨t, ht⟩ := h
  have hlen := congrArg List.length ht
  have hval := congrArg ofBitsMsb ht
  have hlt := ofBitsMsb_lt t
  simp only [List.length_append, length_bitsMsb] at hlen
  rw [ofBitsMsb_append, ofBitsMsb_bitsMsb, ofBitsMsb_bitsMsb, Nat.mod_eq_of_lt hc, Nat.mod_eq_of_lt hd] at hval
  rw [show b - a = t.length by omega, Nat.add_mul]
  omega

/-- A Kraft sum is bounded by the number of used symbols, each with the share of the shortest length. -/
theorem kraftSum_le_usedLengths_mul {ls : List (BitVec 5)} {k : Nat} (h : ∀ l ∈ ls, l ≠ 0 → k ≤ l.toNat) :
    kraftSum ls ≤ usedLengths ls * 2 ^ (16 - k) := by
  induction ls with
  | nil => exact Nat.zero_le _
  | cons x xs ih =>
    obtain ⟨hx, hxs⟩ := List.forall_mem_cons.mp h
    have ih := ih hxs
    rw [kraftSum_eq_map] at ih ⊢
    rw [List.map_cons, List.sum_cons, usedLengths, List.countP_cons, ← usedLengths, lengthShare, Nat.add_mul]
    by_cases h0 : x = 0
    · simpa [h0] using ih
    · have hp : 2 ^ (16 - x.toNat) ≤ 2 ^ (16 - k) :=
        Nat.pow_le_pow_right (by decide) (Nat.sub_le_sub_left (hx h0) 16)
      rw [if_neg h0, if_pos (bne_iff_ne.mpr h0), Nat.one_mul]
      omega

/-- The lengths that `ReadTable` accepts are not over-subscribed (41_table_serdes R105). -/
theorem GoodLengths.kraftSum_le {ls : List (BitVec 5)} (h : GoodLengths ls) : kraftSum ls ≤ 65536 := by
  have hb := kraftSum_le_usedLengths_mul (ls := ls) (k := 1) fun l _ h0 =>
    Nat.one_le_iff_ne_zero.mpr (toNat_ne_zero_of_ne h0)
  obtain ⟨-, hk | hu | ⟨hu, -⟩⟩ := h <;> omega

/-- The lengths that pass the validity test are those that `ReadTable` accepts (41_table_serdes R103, R105). -/
theorem goodLengths_of_checkLengths {ls : List (BitVec 5)} (h16 : ∀ l ∈ ls, l.toNat ≤ 16)
    (h : checkLengths ls = .ok ()) : GoodLengths ls := by
  obtain ⟨-, hk | hu | ⟨hu, hk⟩⟩ := checkLengths_eq_ok.mp h
  · exact ⟨h16, .inl hk⟩
  · exact ⟨h16, .inr (.inl hu)⟩
  · refine ⟨h16, .inr (.inr ⟨hu, ?_⟩)⟩
    by_contra hone
    have hb := kraftSum_le_usedLengths_mul (ls := ls) (k := 2) fun l hl h0 => by
      have hne : l.toNat ≠ 1 := fun e => hone ((BitVec.eq_of_toNat_eq e : l = 1) ▸ hl)
      have := toNat_ne_zero_of_ne h0
      omega
    omega

/-- No canonical code begins another symbol's (10_state R33): the later of two symbols starts behind
the whole share of the earlier. -/
theorem withLengths_prefixFree {n : Nat} (m : TableMem n) {L : Vector (BitVec 5) n}
    (h16 : ∀ l ∈ L.toList, l.toNat ≤ 16) (hk : kraftSum L.toList ≤ 65536) {a b : Nat} (hne : a ≠ b)
    (ha : (m.withLengths L).lenAt a ≠ 0) (hb : (m.withLengths L).lenAt b ≠ 0) :
    ¬ ((m.withLengths L).codeBits a <+: (m.withLengths L).codeBits b) := by
  have han := TableMem.lt_of_lenAt ha
  have hbn := TableMem.lt_of_lenAt hb
  rw [TableMem.codeBits, TableMem.codeBits, TableMem.codeAt_of_lt _ han, TableMem.codeAt_of_lt _ hbn,
    TableMem.lenAt_of_lt _ han, TableMem.lenAt_of_lt _ hbn]
  rw [TableMem.lenAt_of_lt _ han] at ha
  rw [TableMem.lenAt_of_lt _ hbn] at hb
  simp only [TableMem.withLengths_len, TableMem.withLengths_code] at ha hb ⊢
  intro hp
  have hva := assignCodes_mul_eq_shareBefore h16 hk han ha
  have hvb := assignCodes_mul_eq_shareBefore h16 hk hbn hb
  have hb16 : L[b].toNat ≤ 16 := h16 _ (by simp)
  have hsb : 0 < shareOf L b := by rw [shareOf_of_ne hbn hb]; exact Nat.two_pow_pos _
  obtain ⟨hle, hlow, hhigh⟩ := bitsMsb_prefix (assignCodes_lt h16 hk han ha) (assignCodes_lt h16 hk hbn hb) hp
  have hpow : 2 ^ (L[b].toNat - L[a].toNat) * 2 ^ (16 - L[b].toNat) = 2 ^ (16 - L[a].toNat) := by
    rw [← Nat.pow_add]; congr 1; omega
  have hlow' := Nat.mul_le_mul_right (2 ^ (16 - L[b].toNat)) hlow
  have hhigh' := Nat.mul_lt_mul_of_pos_right hhigh (Nat.two_pow_pos (16 - L[b].toNat))
  rw [Nat.mul_assoc, hpow, hva, hvb] at hlow'
  rw [Nat.mul_assoc, hpow, hvb, Nat.add_mul, hva, Nat.one_mul, ← shareOf_of_ne han ha] at hhigh'
  by_cases hab : Precedes L a b
  · have := shareBefore_add_shareOf_le_of_precedes han hab
    omega
  · have hba : Precedes L b a := by
      simp only [Precedes, lengthIn_of_lt L han, lengthIn_of_lt L hbn] at hab ⊢; omega
    have := shareBefore_add_shareOf_le_of_precedes hbn hba
    omega

/-- A table with acceptable lengths and their canonical codes is canonical (10_state R33). -/
theorem withLengths_canonical {n : Nat} (m : TableMem n) {L : Vector (BitVec 5) n}
    (h : GoodLengths L.toList) : (m.withLengths L).Canonical :=
  ⟨h, rfl, fun _ _ hne ha hb => withLengths_prefixFree m h.1 h.kraftSum_le hne ha hb⟩

end Sys2Proof.Machine
end

section
/-! SUPPORT. The lengths built from counts (40_canonical_code_builder R84 to R86): the rescaling ends by its own
test, and the depths form a complete code. -/

namespace Sys2Proof.Machine

open Sys2Proof

/-! ### Depths of the construction -/

/-- A set of nodes as the construction keeps it: the weight of a node, and that of every node beside it, is at
least a Fibonacci number of the depths below it. -/
def FibonacciWeights (F : List Node) : Prop :=
  ∀ z ∈ F, ∀ sd ∈ z.leaves, Nat.fib (sd.2 + 1) ≤ z.weight ∧ ∀ v ∈ F, Nat.fib sd.2 ≤ v.weight

theorem Node.weight_le_of_key_lt {a b : Node} (h : a.key < b.key) : a.weight ≤ b.weight := by
  rw [Node.key, Node.key, List.cons_lt_cons_iff] at h
  rcases h with h | ⟨h, -⟩
  · exact h.le
  · exact h.le

/-- Merging the two nodes of smallest key keeps the bound: the merged node weighs as much as a tree one deeper
must. -/
theorem FibonacciWeights.merge {x y z : Node} {F rest : List Node} (h : FibonacciWeights F)
    (nodes : F.Perm (x :: y :: rest)) (hx : ∀ v ∈ rest, x.weight ≤ v.weight)
    (hy : ∀ v ∈ rest, y.weight ≤ v.weight) (weight : z.weight = x.weight + y.weight)
    (leaves : z.leaves = (x.leaves ++ y.leaves).map fun sd => (sd.1, sd.2 + 1)) :
    FibonacciWeights (z :: rest) := by
  have hxF : x ∈ F := nodes.mem_iff.mpr List.mem_cons_self
  have hyF : y ∈ F := nodes.mem_iff.mpr (List.mem_cons_of_mem _ List.mem_cons_self)
  have hrF : ∀ v ∈ rest, v ∈ F := fun v hv =>
    nodes.mem_iff.mpr (List.mem_cons_of_mem _ (List.mem_cons_of_mem _ hv))
  rintro u (_ | ⟨_, hu⟩) sd hsd
  · rw [leaves, List.map_append, List.mem_append, List.mem_map, List.mem_map] at hsd
    rcases hsd with ⟨sd, hm, rfl⟩ | ⟨sd, hm, rfl⟩
    · obtain ⟨hw, hb⟩ := h x hxF sd hm
      have hyw := hb y hyF
      refine ⟨by rw [Nat.fib_add_two]; omega, ?_⟩
      rintro v (_ | ⟨_, hv⟩)
      · show Nat.fib (sd.2 + 1) ≤ _; omega
      · exact hw.trans (hx v hv)
    · obtain ⟨hw, hb⟩ := h y hyF sd hm
      have hxw := hb x hxF
      refine ⟨by rw [Nat.fib_add_two]; omega, ?_⟩
      rintro v (_ | ⟨_, hv⟩)
      · show Nat.fib (sd.2 + 1) ≤ _; omega
      · exact hw.trans (hy v hv)
  · obtain ⟨hw, hb⟩ := h u (hrF u hu) sd hsd
    refine ⟨hw, ?_⟩
    rintro v (_ | ⟨_, hv⟩)
    · have := hb x hxF; omega
    · exact hb v (hrF v hv)

/-- No depth of the construction is greater than the weight of all nodes together allows. -/
theorem HuffmanMerges.fib_le_weight {i : Nat} {F : List Node} {d : List (Nat × Nat)}
    (h : HuffmanMerges i F d) (hF : FibonacciWeights F) :
    ∀ sd ∈ d, Nat.fib (sd.2 + 1) ≤ (F.map Node.weight).sum := by
  induction h with
  | root i z =>
    intro sd hsd
    simpa using (hF z List.mem_cons_self sd hsd).1
  | merge i x y z F rest d nodes least next key leaves after ih =>
    have weight : z.weight = x.weight + y.weight := (List.cons.inj key).1
    intro sd hsd
    have hz := ih (hF.merge nodes (fun v hv => Node.weight_le_of_key_lt (least.2 v hv))
      (fun v hv => Node.weight_le_of_key_lt (next v hv)) weight leaves) sd hsd
    rw [(nodes.map Node.weight).sum_eq]
    simp only [List.map_cons, List.sum_cons] at hz ⊢
    omega

/-- From two nodes on, every leaf of the construction is below a merged node. -/
theorem HuffmanMerges.depth_pos {i : Nat} {F : List Node} {d : List (Nat × Nat)} (h : HuffmanMerges i F d)
    (hF : 2 ≤ F.length ∨ ∀ z ∈ F, ∀ sd ∈ z.leaves, 0 < sd.2) : ∀ sd ∈ d, 0 < sd.2 := by
  induction h with
  | root i z => exact hF.resolve_left (by simp) z List.mem_cons_self
  | merge i x y z F rest d nodes least next key leaves after ih =>
    refine ih ?_
    rcases rest with _ | ⟨v, rest⟩
    · refine .inr fun u hu sd hsd => ?_
      rw [List.mem_singleton.mp hu, leaves] at hsd
      obtain ⟨_, -, rfl⟩ := List.mem_map.mp hsd
      exact Nat.succ_pos _
    · exact .inl (by simp)

/-- The Kraft sum of a list of depths, as a fraction. -/
def depthKraft (d : List (Nat × Nat)) : ℚ := (d.map fun sd => (1 / 2 : ℚ) ^ sd.2).sum

/-- The construction keeps the Kraft sum of every tree at 1. -/
theorem HuffmanMerges.depthKraft_eq_one {i : Nat} {F : List Node} {d : List (Nat × Nat)}
    (h : HuffmanMerges i F d) (hF : ∀ z ∈ F, depthKraft z.leaves = 1) : depthKraft d = 1 := by
  induction h with
  | root i z => exact hF z List.mem_cons_self
  | merge i x y z F rest d nodes least next key leaves after ih =>
    have hmem : ∀ v ∈ x :: y :: rest, depthKraft v.leaves = 1 := fun v hv => hF v (nodes.mem_iff.mpr hv)
    obtain ⟨hx, hy, hr⟩ : depthKraft x.leaves = 1 ∧ depthKraft y.leaves = 1
        ∧ ∀ v ∈ rest, depthKraft v.leaves = 1 := by simpa using hmem
    have deeper : depthKraft z.leaves = (depthKraft x.leaves + depthKraft y.leaves) * (1 / 2) := by
      simp only [depthKraft, leaves, List.map_map, List.map_append, List.sum_append, Function.comp_def, pow_succ,
        List.sum_map_mul_right, add_mul]
    refine ih (List.forall_mem_cons.mpr ⟨?_, hr⟩)
    rw [deeper, hx, hy]
    norm_num

/-! ### The rescaling ends by its test -/

theorem weightAfter_le {c m : Nat} {k : Nat} (h : c ≤ m * 2 ^ k) : weightAfter c k ≤ m := by
  induction k generalizing m with
  | zero => simpa [weightAfter] using h
  | succ k ih =>
    have := ih (m := 2 * m) (by rw [Nat.pow_succ] at h; linarith)
    rw [weightAfter]; omega

theorem weightAfter_pos {c : Nat} (h : 0 < c) (k : Nat) : 0 < weightAfter c k := by
  induction k with
  | zero => exact h
  | succ k ih => rw [weightAfter]; omega

/-- After 32 rescalings every count weighs 1 (40_canonical_code_builder R86). -/
theorem weightAfter_32 {c : Nat} (h0 : 0 < c) (h : c < 2 ^ 32) : weightAfter c 32 = 1 :=
  Nat.le_antisymm (weightAfter_le (by omega)) (weightAfter_pos h0 32)

/-- A set of leaves of positive weight meets the Fibonacci bound. -/
theorem fibonacciWeights_leaves {u : List (Nat × Nat)} (h : ∀ sw ∈ u, 0 < sw.2) :
    FibonacciWeights (u.map leafNode) := by
  intro z hz sd hsd
  obtain ⟨sw, hm, rfl⟩ := List.mem_map.mp hz
  rw [List.mem_singleton.mp hsd]
  exact ⟨h sw hm, fun v _ => Nat.zero_le _⟩

/-- With every weight 1, up to 384 symbols have no depth over 16 (40_canonical_code_builder R86). -/
theorem huffDepths_le_of_unit_weights {u : List (Nat × Nat)} (hne : u ≠ []) (hd : (u.map Prod.fst).Nodup)
    (h1 : ∀ sw ∈ u, sw.2 = 1) (hlen : u.length ≤ 384) : ∀ sd ∈ huffDepths u, sd.2 ≤ 16 := by
  intro sd hsd
  have hfib := (huffDepths_merges hne hd).fib_le_weight
    (fibonacciWeights_leaves fun sw hm => by rw [h1 sw hm]; exact Nat.one_pos) sd hsd
  have hsum : ((u.map leafNode).map Node.weight).sum = u.length := by
    rw [List.map_map, show u.map (Node.weight ∘ leafNode) = u.map fun _ => 1 from List.map_congr_left h1]
    simp
  by_contra hgt
  have hmono : Nat.fib 17 ≤ Nat.fib (sd.2 + 1) := Nat.fib_mono (by omega)
  rw [show Nat.fib 17 = 1597 by decide] at hmono
  omega

/-- The used symbols of a histogram are symbols of its alphabet with a count of 32 bits. -/
theorem usedFrom_bounds {cs : List (BitVec 32)} {sw : Nat × Nat} (h : sw ∈ usedFrom 0 cs) :
    sw.1 < cs.length ∧ 0 < sw.2 ∧ sw.2 < 2 ^ 32 := by
  obtain ⟨y, w⟩ := sw
  obtain ⟨c, -, hc, h0, rfl⟩ := mem_usedFrom.mp h
  exact ⟨(List.getElem?_eq_some_iff.mp hc).1, Nat.pos_of_ne_zero (toNat_ne_zero_of_ne h0), c.isLt⟩

/-- What the loop of R85 answers for two used symbols and more: the construction's depths after some number
of rescalings, none over 16 (40_canonical_code_builder R85, R86). -/
theorem limitLoop_depths {cs : List (BitVec 32)} (hlen : cs.length ≤ 384) (h2 : 2 ≤ (usedFrom 0 cs).length) :
    ∃ r ≤ 32, limitLoop 32 0 (usedFrom 0 cs) = (huffDepths (rescaled (usedFrom 0 cs) r), r)
      ∧ ∀ sd ∈ huffDepths (rescaled (usedFrom 0 cs) r), sd.2 ≤ 16 := by
  obtain ⟨d, r, hdr⟩ : ∃ d r, limitLoop 32 0 (usedFrom 0 cs) = (d, r) := ⟨_, _, rfl⟩
  have hloop : limitLoop 32 0 (rescaled (usedFrom 0 cs) 0) = (d, r) := by rw [rescaled_zero, hdr]
  obtain ⟨rfl, -, hr, -, hfit⟩ := limitLoop_eq hloop
  refine ⟨r, by omega, hdr, ?_⟩
  by_cases hlt : r < 0 + 32
  · exact hfit hlt
  · obtain rfl : r = 32 := by omega
    have hused : (usedFrom 0 cs).length ≤ 384 := by
      rw [length_usedFrom]; exact List.countP_le_length.trans hlen
    refine huffDepths_le_of_unit_weights ?_ ?_ ?_ (by simpa [rescaled] using hused)
    · intro e; rw [rescaled, List.map_eq_nil_iff] at e; simp [e] at h2
    · rw [rescaled_fst]; exact nodup_usedFrom 0 cs
    · intro sw hsw
      obtain ⟨sw, hm, rfl⟩ := List.mem_map.mp hsw
      obtain ⟨-, hpos, hlt⟩ := usedFrom_bounds hm
      exact weightAfter_32 hpos hlt

/-! ### The lengths built -/

/-- What a depth table has to be for its lengths to be a code of `n` symbols. -/
structure DepthTable (n : Nat) (d : List (Nat × Nat)) : Prop where
  nodup : (d.map Prod.fst).Nodup
  inAlphabet : ∀ sd ∈ d, sd.1 < n
  range : ∀ sd ∈ d, 0 < sd.2 ∧ sd.2 ≤ 16

/-- The depths of the used symbols, in every case of R83 (40_canonical_code_builder R83 to R86): none, one of
length 1, or a complete code. -/
theorem lengthsOfUsed_depthTable {cs : List (BitVec 32)} (hlen : cs.length ≤ 384) :
    ∃ d, (lengthsOfUsed (usedFrom 0 cs)).1 = d ∧ DepthTable cs.length d
      ∧ (d = [] ∨ (∃ y, d = [(y, 1)]) ∨ depthKraft d = 1) := by
  have hnd := nodup_usedFrom 0 cs
  have hb : ∀ sw ∈ usedFrom 0 cs, sw.1 < cs.length := fun sw h => (usedFrom_bounds h).1
  refine ⟨_, rfl, ?_⟩
  match hu : usedFrom 0 cs with
  | [] => exact ⟨⟨.nil, by simp [lengthsOfUsed], by simp [lengthsOfUsed]⟩, .inl rfl⟩
  | [sw] =>
    rw [hu] at hb
    exact ⟨⟨by simp [lengthsOfUsed], by simpa [lengthsOfUsed] using hb, by simp [lengthsOfUsed]⟩,
      .inr (.inl ⟨sw.1, rfl⟩)⟩
  | a :: b :: u =>
    have h2 : 2 ≤ (usedFrom 0 cs).length := by rw [hu]; simp
    obtain ⟨r, -, hloop, hle⟩ := limitLoop_depths hlen h2
    rw [← hu, lengthsOfUsed_of_two_le h2, hloop]
    have hne : rescaled (usedFrom 0 cs) r ≠ [] := by
      rw [hu]; simp [rescaled]
    have hnd' : ((rescaled (usedFrom 0 cs) r).map Prod.fst).Nodup := by rwa [rescaled_fst]
    have hperm := huffDepths_symbols hne hnd'
    have hmerges := huffDepths_merges hne hnd'
    refine ⟨⟨hperm.nodup_iff.mpr hnd', fun sd hsd => ?_, fun sd hsd => ⟨?_, hle sd hsd⟩⟩, .inr (.inr ?_)⟩
    · have := hperm.mem_iff.mp (List.mem_map_of_mem hsd)
      rw [rescaled_fst] at this
      obtain ⟨sw, hm, he⟩ := List.mem_map.mp this
      exact he ▸ hb sw hm
    · exact hmerges.depth_pos (.inl (by simpa [rescaled] using h2)) sd hsd
    · refine hmerges.depthKraft_eq_one fun z hz => ?_
      obtain ⟨sw, -, rfl⟩ := List.mem_map.mp hz
      simp [depthKraft, leafNode]

/-- The lengths that a table of depths gives the symbols of an alphabet (40_canonical_code_builder R85). -/
def lengthsOfDepths (n : Nat) (d : List (Nat × Nat)) : Vector (BitVec 5) n :=
  Vector.ofFn fun y => BitVec.ofNat 5 (depthOf d y.val)

theorem buildLengths_eq {n : Nat} (hist : Vector (BitVec 32) n) :
    (buildLengths hist).1 = lengthsOfDepths n (lengthsOfUsed (usedFrom 0 hist.toList)).1 := rfl

/-- A sum over the lengths of all symbols is a sum over the depths listed, if unused symbols add nothing. -/
theorem DepthTable.sum_lengths {n : Nat} {d : List (Nat × Nat)} (h : DepthTable n d) {f : BitVec 5 → Nat}
    (f0 : f 0 = 0) :
    ((lengthsOfDepths n d).toList.map f).sum = (d.map fun sd => f (BitVec.ofNat 5 sd.2)).sum := by
  have entry : ∀ z ∈ Finset.range n, (lengthsOfDepths n d).toList[z]?.getD 0 = BitVec.ofNat 5 (depthOf d z) :=
    fun z hz => by simp [lengthsOfDepths, Finset.mem_range.mp hz]
  have sub : (d.map Prod.fst).toFinset ⊆ Finset.range n := fun z hz => by
    obtain ⟨sd, hm, rfl⟩ := List.mem_map.mp (List.mem_toFinset.mp hz)
    exact Finset.mem_range.mpr (h.inAlphabet sd hm)
  calc ((lengthsOfDepths n d).toList.map f).sum
      = ∑ z ∈ Finset.range n, f (BitVec.ofNat 5 (depthOf d z)) := by
        rw [sum_map_eq_sum_range 0, Vector.length_toList]
        exact Finset.sum_congr rfl fun z hz => by rw [entry z hz]
    _ = ∑ z ∈ (d.map Prod.fst).toFinset, f (BitVec.ofNat 5 (depthOf d z)) :=
        (Finset.sum_subset sub fun z _ hz => by
          rw [depthOf_eq_zero fun e => hz (List.mem_toFinset.mpr e)]; exact f0).symm
    _ = (d.map fun sd => f (BitVec.ofNat 5 sd.2)).sum := by
        rw [List.sum_toFinset _ h.nodup, List.map_map]
        exact congrArg List.sum (List.map_congr_left fun sd hm => by
          rw [Function.comp_apply, depthOf_eq h.nodup hm])

/-- No length is over 16. -/
theorem DepthTable.le_16 {n : Nat} {d : List (Nat × Nat)} (h : DepthTable n d) :
    ∀ l ∈ (lengthsOfDepths n d).toList, l.toNat ≤ 16 := by
  intro l hl
  obtain ⟨y, rfl⟩ : ∃ y : Fin n, BitVec.ofNat 5 (depthOf d y.val) = l := by
    simpa [lengthsOfDepths] using hl
  refine (Nat.mod_le _ _).trans ?_
  by_cases hy : y.val ∈ d.map Prod.fst
  · obtain ⟨sd, hm, he⟩ := List.mem_map.mp hy
    rw [← he, depthOf_eq h.nodup hm]
    exact (h.range sd hm).2
  · rw [depthOf_eq_zero hy]; exact Nat.zero_le _

/-- The Kraft sum of the lengths is that of the depths. -/
theorem DepthTable.kraftSum_eq {n : Nat} {d : List (Nat × Nat)} (h : DepthTable n d) :
    (kraftSum (lengthsOfDepths n d).toList : ℚ) = 65536 * depthKraft d := by
  rw [kraftSum_eq_map, h.sum_lengths (f := lengthShare) rfl, Nat.cast_list_sum, depthKraft, List.map_map,
    ← List.sum_map_mul_left]
  refine congrArg List.sum (List.map_congr_left fun sd hm => ?_)
  obtain ⟨hpos, hle⟩ := h.range sd hm
  have hval : (BitVec.ofNat 5 sd.2).toNat = sd.2 := Nat.mod_eq_of_lt (by omega)
  have hne : BitVec.ofNat 5 sd.2 ≠ 0 := fun e => by
    rw [e] at hval; exact absurd hval.symm (Nat.pos_iff_ne_zero.mp hpos)
  rw [Function.comp_apply, lengthShare, if_neg hne, hval, one_div, inv_pow, Nat.cast_pow, Nat.cast_ofNat,
    pow_sub₀ _ two_ne_zero hle]
  norm_num

/-- The used symbols are those with a depth. -/
theorem DepthTable.usedLengths_eq {n : Nat} {d : List (Nat × Nat)} (h : DepthTable n d) :
    usedLengths (lengthsOfDepths n d).toList = d.length := by
  have hcount : ∀ ls : List (BitVec 5), usedLengths ls = (ls.map fun l => if l = 0 then 0 else 1).sum := by
    intro ls
    induction ls with
    | nil => rfl
    | cons l ls ih =>
      rw [List.map_cons, List.sum_cons, ← ih, usedLengths, List.countP_cons, ← usedLengths, Nat.add_comm]
      by_cases hl : l = 0 <;> simp [hl]
  rw [hcount, h.sum_lengths (f := fun l => if l = 0 then 0 else 1) rfl,
    List.map_congr_left (g := fun _ => 1) fun sd hm => ?_]
  · simp
  · obtain ⟨hpos, hle⟩ := h.range sd hm
    refine if_neg fun e => ?_
    have hzero : sd.2 % 2 ^ 5 = 0 := congrArg BitVec.toNat e
    omega

/-- The lengths built from the counts of up to 384 symbols are acceptable (40_canonical_code_builder R83 to R86,
10_state R33). -/
theorem buildLengths_good {n : Nat} (hist : Vector (BitVec 32) n) (hn : n ≤ 384) :
    GoodLengths (buildLengths hist).1.toList := by
  obtain ⟨d, hd, htab, hcase⟩ := lengthsOfUsed_depthTable (cs := hist.toList) (by simpa using hn)
  rw [Vector.length_toList] at htab
  rw [buildLengths_eq, hd]
  refine ⟨htab.le_16, ?_⟩
  rcases hcase with rfl | ⟨y, rfl⟩ | hk
  · exact .inr (.inl htab.usedLengths_eq)
  · refine .inr (.inr ⟨htab.usedLengths_eq, ?_⟩)
    have hy : y < n := htab.inAlphabet _ List.mem_cons_self
    simp only [lengthsOfDepths, Vector.toList_ofFn, List.mem_ofFn]
    exact ⟨⟨y, hy⟩, by simp [depthOf]⟩
  · refine .inl ?_
    have := htab.kraftSum_eq
    rw [hk, mul_one] at this
    exact_mod_cast this

end Sys2Proof.Machine
end

section
/-! SUPPORT. What a command can do: to each table, to the channels and to the entropy path. Every command but
`SOFT_RESET` that completes has a `CommandEffect`; the invariants of 10_state are read off from it. -/

namespace Sys2Proof.Machine

open Sys2Proof Host

/-! ### What can happen to a table -/

/-- One thing that a command does to a table (40_canonical_code_builder R80, R81, R88, 41_table_serdes R103). -/
inductive TableStep {n : Nat} : TableMem n → TableMem n → Prop
  | clear (m : TableMem n) : TableStep m (TableMem.cleared n)
  | count {m : TableMem n} {sym : Nat} (inAlphabet : sym < n) (collecting : m.tstate = .collect) :
      TableStep m (m.addOne sym)
  | build {m : TableMem n} (collecting : m.tstate = .collect) :
      TableStep m (m.withLengths (buildLengths m.hist).1)
  | read (m : TableMem n) {L : Vector (BitVec 5) n} (good : GoodLengths L.toList) :
      TableStep m (m.withLengths L)

/-- What a command does to a table, one thing after another. -/
abbrev TableSteps {n : Nat} : TableMem n → TableMem n → Prop := Relation.ReflTransGen TableStep

/-- What every `TableStep` keeps, a command keeps. -/
theorem TableSteps.keep {n : Nat} {P : TableMem n → Prop} (hP : ∀ m m', TableStep m m' → P m → P m')
    {m m' : TableMem n} (h : TableSteps m m') (hm : P m) : P m' := by
  induction h with
  | refl => exact hm
  | tail _ hstep ih => exact hP _ _ hstep ih

theorem TableMem.cleared_maxOk (n : Nat) : (TableMem.cleared n).MaxOk :=
  ⟨fun y => by rw [TableMem.count_cleared]; exact Nat.zero_le _, .inl rfl⟩

theorem TableMem.cleared_noCodeYet (n : Nat) : (TableMem.cleared n).NoCodeYet :=
  fun _ y => ⟨TableMem.lenAt_cleared n y, TableMem.codeAt_cleared n y⟩

/-- Counting one occurrence moves the maximum with the counts (10_state R20). -/
theorem TableMem.MaxOk.addOne {n : Nat} {m : TableMem n} (h : m.MaxOk) {sym : Nat} (hs : sym < n) :
    (m.addOne sym).MaxOk := by
  obtain ⟨hle, hmax⟩ := h
  have hnew : (m.addOne sym).hmax = maxCount m.hmax (satIncr (m.count sym)) := rfl
  have hval := toNat_maxCount m.hmax (satIncr (m.count sym))
  refine ⟨fun y => ?_, ?_⟩
  · rw [m.count_addOne hs, hnew, hval]
    split
    · exact le_max_right _ _
    · exact (hle y).trans (le_max_left _ _)
  · by_cases hlt : m.hmax.toNat < (satIncr (m.count sym)).toNat
    · exact .inr ⟨sym, hs, by rw [m.count_addOne hs, if_pos rfl, hnew, maxCount, if_pos hlt]⟩
    · rw [hnew, maxCount, if_neg hlt]
      refine hmax.imp id fun ⟨y, hy, he⟩ => ⟨y, hy, ?_⟩
      rw [m.count_addOne hs]
      split
      · next hys =>
        have hinc := toNat_satIncr (m.count sym)
        have hcount := (m.count sym).isLt
        subst hys
        rw [he] at hinc hlt hcount ⊢
        exact BitVec.eq_of_toNat_eq (by omega)
      · exact he

/-- A table step keeps the maximum and the absence of a code (10_state R20, 40_canonical_code_builder R91). -/
theorem TableStep.keeps_histogram {n : Nat} {m m' : TableMem n} (h : TableStep m m')
    (hm : m.MaxOk ∧ m.NoCodeYet) : m'.MaxOk ∧ m'.NoCodeYet := by
  obtain ⟨hmax, hnone⟩ := hm
  cases h with
  | clear => exact ⟨TableMem.cleared_maxOk n, TableMem.cleared_noCodeYet n⟩
  | count hs hc => exact ⟨hmax.addOne hs, hnone⟩
  | build hc => exact ⟨hmax, fun hcollect => by cases hcollect⟩
  | read hg => exact ⟨hmax, fun hcollect => by cases hcollect⟩

/-- A table that a table step on at most 384 symbols leaves valid is canonical (10_state R33). -/
theorem TableStep.canonical {n : Nat} (hn : n ≤ 384) {m m' : TableMem n} (h : TableStep m m') :
    m'.tstate = .valid → m'.Canonical := by
  cases h with
  | clear => exact fun hv => by cases hv
  | count hs hc => exact fun hv => by rw [TableMem.addOne_tstate, hc] at hv; cases hv
  | build hc => exact fun _ => withLengths_canonical m (buildLengths_good m.hist hn)
  | read hg => exact fun _ => withLengths_canonical m hg

/-- Counting a list of symbols. -/
theorem TableSteps.countAll {n : Nat} {syms : List Nat} {m : TableMem n} (hs : ∀ y ∈ syms, y < n)
    (hc : syms = [] ∨ m.tstate = .collect) : TableSteps m (syms.foldl TableMem.addOne m) := by
  induction syms generalizing m with
  | nil => exact .refl
  | cons y ys ih =>
    obtain ⟨hy, hys⟩ := List.forall_mem_cons.mp hs
    have hc : m.tstate = .collect := hc.resolve_left (List.cons_ne_nil y ys)
    exact .head (.count hy hc) (ih hys (.inr hc))

/-! ### What can happen to the rest -/

/-- The registers of the entropy path (10_state R23 to R29). -/
structure EntropyRegs where
  ctxEn : Bool
  ctxAz : Bool
  ecPhase : EcPhase
  runCnt : BitVec 32
  rl : List (BitVec 32)
  encRem : BitVec 32
  encLastz : Bool
  zpend : BitVec 7
  eos : Bool

/-- The entropy path of a state. -/
def State.entropyRegs (s : State) : EntropyRegs where
  ctxEn := s.ctxEn
  ctxAz := s.ctxAz
  ecPhase := s.ecPhase
  runCnt := s.runCnt
  rl := s.rl
  encRem := s.encRem
  encLastz := s.encLastz
  zpend := s.zpend
  eos := s.eos

/-- What only the host writes, and the model's own fields (10_state R11; log entries 4 to 6). -/
def State.hostSide (s : State) : Word × Word × List HostAction × Word × Nat :=
  (s.arg0, s.arg1, s.pending, s.rdata, s.freeCtr)

/-- The channels and the counts of their bits (10_state R18, 20_memory R41). -/
def State.traffic (s : State) : List Bool × Word × List Bool × Word :=
  (s.chanOut, s.bitsOut, s.chanIn, s.bitsIn)

/-- The five tables (10_state R20 to R22). -/
def State.tables (s : State) : TableMem 384 × TableMem 256 × TableMem 256 × TableMem 256 × TableMem 256 :=
  (s.tabBz, s.tabAz, s.tabLen, s.tabSd, s.tabLd)

theorem State.tab_eq_of_tables_eq {s s' : State} (h : s'.tables = s.tables) (t : Tab) : s'.tab t = s.tab t := by
  obtain ⟨hbz, haz, hlen, hsd, hld⟩ : s'.tabBz = s.tabBz ∧ s'.tabAz = s.tabAz ∧ s'.tabLen = s.tabLen
      ∧ s'.tabSd = s.tabSd ∧ s'.tabLd = s.tabLd := by simpa [State.tables] using h
  exact State.tab_eq_of_tables hbz haz hlen hsd hld t

/-- From `s` to `s'` bits were appended to OUT and removed from the head of IN, and counted; each table went
through table steps; the host's side is as it was (10_state R11, R18, 20_memory R41). -/
structure Moves (s s' : State) : Prop where
  wrote : ∃ w, s'.chanOut = s.chanOut ++ w ∧ s'.bitsOut = s.bitsOut + BitVec.ofNat 32 w.length
  took : ∃ r, s.chanIn = r ++ s'.chanIn ∧ s'.bitsIn = s.bitsIn + BitVec.ofNat 32 r.length
  tables : ∀ t, TableSteps (s.tab t) (s'.tab t)
  host : s'.hostSide = s.hostSide

/-- As `Moves`, with the entropy path as it was. -/
structure Quiet (s s' : State) : Prop extends Moves s s' where
  entropy : s'.entropyRegs = s.entropyRegs

/-- What a command does that completes: it moves bits and tables, and keeps the entropy path consistent with its
phase. -/
structure CommandEffect (s s' : State) : Prop extends Moves s s' where
  entropyOk : EntropyPathOk s → EntropyPathOk s'

theorem Moves.of_same {s s' : State} (ht : s'.traffic = s.traffic) (hm : s'.tables = s.tables)
    (hh : s'.hostSide = s.hostSide) : Moves s s' := by
  obtain ⟨hco, hbo, hci, hbi⟩ : s'.chanOut = s.chanOut ∧ s'.bitsOut = s.bitsOut ∧ s'.chanIn = s.chanIn
      ∧ s'.bitsIn = s.bitsIn := by simpa [State.traffic] using ht
  exact ⟨⟨[], by simp [hco], by simp [hbo]⟩, ⟨[], by simp [hci], by simp [hbi]⟩,
    fun t => by rw [State.tab_eq_of_tables_eq hm t], hh⟩

theorem Moves.trans {s s1 s2 : State} (h : Moves s s1) (h' : Moves s1 s2) : Moves s s2 := by
  obtain ⟨w, hw, hwn⟩ := h.wrote
  obtain ⟨w', hw', hwn'⟩ := h'.wrote
  obtain ⟨r, hr, hrn⟩ := h.took
  obtain ⟨r', hr', hrn'⟩ := h'.took
  refine ⟨⟨w ++ w', by rw [hw', hw, List.append_assoc], ?_⟩,
    ⟨r ++ r', by rw [hr, hr', List.append_assoc], ?_⟩, fun t => (h.tables t).trans (h'.tables t), h'.host.trans h.host⟩
  · rw [hwn', hwn, List.length_append, BitVec.ofNat_add, BitVec.add_assoc]
  · rw [hrn', hrn, List.length_append, BitVec.ofNat_add, BitVec.add_assoc]

theorem Quiet.of_same {s s' : State} (ht : s'.traffic = s.traffic) (hm : s'.tables = s.tables)
    (hh : s'.hostSide = s.hostSide) (he : s'.entropyRegs = s.entropyRegs) : Quiet s s' :=
  ⟨.of_same ht hm hh, he⟩

theorem Quiet.refl (s : State) : Quiet s s := .of_same rfl rfl rfl rfl

theorem Quiet.trans {s s1 s2 : State} (h : Quiet s s1) (h' : Quiet s1 s2) : Quiet s s2 :=
  ⟨h.toMoves.trans h'.toMoves, h'.entropy.trans h.entropy⟩

/-- The entropy path's consistency is a matter of its registers alone. -/
theorem EntropyPathOk.of_regs {s s' : State} (h : EntropyPathOk s) (he : s'.entropyRegs = s.entropyRegs) :
    EntropyPathOk s' := by
  simp only [State.entropyRegs, EntropyRegs.mk.injEq] at he
  obtain ⟨hen, haz, hph, hrun, hrl, hrem, -, hz, heos⟩ := he
  refine ⟨?_, ?_, ?_, ?_, ?_, ?_, ?_, ?_⟩
  · rw [hen, haz]; exact h.context
  · rw [hrl]; exact h.runsFit
  · rw [hrl]; exact h.runsPositive
  · rw [hrun, hph]; exact h.openRun
  · rw [hrl, hph]; exact h.runsLive
  · rw [hrem, hph]; exact h.replaying
  · rw [hz, hph]; exact h.owing
  · rw [heos, hph]; exact h.ended

theorem Quiet.commandEffect {s s' : State} (h : Quiet s s') : CommandEffect s s' :=
  ⟨h.toMoves, fun ho => ho.of_regs h.entropy⟩

/-! ### The shared operations -/

/-- Bits written and counted. -/
theorem Quiet.append (s : State) (w : List Bool) :
    Quiet s { s with chanOut := s.chanOut ++ w, bitsOut := s.bitsOut + BitVec.ofNat 32 w.length } :=
  ⟨⟨⟨w, rfl, rfl⟩, ⟨[], rfl, by simp⟩, fun t => by cases t <;> exact .refl, rfl⟩, rfl⟩

/-- Bits read and counted. -/
theorem Quiet.take {s : State} {r rest : List Bool} (h : s.chanIn = r ++ rest) :
    Quiet s { s with chanIn := rest, bitsIn := s.bitsIn + BitVec.ofNat 32 r.length } :=
  ⟨⟨⟨[], by simp, by simp⟩, ⟨r, h, rfl⟩, fun t => by cases t <;> exact .refl, rfl⟩, rfl⟩

/-- One table changed. -/
theorem Quiet.setTab {s : State} {t : Tab} {m : TableMem (nsym t)} (h : TableSteps (s.tab t) m) :
    Quiet s (s.setTab t m) := by
  refine ⟨⟨⟨[], by simp, by simp⟩, ⟨[], by simp, by simp⟩, fun u => ?_, by simp [State.hostSide]⟩,
    by simp [State.entropyRegs]⟩
  by_cases hu : u = t
  · subst hu; rwa [State.tab_setTab]
  · rw [State.tab_setTab_ne s m hu]

theorem histClear_quiet (t : Tab) (s : State) : Quiet s (histClear t s) :=
  .setTab (.single (.clear _))

theorem addSymbol_quiet {t : Tab} {sym : Nat} {s s' : State} (hs : sym < nsym t)
    (h : addSymbol t sym s = .ok s') : Quiet s s' := by
  obtain ⟨hc, rfl⟩ := addSymbol_eq_ok.mp h
  exact .setTab (.single (.count hs hc))

theorem buildTable_quiet {t : Tab} {r : BuildResult} {s s' : State} (h : buildTable t s = .ok (r, s')) :
    Quiet s s' := by
  obtain ⟨hc, -, rfl⟩ := buildTable_eq_ok.mp h
  exact .setTab (.single (.build hc))

theorem writeTable_quiet {t : Tab} {k : Nat} {s s' : State} (h : writeTable t s = .ok (k, s')) :
    Quiet s s' := by
  obtain ⟨-, -, rfl⟩ := writeTable_eq_ok.mp h
  simpa using Quiet.append s (lengthBits (s.tab t).len.toList)

theorem readTable_quiet {t : Tab} {k : Nat} {s s' : State} (h : readTable t s = .ok (k, s')) :
    Quiet s s' := by
  obtain ⟨L, rest, h16, hck, hc, -, rfl⟩ := readTable_eq_ok.mp h
  have hread : TableSteps (s.tab t) ((s.tab t).withLengths L) :=
    .single (.read _ (goodLengths_of_checkLengths h16 hck))
  have htake := (Quiet.setTab hread).trans (.take (r := lengthBits L.toList) (rest := rest) (by simpa using hc))
  simpa using htake

theorem encSym_quiet {t : Tab} {sym k : Nat} {s s' : State} (h : encSym t sym s = .ok (k, s')) :
    Quiet s s' := by
  obtain ⟨-, -, -, rfl⟩ := encSym_eq_ok.mp h
  have happend := Quiet.append s ((s.tab t).codeBits sym)
  rwa [TableMem.length_codeBits, BitVec.ofNat_toNat] at happend

theorem readBits_quiet {n v : Nat} {s s' : State} (h : readBits n s = .ok (v, s')) : Quiet s s' := by
  obtain ⟨bs, rfl, hc, -, hs'⟩ := readBits_eq_ok.mp h
  rw [hs']
  exact .take hc

theorem decSym_quiet {t : Tab} {r : Decoded} {s s' : State} (h : decSym t s = .ok (r, s')) : Quiet s s' := by
  obtain ⟨-, bs, -, -, hc, -, -, -, hs'⟩ := decSym_eq_ok.mp h
  rw [hs']
  exact .take hc

theorem pushIf_quiet (push : Bool) (d : Nat) (s : State) : Quiet s (pushIf push d s) := by
  rw [pushIf_eq]
  exact .of_same rfl rfl rfl rfl

theorem setRes0_quiet (s : State) (v : Nat) : Quiet s (s.setRes0 v) := .of_same rfl rfl rfl rfl

theorem setRes1_quiet (s : State) (v : Nat) : Quiet s (s.setRes1 v) := .of_same rfl rfl rfl rfl

/-! ### System and table commands -/

theorem symOperand_lt {t : Tab} {s : State} {sym : Nat} (h : symOperand t s = .ok sym) : sym < nsym t := by
  rw [symOperand_eq] at h
  split at h
  · next hlt => obtain rfl := Except.ok.inj h; exact hlt
  · cases h

theorem execNop_quiet {s s' : State} (h : execNop s = .next s') (he : s'.err = false) : Quiet s s' := by
  obtain rfl := Except.ok.inj (runCommand_completed h he)
  exact .refl s

theorem execHistClear_quiet {t : BitVec 3} {s s' : State} (h : execHistClear t s = .next s')
    (he : s'.err = false) : Quiet s s' := by
  obtain ⟨tab, -, hb⟩ := bind_eq_ok.mp (runCommand_completed h he)
  obtain rfl := Except.ok.inj hb
  exact histClear_quiet tab s

theorem execAddSymbol_quiet {t : BitVec 3} {s s' : State} (h : execAddSymbol t s = .next s')
    (he : s'.err = false) : Quiet s s' := by
  have hb := runCommand_completed h he
  simp only [bind_eq_ok] at hb
  obtain ⟨tab, -, sym, hsym, hadd⟩ := hb
  exact addSymbol_quiet (symOperand_lt hsym) hadd

theorem execBuildTable_quiet {t : BitVec 3} {s s' : State} (h : execBuildTable t s = .next s')
    (he : s'.err = false) : Quiet s s' := by
  have hb := runCommand_completed h he
  simp only [bind_eq_ok, Prod.exists, pure_eq_ok, Except.ok.injEq] at hb
  obtain ⟨tab, -, r, s1, hbuild, rfl⟩ := hb
  exact ((buildTable_quiet hbuild).trans (setRes0_quiet _ _)).trans (setRes1_quiet _ _)

theorem execWriteTable_quiet {t : BitVec 3} {s s' : State} (h : execWriteTable t s = .next s')
    (he : s'.err = false) : Quiet s s' := by
  have hb := runCommand_completed h he
  simp only [bind_eq_ok, Prod.exists, pure_eq_ok, Except.ok.injEq] at hb
  obtain ⟨tab, -, k, s1, hwrite, rfl⟩ := hb
  exact (writeTable_quiet hwrite).trans (setRes0_quiet _ _)

theorem execReadTable_quiet {t : BitVec 3} {s s' : State} (h : execReadTable t s = .next s')
    (he : s'.err = false) : Quiet s s' := by
  have hb := runCommand_completed h he
  simp only [bind_eq_ok, Prod.exists, pure_eq_ok, Except.ok.injEq] at hb
  obtain ⟨tab, -, k, s1, hread, rfl⟩ := hb
  exact (readTable_quiet hread).trans (setRes0_quiet _ _)

theorem execEncSym_quiet {t : BitVec 3} {s s' : State} (h : execEncSym t s = .next s')
    (he : s'.err = false) : Quiet s s' := by
  have hb := runCommand_completed h he
  simp only [bind_eq_ok, Prod.exists, pure_eq_ok, Except.ok.injEq] at hb
  obtain ⟨tab, -, sym, -, k, s1, henc, rfl⟩ := hb
  exact (encSym_quiet henc).trans (setRes0_quiet _ _)

theorem execDecSym_quiet {t : BitVec 3} {s s' : State} (h : execDecSym t s = .next s')
    (he : s'.err = false) : Quiet s s' := by
  have hb := runCommand_completed h he
  simp only [bind_eq_ok, Prod.exists, pure_eq_ok, Except.ok.injEq] at hb
  obtain ⟨tab, -, r, s1, hdec, rfl⟩ := hb
  exact ((decSym_quiet hdec).trans (setRes0_quiet _ _)).trans (setRes1_quiet _ _)

theorem execGetCount_quiet {t : BitVec 3} {s s' : State} (h : execGetCount t s = .next s')
    (he : s'.err = false) : Quiet s s' := by
  have hb := runCommand_completed h he
  simp only [bind_eq_ok, pure_eq_ok, Except.ok.injEq] at hb
  obtain ⟨tab, -, sym, -, rfl⟩ := hb
  exact setRes0_quiet _ _

theorem execGetLen_quiet {t : BitVec 3} {s s' : State} (h : execGetLen t s = .next s')
    (he : s'.err = false) : Quiet s s' := by
  have hb := runCommand_completed h he
  simp only [bind_eq_ok, pure_eq_ok, Except.ok.injEq] at hb
  obtain ⟨tab, -, sym, -, rfl⟩ := hb
  exact (setRes0_quiet _ _).trans (setRes1_quiet _ _)

theorem execGetMax_quiet {t : BitVec 3} {s s' : State} (h : execGetMax t s = .next s')
    (he : s'.err = false) : Quiet s s' := by
  have hb := runCommand_completed h he
  simp only [bind_eq_ok, pure_eq_ok, Except.ok.injEq] at hb
  obtain ⟨tab, -, rfl⟩ := hb
  exact (setRes0_quiet _ _).trans (setRes1_quiet _ _)

/-! ### LZ commands -/

/-- The operands of a match are in their ranges (30_encoding R61). -/
theorem matchOperands_range {s : State} {len d : Nat} (h : matchOperands s = .ok (len, d)) :
    2 ≤ len ∧ len ≤ 257 ∧ 1 ≤ d ∧ d ≤ 65535 := by
  rw [matchOperands_eq] at h
  split at h
  · next hr => obtain ⟨rfl, rfl⟩ := Prod.mk.inj (Except.ok.inj h); exact hr
  · cases h

/-- A distance coded as short is one (45_lz_codec R153). -/
theorem le_of_classify_short {len d : Nat} {s : State} (h : (classify len d s).kind = .short) : d ≤ 256 := by
  rcases classify_isClassOf len d s with ⟨i, -, -, -, hc⟩ | ⟨-, ⟨-, hc⟩ | ⟨-, -, hc⟩ | ⟨-, -, hc⟩⟩
  · rw [hc] at h; cases h
  · rw [hc] at h; cases h
  · rw [hc] at h; cases h
  · rcases hc with ⟨j, -, -, -, hc⟩ | ⟨-, hc⟩
    · rw [hc] at h; cases h
    · by_contra hd
      rw [hc, if_neg hd] at h
      split at h <;> cases h

/-- The symbols of a match are in their alphabets (45_lz_codec R155, R162). -/
theorem countMatch_quiet {c : MatchClass} {len d : Nat} {s s' : State} (hlen : len ≤ 257) (hd : d ≤ 65535)
    (hshort : c.kind = .short → d ≤ 256) (hpos : 1 ≤ d) (h : countMatch c len d s = .ok s') : Quiet s s' := by
  obtain ⟨clen, csd, cld, rfl⟩ := countMatch_eq_ok.mp h
  have hlenStep : TableSteps s.tabLen (if c.needLen then s.tabLen.addOne (len - 2) else s.tabLen) := by
    split
    · next hn => exact .single (.count (by omega) (clen hn))
    · exact .refl
  have hsdStep : TableSteps s.tabSd (if c.kind = .short then s.tabSd.addOne (d - 1) else s.tabSd) := by
    split
    · next hk => have := hshort hk; exact .single (.count (by omega) (csd hk))
    · exact .refl
  have hldStep : TableSteps s.tabLd (if c.kind = .long then s.tabLd.addOne (d / 256) else s.tabLd) := by
    split
    · next hk => exact .single (.count (by omega) (cld hk))
    · exact .refl
  exact ((Quiet.setTab (t := .len) hlenStep).trans (.setTab (t := .sd) hsdStep)).trans (.setTab (t := .ld) hldStep)

theorem emitLength_quiet {c : MatchClass} {len k : Nat} {s s' : State}
    (h : emitLength c len s = .ok (k, s')) : Quiet s s' := by
  obtain ⟨-, rfl, rfl⟩ := emitLength_eq_ok.mp h
  exact .append s _

theorem emitDistance_quiet {c : MatchClass} {d k : Nat} {s s' : State}
    (h : emitDistance c d s = .ok (k, s')) : Quiet s s' := by
  obtain ⟨-, -, rfl, rfl⟩ := emitDistance_eq_ok.mp h
  exact .append s _

theorem readLength_quiet {len : Nat} {s s' : State} (h : readLength s = .ok (len, s')) : Quiet s s' := by
  obtain ⟨r, hr, -⟩ := readLength_eq_ok.mp h
  exact decSym_quiet hr

theorem lzRestart_quiet (xsize ysize : Half) (s : State) : Quiet s (lzRestart xsize ysize s) :=
  .of_same rfl rfl rfl rfl

theorem lzPhase_quiet (s : State) (p : LzPhase) : Quiet s { s with lzPhase := p } := .of_same rfl rfl rfl rfl

theorem execLzInit_quiet {s s' : State} (h : execLzInit s = .next s') (he : s'.err = false) : Quiet s s' := by
  have hb := runCommand_completed h he
  simp only [bind_eq_ok, Prod.exists, pure_eq_ok, Except.ok.injEq] at hb
  obtain ⟨x, y, -, rfl⟩ := hb
  exact ((((lzRestart_quiet x y s).trans (histClear_quiet .len _)).trans (histClear_quiet .sd _)).trans
    (histClear_quiet .ld _)).trans (lzPhase_quiet _ _)

theorem execLzPush_quiet {s s' : State} (h : execLzPush s = .next s') (he : s'.err = false) : Quiet s s' := by
  have hb := runCommand_completed h he
  simp only [bind_eq_ok, Prod.exists, pure_eq_ok, Except.ok.injEq] at hb
  obtain ⟨len, d, hops, -, -, s1, hcount, rfl⟩ := hb
  obtain ⟨-, hlen, hpos, hd⟩ := matchOperands_range hops
  exact ((countMatch_quiet hlen hd le_of_classify_short hpos hcount).trans (pushIf_quiet _ _ _)).trans
    (setRes0_quiet _ _)

theorem execLzFinalize_quiet {s s' : State} (h : execLzFinalize s = .next s') (he : s'.err = false) :
    Quiet s s' := by
  have hb := runCommand_completed h he
  simp only [bind_eq_ok, Prod.exists, pure_eq_ok, Except.ok.injEq] at hb
  obtain ⟨-, -, _, s1, hlen, _, s2, hsd, _, s3, hld, rfl⟩ := hb
  exact (((buildTable_quiet hlen).trans (buildTable_quiet hsd)).trans (buildTable_quiet hld)).trans
    (.of_same rfl rfl rfl rfl)

theorem execLzWriteOverhead_quiet {s s' : State} (h : execLzWriteOverhead s = .next s') (he : s'.err = false) :
    Quiet s s' := by
  have hb := runCommand_completed h he
  simp only [bind_eq_ok, Prod.exists, pure_eq_ok, Except.ok.injEq] at hb
  obtain ⟨-, -, _, s1, hlen, _, s2, hsd, _, s3, hld, rfl⟩ := hb
  exact (((writeTable_quiet hlen).trans (writeTable_quiet hsd)).trans (writeTable_quiet hld)).trans
    (.of_same rfl rfl rfl rfl)

theorem execLzEncode_quiet {s s' : State} (h : execLzEncode s = .next s') (he : s'.err = false) : Quiet s s' := by
  have hb := runCommand_completed h he
  simp only [bind_eq_ok, Prod.exists, pure_eq_ok, Except.ok.injEq] at hb
  obtain ⟨len, d, -, -, -, a, s1, hlen, b, s2, hdist, rfl⟩ := hb
  exact ((((emitLength_quiet hlen).trans (emitDistance_quiet hdist)).trans (pushIf_quiet _ _ _)).trans
    (setRes0_quiet _ _)).trans (setRes1_quiet _ _)

theorem execLzDecInit_quiet {s s' : State} (h : execLzDecInit s = .next s') (he : s'.err = false) :
    Quiet s s' := by
  have hb := runCommand_completed h he
  simp only [bind_eq_ok, Prod.exists, pure_eq_ok, Except.ok.injEq] at hb
  obtain ⟨x, y, -, _, s1, hlen, _, s2, hsd, _, s3, hld, rfl⟩ := hb
  exact ((((lzRestart_quiet x y s).trans (readTable_quiet hlen)).trans (readTable_quiet hsd)).trans
    (readTable_quiet hld)).trans (.of_same rfl rfl rfl rfl)

/-- The end of a decoded match: the distance pushed, the results written. -/
theorem pushedResult_quiet (d : Half) (len dist : Nat) (s : State) :
    Quiet s (matchResult len dist (cachePush d s)) := .of_same rfl rfl rfl rfl

theorem decodeRecent_quiet {esc : Nat} {s s' : State} (h : decodeRecent esc s = .ok s') : Quiet s s' := by
  simp only [decodeRecent, bind_eq_ok, Prod.exists, pure_eq_ok, Except.ok.injEq] at h
  obtain ⟨-, -, len, s1, hlen, rfl⟩ := h
  exact (readLength_quiet hlen).trans (.of_same rfl rfl rfl rfl)

theorem decodeLocalLeft_quiet {esc : Nat} {s s' : State} (h : decodeLocalLeft esc s = .ok s') : Quiet s s' := by
  simp only [decodeLocalLeft, bind_eq_ok, Prod.exists, pure_eq_ok, Except.ok.injEq] at h
  obtain ⟨len, s1, hlen, rfl⟩ := h
  exact (readLength_quiet hlen).trans (pushedResult_quiet _ _ _ _)

theorem decodeLocalUp_quiet {esc : Nat} {s s' : State} (h : decodeLocalUp esc s = .ok s') : Quiet s s' := by
  simp only [decodeLocalUp, bind_eq_ok, Prod.exists, pure_eq_ok, Except.ok.injEq] at h
  obtain ⟨-, -, len, s1, hlen, rfl⟩ := h
  exact (readLength_quiet hlen).trans (pushedResult_quiet _ _ _ _)

/-- The distance of band 4, once the length is there. -/
theorem shortDistance_quiet {len : Nat} {s s' : State}
    (h : (do
      let (r, s1) ← decSym .sd s
      return matchResult len (r.sym + 1) (cachePush (BitVec.ofNat 16 (r.sym + 1)) s1)) = .ok s') :
    Quiet s s' := by
  simp only [bind_eq_ok, Prod.exists, pure_eq_ok, Except.ok.injEq] at h
  obtain ⟨r, s1, hsym, rfl⟩ := h
  exact (decSym_quiet hsym).trans (pushedResult_quiet _ _ _ _)

theorem decodeShort_quiet {esc : Nat} {s s' : State} (h : decodeShort esc s = .ok s') : Quiet s s' := by
  unfold decodeShort at h
  split at h
  · exact shortDistance_quiet h
  · obtain ⟨⟨len, s1⟩, hlen, hdist⟩ := bind_eq_ok.mp h
    exact (readLength_quiet hlen).trans (shortDistance_quiet hdist)

/-- The distance of band 5, once the length is there. -/
theorem longDistance_quiet {len : Nat} {s s' : State}
    (h : (do
      let (hi, s1) ← decSym .ld s
      let (lo, s2) ← readBits 8 s1
      need (hi.sym * 256 + lo ≠ 0) (.format .distZero)
      return matchResult len (hi.sym * 256 + lo) (cachePush (BitVec.ofNat 16 (hi.sym * 256 + lo)) s2))
        = .ok s') :
    Quiet s s' := by
  simp only [bind_eq_ok, Prod.exists, pure_eq_ok, Except.ok.injEq] at h
  obtain ⟨hi, s1, hsym, lo, s2, hlo, -, -, rfl⟩ := h
  exact ((decSym_quiet hsym).trans (readBits_quiet hlo)).trans (pushedResult_quiet _ _ _ _)

theorem decodeLong_quiet {esc : Nat} {s s' : State} (h : decodeLong esc s = .ok s') : Quiet s s' := by
  unfold decodeLong at h
  split at h
  · exact longDistance_quiet h
  · obtain ⟨⟨len, s1⟩, hlen, hdist⟩ := bind_eq_ok.mp h
    exact (readLength_quiet hlen).trans (longDistance_quiet hdist)

theorem execLzDecode_quiet {s s' : State} (h : execLzDecode s = .next s') (he : s'.err = false) : Quiet s s' := by
  have hb := runCommand_completed h he
  simp only [bind_eq_ok] at hb
  obtain ⟨esc, -, -, -, -, -, hband⟩ := hb
  split at hband
  · exact decodeRecent_quiet hband
  split at hband
  · exact decodeLocalLeft_quiet hband
  split at hband
  · exact decodeLocalUp_quiet hband
  split at hband
  · exact decodeShort_quiet hband
  · exact decodeLong_quiet hband

end Sys2Proof.Machine
end

section
/-! SUPPORT. The commands of the entropy path (44_entropy_coder): each that completes keeps the path consistent
with its phase. -/

namespace Sys2Proof.Machine

open Sys2Proof Host

/-! ### What keeps the entropy path consistent -/

/-- A path with nothing open, recorded or owed, in any phase but the last. -/
theorem EntropyPathOk.of_idle {s : State} (hctx : s.ctxEn = false → s.ctxAz = false) (hrun : s.runCnt = 0)
    (hrl : s.rl = [])
    (hrem : s.encRem = 0) (hz : s.zpend = 0) (heos : s.eos = false) (hp : s.ecPhase ≠ .eos) :
    EntropyPathOk s where
  context := hctx
  runsFit := by rw [hrl]; exact Nat.zero_le _
  runsPositive := by simp [hrl]
  openRun h := absurd hrun h
  runsLive h := absurd hrl h
  replaying h := absurd hrem h
  owing h := absurd hz h
  ended := by simp [heos, hp]

/-- The path with its context flag replaced. -/
theorem EntropyPathOk.set_ctxAz {s : State} (h : EntropyPathOk s) {az : Bool}
    (haz : s.ctxEn = false → az = false) : EntropyPathOk { s with ctxAz := az } :=
  ⟨haz, h.runsFit, h.runsPositive, h.openRun, h.runsLive, h.replaying, h.owing, h.ended⟩

theorem EntropyPathOk.ctxAfter {s : State} (h : EntropyPathOk s) (sym : Nat) :
    EntropyPathOk (ctxAfter sym s) :=
  h.set_ctxAz fun hen => by rw [hen]; rfl

/-- Without context mode no list of symbols sets the flag (44_entropy_coder R131). -/
theorem foldl_ctx_of_off {en az : Bool} (hen : en = false) (haz : az = false) (syms : List Nat) :
    syms.foldl (fun _ y => en && decide (256 ≤ y) && decide (y < 383)) az = false := by
  rw [foldl_ctx]
  split
  · exact haz
  · rw [hen]; rfl

/-- The end of an open run in pass one (43_zero_run R122, R123). -/
theorem EntropyPathOk.flushOpenRun {s s' : State} (h : EntropyPathOk s) (hp : s.ecPhase = .collect)
    (hf : flushOpenRun s = .ok s') : EntropyPathOk s' ∧ s'.ecPhase = .collect ∧ s'.runCnt = 0 := by
  obtain ⟨hroom, rfl⟩ := flushOpenRun_eq_ok.mp hf
  refine ⟨?_, hp, rfl⟩
  have hcontext : s.ctxEn = false → flushedContext s = false := fun hen => by
    unfold flushedContext
    split
    · exact h.context hen
    · rw [hen]; rfl
  have hfit : (flushedRuns s).length ≤ Config.runlistCap := by
    have hle := h.runsFit
    unfold flushedRuns
    split
    · exact hle
    · next hrun =>
      obtain ⟨hne, -⟩ := hroom hrun
      rw [List.length_append, List.length_singleton]; omega
  have hpos : ∀ L ∈ flushedRuns s, L ≠ 0 := by
    unfold flushedRuns
    split
    · exact h.runsPositive
    · next hrun =>
      intro L hL
      rcases List.mem_append.mp hL with hL | hL
      · exact h.runsPositive L hL
      · rw [List.mem_singleton.mp hL]; exact hrun
  exact ⟨hcontext, hfit, hpos, fun hrun => absurd rfl hrun, fun _ => .inl hp, h.replaying, h.owing, h.ended⟩

/-- Zeros replayed in pass two (10_state R27). -/
theorem EntropyPathOk.replay {s : State} (h : EntropyPathOk s) (hp : s.ecPhase = .emit) (left : BitVec 32)
    (lastz : Bool) : EntropyPathOk { s with encRem := left, encLastz := lastz } :=
  ⟨h.context, h.runsFit, h.runsPositive, h.openRun, h.runsLive, fun _ => hp, h.owing, h.ended⟩

/-- A run taken from the head of the run-list (44_entropy_coder R137). -/
theorem EntropyPathOk.takeRun {s : State} (h : EntropyPathOk s) {L : BitVec 32} {rest : List (BitVec 32)}
    (hrl : s.rl = L :: rest) : EntropyPathOk { s with rl := rest } := by
  have hfit := h.runsFit
  have hpos := h.runsPositive
  rw [hrl] at hfit hpos
  exact ⟨h.context, (Nat.le_succ _).trans hfit, fun x hx => hpos x (List.mem_cons_of_mem _ hx), h.openRun,
    fun _ => h.runsLive (by rw [hrl]; exact List.cons_ne_nil L rest), h.replaying, h.owing, h.ended⟩

/-- The decoder owes zeros (10_state R28). -/
theorem EntropyPathOk.owe {s : State} (h : EntropyPathOk s) (hp : s.ecPhase = .decode) (z : BitVec 7) :
    EntropyPathOk { s with zpend := z } :=
  ⟨h.context, h.runsFit, h.runsPositive, h.openRun, h.runsLive, h.replaying, fun _ => hp, h.ended⟩

theorem EntropyPathOk.zpend_eq_zero {s : State} (h : EntropyPathOk s) (hp : s.ecPhase ≠ .decode) :
    s.zpend = 0 := by
  by_contra hz
  exact hp (h.owing hz)

theorem EntropyPathOk.runCnt_eq_zero {s : State} (h : EntropyPathOk s) (hp : s.ecPhase ≠ .collect) :
    s.runCnt = 0 := by
  by_contra hrun
  exact hp (h.openRun hrun)

theorem EntropyPathOk.encRem_eq_zero {s : State} (h : EntropyPathOk s) (hp : s.ecPhase ≠ .emit) :
    s.encRem = 0 := by
  by_contra hrem
  exact hp (h.replaying hrem)

theorem EntropyPathOk.eos_eq_false {s : State} (h : EntropyPathOk s) (hp : s.ecPhase ≠ .eos) :
    s.eos = false := by
  cases heos : s.eos
  · rfl
  · exact absurd (h.ended.mp heos) hp

/-- Runs are recorded in the two passes of the encoder only. -/
theorem EntropyPathOk.rl_eq_nil {s : State} (h : EntropyPathOk s) (hp : s.ecPhase = .decode) : s.rl = [] := by
  by_contra hrl
  have hlive := h.runsLive hrl
  simp [hp] at hlive

/-- Pass one ends with no run open (44_entropy_coder R134). -/
theorem EntropyPathOk.finalize {s : State} (h : EntropyPathOk s) (hp : s.ecPhase = .collect)
    (hrun : s.runCnt = 0) :
    EntropyPathOk { s with ctxAz := false, encRem := 0, encLastz := false, ecPhase := .finalized } where
  context _ := rfl
  runsFit := h.runsFit
  runsPositive := h.runsPositive
  openRun hne := absurd hrun hne
  runsLive _ := .inr (.inl rfl)
  replaying hne := absurd rfl hne
  owing hne := absurd (h.zpend_eq_zero (by simp [hp])) hne
  ended := by simp [h.eos_eq_false (by simp [hp])]

/-- Pass two begins (44_entropy_coder R135). -/
theorem EntropyPathOk.startEmit {s : State} (h : EntropyPathOk s) (hp : s.ecPhase = .finalized) :
    EntropyPathOk { s with ecPhase := .emit } where
  context := h.context
  runsFit := h.runsFit
  runsPositive := h.runsPositive
  openRun hne := absurd (h.runCnt_eq_zero (by simp [hp])) hne
  runsLive _ := .inr (.inr rfl)
  replaying _ := rfl
  owing hne := absurd (h.zpend_eq_zero (by simp [hp])) hne
  ended := by simp [h.eos_eq_false (by simp [hp])]

/-- Pass two ends with every run replayed (44_entropy_coder R138). -/
theorem EntropyPathOk.finishEmit {s : State} (h : EntropyPathOk s) (hp : s.ecPhase = .emit)
    (hrem : s.encRem = 0) (hrl : s.rl = []) : EntropyPathOk { s with ecPhase := .done } :=
  .of_idle h.context (h.runCnt_eq_zero (by simp [hp])) hrl hrem (h.zpend_eq_zero (by simp [hp]))
    (h.eos_eq_false (by simp [hp])) (by simp)

/-- The decoder reads the end marker with no zero owed (44_entropy_coder R140). -/
theorem EntropyPathOk.endDecode {s : State} (h : EntropyPathOk s) (hp : s.ecPhase = .decode)
    (hz : s.zpend = 0) : EntropyPathOk { s with eos := true, ecPhase := .eos } where
  context := h.context
  runsFit := h.runsFit
  runsPositive := h.runsPositive
  openRun hne := absurd (h.runCnt_eq_zero (by simp [hp])) hne
  runsLive hne := absurd (h.rl_eq_nil hp) hne
  replaying hne := absurd (h.encRem_eq_zero (by simp [hp])) hne
  owing hne := absurd hz hne
  ended := by simp

theorem Quiet.ecPhase_eq {s s' : State} (h : Quiet s s') : s'.ecPhase = s.ecPhase :=
  congrArg EntropyRegs.ecPhase h.entropy

theorem Quiet.runCnt_eq {s s' : State} (h : Quiet s s') : s'.runCnt = s.runCnt :=
  congrArg EntropyRegs.runCnt h.entropy

theorem Quiet.zpend_eq {s s' : State} (h : Quiet s s') : s'.zpend = s.zpend :=
  congrArg EntropyRegs.zpend h.entropy

/-! ### Operands, and the shared operations of the path -/

theorem byteOperand_lt {s : State} {byte : Nat} (h : byteOperand s = .ok byte) : byte < 256 := by
  rw [byteOperand_eq] at h
  split at h
  · next hlt => obtain rfl := Except.ok.inj h; exact hlt
  · cases h

/-- A byte is a symbol of every table. -/
theorem lt_nsym_of_lt_256 {y : Nat} (h : y < 256) (t : Tab) : y < nsym t := by
  cases t <;> simp only [nsym] <;> omega

theorem ctxAfter_moves (sym : Nat) (s : State) : Moves s (ctxAfter sym s) := .of_same rfl rfl rfl

/-- The symbols of an open run are run symbols, so they are in the base alphabet. -/
theorem flushOpenRun_moves {s s' : State} (h : flushOpenRun s = .ok s') : Moves s s' := by
  obtain ⟨hroom, rfl⟩ := flushOpenRun_eq_ok.mp h
  have hsyms : ∀ y ∈ flushedSymbols s, y < 384 := fun y hy => by
    unfold flushedSymbols at hy
    split at hy
    · cases hy
    · have := mem_chain hy; omega
  have hcollect : flushedSymbols s = [] ∨ s.tabBz.tstate = .collect := by
    by_cases hrun : s.runCnt = 0
    · exact .inl (if_pos hrun)
    · exact .inr (hroom hrun).2
  exact (Quiet.setTab (t := .bz) (.countAll hsyms hcollect)).toMoves.trans (.of_same rfl rfl rfl)

theorem emitSymbols_moves {syms : List Nat} {k : Nat} {s s' : State} (h : emitSymbols syms s = .ok (k, s')) :
    Moves s s' := by
  obtain ⟨-, -, -, rfl⟩ := emitSymbols_eq_ok.mp h
  exact (Quiet.append s (syms.flatMap s.tabBz.codeBits)).toMoves.trans (.of_same rfl rfl rfl)

/-! ### The commands -/

theorem execEcInit_effect {s s' : State} (h : execEcInit s = .next s') (he : s'.err = false) :
    CommandEffect s s' := by
  have hb := runCommand_completed h he
  simp only [bind_eq_ok, pure_eq_ok, Except.ok.injEq] at hb
  obtain ⟨ctx, -, rfl⟩ := hb
  refine ⟨?_, fun _ => .of_idle (fun _ => rfl) rfl rfl rfl rfl rfl (by simp)⟩
  exact ((histClear_quiet .bz s).trans (histClear_quiet .az _)).toMoves.trans (.of_same rfl rfl rfl)

theorem execPush_effect {s s' : State} (h : execPush s = .next s') (he : s'.err = false) :
    CommandEffect s s' := by
  have hb := runCommand_completed h he
  simp only [bind_eq_ok, needEcPhase, need_eq_ok, pure_eq_ok] at hb
  obtain ⟨byte, hbyte, -, hp, s1, htrack, hb⟩ := hb
  split at hb
  · next h0 =>
    obtain rfl := Except.ok.inj hb
    rw [h0] at htrack
    obtain ⟨-, rfl⟩ := trackByte_zero_eq_ok.mp htrack
    exact ⟨.of_same rfl rfl rfl, fun ho =>
      ⟨ho.context, ho.runsFit, ho.runsPositive, fun _ => hp, ho.runsLive, ho.replaying, ho.owing, ho.ended⟩⟩
  · next h0 =>
    rw [trackByte_of_ne h0] at htrack
    obtain ⟨s2, hadd, hb⟩ := bind_eq_ok.mp hb
    obtain rfl := Except.ok.inj hb
    have hquiet := addSymbol_quiet (lt_nsym_of_lt_256 (byteOperand_lt hbyte) _) hadd
    refine ⟨((flushOpenRun_moves htrack).trans hquiet.toMoves).trans (ctxAfter_moves _ _), fun ho => ?_⟩
    obtain ⟨ho1, -, -⟩ := ho.flushOpenRun hp htrack
    exact (ho1.of_regs hquiet.entropy).ctxAfter byte

/-- Two branches that go on in one way. -/
theorem ite_bind_eq_ok {α β : Type} {p : Prop} [Decidable p] {x y : Except Raise α} {f : α → Except Raise β}
    {b : β} : (if p then x >>= f else y >>= f) = .ok b ↔ ∃ a, (if p then x else y) = .ok a ∧ f a = .ok b := by
  split <;> exact bind_eq_ok

/-- The after-zero table is built in context mode only (44_entropy_coder R134). -/
theorem optionalBuild_quiet {p : Prop} [Decidable p] {t : Tab} {s s' : State}
    (h : (if p then buildTable t s >>= fun x => .ok x.2 else .ok s) = .ok s') : Quiet s s' := by
  split at h
  · obtain ⟨⟨r, s1⟩, hbuild, hs⟩ := bind_eq_ok.mp h
    obtain rfl := Except.ok.inj hs
    exact buildTable_quiet hbuild
  · obtain rfl := Except.ok.inj h; exact .refl s

/-- The after-zero table is read in context mode only (44_entropy_coder R139). -/
theorem optionalRead_quiet {p : Prop} [Decidable p] {t : Tab} {s s' : State}
    (h : (if p then readTable t s >>= fun x => .ok x.2 else .ok s) = .ok s') : Quiet s s' := by
  split at h
  · obtain ⟨⟨k, s1⟩, hread, hs⟩ := bind_eq_ok.mp h
    obtain rfl := Except.ok.inj hs
    exact readTable_quiet hread
  · obtain rfl := Except.ok.inj h; exact .refl s

/-- The after-zero table is written in context mode only (44_entropy_coder R135). -/
theorem optionalWrite_quiet {p : Prop} [Decidable p] {t : Tab} {k : Nat} {s s' : State}
    (h : (if p then writeTable t s else .ok (0, s)) = .ok (k, s')) : Quiet s s' := by
  split at h
  · exact writeTable_quiet h
  · obtain ⟨-, rfl⟩ := Prod.mk.inj (Except.ok.inj h); exact .refl s

theorem execFinalize_effect {s s' : State} (h : execFinalize s = .next s') (he : s'.err = false) :
    CommandEffect s s' := by
  have hb := runCommand_completed h he
  simp only [bind_eq_ok, needEcPhase, need_eq_ok, pure_eq_ok, Prod.exists, ite_bind_eq_ok,
    Except.ok.injEq] at hb
  obtain ⟨-, hp, s1, hflush, s2, hadd, _, s3, hbz, s4, haz, rfl⟩ := hb
  have hquiet := ((addSymbol_quiet (lt_nsym_of_lt_256 (by decide) _) hadd).trans (buildTable_quiet hbz)).trans
    (optionalBuild_quiet haz)
  refine ⟨((flushOpenRun_moves hflush).trans hquiet.toMoves).trans (.of_same rfl rfl rfl), fun ho => ?_⟩
  obtain ⟨ho1, hp1, hrun1⟩ := ho.flushOpenRun hp hflush
  exact (ho1.of_regs hquiet.entropy).finalize (hquiet.ecPhase_eq.trans hp1) (hquiet.runCnt_eq.trans hrun1)

theorem execWriteOverhead_effect {s s' : State} (h : execWriteOverhead s = .next s') (he : s'.err = false) :
    CommandEffect s s' := by
  have hb := runCommand_completed h he
  simp only [bind_eq_ok, needEcPhase, need_eq_ok, pure_eq_ok, Prod.exists, ite_bind_eq_ok,
    Except.ok.injEq] at hb
  obtain ⟨-, hp, k, s1, hbz, k', s2, haz, rfl⟩ := hb
  have hquiet := ((writeTable_quiet hbz).trans (optionalWrite_quiet haz)).trans (setRes0_quiet s2 (k + k'))
  exact ⟨hquiet.toMoves.trans (.of_same rfl rfl rfl), fun ho =>
    (ho.of_regs hquiet.entropy).startEmit (hquiet.ecPhase_eq.trans hp)⟩

theorem encodeZero_effect {k : Nat} {s s' : State} (hp : s.ecPhase = .emit) (h : encodeZero s = .ok (k, s')) :
    CommandEffect s s' := by
  unfold encodeZero at h
  split at h
  · obtain ⟨-, rfl⟩ := Prod.mk.inj (Except.ok.inj h)
    exact ⟨.of_same rfl rfl rfl, fun ho => ho.replay hp _ _⟩
  · obtain ⟨-, -, h⟩ := bind_eq_ok.mp h
    split at h
    · cases h
    · next L rest hrl =>
      obtain ⟨⟨n, s1⟩, hemit, h⟩ := bind_eq_ok.mp h
      obtain ⟨-, rfl⟩ := Prod.mk.inj (Except.ok.inj h)
      have hpopped : Moves s { s with rl := rest } := .of_same rfl rfl rfl
      refine ⟨(hpopped.trans (emitSymbols_moves hemit)).trans (.of_same rfl rfl rfl), fun ho => ?_⟩
      obtain ⟨-, -, -, rfl⟩ := emitSymbols_eq_ok.mp hemit
      have htaken := (ho.takeRun hrl).set_ctxAz (az := _) fun hen =>
        foldl_ctx_of_off hen ((ho.takeRun hrl).context hen) (chain L.toNat)
      exact (htaken.replay hp (L - 1) true).of_regs rfl

theorem encodeLiteral_effect {byte k : Nat} {s s' : State} (hp : s.ecPhase = .emit)
    (h : encodeLiteral byte s = .ok (k, s')) : CommandEffect s s' := by
  simp only [encodeLiteral, bind_eq_ok, need_eq_ok, pure_eq_ok, Prod.exists, Except.ok.injEq,
    Prod.mk.injEq] at h
  obtain ⟨-, -, _, s1, henc, -, rfl⟩ := h
  have hquiet := encSym_quiet henc
  exact ⟨hquiet.toMoves.trans (.of_same rfl rfl rfl), fun ho =>
    ((ho.of_regs hquiet.entropy).ctxAfter byte).replay (hquiet.ecPhase_eq.trans hp) _ false⟩

theorem Quiet.trans_effect {s s1 s2 : State} (h : Quiet s s1) (h' : CommandEffect s1 s2) : CommandEffect s s2 :=
  ⟨h.toMoves.trans h'.toMoves, fun ho => h'.entropyOk (ho.of_regs h.entropy)⟩

theorem CommandEffect.trans_quiet {s s1 s2 : State} (h : CommandEffect s s1) (h' : Quiet s1 s2) :
    CommandEffect s s2 :=
  ⟨h.toMoves.trans h'.toMoves, fun ho => (h.entropyOk ho).of_regs h'.entropy⟩

theorem execEncode_effect {s s' : State} (h : execEncode s = .next s') (he : s'.err = false) :
    CommandEffect s s' := by
  have hb := runCommand_completed h he
  simp only [bind_eq_ok, needEcPhase, need_eq_ok, pure_eq_ok, Prod.exists, ite_bind_eq_ok,
    Except.ok.injEq] at hb
  obtain ⟨byte, -, -, hp, k, s1, hbyte, rfl⟩ := hb
  refine CommandEffect.trans_quiet ?_ (setRes0_quiet s1 k)
  split at hbyte
  · exact encodeZero_effect hp hbyte
  · exact encodeLiteral_effect hp hbyte

theorem execEncodeFinalize_effect {s s' : State} (h : execEncodeFinalize s = .next s') (he : s'.err = false) :
    CommandEffect s s' := by
  have hb := runCommand_completed h he
  simp only [bind_eq_ok, needEcPhase, need_eq_ok, pure_eq_ok, Prod.exists, Except.ok.injEq] at hb
  obtain ⟨-, hp, -, ⟨hrem, hrl⟩, k, s1, henc, rfl⟩ := hb
  have hquiet := encSym_quiet henc
  exact ⟨hquiet.toMoves.trans (.of_same rfl rfl rfl), fun ho =>
    ((ho.finishEmit hp hrem hrl).of_regs
      (congrArg (fun r : EntropyRegs => { r with ecPhase := .done }) hquiet.entropy))⟩

theorem execDecInit_effect {s s' : State} (h : execDecInit s = .next s') (he : s'.err = false) :
    CommandEffect s s' := by
  have hb := runCommand_completed h he
  simp only [bind_eq_ok, pure_eq_ok, Prod.exists, ite_bind_eq_ok, Except.ok.injEq] at hb
  obtain ⟨ctx, -, _, s1, hbz, s2, haz, rfl⟩ := hb
  have hquiet := (readTable_quiet hbz).trans (optionalRead_quiet haz)
  have hrestart : Moves s (entropyRestart ctx s) := .of_same rfl rfl rfl
  refine ⟨(hrestart.trans hquiet.toMoves).trans (.of_same rfl rfl rfl), fun _ => ?_⟩
  have hidle : EntropyPathOk { entropyRestart ctx s with ecPhase := .decode } :=
    .of_idle (fun _ => rfl) rfl rfl rfl rfl rfl (by simp)
  exact hidle.of_regs (congrArg (fun r : EntropyRegs => { r with ecPhase := .decode }) hquiet.entropy)

theorem decodedSymbol_effect {s : State} (hp : s.ecPhase = .decode) (hz : s.zpend = 0) (sym : Nat) :
    CommandEffect s (decodedSymbol sym s) := by
  unfold decodedSymbol
  split
  · exact ⟨.of_same rfl rfl rfl, fun ho => (ho.endDecode hp hz).of_regs rfl⟩
  split
  · exact ⟨.of_same rfl rfl rfl, fun ho => (ho.ctxAfter sym).of_regs rfl⟩
  · exact ⟨.of_same rfl rfl rfl, fun ho => ((ho.owe hp _).ctxAfter sym).of_regs rfl⟩

theorem execDecodeNext_effect {s s' : State} (h : execDecodeNext s = .next s') (he : s'.err = false) :
    CommandEffect s s' := by
  have hb := runCommand_completed h he
  simp only [bind_eq_ok, needEcPhase, need_eq_ok, pure_eq_ok] at hb
  obtain ⟨-, hp, hb⟩ := hb
  split at hb
  · obtain rfl := Except.ok.inj hb
    exact ⟨.of_same rfl rfl rfl, fun ho => (ho.owe hp (s.zpend - 1)).of_regs rfl⟩
  · next hz =>
    obtain ⟨⟨r, s1⟩, hsym, hb⟩ := bind_eq_ok.mp hb
    obtain rfl := Except.ok.inj hb
    have hquiet := decSym_quiet hsym
    exact hquiet.trans_effect (decodedSymbol_effect (hquiet.ecPhase_eq.trans hp)
      (hquiet.zpend_eq.trans (not_not.mp hz)) r.sym)

end Sys2Proof.Machine
end

section
/-! SUPPORT. What a step can do, command by command and host action by host action, and the statements of
10_state that follow. -/

namespace Sys2Proof.Machine

open Sys2Proof Host

/-! ### Every command, and every step -/

/-- Every command but `SOFT_RESET` runs a body, under its opcode (30_encoding R68). -/
theorem exec_eq_runCommand {i : Instr} (hi : i ≠ .softReset) (s : State) :
    ∃ body, exec i s = runCommand i.opcode s body := by
  cases i with
  | softReset => exact absurd rfl hi
  | nop => exact ⟨pure s, rfl⟩
  | _ => exact ⟨_, rfl⟩

/-- Every command but `SOFT_RESET` is ignored in the fault state (60_exceptions R190). -/
theorem exec_of_err {i : Instr} {s : State} (hi : i ≠ .softReset) (he : s.err = true) : exec i s = .next s := by
  obtain ⟨body, hbody⟩ := exec_eq_runCommand hi s
  rw [hbody, runCommand_of_err he]

/-- Every command but `SOFT_RESET` that completes has a `CommandEffect`. -/
theorem exec_effect {i : Instr} {s s' : State} (hi : i ≠ .softReset) (h : exec i s = .next s')
    (he : s'.err = false) : CommandEffect s s' := by
  cases i with
  | softReset => exact absurd rfl hi
  | nop => exact (execNop_quiet h he).commandEffect
  | histClear t => exact (execHistClear_quiet h he).commandEffect
  | addSymbol t => exact (execAddSymbol_quiet h he).commandEffect
  | buildTable t => exact (execBuildTable_quiet h he).commandEffect
  | writeTable t => exact (execWriteTable_quiet h he).commandEffect
  | readTable t => exact (execReadTable_quiet h he).commandEffect
  | encSym t => exact (execEncSym_quiet h he).commandEffect
  | decSym t => exact (execDecSym_quiet h he).commandEffect
  | getCount t => exact (execGetCount_quiet h he).commandEffect
  | getLen t => exact (execGetLen_quiet h he).commandEffect
  | getMax t => exact (execGetMax_quiet h he).commandEffect
  | ecInit => exact execEcInit_effect h he
  | push => exact execPush_effect h he
  | finalize => exact execFinalize_effect h he
  | writeOverhead => exact execWriteOverhead_effect h he
  | encode => exact execEncode_effect h he
  | encodeFinalize => exact execEncodeFinalize_effect h he
  | decInit => exact execDecInit_effect h he
  | decodeNext => exact execDecodeNext_effect h he
  | lzInit => exact (execLzInit_quiet h he).commandEffect
  | lzPush => exact (execLzPush_quiet h he).commandEffect
  | lzFinalize => exact (execLzFinalize_quiet h he).commandEffect
  | lzWriteOverhead => exact (execLzWriteOverhead_quiet h he).commandEffect
  | lzEncode => exact (execLzEncode_quiet h he).commandEffect
  | lzDecInit => exact (execLzDecInit_quiet h he).commandEffect
  | lzDecode => exact (execLzDecode_quiet h he).commandEffect

/-- What a host action that leaves the block outside the fault state can do to tables and entropy path: nothing,
run a command from outside the fault state, or reset the block. -/
inductive ActionEffect (s s' : State) : Prop
  | same (err : s.err = false) (tables : s'.tables = s.tables) (entropy : s'.entropyRegs = s.entropyRegs)
  | command (err : s.err = false) (effect : CommandEffect s s')
  | reset (block : s'.toBlock = Block.reset)

theorem exec_actionEffect {i : Instr} {s s' : State} (h : exec i s = .next s') (he : s'.err = false) :
    ActionEffect s s' := by
  by_cases hi : i = .softReset
  · subst hi
    obtain rfl : resetBlock s = s' := Outcome.next.inj h
    exact .reset rfl
  · cases hs : s.err with
    | false => exact .command hs (exec_effect hi h he)
    | true =>
      obtain rfl : s = s' := Outcome.next.inj ((exec_of_err hi hs).symm.trans h)
      rw [hs] at he; cases he

theorem issueCommand_actionEffect {w : Word} {s s' : State} (h : issueCommand w s = .next s')
    (he : s'.err = false) : ActionEffect s s' := by
  unfold issueCommand at h
  split at h
  · exact exec_actionEffect h he
  · cases runCommand_completed h he

theorem writeRegister_actionEffect {offset : Nat} {v : Word} {s s' : State}
    (h : writeRegister offset v s = .next s') (he : s'.err = false) : ActionEffect s s' := by
  unfold writeRegister at h
  split at h
  · cases h
  split at h
  · exact issueCommand_actionEffect h he
  all_goals
    obtain rfl := Outcome.next.inj h
    exact .same he rfl rfl

theorem hostAct_actionEffect {a : HostAction} {s s' : State} (h : hostAct a s = .next s') (he : s'.err = false) :
    ActionEffect s s' := by
  cases a with
  | write offset v => exact writeRegister_actionEffect h he
  | read offset =>
    replace h : readPort offset s = .next s' := h
    unfold readPort at h
    split at h
    · cases h
    · obtain rfl := Outcome.next.inj h
      exact .same he rfl rfl
  | hardReset =>
    obtain rfl := Outcome.next.inj h
    exact .reset rfl
  | _ =>
    obtain rfl := Outcome.next.inj h
    exact .same he rfl rfl

/-- A property of tables and entropy path that reset establishes and completing commands keep, every step keeps
outside the fault state. -/
theorem step_keeps_outside_fault {P : State → Prop}
    (hsame : ∀ s s', s'.tables = s.tables → s'.entropyRegs = s.entropyRegs → P s → P s')
    (hcommand : ∀ s s', CommandEffect s s' → P s → P s') (hreset : P State.reset) {s s' : State}
    (hP : s.err = false → P s) (h : step s = .next s') : s'.err = false → P s' := by
  intro he
  unfold step at h
  split at h
  · obtain rfl := Outcome.next.inj h
    exact hP he
  · next a rest _ =>
    cases hostAct_actionEffect h he with
    | same hs htab hent => exact hsame s s' htab hent (hP hs)
    | command hs heff => exact hcommand _ s' heff (hsame s _ rfl rfl (hP hs))
    | reset hb =>
      refine hsame State.reset s' ?_ ?_ hreset
      · simp only [State.tables, hb]; rfl
      · simp only [State.entropyRegs, hb]; rfl

/-! ### The reset state -/

theorem State.reset_tab (t : Tab) : State.reset.tab t = TableMem.cleared (nsym t) := by
  cases t <;> rfl

theorem reset_histogramInv : HistogramInv State.reset := fun _ t => by
  rw [State.reset_tab]
  exact ⟨TableMem.cleared_maxOk _, TableMem.cleared_noCodeYet _⟩

theorem reset_canonicalInv : CanonicalInv State.reset := fun _ t hv => by
  rw [State.reset_tab] at hv; cases hv

theorem reset_entropyPathInv : EntropyPathInv State.reset := fun _ =>
  .of_idle (fun _ => rfl) rfl rfl rfl rfl rfl (fun h => by cases h)

/-- Settles O60. -/
theorem resetMeetsTheInvariants : Obligations.ResetMeetsTheInvariants :=
  ⟨reset_histogramInv, reset_canonicalInv, reset_entropyPathInv⟩

/-! ### The three invariants -/

theorem nsym_le (t : Tab) : nsym t ≤ 384 := by
  cases t <;> decide

/-- Settles O57: every step of a table keeps the maximum and, while it collects, the absence of a code. -/
theorem everyStepKeepsTheHistograms : Obligations.EveryStepKeepsTheHistograms := by
  intro s s' hinv h
  refine step_keeps_outside_fault (P := fun s => ∀ t, (s.tab t).MaxOk ∧ (s.tab t).NoCodeYet) ?_ ?_
    (reset_histogramInv rfl) hinv h
  · intro s s' htab _ hs t
    rw [State.tab_eq_of_tables_eq htab]
    exact hs t
  · intro s s' heff hs t
    exact (heff.tables t).keep (P := fun m => m.MaxOk ∧ m.NoCodeYet) (fun _ _ => TableStep.keeps_histogram) (hs t)

/-- Settles O58: a table step leaves a table valid only with acceptable lengths, built (40 R85, R86) or read
(41 R105), and their canonical codes, none of which begins another. -/
theorem everyStepKeepsValidTablesCanonical : Obligations.EveryStepKeepsValidTablesCanonical := by
  intro s s' hinv h
  refine step_keeps_outside_fault (P := fun s => ∀ t, (s.tab t).tstate = .valid → (s.tab t).Canonical) ?_ ?_
    (reset_canonicalInv rfl) hinv h
  · intro s s' htab _ hs t
    rw [State.tab_eq_of_tables_eq htab]
    exact hs t
  · intro s s' heff hs t
    exact (heff.tables t).keep (P := fun m => m.tstate = .valid → m.Canonical)
      (fun _ _ hstep _ => hstep.canonical (nsym_le t)) (hs t)

/-- Settles O59: each command of the entropy path moves the path's registers together with its phase. -/
theorem everyStepKeepsTheEntropyPath : Obligations.EveryStepKeepsTheEntropyPath := by
  intro s s' hinv h
  exact step_keeps_outside_fault (P := EntropyPathOk) (fun _ _ _ hent hs => hs.of_regs hent)
    (fun _ _ heff => heff.entropyOk) (reset_entropyPathInv rfl) hinv h

/-! ### Commands and the channels -/

/-- Settles O18. -/
theorem commandsOnlyAppendAndRemoveAndCountBits : Obligations.CommandsOnlyAppendAndRemoveAndCountBits := by
  intro i s s' hi _ h he
  have heff := exec_effect hi h he
  obtain ⟨r, hr, hrn⟩ := heff.took
  obtain ⟨ha0, ha1, hp, hrd, hf⟩ : s'.arg0 = s.arg0 ∧ s'.arg1 = s.arg1 ∧ s'.pending = s.pending
      ∧ s'.rdata = s.rdata ∧ s'.freeCtr = s.freeCtr := by simpa [State.hostSide] using heff.host
  exact ⟨heff.wrote, ⟨r.length, by simp [hr], by simp [hr], hrn⟩, ha0, ha1, hp, hrd, hf⟩

/-! ### Tables in the wrong state -/

/-- Settles O15: each of the five commands has passed its operands when it tests `TSTATE`. -/
theorem wrongTableStateIsAFault : Obligations.WrongTableStateIsAFault := by
  intro t tab s ht he
  have hop : tableOperand t = .ok tab := tableOperand_eq_ok.mpr ht
  have hsym : s.arg0.toNat < nsym tab → symOperand tab s = .ok s.arg0.toNat := fun hlt => by
    rw [symOperand_eq, if_pos hlt]
  refine ⟨fun hv => ⟨fun hlt => ?_, ?_⟩, fun hc => ⟨?_, fun hlt => ?_, ?_⟩⟩
  · refine runCommand_faultTaken (r := .contract .tableState) he ?_
    rw [hop, ok_bind, hsym hlt, ok_bind]
    exact addSymbol_eq_error.mpr ⟨hv, rfl⟩
  · refine runCommand_faultTaken (r := .contract .tableState) he ?_
    rw [hop, ok_bind, buildTable_eq_error.mpr ⟨hv, rfl⟩, error_bind]
  · refine runCommand_faultTaken (r := .contract .tableState) he ?_
    rw [hop, ok_bind, writeTable_eq_error.mpr ⟨hc, rfl⟩, error_bind]
  · refine runCommand_faultTaken (r := .contract .tableState) he ?_
    rw [hop, ok_bind, hsym hlt, ok_bind, encSym_eq_error.mpr (.inl ⟨hc, rfl⟩), error_bind]
  · refine runCommand_faultTaken (r := .contract .tableState) he ?_
    rw [hop, ok_bind, show decSym tab s = .error (.contract .tableState) by simp [decSym, hc], error_bind]

/-! ### Issuing a command -/

theorem decodePlain_wf {i j : Instr} {t : BitVec 3} (hj : j.tsel = 0) (h : decodePlain j t = .ok i) :
    i.wf = true := by
  unfold decodePlain at h
  split at h
  · obtain rfl := Except.ok.inj h
    simp [Instr.wf, hj]
  · cases h

theorem decodeTable_wf {i : Instr} {f : BitVec 3 → Instr} {t : BitVec 3} (hf : (f t).tsel = t)
    (h : decodeTable f t = .ok i) : i.wf = true := by
  unfold decodeTable at h
  split at h
  · next hle =>
    obtain rfl := Except.ok.inj h
    simpa [Instr.wf, hf] using hle
  · cases h

/-- A word decodes to a well-formed command only (30_encoding R64, R67). -/
theorem wf_of_decode {w : Word} {i : Instr} (h : decode w = .ok i) : i.wf = true := by
  unfold decode at h
  split at h
  · cases h
  · unfold decodeOpcode at h
    split at h
    case h_28 => cases h
    case h_3 | h_4 | h_5 | h_6 | h_7 | h_8 | h_9 | h_10 | h_11 | h_12 => exact decodeTable_wf rfl h
    all_goals exact decodePlain_wf rfl h

/-- A step with a host action pending carries it out (10_state R10). -/
theorem step_cons {s : State} {a : HostAction} {rest : List HostAction} (h : s.pending = a :: rest) :
    step s = hostAct a { s with pending := rest } := by
  unfold step; rw [h]

/-- Settles O5. -/
theorem stepRunsTheIssuedCommand : Obligations.StepRunsTheIssuedCommand := by
  intro s w rest i hp hd
  refine ⟨wf_of_decode hd, (step_cons hp).trans ?_⟩
  show issueCommand w _ = _
  unfold issueCommand
  rw [hd]

/-! ### The register file -/

/-- Above the register map a read returns 0 (10_state R12). -/
theorem readRegister_of_gt {s : State} {offset : Nat} (h : 0x50 < offset) : readRegister s offset = 0 := by
  unfold readRegister
  split
  case h_22 => rfl
  all_goals omega

/-- A write at an aligned offset other than that of `CMD` stores `ARG0` or `ARG1` (10_state R11, R36). -/
theorem writeRegister_of_ne_cmd {s : State} {offset : Nat} {v : Word} (hal : offset % 4 = 0)
    (hne : offset ≠ 0x04) :
    writeRegister offset v s = .next { s with
      arg0 := if offset = 0x08 then v else s.arg0
      arg1 := if offset = 0x0C then v else s.arg1 } := by
  unfold writeRegister
  rw [if_neg (not_not.mpr hal)]
  split
  · exact absurd rfl hne
  · rfl
  · rfl
  · next h8 hC =>
    rw [if_neg h8, if_neg hC]

/-- Settles O6. -/
theorem registerAccessesHaveNoSideEffect : Obligations.RegisterAccessesHaveNoSideEffect := by
  intro s offset v rest hal
  refine ⟨readRegister_of_gt, ?_, fun hne => ?_⟩
  · show readPort offset _ = _
    unfold readPort
    rw [if_neg (not_not.mpr hal)]
    rfl
  · exact writeRegister_of_ne_cmd hal hne

/-! ### `STATUS` -/

/-- The bits of `STATUS`, bit 0 first (10_state R16). -/
def statusBits (s : State) : List Bool :=
  [false, s.err, s.eos, s.ctxEn, s.ctxAz,
    s.ecPhase.bits.getLsbD 0, s.ecPhase.bits.getLsbD 1, s.ecPhase.bits.getLsbD 2,
    s.lzPhase.bits.getLsbD 0, s.lzPhase.bits.getLsbD 1, s.lzPhase.bits.getLsbD 2,
    s.tabBz.tstate.bit, s.tabAz.tstate.bit, s.tabLen.tstate.bit, s.tabSd.tstate.bit, s.tabLd.tstate.bit,
    s.encLastz]

theorem statusWord_getLsbD (s : State) (i : Nat) : (statusWord s).getLsbD i = (statusBits s).getD i false := by
  simp only [statusWord, BitVec.getLsbD_append, BitVec.getLsbD_ofBool, statusBits]
  by_cases hi : i < 17
  · interval_cases i <;> simp
  · rw [List.getD_eq_default _ _ (by simpa using hi)]
    iterate 13 rw [if_neg (by omega)]
    exact BitVec.getLsbD_zero

theorem statusWord_ecPhase (s : State) : (statusWord s).extractLsb' 5 3 = s.ecPhase.bits := by
  apply BitVec.eq_of_getLsbD_eq
  intro i hi
  rw [BitVec.getLsbD_extractLsb', statusWord_getLsbD, decide_eq_true hi, Bool.true_and]
  interval_cases i <;> rfl

theorem statusWord_lzPhase (s : State) : (statusWord s).extractLsb' 8 3 = s.lzPhase.bits := by
  apply BitVec.eq_of_getLsbD_eq
  intro i hi
  rw [BitVec.getLsbD_extractLsb', statusWord_getLsbD, decide_eq_true hi, Bool.true_and]
  interval_cases i <;> rfl

theorem statusWord_reserved (s : State) : (statusWord s).extractLsb' 17 15 = 0 := by
  apply BitVec.eq_of_getLsbD_eq
  intro i hi
  rw [BitVec.getLsbD_extractLsb', statusWord_getLsbD, decide_eq_true hi, Bool.true_and, List.getD_eq_default]
  · exact BitVec.getLsbD_zero.symm
  · exact Nat.le_add_right 17 i

theorem statusWord_tvalid (s : State) (t : Tab) :
    (statusWord s).getLsbD (11 + t.index) = (s.tab t).tstate.bit := by
  rw [statusWord_getLsbD]
  cases t <;> rfl

theorem TState.bit_eq_true {p : TState} : p.bit = true ↔ p = .valid := by
  cases p <;> decide

theorem EcPhase.mem_codes (p : EcPhase) : (p, p.bits.toNat) ∈
    [(EcPhase.collect, 0), (.finalized, 1), (.emit, 2), (.done, 3), (.decode, 4), (.eos, 5)] := by
  cases p <;> decide

theorem LzPhase.mem_codes (p : LzPhase) : (p, p.bits.toNat) ∈
    [(LzPhase.off, 0), (.collect, 1), (.finalized, 2), (.emit, 3), (.decode, 4)] := by
  cases p <;> decide

theorem rlCount_toNat {s : State} (h : s.rl.length < 2 ^ 32) : (rlCount s).toNat = s.rl.length := by
  rw [rlCount, if_pos h, BitVec.toNat_ofNat, Nat.mod_eq_of_lt h]

/-- Settles O7. -/
theorem statusShowsItsFields : Obligations.StatusShowsItsFields := by
  intro s
  have hec : (s.ecPhase, ((statusWord s).extractLsb' 5 3).toNat) ∈ _ :=
    statusWord_ecPhase s ▸ s.ecPhase.mem_codes
  have hlz : (s.lzPhase, ((statusWord s).extractLsb' 8 3).toNat) ∈ _ :=
    statusWord_lzPhase s ▸ s.lzPhase.mem_codes
  have htv : ∀ t : Tab, (statusWord s).getLsbD (11 + t.index) = true ↔ (s.tab t).tstate = .valid := fun t => by
    rw [statusWord_tvalid, TState.bit_eq_true]
  exact ⟨rfl, rfl, rfl, rfl, rfl, rfl, rfl, rfl, rfl, BitVec.toNat_setWidth_of_le (by decide),
    BitVec.toNat_setWidth_of_le (by decide), rlCount_toNat, rfl, rfl, BitVec.toNat_setWidth_of_le (by decide),
    BitVec.toNat_setWidth_of_le (by decide), BitVec.toNat_setWidth_of_le (by decide),
    BitVec.toNat_setWidth_of_le (by decide), BitVec.toNat_setWidth_of_le (by decide),
    BitVec.toNat_setWidth_of_le (by decide),
    statusWord_getLsbD s 0, statusWord_getLsbD s 1, statusWord_getLsbD s 2, statusWord_getLsbD s 3,
    statusWord_getLsbD s 4, hec, hlz, htv, statusWord_getLsbD s 16, statusWord_reserved s⟩

/-! ### Resets -/

/-- A reset block has every reset value (10_state R34). -/
theorem resetBlock_atResetValues (s : State) : AtResetValues (resetBlock s) where
  arg0 := rfl
  arg1 := rfl
  res0 := rfl
  res1 := rfl
  status := show statusWord State.reset = 0 by decide
  err := rfl
  errinfo := rfl
  bitsOut := rfl
  bitsIn := rfl
  xsize := rfl
  ysize := rfl
  hist t y := by rw [resetBlock_tab, TableMem.count_cleared]
  hmax t := by rw [resetBlock_tab, TableMem.cleared_hmax]
  len t y := by rw [resetBlock_tab, TableMem.lenAt_cleared]
  code t y := by rw [resetBlock_tab, TableMem.codeAt_cleared]
  tstate t := by rw [resetBlock_tab, TableMem.cleared_tstate]
  ctxEn := rfl
  ctxAz := rfl
  ecPhase := rfl
  runCnt := rfl
  rl := rfl
  encRem := rfl
  encLastz := rfl
  zpend := rfl
  eos := rfl
  cache i := by
    show (Vector.replicate 4 (0 : Half))[i.toNat] = 0
    rw [Vector.getElem_replicate]
  cur := rfl
  lzPhase := rfl

/-- Settles O11: both resets are `resetBlock`, and the reset state is a reset block. -/
theorem resetsGiveTheStatedValues : Obligations.ResetsGiveTheStatedValues :=
  ⟨resetBlock_atResetValues State.reset, fun s =>
    ⟨resetBlock s, rfl, rfl, resetBlock_atResetValues s, rfl, rfl, rfl, rfl, rfl⟩⟩

end Sys2Proof.Machine
end

section
/-! SUPPORT. The bits that `WriteBits` appends and the number that `ReadBits` returns, written out by place
value, and the statements of 20_memory.md: O16, O17. -/

namespace Sys2Proof.Machine

open Sys2Proof

/-! ### Counting and place value -/

/-- A bit counter is a 32-bit word, so that moving it on is addition modulo `2^32` (20_memory R42, R43). -/
theorem add_ofNat_eq_ofNat_mod (c : BitVec 32) (n : Nat) :
    c + BitVec.ofNat 32 n = BitVec.ofNat 32 ((c.toNat + n) % 2 ^ 32) := by
  apply BitVec.eq_of_toNat_eq
  rw [BitVec.toNat_add, BitVec.toNat_ofNat, BitVec.toNat_ofNat, Nat.add_mod_mod, Nat.mod_mod]

/-- The head of a list of bits as a sum of place values, the first bit most significant (20_memory R43). -/
theorem ofBitsMsb_take {n : Nat} {l : List Bool} (h : n ≤ l.length) :
    ofBitsMsb (l.take n)
      = ((List.range n).map fun k => (l.getD k false).toNat * 2 ^ (n - 1 - k)).sum := by
  induction n generalizing l with
  | zero => rfl
  | succ n ih =>
    cases l with
    | nil => simp at h
    | cons b l =>
      have hl : n ≤ l.length := Nat.le_of_succ_le_succ h
      have hplace : ∀ k, n - 1 - k = n - (k + 1) := by omega
      rw [List.take_succ_cons, ofBitsMsb_cons, List.length_take_of_le hl, ih hl, List.range_succ_eq_map]
      simp [Function.comp_def, hplace]

/-! ### The statements -/

/-- Settles O16. -/
theorem writeBitsAppendsMostSignificantFirst : Obligations.WriteBitsAppendsMostSignificantFirst := by
  intro n v s _ _
  rw [writeBits, bitsMsb_eq_map, add_ofNat_eq_ofNat_mod]

/-- Settles O17: a read takes the bits that `splitBits` takes, which are the first `n`. -/
theorem readBitsTakesTheHeadOfIn : Obligations.ReadBitsTakesTheHeadOfIn := by
  intro n s _ _
  refine ⟨fun hshort => readBits_eq_error.mpr ⟨hshort, rfl⟩, fun henough => readBits_eq_ok.mpr ?_⟩
  rw [add_ofNat_eq_ofNat_mod]
  exact ⟨s.chanIn.take n, List.length_take_of_le henough, (List.take_append_drop n s.chanIn).symm,
    (ofBitsMsb_take henough).symm, rfl⟩

end Sys2Proof.Machine
end

section
/-! SUPPORT. A command word as its three fields, the decoder and the opcode map in terms of them, the exact
faults, and the statements of 30_encoding.md: O1, O2, O3, O4, O12. -/

namespace Sys2Proof

open Sys2Proof.Machine

/-! ### The fields of a command word -/

/-- The opcode as a number (30_encoding R60). -/
theorem opcodeField_toNat (w : Word) : (opcodeField w).toNat = w.toNat % 256 := by
  rw [opcodeField, BitVec.extractLsb'_toNat, Nat.shiftRight_zero]

/-- The table select as a number (30_encoding R60). -/
theorem tselField_toNat (w : Word) : (tselField w).toNat = w.toNat / 256 % 8 := by
  rw [tselField, BitVec.extractLsb'_toNat, Nat.shiftRight_eq_div_pow]

/-- The reserved field as a number (30_encoding R60). -/
theorem reservedField_toNat (w : Word) : (reservedField w).toNat = w.toNat / 2048 := by
  have hw := w.isLt
  rw [reservedField, BitVec.extractLsb'_toNat, Nat.shiftRight_eq_div_pow]
  omega

/-- Two words are equal exactly if their fields are: 30_encoding R60 leaves no bit out. -/
theorem word_eq_iff_fields {v w : Word} :
    v = w ↔ reservedField v = reservedField w ∧ tselField v = tselField w ∧ opcodeField v = opcodeField w := by
  refine ⟨fun h => h ▸ ⟨rfl, rfl, rfl⟩, fun ⟨hr, ht, ho⟩ => BitVec.eq_of_toNat_eq ?_⟩
  rw [← BitVec.toNat_inj, reservedField_toNat, reservedField_toNat] at hr
  rw [← BitVec.toNat_inj, tselField_toNat, tselField_toNat] at ht
  rw [← BitVec.toNat_inj, opcodeField_toNat, opcodeField_toNat] at ho
  omega

/-- The words that encode a command, field by field. -/
theorem encode_eq_iff {i : Instr} {w : Word} :
    encode i = w ↔ reservedField w = 0 ∧ tselField w = i.tsel ∧ opcodeField w = i.opcode := by
  obtain ⟨ho, ht, hr⟩ := Laws.EncodingOf.fields_of_append 0 i.tsel i.opcode
  rw [word_eq_iff_fields, encode, ho, ht, hr, eq_comm, eq_comm (a := i.tsel), eq_comm (a := i.opcode)]

/-- A mask acts on each field by itself. -/
theorem and_eq_iff_fields {w mask v : Word} :
    w &&& mask = v ↔ reservedField w &&& reservedField mask = reservedField v
      ∧ tselField w &&& tselField mask = tselField v ∧ opcodeField w &&& opcodeField mask = opcodeField v := by
  rw [word_eq_iff_fields]
  simp only [reservedField, tselField, opcodeField, BitVec.extractLsb'_and]

/-! ### The decoder -/

theorem decodePlain_eq_ok {i j : Instr} {t : BitVec 3} : decodePlain j t = .ok i ↔ t = 0 ∧ j = i := by
  unfold decodePlain
  split
  · next h => simp only [h, Except.ok.injEq, true_and]
  · next h => simp only [h, reduceCtorEq, false_and]

theorem decodeTable_eq_ok {i : Instr} {f : BitVec 3 → Instr} {t : BitVec 3} :
    decodeTable f t = .ok i ↔ t.toNat ≤ 4 ∧ f t = i := by
  unfold decodeTable
  split
  · next h => simp only [h, Except.ok.injEq, true_and]
  · next h => simp only [h, reduceCtorEq, false_and]

/-- The opcode map selects a command by its own opcode and keeps the table select. -/
theorem fields_of_decodeOpcode {op : Nat} {t : BitVec 3} {i : Instr} (h : decodeOpcode op t = .ok i) :
    op = i.opcode.toNat ∧ t = i.tsel := by
  unfold decodeOpcode at h
  split at h
  case h_28 => cases h
  case h_3 | h_4 | h_5 | h_6 | h_7 | h_8 | h_9 | h_10 | h_11 | h_12 =>
    obtain ⟨-, rfl⟩ := decodeTable_eq_ok.mp h
    exact ⟨rfl, rfl⟩
  all_goals
    obtain ⟨rfl, rfl⟩ := decodePlain_eq_ok.mp h
    exact ⟨rfl, rfl⟩

theorem Instr.wf_iff {i : Instr} : i.wf = true ↔ i.tsel.toNat ≤ 4 := decide_eq_true_iff

/-- The opcode map has every well-formed command under its opcode. -/
theorem decodeOpcode_opcode {i : Instr} (h : i.wf = true) : decodeOpcode i.opcode.toNat i.tsel = .ok i := by
  have ht := Instr.wf_iff.mp h
  cases i with
  | histClear | addSymbol | buildTable | writeTable | readTable | encSym | decSym | getCount | getLen | getMax =>
    exact decodeTable_eq_ok.mpr ⟨ht, rfl⟩
  | _ => exact decodePlain_eq_ok.mpr ⟨rfl, rfl⟩

/-- Decoding, as a condition on the fields of the word. -/
theorem decode_eq_ok {w : Word} {i : Instr} :
    decode w = .ok i ↔
      i.wf = true ∧ reservedField w = 0 ∧ tselField w = i.tsel ∧ opcodeField w = i.opcode := by
  constructor
  · intro h
    have hwf := wf_of_decode h
    unfold decode at h
    split at h
    · cases h
    · next hr =>
      obtain ⟨ho, ht⟩ := fields_of_decodeOpcode h
      exact ⟨hwf, not_not.mp hr, ht, BitVec.eq_of_toNat_eq ho⟩
  · rintro ⟨hwf, hr, ht, ho⟩
    rw [decode, if_neg (not_not.mpr hr), ht, ho, decodeOpcode_opcode hwf]

/-- Settles O1: both sides put the same condition on the fields of the word. -/
theorem decodeAndEncodeAgree : Obligations.DecodeAndEncodeAgree := fun w i => by
  rw [decode_eq_ok, encode_eq_iff]

/-! ### The opcode map -/

/-- Whether the format of a command is T or TS, so that its `tsel` names a table (30_encoding R61). -/
def Instr.tabled (i : Instr) : Bool :=
  i.format = .T ∨ i.format = .TS

/-- Whether a `tsel` is legal for a command of format T or TS, or for one of the other formats
(30_encoding R64). -/
def tselFits (tabled : Bool) (t : BitVec 3) : Bool :=
  if tabled then t.toNat ≤ 4 else t = 0

theorem Instr.wf_eq_tselFits (i : Instr) : i.wf = tselFits i.tabled i.tsel := by
  cases i <;> rfl

/-- What the rows of the opcode map have in common (30_encoding R63): a row's mask leaves out `tsel` exactly in
formats T and TS, and its match has an opcode only. -/
theorem opcodeMap_masks : ∀ r ∈ opcodeMap,
    reservedField r.mask = BitVec.allOnes 21 ∧ opcodeField r.mask = BitVec.allOnes 8
      ∧ tselField r.mask = (if r.tabled then 0 else BitVec.allOnes 3)
      ∧ reservedField r.matchWord = 0 ∧ tselField r.matchWord = 0 := by
  decide

/-- The mask, match and `tsel` rule of a row (30_encoding R63), as a condition on the fields of the word. -/
theorem spelledBy_iff {r : OpcodeRow} (hr : r ∈ opcodeMap) {w : Word} :
    r.spelledBy w ↔ reservedField w = 0 ∧ opcodeField w = opcodeField r.matchWord
      ∧ tselFits r.tabled (tselField w) = true := by
  obtain ⟨hres, hop, htsel, hres0, htsel0⟩ := opcodeMap_masks r hr
  rw [OpcodeRow.spelledBy, and_eq_iff_fields, hres, hop, htsel, hres0, htsel0, BitVec.and_allOnes,
    BitVec.and_allOnes]
  cases r.tabled with
  | false =>
    have hall : tselField w &&& BitVec.allOnes 3 = tselField w := BitVec.and_allOnes
    simp only [tselFits, Bool.false_eq_true, if_false, hall, decide_eq_true_eq, false_implies, and_true]
    exact and_congr_right fun _ => and_comm
  | true =>
    have hnone : tselField w &&& 0 = 0 := BitVec.and_zero
    simp only [tselFits, if_true, hnone, decide_eq_true_eq, true_implies, true_and, and_assoc]

/-- Every command has a row with its opcode and its kind of format. -/
theorem exists_row_of_instr (i : Instr) :
    ∃ r ∈ opcodeMap, opcodeField r.matchWord = i.opcode ∧ r.tabled = i.tabled := by
  cases i <;> decide +revert

/-- Every row has a command at each table select that fits. -/
theorem decodeOpcode_isSome_of_row : ∀ r ∈ opcodeMap, ∀ t : BitVec 3, tselFits r.tabled t = true →
    (decodeOpcode (opcodeField r.matchWord).toNat t).toOption.isSome = true := by
  decide

/-- A word that a row spells decodes to a command with the row's opcode. -/
theorem decode_of_spelledBy {r : OpcodeRow} (hr : r ∈ opcodeMap) {w : Word} (h : r.spelledBy w) :
    ∃ i, decode w = .ok i ∧ i.opcode = opcodeField r.matchWord := by
  obtain ⟨hres, hop, htsel⟩ := (spelledBy_iff hr).mp h
  have hsome := decodeOpcode_isSome_of_row r hr _ htsel
  rw [← hop] at hsome ⊢
  cases hd : decode w with
  | ok i =>
    obtain ⟨-, -, -, hi⟩ := decode_eq_ok.mp hd
    exact ⟨i, rfl, hi.symm⟩
  | error e =>
    rw [decode, if_neg (not_not.mpr hres)] at hd
    rw [hd] at hsome
    cases hsome

/-- A word that decodes to a command is spelled by a row. -/
theorem spelledBy_of_decode {w : Word} {i : Instr} (h : decode w = .ok i) : ∃ r ∈ opcodeMap, r.spelledBy w := by
  obtain ⟨hwf, hres, htsel, hop⟩ := decode_eq_ok.mp h
  obtain ⟨r, hr, hrop, htab⟩ := exists_row_of_instr i
  refine ⟨r, hr, (spelledBy_iff hr).mpr ⟨hres, hop.trans hrop.symm, ?_⟩⟩
  rw [htab, htsel, ← Instr.wf_eq_tselFits, hwf]

/-- The words that are refused are those that no row spells (30_encoding R63). -/
theorem decode_eq_error_iff_not_spelledBy {w : Word} :
    (∃ e, decode w = .error e) ↔ ∀ r ∈ opcodeMap, ¬ r.spelledBy w := by
  constructor
  · rintro ⟨e, he⟩ r hr h
    obtain ⟨i, hi, -⟩ := decode_of_spelledBy hr h
    cases he.symm.trans hi
  · intro hno
    cases hd : decode w with
    | ok i =>
      obtain ⟨r, hr, h⟩ := spelledBy_of_decode hd
      exact absurd h (hno r hr)
    | error e => exact ⟨e, rfl⟩

/-- Settles O2. -/
theorem opcodeMapSpellsTheCommands : Obligations.OpcodeMapSpellsTheCommands := fun _ =>
  ⟨fun _ hr h => decode_of_spelledBy hr h, decode_eq_error_iff_not_spelledBy.mpr⟩

/-- Settles O3: each word is decoded by evaluation. -/
theorem sampleWordsDecode : Obligations.SampleWordsDecode :=
  ⟨rfl, rfl, rfl, rfl, rfl, rfl, rfl, rfl, rfl, rfl, rfl⟩

/-! ### Illegal words -/

/-- The opcodes of the rows of one kind of format, as numbers. -/
def rowOpcodes (tabled : Bool) : List Nat :=
  (opcodeMap.filter fun r => r.tabled = tabled).map fun r => (opcodeField r.matchWord).toNat

/-- A row spells a word exactly if the word's reserved bits are 0 and its `tsel` fits a kind of format that has
its opcode. -/
theorem exists_spelledBy_iff {w : Word} :
    (∃ r ∈ opcodeMap, r.spelledBy w) ↔ reservedField w = 0
      ∧ ∃ tabled, (opcodeField w).toNat ∈ rowOpcodes tabled ∧ tselFits tabled (tselField w) = true := by
  constructor
  · rintro ⟨r, hr, h⟩
    obtain ⟨hres, hop, htsel⟩ := (spelledBy_iff hr).mp h
    exact ⟨hres, r.tabled, List.mem_map.mpr ⟨r, List.mem_filter.mpr ⟨hr, by simp⟩, by rw [hop]⟩, htsel⟩
  · rintro ⟨hres, tabled, hmem, htsel⟩
    obtain ⟨r, hrow, hop⟩ := List.mem_map.mp hmem
    obtain ⟨hr, htab⟩ := List.mem_filter.mp hrow
    obtain rfl := of_decide_eq_true htab
    exact ⟨r, hr, (spelledBy_iff hr).mpr ⟨hres, (BitVec.eq_of_toNat_eq hop).symm, htsel⟩⟩

theorem rowOpcodes_true :
    rowOpcodes true = [0x10, 0x11, 0x12, 0x13, 0x14, 0x15, 0x16, 0x17, 0x18, 0x19] := by
  decide

theorem rowOpcodes_false :
    rowOpcodes false = [0x00, 0x01, 0x20, 0x21, 0x22, 0x23, 0x24, 0x25, 0x28, 0x29,
      0x30, 0x31, 0x32, 0x33, 0x34, 0x38, 0x39] := by
  decide

/-- No opcode is of both kinds of format (30_encoding R63). -/
theorem rowOpcodes_disjoint : ∀ op ∈ rowOpcodes true, op ∉ rowOpcodes false := by
  decide

/-- The four ways in which a word can be illegal (30_encoding R64). -/
theorem decode_eq_error_iff_illegalFields {w : Word} :
    (∃ e, decode w = .error e) ↔
      w.toNat / 2048 ≠ 0
        ∨ (w.toNat % 256 ∉ rowOpcodes true ∧ w.toNat % 256 ∉ rowOpcodes false)
        ∨ (w.toNat % 256 ∈ rowOpcodes false ∧ w.toNat / 256 % 8 ≠ 0)
        ∨ (w.toNat % 256 ∈ rowOpcodes true ∧ 4 < w.toNat / 256 % 8) := by
  have hdisj := rowOpcodes_disjoint (w.toNat % 256)
  have hno : (∃ e, decode w = .error e) ↔ ¬ ∃ r ∈ opcodeMap, r.spelledBy w := by
    rw [decode_eq_error_iff_not_spelledBy]; simp
  have hres : reservedField w = 0 ↔ w.toNat / 2048 = 0 := by
    rw [← BitVec.toNat_inj, reservedField_toNat]; rfl
  have htabled : tselFits true (tselField w) = true ↔ ¬ 4 < w.toNat / 256 % 8 := by
    simp [tselFits, tselField_toNat]
  have hplain : tselFits false (tselField w) = true ↔ w.toNat / 256 % 8 = 0 := by
    simp [tselFits, ← BitVec.toNat_inj, tselField_toNat]
  rw [hno, exists_spelledBy_iff, Bool.exists_bool, opcodeField_toNat, hres, htabled, hplain]
  by_cases htab : w.toNat % 256 ∈ rowOpcodes true
  · simp only [htab, hdisj htab, true_and, false_and, not_true, false_or]
    omega
  · by_cases hpl : w.toNat % 256 ∈ rowOpcodes false
    · simp only [htab, hpl, true_and, false_and, and_false, not_true, false_or, or_false]
      omega
    · simp only [htab, hpl, false_and, not_false_eq_true, or_self, and_false, and_true, true_or, or_true]

end Sys2Proof

namespace Sys2Proof.Machine

open Sys2Proof Host

/-! ### Exact faults -/

/-- A command outside the fault state that raises an exact fault changes nothing but `ERR` and `ERRINFO`
(60_exceptions R196). -/
theorem runCommand_exactFault {op : BitVec 8} {s : State} {body : Except Raise State} {r : Raise}
    (he : s.err = false) (hr : r.exact = true) (h : body = .error r) :
    runCommand op s body = .next (exactFault op.toNat r.cls.toNat r.code.toNat s) := by
  rw [runCommand_of_error he h, enterFault_of_exact hr]

/-- Settles O4: the lists of the statement are the opcodes of the opcode map. -/
theorem illegalWordRaisesAndChangesNothingElse : Obligations.IllegalWordRaisesAndChangesNothingElse := by
  intro w s he
  have hillegal := decode_eq_error_iff_illegalFields (w := w)
  rw [rowOpcodes_true, rowOpcodes_false] at hillegal
  refine ⟨hillegal, fun ⟨e, hd⟩ => ?_⟩
  unfold issueCommand
  rw [hd, ← opcodeField_toNat]
  exact runCommand_exactFault he (r := .contract .illegalCmd) rfl rfl

/-! ### Operands out of range -/

/-- A command whose first check is of its operands takes `CV_OPERAND` if they are out of range. -/
theorem runCommand_operandFault {op : BitVec 8} {s : State} {α : Type} {x : Except Raise α}
    {f : α → Except Raise State} (he : s.err = false) (hx : x = .error (.contract .operand)) :
    runCommand op s (x >>= f) = .next (exactFault op.toNat 2 2 s) :=
  runCommand_exactFault he (r := .contract .operand) rfl (by rw [hx, error_bind])

/-- A command of format TS, on a table, takes `CV_OPERAND` if its symbol is not of the alphabet. -/
theorem runCommand_symFault {op : BitVec 8} {t : BitVec 3} {tab : Tab} {s : State}
    {f : Tab → Nat → Except Raise State} (he : s.err = false) (ht : Tab.ofSel t = some tab)
    (hsym : nsym tab ≤ s.arg0.toNat) :
    runCommand op s (tableOperand t >>= fun tab => symOperand tab s >>= f tab)
      = .next (exactFault op.toNat 2 2 s) := by
  rw [tableOperand_eq_ok.mpr ht, ok_bind]
  exact runCommand_operandFault he (by rw [symOperand_eq, if_neg (Nat.not_lt.mpr hsym)])

/-- Settles O12, format by format: each command checks its operands before its phase and its tables. -/
theorem operandsOutOfRangeAreRefused : Obligations.OperandsOutOfRangeAreRefused := by
  intro s he
  refine ⟨fun t tab ht hsym => ?_, fun hctx => ?_, fun hbyte => ?_, fun hsize => ?_, fun hmatch => ?_⟩
  · exact ⟨runCommand_symFault he ht hsym, runCommand_symFault he ht hsym, runCommand_symFault he ht hsym,
      runCommand_symFault he ht hsym⟩
  · have hx : ctxOperand s = .error (.contract .operand) := by rw [ctxOperand_eq, if_neg (by omega)]
    exact ⟨runCommand_operandFault he hx, runCommand_operandFault he hx⟩
  · have hx : byteOperand s = .error (.contract .operand) := by rw [byteOperand_eq, if_neg (by omega)]
    have hesc : escOperand s = .error (.contract .operand) := by rw [escOperand_eq, if_neg (by omega)]
    exact ⟨runCommand_operandFault he hx, runCommand_operandFault he hx, runCommand_operandFault he hesc⟩
  · have hx : sizeOperands s = .error (.contract .operand) := by rw [sizeOperands_eq, if_neg (by omega)]
    exact ⟨runCommand_operandFault he hx, runCommand_operandFault he hx⟩
  · have hx : matchOperands s = .error (.contract .operand) := by rw [matchOperands_eq, if_neg (by omega)]
    exact ⟨runCommand_operandFault he hx, runCommand_operandFault he hx⟩

end Sys2Proof.Machine
end

section
/-! SUPPORT. The lengths built from a histogram as 40_canonical_code_builder R83 to R86 say them, the canonical codes
as shares, and what the commands of the code builder do; the statements of 40_canonical_code_builder.md: O19 to
O25. -/

namespace Sys2Proof.Machine

open Sys2Proof

/-! ### The used symbols and their depths -/

/-- The symbols listed as used are those with a count (40_canonical_code_builder R83). -/
theorem mem_usedFrom_symbols {n : Nat} {hist : Vector (BitVec 32) n} {y : Nat} (h : y < n) :
    y ∈ (usedFrom 0 hist.toList).map Prod.fst ↔ hist[y] ≠ 0 := by
  simp only [List.mem_map, Prod.exists, exists_and_right, exists_eq_right, mem_usedFrom]
  constructor
  · rintro ⟨_, c, -, hc, h0, -⟩
    have he : hist[y] = c := by simpa [h] using hc
    exact he ▸ h0
  · exact fun h0 => ⟨_, hist[y], Nat.zero_le _, by simp [h], h0, rfl⟩

/-- What the loop of R85 answers, started on the used symbols: the depths of the construction after the rounds
counted, before each of which some depth was over 16 (40_canonical_code_builder R85). -/
theorem limitLoop_start (u : List (Nat × Nat)) :
    ∃ r ≤ 32, limitLoop 32 0 u = (huffDepths (rescaled u r), r)
      ∧ ∀ k < r, ∃ sd ∈ huffDepths (rescaled u k), 16 < sd.2 := by
  obtain ⟨d, r, hdr⟩ : ∃ d r, limitLoop 32 0 u = (d, r) := ⟨_, _, rfl⟩
  have hloop : limitLoop 32 0 (rescaled u 0) = (d, r) := by rw [rescaled_zero, hdr]
  obtain ⟨rfl, -, hr, hover, -⟩ := limitLoop_eq hloop
  exact ⟨r, by omega, hdr, fun k hk => hover k (Nat.zero_le k) hk⟩

/-- With at most one used symbol there is no rescaling (40_canonical_code_builder R83). -/
theorem lengthsOfUsed_rounds_eq_zero {u : List (Nat × Nat)} (h : u.length ≤ 1) : (lengthsOfUsed u).2 = 0 := by
  match u, h with
  | [], _ => rfl
  | [_], _ => rfl

/-- There are at most 32 rounds of rescaling (40_canonical_code_builder R86). -/
theorem lengthsOfUsed_rounds_le (u : List (Nat × Nat)) : (lengthsOfUsed u).2 ≤ 32 := by
  by_cases h : 2 ≤ u.length
  · obtain ⟨r, hr, hloop, -⟩ := limitLoop_start u
    rwa [lengthsOfUsed_of_two_le h, hloop]
  · rw [lengthsOfUsed_rounds_eq_zero (by omega)]
    exact Nat.zero_le _

/-- The depths list exactly the used symbols, in every case of R83. -/
theorem lengthsOfUsed_symbols {u : List (Nat × Nat)} (h : (u.map Prod.fst).Nodup) :
    ((lengthsOfUsed u).1.map Prod.fst).Perm (u.map Prod.fst) := by
  match u, h with
  | [], _ => exact .refl _
  | [_], _ => exact .refl _
  | a :: b :: u, h =>
    obtain ⟨r, -, hloop, -⟩ := limitLoop_start (a :: b :: u)
    rw [lengthsOfUsed_of_two_le (by simp), hloop, ← rescaled_fst (a :: b :: u) r]
    exact huffDepths_symbols (by simp [rescaled]) (by rwa [rescaled_fst])

/-- The length of a symbol with a depth is that depth. -/
theorem DepthTable.toNat_lengthsOfDepths {n : Nat} {d : List (Nat × Nat)} (h : DepthTable n d) {y k : Nat}
    (hy : y < n) (hm : (y, k) ∈ d) : (lengthsOfDepths n d)[y].toNat = k := by
  obtain ⟨-, hle⟩ := h.range _ hm
  simp only [lengthsOfDepths, Vector.getElem_ofFn, depthOf_eq h.nodup hm, BitVec.toNat_ofNat]
  exact Nat.mod_eq_of_lt (by omega)

/-- The symbols without a code are those without a depth. -/
theorem DepthTable.lengthsOfDepths_eq_zero_iff {n : Nat} {d : List (Nat × Nat)} (h : DepthTable n d) {y : Nat}
    (hy : y < n) : (lengthsOfDepths n d)[y] = 0 ↔ y ∉ d.map Prod.fst := by
  constructor
  · intro h0 hmem
    obtain ⟨⟨_, k⟩, hm, rfl⟩ := List.mem_map.mp hmem
    have hk := h.toNat_lengthsOfDepths hy hm
    rw [h0] at hk
    exact absurd hk (Nat.ne_of_lt (h.range _ hm).1)
  · intro hmem
    simp [lengthsOfDepths, depthOf_eq_zero hmem]

/-! ### The lengths built -/

/-- A symbol has no code exactly if it has no count (40_canonical_code_builder R83). -/
theorem buildLengths_eq_zero_iff {n : Nat} {hist : Vector (BitVec 32) n} (hn : n ≤ 384) {y : Nat} (h : y < n) :
    (buildLengths hist).1[y] = 0 ↔ hist[y] = 0 := by
  obtain ⟨d, hd, htab, -⟩ := lengthsOfUsed_depthTable (cs := hist.toList) (by simpa using hn)
  rw [Vector.length_toList] at htab
  have hsym := (lengthsOfUsed_symbols (nodup_usedFrom 0 hist.toList)).mem_iff (a := y)
  rw [hd, mem_usedFrom_symbols h] at hsym
  simp only [buildLengths_eq, hd]
  rw [htab.lengthsOfDepths_eq_zero_iff h, hsym, not_not]

/-- A lone used symbol has length 1 (40_canonical_code_builder R83). -/
theorem buildLengths_eq_one_of_lone {n : Nat} {hist : Vector (BitVec 32) n}
    (h1 : (hist.toList.countP fun x => x != 0) = 1) {y : Nat} (h : y < n) (h0 : hist[y] ≠ 0) :
    (buildLengths hist).1[y] = 1 := by
  rw [← length_usedFrom 0] at h1
  obtain ⟨sw, hu⟩ := List.length_eq_one_iff.mp h1
  have hy : y = sw.1 := by simpa [hu] using (mem_usedFrom_symbols h).mpr h0
  simp [buildLengths_getElem, hu, lengthsOfUsed, hy, depthOf]

/-- From two used symbols on, the lengths are a complete code (40_canonical_code_builder R93). -/
theorem buildLengths_kraftSum {n : Nat} {hist : Vector (BitVec 32) n} (hn : n ≤ 384)
    (h2 : 2 ≤ hist.toList.countP fun x => x != 0) : kraftSum (buildLengths hist).1.toList = 65536 := by
  obtain ⟨d, hd, htab, hcase⟩ := lengthsOfUsed_depthTable (cs := hist.toList) (by simpa using hn)
  rw [Vector.length_toList] at htab
  have hlen := (lengthsOfUsed_symbols (nodup_usedFrom 0 hist.toList)).length_eq
  rw [hd, List.length_map, List.length_map, length_usedFrom] at hlen
  rcases hcase with rfl | ⟨y, rfl⟩ | hk
  · rw [← hlen] at h2; simp at h2
  · rw [← hlen] at h2; simp at h2
  · have hsum := htab.kraftSum_eq
    rw [hk, mul_one] at hsum
    rw [buildLengths_eq, hd]
    exact_mod_cast hsum

/-- From two used symbols on, the lengths are the depths of the merges after the rescalings counted, none over
16, and before each rescaling some depth was over 16 (40_canonical_code_builder R84, R85). -/
theorem buildLengths_depthsAfter {n : Nat} {hist : Vector (BitVec 32) n} (hn : n ≤ 384)
    (h2 : 2 ≤ hist.toList.countP fun x => x != 0) :
    (∀ k < (buildLengths hist).2, ∃ d, DepthsAfter hist k d ∧ ∃ sd ∈ d, 16 < sd.2)
      ∧ ∃ d, DepthsAfter hist (buildLengths hist).2 d ∧ (∀ sd ∈ d, sd.2 ≤ 16)
        ∧ ∀ (y : Nat) (h : y < n), hist[y] ≠ 0 → (y, (buildLengths hist).1[y].toNat) ∈ d := by
  rw [← length_usedFrom 0] at h2
  have hne : usedFrom 0 hist.toList ≠ [] := fun e => by simp [e] at h2
  obtain ⟨r, -, hloop, hover⟩ := limitLoop_start (usedFrom 0 hist.toList)
  have hused : lengthsOfUsed (usedFrom 0 hist.toList) = (huffDepths (rescaled (usedFrom 0 hist.toList) r), r) := by
    rw [lengthsOfUsed_of_two_le h2, hloop]
  obtain ⟨d, hd, htab, -⟩ := lengthsOfUsed_depthTable (cs := hist.toList) (by simpa using hn)
  rw [Vector.length_toList] at htab
  have hr : (buildLengths hist).2 = r := congrArg Prod.snd hused
  have hdr : huffDepths (rescaled (usedFrom 0 hist.toList) r) = d := by rw [← hd, hused]
  rw [hr]
  refine ⟨fun k hk => ⟨_, depthsAfter_huffDepths hist k hne, hover k hk⟩,
    d, hdr ▸ depthsAfter_huffDepths hist r hne, fun sd hm => (htab.range sd hm).2, fun y hy h0 => ?_⟩
  have hmem : y ∈ d.map Prod.fst := hd ▸
    (lengthsOfUsed_symbols (nodup_usedFrom 0 hist.toList)).mem_iff.mpr ((mem_usedFrom_symbols hy).mpr h0)
  obtain ⟨⟨_, k⟩, hm, rfl⟩ := List.mem_map.mp hmem
  simp only [buildLengths_eq, hd]
  rwa [htab.toNat_lengthsOfDepths hy hm]

/-- Settles O19: the loop stops at its fuel at the latest, and with the fuel used up every weight is 1. -/
theorem rescalingEndsByItsTest : Obligations.RescalingEndsByItsTest := by
  intro n hist hn
  obtain ⟨d, hd, htab, -⟩ := lengthsOfUsed_depthTable (cs := hist.toList) (by simpa using hn)
  refine ⟨lengthsOfUsed_rounds_le _, ?_⟩
  rw [hd]
  exact maxDepth_le.mpr fun sd hm => (htab.range sd hm).2

/-- Settles O20. -/
theorem builtLengthsAreACompleteCode : Obligations.BuiltLengthsAreACompleteCode := by
  intro n hist hn
  refine ⟨fun y h => ⟨buildLengths_eq_zero_iff hn h, (buildLengths_good hist hn).1 _ (by simp)⟩,
    fun h1 y h h0 => buildLengths_eq_one_of_lone h1 h h0, fun h1 => ?_,
    fun h2 => ⟨buildLengths_kraftSum hn h2, buildLengths_depthsAfter hn h2⟩⟩
  rw [← length_usedFrom 0] at h1
  exact lengthsOfUsed_rounds_eq_zero h1

/-! ### Canonical codes -/

/-- An unused symbol has code 0 (40_canonical_code_builder R87). -/
theorem assignCodes_eq_zero {n : Nat} {L : Vector (BitVec 5) n} {y : Nat} (h : y < n) (h0 : L[y] = 0) :
    (assignCodes L)[y] = 0 := by
  have hget := assignFrom_getElem?_zero (next := (List.range 17).map (firstCode L.toList)) (ls := L.toList)
    (i := y) (by simp [h, h0])
  obtain ⟨_, hget⟩ := List.getElem?_eq_some_iff.mp hget
  exact hget

/-- The shares before a symbol, as a sum over the list of symbols. -/
theorem shareBefore_eq_sum_range {n : Nat} (L : Vector (BitVec 5) n) {y : Nat} (h : y < n) :
    shareBefore L y = ((List.range n).map fun z =>
      let l := ((L[z]?).getD 0).toNat
      if l ≠ 0 ∧ (l < L[y].toNat ∨ (l = L[y].toNat ∧ z < y)) then 2 ^ (16 - l) else 0).sum := by
  rw [sum_map_eq_sum_range 0, List.length_range, shareBefore]
  refine Finset.sum_congr rfl fun z hz => ?_
  have hz : z < n := Finset.mem_range.mp hz
  have hzero : L[z].toNat = 0 ↔ L[z] = 0 := BitVec.toNat_inj (y := 0)
  simp only [List.getElem?_range hz, Option.getD_some, Precedes, lengthIn_of_lt L h, lengthIn_of_lt L hz, shareOf,
    Vector.getElem?_eq_getElem hz, lengthShare, ne_eq, hzero]
  by_cases h0 : L[z] = 0
  · simp [h0]
  · simp only [h0, not_false_eq_true, true_and, if_false]

/-- Settles O21. -/
theorem canonicalCodeIsTheShareOfItsPredecessors : Obligations.CanonicalCodeIsTheShareOfItsPredecessors := by
  intro n L h16 hk y h
  refine ⟨assignCodes_eq_zero h, fun h0 => ⟨assignCodes_lt h16 hk h h0, ?_⟩⟩
  rw [assignCodes_mul_eq_shareBefore h16 hk h h0, shareBefore_eq_sum_range L h]

/-! ### The commands of the code builder -/

/-- A command of format T, on a table, runs its body on that table. -/
theorem runCommand_tableOperand {op : BitVec 8} {t : BitVec 3} {tab : Tab} {s s' : State}
    {f : Tab → Except Raise State} (he : s.err = false) (ht : Tab.ofSel t = some tab) (h : f tab = .ok s') :
    runCommand op s (tableOperand t >>= f) = .next s' :=
  runCommand_of_ok he (by rw [tableOperand_eq_ok.mpr ht, ok_bind, h])

/-- A command of format TS, on a table and a symbol of its alphabet, runs its body on them. -/
theorem runCommand_symOperand {op : BitVec 8} {t : BitVec 3} {tab : Tab} {s s' : State}
    {f : Tab → Nat → Except Raise State} (he : s.err = false) (ht : Tab.ofSel t = some tab)
    (hsym : s.arg0.toNat < nsym tab) (h : f tab s.arg0.toNat = .ok s') :
    runCommand op s (tableOperand t >>= fun tab => symOperand tab s >>= f tab) = .next s' :=
  runCommand_tableOperand he ht (by rw [symOperand_eq, if_pos hsym, ok_bind, h])

/-- Settles O22. -/
theorem histClearMakesTheTableNew : Obligations.HistClearMakesTheTableNew := by
  intro t tab s ht he
  refine ⟨histClear tab s, runCommand_tableOperand he ht rfl, ?_, fun y => ?_, ?_, ?_⟩
  · rw [histClear_tab]; rfl
  · simp
  · simp
  · simp

/-- Settles O23. -/
theorem addSymbolCountsOneOccurrence : Obligations.AddSymbolCountsOneOccurrence := by
  intro t tab s ht he hsym hcollect
  refine ⟨s.setTab tab ((s.tab tab).addOne s.arg0.toNat),
    runCommand_symOperand he ht hsym (addSymbol_eq_ok.mpr ⟨hcollect, rfl⟩), ?_, ?_⟩
  · rw [State.tab_setTab]
  · rw [State.tab_setTab]
    exact CountsAdded.addOne _ hsym

/-- A histogram as the list of its counts by symbol. -/
theorem TableMem.hist_toList {n : Nat} (m : TableMem n) : m.hist.toList = (List.range n).map m.count := by
  apply List.ext_getElem
  · simp
  · intro y hy _
    simp [m.count_of_lt (y := y) (by simpa using hy)]

/-- The symbols with a count, counted over the histogram and over the alphabet. -/
theorem TableMem.countP_hist {n : Nat} (m : TableMem n) :
    (m.hist.toList.countP fun c => c != 0) = (List.range n).countP fun y => m.count y != 0 := by
  rw [m.hist_toList, List.countP_map]
  rfl

theorem TableMem.countP_hist_le {n : Nat} (m : TableMem n) : (m.hist.toList.countP fun c => c != 0) ≤ n :=
  List.countP_le_length.trans (by simp)

/-- Settles O24: both results fit their registers, being at most 384 and 32. -/
theorem buildTableBuildsFromTheCounts : Obligations.BuildTableBuildsFromTheCounts := by
  intro t tab s ht he hcollect
  have hrounds : (buildLengths (s.tab tab).hist).2 ≤ 32 := lengthsOfUsed_rounds_le _
  have hused := (s.tab tab).countP_hist_le.trans (nsym_le tab)
  refine ⟨_, runCommand_tableOperand he ht (by rw [buildTable_eq_ok.mpr ⟨hcollect, rfl, rfl⟩]; rfl), ?_⟩
  simp only [State.setRes1_tab, State.setRes0_tab, State.tab_setTab]
  refine ⟨rfl, rfl, rfl, rfl, rfl, rfl, ?_, ?_⟩
  · rw [← TableMem.countP_hist]
    exact Nat.mod_eq_of_lt (by omega)
  · exact Nat.mod_eq_of_lt (by omega)

/-- Settles O25. -/
theorem readbacksChangeOnlyResults : Obligations.ReadbacksChangeOnlyResults := by
  intro t tab s ht he
  refine ⟨fun hsym => ⟨runCommand_symOperand he ht hsym ?_, runCommand_symOperand he ht hsym ?_⟩,
    runCommand_tableOperand he ht ?_⟩
  · simp [State.setRes0]
  · simp [State.setRes0, State.setRes1]
  · cases (s.tab tab).tstate <;> simp [State.setRes0, State.setRes1, TState.bit]

end Sys2Proof.Machine
end

section
/-! SUPPORT. Serialized length tables (41_table_serdes): the validity test as the lengths it accepts, the streams that
`ReadTable` rejects, the lengths as all that a canonical table holds; the statements of 41_table_serdes.md: O26 to
O29. -/

namespace Sys2Proof.Machine

open Sys2Proof

/-! ### The validity test -/

/-- A symbol of length 1 takes half of the Kraft sum (41_table_serdes R103). -/
theorem le_kraftSum_of_one_mem {ls : List (BitVec 5)} (h : (1 : BitVec 5) ∈ ls) : 32768 ≤ kraftSum ls :=
  List.le_sum_of_mem (List.mem_map_of_mem (f := lengthShare) h)

/-- On lengths of at most 16 the validity test passes exactly the acceptable ones (41_table_serdes R103, R105). -/
theorem checkLengths_eq_ok_iff_good {ls : List (BitVec 5)} (h16 : ∀ l ∈ ls, l.toNat ≤ 16) :
    checkLengths ls = .ok () ↔ GoodLengths ls := by
  refine ⟨goodLengths_of_checkLengths h16, fun h => checkLengths_eq_ok.mpr ⟨h.kraftSum_le, ?_⟩⟩
  obtain ⟨-, hk | hu | ⟨hu, hone⟩⟩ := h
  · exact .inl hk
  · exact .inr (.inl hu)
  · have hlow := le_kraftSum_of_one_mem hone
    have hhigh := kraftSum_le_usedLengths_mul (ls := ls) (k := 1) fun l _ h0 =>
      Nat.one_le_iff_ne_zero.mpr (toNat_ne_zero_of_ne h0)
    exact .inr (.inr ⟨hu, by omega⟩)

/-- On other lengths of at most 16 the validity test raises the fault of the side on which the Kraft sum fails
(41_table_serdes R105). -/
theorem checkLengths_of_not_good {ls : List (BitVec 5)} (h16 : ∀ l ∈ ls, l.toNat ≤ 16) (h : ¬ GoodLengths ls) :
    checkLengths ls = .error (.format (if 65536 < kraftSum ls then .oversub else .undersub)) := by
  cases hck : checkLengths ls with
  | ok u => exact absurd ((checkLengths_eq_ok_iff_good h16).mp hck) h
  | error r =>
    rcases checkLengths_eq_error.mp hck with ⟨hover, rfl⟩ | ⟨hunder, -, -, rfl⟩
    · rw [if_pos hover]
    · rw [if_neg (by omega)]

/-! ### Streams that are rejected -/

/-- Good fields are read before the stream behind them is looked at: what is raised there, while fields are still to
come, the loop raises (41_table_serdes R103). -/
theorem readFields_of_good_fields {n : Nat} {ls : List (BitVec 5)} {rest : List Bool} {s : State} {r : Raise}
    (h16 : ∀ l ∈ ls, l.toNat ≤ 16) (hn : ls.length < n) (hc : s.chanIn = lengthBits ls ++ rest)
    (hrest : ∀ (k : Nat) (s : State), s.chanIn = rest → readFields (k + 1) s = .error r) :
    readFields n s = .error r := by
  induction ls generalizing n s with
  | nil =>
    obtain ⟨k, rfl⟩ := Nat.exists_eq_add_one.mpr hn
    exact hrest k s hc
  | cons l ls ih =>
    obtain ⟨k, rfl⟩ := Nat.exists_eq_add_one.mpr (Nat.zero_lt_of_lt hn)
    obtain ⟨hl, hls⟩ := List.forall_mem_cons.mp h16
    rw [lengthBits_cons, List.append_assoc] at hc
    exact bind_eq_error.mpr (.inr ⟨_, readBits_append l.isLt hc, bind_eq_error.mpr (.inr ⟨(), need_of hl _,
      bind_eq_error.mpr (.inl (ih hls (Nat.lt_of_succ_lt_succ hn) rfl))⟩)⟩)

/-- A field above 16 is out of range, whatever follows (41_table_serdes R103). -/
theorem readFields_of_long_field {l : BitVec 5} {rest : List Bool} (hl : 16 < l.toNat) (k : Nat) (s : State)
    (hc : s.chanIn = bitsMsb 5 l.toNat ++ rest) : readFields (k + 1) s = .error (.format .lenRange) :=
  bind_eq_error.mpr (.inr ⟨_, readBits_append l.isLt hc,
    bind_eq_error.mpr (.inl (need_of_not (Nat.not_le.mpr hl) _))⟩)

/-- Fewer bits than one field are an underflow (41_table_serdes R103). -/
theorem readFields_of_short_stream {bits : List Bool} (hb : bits.length < 5) (k : Nat) (s : State)
    (hc : s.chanIn = bits) : readFields (k + 1) s = .error (.format .underflow) :=
  bind_eq_error.mpr (.inl (readBits_eq_error.mpr ⟨hc ▸ hb, rfl⟩))

/-- `ReadTable` raises in its loop or in its validity test (41_table_serdes R103). -/
theorem readTable_eq_error {t : Tab} {s : State} {r : Raise} :
    readTable t s = .error r ↔ readFields (nsym t) s = .error r
      ∨ ∃ ls s1, readFields (nsym t) s = .ok (ls, s1) ∧ checkLengths ls = .error r := by
  simp [readTable, bind_eq_error]

/-- `ReadTable` rejects every stream from which no table can be read, with the fault that names the reason
(41_table_serdes R103, R105). -/
theorem readTable_of_unreadable {t : Tab} {s : State} {code : Nat}
    (h : UnreadableTable (nsym t) s.chanIn code) :
    ∃ c : FormatCode, readTable t s = .error (.format c) ∧ c.code.toNat = code := by
  simp only [readTable_eq_error]
  obtain ⟨ls, h16, ⟨hn, hbad, ⟨rest, hc⟩, rfl⟩ | ⟨hn, ⟨l, hl, rest, hc⟩, rfl⟩ | ⟨hn, ⟨tail, htail, hc⟩, rfl⟩⟩ := h
  · have hread := (readFields_eq_ok (s' := { s with
      chanIn := rest, bitsIn := s.bitsIn + BitVec.ofNat 32 (5 * nsym t) })).mpr ⟨hn, h16, hc.symm, rfl⟩
    refine ⟨_, .inr ⟨_, _, hread, checkLengths_of_not_good h16 hbad⟩, ?_⟩
    split <;> rfl
  · rw [lengthBits_append, List.append_assoc, lengthBits_cons, lengthBits_nil, List.append_nil] at hc
    exact ⟨.lenRange, .inl (readFields_of_good_fields h16 hn hc.symm (readFields_of_long_field hl)), rfl⟩
  · exact ⟨.underflow, .inl (readFields_of_good_fields h16 hn hc (readFields_of_short_stream htail)), rfl⟩

/-- `READ_TABLE` on such a stream takes that fault. -/
theorem exec_readTable_of_unreadable {t : BitVec 3} {tab : Tab} {s : State} {code : Nat}
    (ht : Tab.ofSel t = some tab) (he : s.err = false) (h : UnreadableTable (nsym tab) s.chanIn code) :
    ∃ s', exec (.readTable t) s = .next s' ∧ FaultTaken 0x14 1 code s s' := by
  obtain ⟨c, hread, rfl⟩ := readTable_of_unreadable h
  exact runCommand_faultTaken (r := .format c) he
    (by rw [tableOperand_eq_ok.mpr ht, ok_bind, hread, error_bind])

/-! ### The table read back -/

/-- The lengths are all that a canonical code table holds: two with the same lengths, over alphabets of the same
size, agree in every length and code (40_canonical_code_builder R87). -/
theorem lenAt_codeAt_eq_of_lengths {n n' : Nat} {m : TableMem n} {m' : TableMem n'}
    (hcode : m.code = assignCodes m.len) (hcode' : m'.code = assignCodes m'.len)
    (hlen : m'.len.toList = m.len.toList) (y : Nat) : m'.lenAt y = m.lenAt y ∧ m'.codeAt y = m.codeAt y := by
  obtain rfl : n' = n := by simpa using congrArg List.length hlen
  have hlen : m'.len = m.len := Vector.toList_inj.mp hlen
  rw [TableMem.lenAt, TableMem.lenAt, TableMem.codeAt, TableMem.codeAt, hcode, hcode', hlen]
  exact ⟨rfl, rfl⟩

/-- What a read does to the channel, the counter and the result leaves the table stored. -/
theorem State.tab_setTab_of_read (s : State) (t : Tab) (m : TableMem (nsym t)) (v k : Word) (bits : List Bool) :
    ({ s.setTab t m with res0 := v, chanIn := bits, bitsIn := k } : State).tab t = m :=
  (State.tab_eq_of_tables (s := s.setTab t m) rfl rfl rfl rfl rfl t).trans (s.tab_setTab t m)

/-! ### The statements -/

/-- Settles O26. -/
theorem writeTableWritesEveryLength : Obligations.WriteTableWritesEveryLength := by
  intro t tab s ht he hvalid
  exact runCommand_tableOperand he ht (by rw [writeTable_eq_ok.mpr ⟨hvalid, rfl, rfl⟩]; rfl)

/-- Settles O27: acceptable lengths are those that pass the validity test. -/
theorem readTableTakesAnAcceptableTable : Obligations.ReadTableTakesAnAcceptableTable := by
  intro t tab s L rest ht he hgood hc
  have hck := (checkLengths_eq_ok_iff_good hgood.1).mpr hgood
  exact runCommand_tableOperand he ht
    (by rw [readTable_eq_ok.mpr ⟨L, rest, hgood.1, hck, hc, rfl, rfl⟩]; rfl)

/-- Settles O28: each of the three streams is one from which no table can be read. -/
theorem corruptTablesAreRejected : Obligations.CorruptTablesAreRejected := by
  intro t tab s ht he
  refine ⟨fun L h16 hbad hc => ?_, fun ls l h16 hn hl hc => ?_, fun ls tail h16 hn htail hc => ?_⟩
  · exact exec_readTable_of_unreadable ht he ⟨L.toList, h16, .inl ⟨by simp, hbad, hc, rfl⟩⟩
  · exact exec_readTable_of_unreadable ht he ⟨ls, h16, .inr (.inl ⟨hn, ⟨l, hl, hc⟩, rfl⟩)⟩
  · exact exec_readTable_of_unreadable ht he ⟨ls, h16, .inr (.inr ⟨hn, ⟨tail, htail, hc⟩, rfl⟩)⟩

/-- Settles O29: what is written is the serialized form of acceptable lengths, and reading such a form gives a
table with these lengths and their canonical codes. -/
theorem readTableInvertsWriteTable : Obligations.ReadTableInvertsWriteTable := by
  intro t t' tab tab' s r rest ht ht' hn hes hvalid hcanon her
  have hwrite := writeTableWritesEveryLength t tab s ht hes hvalid
  refine ⟨_, lengthBits (s.tab tab).len.toList, hwrite, rfl, fun hc => ?_⟩
  obtain ⟨L, hL⟩ : ∃ L : Vector (BitVec 5) (nsym tab'), L.toList = (s.tab tab).len.toList :=
    ⟨_, toList_lengthVector (by rw [Vector.length_toList, hn])⟩
  have hread := readTableTakesAnAcceptableTable t' tab' r L rest ht' her (hL ▸ hcanon.good) (hL ▸ hc)
  refine ⟨_, hread, by simpa using her, rfl, ?_⟩
  rw [State.tab_setTab_of_read]
  exact ⟨rfl, lenAt_codeAt_eq_of_lengths hcanon.codes rfl hL⟩

end Sys2Proof.Machine
end

section
/-! SUPPORT. One symbol across a channel (42_huffman_codec): in a canonical table the search of the bit walk finds a
code exactly where it is, and the numbers of the walk of R114 find the same symbol; the statements of
42_huffman_codec.md: O30 to O33. -/

namespace Sys2Proof.Machine

open Sys2Proof

/-! ### The codes of a canonical table -/

/-- `count[l]` as a count of one field (40_canonical_code_builder R87). -/
theorem lengthCount_toNat (ls : List (BitVec 5)) (l : BitVec 5) : lengthCount ls l.toNat = ls.count l :=
  List.countP_congr fun x _ => by simp only [beq_iff_eq, BitVec.toNat_inj]

/-- The canonical code of a used symbol is the first code of its length plus the number of lower symbols of that
length (40_canonical_code_builder R87). -/
theorem assignCodes_eq_firstCode_add {n : Nat} {L : Vector (BitVec 5) n} (h16 : ∀ l ∈ L.toList, l.toNat ≤ 16)
    (hk : kraftSum L.toList ≤ 65536) {y : Nat} (h : y < n) (h0 : L[y] ≠ 0) :
    (assignCodes L)[y].toNat
      = firstCode L.toList L[y].toNat + lengthCount (L.toList.take y) L[y].toNat := by
  have hle : L[y].toNat ≤ 16 := h16 _ (by simp)
  have hpos : 1 ≤ L[y].toNat := Nat.one_le_iff_ne_zero.mpr (toNat_ne_zero_of_ne h0)
  refine Nat.eq_of_mul_eq_mul_right (Nat.two_pow_pos (16 - L[y].toNat)) ?_
  rw [assignCodes_mul_eq_shareBefore h16 hk h h0, shareBefore_eq L h, Nat.add_mul,
    firstCode_mul_eq_sum _ hpos hle, lengthCount_toNat, count_mul_eq_sum _ h0]

/-- In a canonical table the code of a symbol fits its length (10_state R33). -/
theorem TableMem.Canonical.codeAt_lt {n : Nat} {m : TableMem n} (hm : m.Canonical) {y : Nat}
    (h0 : m.lenAt y ≠ 0) : (m.codeAt y).toNat < 2 ^ (m.lenAt y).toNat := by
  have hy := TableMem.lt_of_lenAt h0
  rw [m.lenAt_of_lt hy] at h0 ⊢
  simp only [m.codeAt_of_lt hy, hm.codes]
  exact assignCodes_lt hm.good.1 hm.good.kraftSum_le hy h0

/-- In a canonical table the code of a symbol is at the symbol's place among the codes of its length
(40_canonical_code_builder R87). -/
theorem TableMem.Canonical.codeAt_eq {n : Nat} {m : TableMem n} (hm : m.Canonical) {y : Nat}
    (h0 : m.lenAt y ≠ 0) : (m.codeAt y).toNat
      = firstCode m.len.toList (m.lenAt y).toNat + lengthCount (m.len.toList.take y) (m.lenAt y).toNat := by
  have hy := TableMem.lt_of_lenAt h0
  rw [m.lenAt_of_lt hy] at h0 ⊢
  simp only [m.codeAt_of_lt hy, hm.codes]
  exact assignCodes_eq_firstCode_add hm.good.1 hm.good.kraftSum_le hy h0

/-- The lower symbols of a symbol's length are fewer than all of that length. -/
theorem TableMem.lengthCount_take_lt {n : Nat} (m : TableMem n) {y : Nat} (hy : y < n) :
    lengthCount (m.len.toList.take y) (m.lenAt y).toNat < lengthCount m.len.toList (m.lenAt y).toNat := by
  have hy' : y < m.len.toList.length := by simpa using hy
  conv_rhs => rw [← List.take_append_drop y m.len.toList, List.drop_eq_getElem_cons hy']
  simp [lengthCount, m.lenAt_of_lt hy, List.countP_append]

/-- In a canonical table a code that begins a code is that symbol's own (10_state R33). -/
theorem TableMem.Canonical.eq_of_codeBits_prefix {n : Nat} {m : TableMem n} (hm : m.Canonical) {y z : Nat}
    (hy : m.lenAt y ≠ 0) (hz : m.lenAt z ≠ 0) (h : m.codeBits y <+: m.codeBits z) : y = z :=
  by_contra fun hne => hm.prefixFree y z hne hy hz h

/-! ### The search on a canonical table -/

/-- A symbol found by the bits read has these bits as its code. -/
theorem TableMem.codeBits_of_symbolOf {n : Nat} {m : TableMem n} {bs : List Bool} {l y : Nat} (hlen : bs.length = l)
    (hpos : 0 < l) (h : m.symbolOf l (ofBitsMsb bs) = some y) : m.lenAt y ≠ 0 ∧ m.codeBits y = bs := by
  obtain ⟨-, rfl, hc⟩ := TableMem.symbolOf_eq_some h
  exact ⟨fun h0 => by simp [h0] at hpos, by rw [TableMem.codeBits, ← hlen, hc, bitsMsb_ofBitsMsb]⟩

/-- The search of a canonical table, given a symbol's length and code, finds that symbol (42_huffman_codec R112). -/
theorem TableMem.Canonical.symbolOf_self {n : Nat} {m : TableMem n} (hm : m.Canonical) {y : Nat}
    (h0 : m.lenAt y ≠ 0) : m.symbolOf (m.lenAt y).toNat (m.codeAt y).toNat = some y := by
  cases hs : m.symbolOf (m.lenAt y).toNat (m.codeAt y).toNat with
  | none =>
    exact absurd ⟨rfl, rfl⟩ (TableMem.symbolOf_eq_none.mp hs y (TableMem.lt_of_lenAt h0))
  | some z =>
    obtain ⟨-, hl, hc⟩ := TableMem.symbolOf_eq_some hs
    have hz : m.lenAt z ≠ 0 := BitVec.toNat_inj.mp hl ▸ h0
    rw [hm.eq_of_codeBits_prefix hz h0 (by rw [TableMem.codeBits, TableMem.codeBits, hl, hc])]

/-! ### The bit walk -/

/-- On a canonical table the bit walk stops at the end of the code that comes next: no shorter part of it is a code
(42_huffman_codec R112, R115). -/
theorem decSym_of_codeBits {t : Tab} {s : State} {sym : Nat} {rest : List Bool}
    (hv : (s.tab t).tstate = .valid) (hm : (s.tab t).Canonical) (h0 : (s.tab t).lenAt sym ≠ 0)
    (hc : s.chanIn = (s.tab t).codeBits sym ++ rest) :
    decSym t s = .ok (⟨sym, ((s.tab t).lenAt sym).toNat⟩, { s with
      chanIn := rest
      bitsIn := s.bitsIn + ((s.tab t).lenAt sym).setWidth 32 }) := by
  have hsym := TableMem.lt_of_lenAt h0
  have hlen := (s.tab t).length_codeBits sym
  have hle : ((s.tab t).lenAt sym).toNat ≤ 16 := by
    rw [(s.tab t).lenAt_of_lt hsym]
    exact hm.good.1 _ (by simp)
  have hval : ofBitsMsb ((s.tab t).codeBits sym) = ((s.tab t).codeAt sym).toNat := by
    rw [TableMem.codeBits, ofBitsMsb_bitsMsb, Nat.mod_eq_of_lt (hm.codeAt_lt h0)]
  refine decSym_eq_ok.mpr ⟨hv, (s.tab t).codeBits sym, ?_, hlen ▸ hle, hc, hlen.symm, ?_, fun j hj hlt => ?_, ?_⟩
  · exact List.ne_nil_of_length_pos (hlen ▸ Nat.pos_of_ne_zero (toNat_ne_zero_of_ne h0))
  · rw [hlen, hval, hm.symbolOf_self h0]
  · have htake : (((s.tab t).codeBits sym).take j).length = j := List.length_take_of_le hlt.le
    refine Option.eq_none_iff_forall_ne_some.mpr fun y hy => ?_
    obtain ⟨hy0, hbits⟩ := TableMem.codeBits_of_symbolOf htake hj hy
    obtain rfl := hm.eq_of_codeBits_prefix hy0 h0 (hbits ▸ List.take_prefix _ _)
    rw [← hbits] at htake
    omega
  · rw [hlen, BitVec.ofNat_toNat]

/-- What `DecSym` raises, `DEC_SYM` takes as its fault (42_huffman_codec R113). -/
theorem exec_decSym_of_error {t : BitVec 3} {tab : Tab} {s : State} {r : Raise} (ht : Tab.ofSel t = some tab)
    (he : s.err = false) (h : decSym tab s = .error r) :
    ∃ s', exec (.decSym t) s = .next s' ∧ FaultTaken 0x16 r.cls.toNat r.code.toNat s s' :=
  runCommand_faultTaken he (by rw [tableOperand_eq_ok.mpr ht, ok_bind, h, error_bind])

/-! ### The symbols in the order of their codes -/

theorem length_symbolsOfLength (l k : Nat) (ls : List (BitVec 5)) :
    (symbolsOfLength l k ls).length = lengthCount ls l := by
  induction ls generalizing k with
  | nil => rfl
  | cons x ls ih =>
    rw [symbolsOfLength, lengthCount, List.countP_cons, ← lengthCount]
    by_cases hx : x.toNat = l <;> simp [hx, ih]

/-- The `r`-th symbol of one length is the one with `r` lower symbols of that length (42_huffman_codec R114). -/
theorem symbolsOfLength_getElem? {l k r : Nat} {ls : List (BitVec 5)} (h : r < lengthCount ls l) :
    ∃ i, ∃ hi : i < ls.length, (symbolsOfLength l k ls)[r]? = some (k + i) ∧ ls[i].toNat = l
      ∧ lengthCount (ls.take i) l = r := by
  induction ls generalizing k r with
  | nil => simp [lengthCount] at h
  | cons x ls ih =>
    rw [lengthCount, List.countP_cons, ← lengthCount] at h
    have htake : ∀ i, lengthCount ((x :: ls).take (i + 1)) l
        = lengthCount (ls.take i) l + if x.toNat = l then 1 else 0 := fun i => by
      simp [lengthCount, List.countP_cons]
    by_cases hx : x.toNat = l
    · simp only [hx, beq_self_eq_true, if_true] at h
      cases r with
      | zero => exact ⟨0, by simp, by simp [symbolsOfLength, hx], hx, rfl⟩
      | succ r =>
        obtain ⟨i, hi, hget, hl, hrank⟩ := ih (k := k + 1) (Nat.lt_of_succ_lt_succ h)
        refine ⟨i + 1, by simpa using hi, ?_, by simpa using hl, by rw [htake, if_pos hx, hrank]⟩
        rw [symbolsOfLength, if_pos hx, List.getElem?_cons_succ, hget, Nat.add_right_comm, Nat.add_assoc]
    · simp only [beq_false_of_ne hx, Bool.false_eq_true, if_false, Nat.add_zero] at h
      obtain ⟨i, hi, hget, hl, hrank⟩ := ih (k := k + 1) h
      refine ⟨i + 1, by simpa using hi, ?_, by simpa using hl, by rw [htake, if_neg hx, hrank, Nat.add_zero]⟩
      rw [symbolsOfLength, if_neg hx, hget, Nat.add_right_comm, Nat.add_assoc]

/-- The symbols of lengths 1 to `l - 1`, by length, then symbol: what the walk of 42_huffman_codec R114 has passed
before length `l`. -/
def symbolsBelow (ls : List (BitVec 5)) (l : Nat) : List Nat :=
  (List.range' 1 (l - 1)).flatMap fun j => symbolsOfLength j 0 ls

theorem sortedSymbols_eq_symbolsBelow (ls : List (BitVec 5)) : sortedSymbols ls = symbolsBelow ls 17 := rfl

theorem symbolsBelow_succ (ls : List (BitVec 5)) {l : Nat} (h : 1 ≤ l) :
    symbolsBelow ls (l + 1) = symbolsBelow ls l ++ symbolsOfLength l 0 ls := by
  obtain ⟨k, rfl⟩ := Nat.exists_eq_add_of_le' h
  simp [symbolsBelow, List.range'_concat, Nat.add_comm 1]

theorem symbolsBelow_prefix (ls : List (BitVec 5)) {a b : Nat} (ha : 1 ≤ a) (hab : a ≤ b) :
    symbolsBelow ls a <+: symbolsBelow ls b := by
  induction b, hab using Nat.le_induction with
  | base => exact List.prefix_rfl
  | succ b hab ih => exact ih.trans (symbolsBelow_succ ls (ha.trans hab) ▸ List.prefix_append _ _)

/-- The symbols of length `l` stand in `sorted` behind those of the shorter lengths (42_huffman_codec R114). -/
theorem sortedSymbols_getD {ls : List (BitVec 5)} {l r y : Nat} (h1 : 1 ≤ l) (h16 : l ≤ 16)
    (h : (symbolsOfLength l 0 ls)[r]? = some y) :
    (sortedSymbols ls).getD ((symbolsBelow ls l).length + r) 0 = y := by
  obtain ⟨later, hlater⟩ := symbolsBelow_prefix ls (a := l + 1) (b := 17) (by omega) (by omega)
  have hr := (List.getElem?_eq_some_iff.mp h).1
  rw [sortedSymbols_eq_symbolsBelow, ← hlater, symbolsBelow_succ ls h1, List.append_assoc,
    List.getD_eq_getElem?_getD, List.getElem?_append_right (Nat.le_add_right _ _), Nat.add_sub_cancel_left,
    List.getElem?_append_left hr, h, Option.getD_some]

/-! ### The walk that needs no search -/

/-- In a canonical table the codes of one length are consecutive from the first, in the order of `sorted`: the test
and the place of 42_huffman_codec R114 say what the search of R112 finds. -/
theorem TableMem.Canonical.symbolOf_eq_ite {n : Nat} {m : TableMem n} (hm : m.Canonical) {l : Nat} (h1 : 1 ≤ l)
    (h16 : l ≤ 16) (c : Nat) :
    m.symbolOf l c =
      if firstCode m.len.toList l ≤ c ∧ c - firstCode m.len.toList l < lengthCount m.len.toList l then
        some ((sortedSymbols m.len.toList).getD
          ((symbolsBelow m.len.toList l).length + (c - firstCode m.len.toList l)) 0)
      else none := by
  split
  · next hc =>
    obtain ⟨y, hy, hget, hl, hrank⟩ := symbolsOfLength_getElem? (k := 0) hc.2
    have hyn : y < n := by simpa using hy
    rw [Nat.zero_add] at hget
    obtain rfl : (m.lenAt y).toNat = l := by rw [m.lenAt_of_lt hyn, ← hl, Vector.getElem_toList]
    have h0 : m.lenAt y ≠ 0 := fun e => by simp [e] at h1
    have hcode : (m.codeAt y).toNat = c := by rw [hm.codeAt_eq h0, hrank]; omega
    rw [sortedSymbols_getD h1 h16 hget, ← hcode, hm.symbolOf_self h0]
  · next hc =>
    refine TableMem.symbolOf_eq_none.mpr fun y hy ⟨hl, hcode⟩ => hc ?_
    subst hl
    have h0 : m.lenAt y ≠ 0 := fun e => by simp [e] at h1
    have hlt := m.lengthCount_take_lt hy
    rw [hm.codeAt_eq h0] at hcode
    omega

/-- From length `l` on the two walks agree: the walk of 42_huffman_codec R114 holds the code bits shifted by one, the
first code of length `l`, and the number of symbols of shorter lengths. -/
theorem TableMem.Canonical.canonicalWalk_eq_decodeWalk {n : Nat} {m : TableMem n} (hm : m.Canonical) {k l : Nat}
    (h1 : 1 ≤ l) (hk : l + k = 17) (code : Nat) (s : State) :
    canonicalWalk m.len.toList k l (code * 2) (firstCode m.len.toList l) (symbolsBelow m.len.toList l).length s
      = decodeWalk m k l code s := by
  induction k generalizing l code s with
  | zero => rfl
  | succ k ih =>
    rw [canonicalWalk, decodeWalk]
    cases readBits 1 s with
    | error e => rfl
    | ok p =>
      obtain ⟨b, s1⟩ := p
      have hfirst : (firstCode m.len.toList l + lengthCount m.len.toList l) * 2
          = firstCode m.len.toList (l + 1) := by
        obtain ⟨j, rfl⟩ := Nat.exists_eq_add_of_le' h1
        rfl
      have hindex : (symbolsBelow m.len.toList l).length + lengthCount m.len.toList l
          = (symbolsBelow m.len.toList (l + 1)).length := by
        rw [symbolsBelow_succ _ h1, List.length_append, length_symbolsOfLength]
      simp only [ok_bind, hm.symbolOf_eq_ite h1 (by omega : l ≤ 16), hfirst, hindex]
      split
      · rfl
      · exact ih (by omega) (by omega) _ s1

/-! ### The statements -/

/-- Settles O30: `EncSym` completes on the symbols with a code and raises on the others. -/
theorem encSymWritesTheCode : Obligations.EncSymWritesTheCode := by
  intro t tab s ht he hsym hv
  refine ⟨fun h0 => runCommand_symOperand he ht hsym ?_, fun h0 => ?_⟩
  · simp only [encSym_eq_ok.mpr ⟨hv, h0, rfl, rfl⟩, ok_bind, pure_eq_ok, State.setRes0, BitVec.ofNat_toNat]
  · refine runCommand_faultTaken (r := .contract .noCode) he ?_
    rw [tableOperand_eq_ok.mpr ht, ok_bind, symOperand_eq, if_pos hsym, ok_bind,
      encSym_eq_error.mpr (.inr ⟨hv, h0, rfl⟩), error_bind]

/-- Settles O31: no other code ends the bit walk earlier or in the same place. -/
theorem decSymInvertsEncSym : Obligations.DecSymInvertsEncSym := by
  intro t tab s sym rest ht he hv hm h0 hc
  refine runCommand_tableOperand he ht ?_
  simp only [decSym_of_codeBits hv hm h0 hc, ok_bind, pure_eq_ok, State.setRes0, State.setRes1, BitVec.ofNat_toNat]

/-- Settles O32: the bit walk can only run out of bits or out of lengths. -/
theorem unreadableCodesAreRejected : Obligations.UnreadableCodesAreRejected := by
  intro t tab s ht he hv _ hno
  have hfault := exec_decSym_of_error ht he (decSym_of_noCodeIn hv hno)
  split at hfault
  · next h => rw [if_pos h]; exact hfault
  · next h => rw [if_neg h]; exact hfault

/-- Settles O33: at length 1 the first code is 0 and no symbol has been passed. -/
theorem canonicalWalkAgreesWithTheBitWalk : Obligations.CanonicalWalkAgreesWithTheBitWalk := by
  intro tab s hm
  rw [decSymCanonical, decSym]
  exact congrArg _ (funext fun _ => hm.canonicalWalk_eq_decodeWalk le_rfl rfl 0 s)

end Sys2Proof.Machine
end

section
/-! SUPPORT. The chain of a run as `c` continuation symbols and at most one terminal symbol (43_zero_run); the
statement of 43_zero_run.md: O34. -/

namespace Sys2Proof.Machine

open Sys2Proof

/-! ### The two shapes of a chain -/

/-- A multiple of 128 has no terminal symbol (43_zero_run R121, `r = 0`). -/
theorem chain_of_mod_eq_zero {L : Nat} (h : L % 128 = 0) : chain L = List.replicate (L / 128) 383 := by
  rw [chain, Config.runUnit, Config.runCont, if_pos h, List.append_nil]

/-- Any other length has one, at the end (43_zero_run R121, `r > 0`). -/
theorem chain_of_mod_ne_zero {L : Nat} (h : L % 128 ≠ 0) :
    chain L = List.replicate (L / 128) 383 ++ [255 + L % 128] := by
  rw [chain, Config.runUnit, Config.runCont, if_neg h]

/-! ### What a chain stands for -/

/-- A continuation symbol stands for 128 zero bytes (43_zero_run R120). -/
theorem zerosOf_runCont : zerosOf 383 = 128 := rfl

/-- The terminal symbol of a chain stands for the rest (43_zero_run R120). -/
theorem zerosOf_terminal (r : Nat) : zerosOf (255 + r) = r := Nat.add_sub_cancel_left 255 r

/-- `128 * c + r = L` (43_zero_run R125). -/
theorem sum_zerosOf_chain (L : Nat) : ((chain L).map zerosOf).sum = L := by
  have hdiv : L / 128 * 128 + L % 128 = L := Nat.div_add_mod' L 128
  by_cases h0 : L % 128 = 0
  · rw [chain_of_mod_eq_zero h0, List.map_replicate, List.sum_replicate_nat, zerosOf_runCont]
    omega
  · rw [chain_of_mod_ne_zero h0, List.map_append, List.sum_append, List.map_replicate,
      List.sum_replicate_nat, List.map_singleton, List.sum_singleton, zerosOf_runCont, zerosOf_terminal, hdiv]

/-- `ceil(L / 128)` symbols (43_zero_run R121). -/
theorem length_chain (L : Nat) : (chain L).length = (L + 127) / 128 := by
  by_cases h0 : L % 128 = 0
  · rw [chain_of_mod_eq_zero h0, List.length_replicate]
    omega
  · rw [chain_of_mod_ne_zero h0, List.length_append, List.length_replicate, List.length_singleton]
    omega

/-- Only the last symbol of a chain can be terminal (43_zero_run R120). -/
theorem eq_runCont_of_mem_dropLast_chain {L sym : Nat} (h : sym ∈ (chain L).dropLast) : sym = 383 := by
  by_cases h0 : L % 128 = 0
  · rw [chain_of_mod_eq_zero h0, List.dropLast_replicate] at h
    exact List.eq_of_mem_replicate h
  · rw [chain_of_mod_ne_zero h0, List.dropLast_concat] at h
    exact List.eq_of_mem_replicate h

/-- A terminal symbol is at most 382, so that 383 at the end leaves no rest (43_zero_run R121). -/
theorem chain_getLast_eq_runCont {L : Nat} (h : 1 ≤ L) : (chain L).getLast? = some 383 ↔ L % 128 = 0 := by
  have hlt : L % 128 < 128 := Nat.mod_lt L (by decide)
  rw [chain_getLast h, Option.some_inj]
  split <;> omega

/-! ### The statement -/

/-- Settles O34: a chain is `L / 128` symbols 383 and, if there is a rest, one terminal symbol for it. -/
theorem chainCarriesItsRun : Obligations.ChainCarriesItsRun := fun L hL =>
  ⟨sum_zerosOf_chain L, length_chain L, fun _ => mem_chain, fun _ => eq_runCont_of_mem_dropLast_chain,
    chain_getLast_eq_runCont hL⟩

end Sys2Proof.Machine
end

section
/-! SUPPORT. What every command of the entropy path does first and what it leaves alone (44_entropy_coder R130, R132):
its operand and its phase are tested, then each shared operation works on one table and the channels; the statements
of EC_PHASE and of the two paths: O13, O36, O56. -/

namespace Sys2Proof.Machine

open Sys2Proof Host

/-! ### Operands and phases -/

/-- An operand below 256 is a byte (30_encoding R61, R62). -/
theorem byteOperand_of_lt {s : State} (h : s.arg0.toNat < 256) : byteOperand s = .ok s.arg0.toNat := by
  rw [byteOperand_eq, if_pos h]

/-- An operand of 0 or 1 is a context (30_encoding R61, R62). -/
theorem ctxOperand_of_lt {s : State} (h : s.arg0.toNat < 2) : ctxOperand s = .ok (decide (s.arg0 = 1)) := by
  rw [ctxOperand_eq, if_pos h]

/-- A context out of range is all that its operand can raise. -/
theorem ctxOperand_eq_error {s : State} {r : Raise} (h : ctxOperand s = .error r) : r = .contract .operand := by
  rw [ctxOperand_eq] at h
  split at h
  · cases h
  · exact (Except.error.inj h).symm

/-- In its phase a command goes on (44_entropy_coder R130). -/
theorem needEcPhase_of {p : EcPhase} {s : State} (h : s.ecPhase = p) : needEcPhase p s = .ok () := need_of h _

/-- In another phase it raises `CV_SEQUENCE` and changes nothing else (44_entropy_coder R130, 60_exceptions R196). -/
theorem runCommand_sequenceFault {op : BitVec 8} {p : EcPhase} {s : State} {f : Unit → Except Raise State}
    (he : s.err = false) (hp : s.ecPhase ≠ p) :
    runCommand op s (needEcPhase p s >>= f) = .next (exactFault op.toNat 2 3 s) :=
  runCommand_exactFault he (r := .contract .sequence) rfl (by rw [needEcPhase, need_of_not hp, error_bind])

/-- A command of format B tests its byte before its phase (30_encoding R68). -/
theorem runCommand_byteSequenceFault {op : BitVec 8} {p : EcPhase} {s : State} {f : Nat → Unit → Except Raise State}
    (he : s.err = false) (hbyte : s.arg0.toNat < 256) (hp : s.ecPhase ≠ p) :
    runCommand op s (byteOperand s >>= fun byte => needEcPhase p s >>= f byte)
      = .next (exactFault op.toNat 2 3 s) := by
  rw [byteOperand_of_lt hbyte, ok_bind]
  exact runCommand_sequenceFault he hp

/-- `ERRINFO` tells `CV_SEQUENCE` from every other fault of a command (10_state R17). -/
theorem errinfoWord_ne_sequence {op : BitVec 8} {r : Raise} (hr : r ≠ .contract .sequence) :
    errinfoWord op r ≠ errinfoOf op.toNat 2 3 := by
  intro h
  have hop := op.isLt
  have hcls := r.cls.isLt
  have hcode := r.code.isLt
  have hnum := congrArg BitVec.toNat h
  rw [errinfoWord_eq, errinfoOf, errinfoOf, BitVec.toNat_ofNat, BitVec.toNat_ofNat] at hnum
  obtain ⟨hc, hk⟩ : r.cls.toNat = 2 ∧ r.code.toNat = 3 := by omega
  cases r with
  | format c => cases hc
  | contract c => cases c <;> simp [Raise.code, ContractCode.code] at hk hr

/-! ### Steps for context mode only -/

/-- A step on the after-zero table that is left out without context mode (44_entropy_coder R134, R139). -/
def inContextMode {α : Type} (on : Bool) (s : State) (x : Except Raise (α × State)) : Except Raise State :=
  if on then x >>= fun r => .ok r.2 else .ok s

theorem inContextMode_of_error {α : Type} {s : State} {r : Raise} {x : Except Raise (α × State)}
    (h : x = .error r) : inContextMode true s x = .error r := by
  rw [h]; rfl

theorem inContextMode_eq_ok {α : Type} {on : Bool} {s s' : State} {x : Except Raise (α × State)}
    (h : inContextMode on s x = .ok s') : (∃ a, x = .ok (a, s')) ∨ s' = s := by
  unfold inContextMode at h
  split at h
  · obtain ⟨⟨a, s1⟩, hx, hs⟩ := bind_eq_ok.mp h
    obtain rfl := Except.ok.inj hs
    exact .inl ⟨a, hx⟩
  · exact .inr (Except.ok.inj h).symm

theorem inContextMode_eq_error {α : Type} {on : Bool} {s : State} {r : Raise} {x : Except Raise (α × State)}
    (h : inContextMode on s x = .error r) : x = .error r := by
  unfold inContextMode at h
  split at h
  · obtain hx | ⟨a, -, hs⟩ := bind_eq_error.mp h
    · exact hx
    · cases hs
  · cases h

/-- A branch taken before the rest of a sequence (the form in which `do` leaves it). -/
theorem ite_bind {α β : Type} {p : Prop} [Decidable p] {x y : Except Raise α} {f : α → Except Raise β} :
    (if p then x >>= f else y >>= f) = (if p then x else y) >>= f := by
  split <;> rfl

/-- `FINALIZE` as one sequence (44_entropy_coder R134). -/
theorem exec_finalize_eq (s : State) : exec .finalize s = runCommand 0x22 s (do
    needEcPhase .collect s
    let s1 ← flushOpenRun s
    let s2 ← addSymbol (ctxTable s1) 0 s1
    let r ← buildTable .bz s2
    let s4 ← inContextMode r.2.ctxEn r.2 (buildTable .az r.2)
    .ok { s4 with ctxAz := false, encRem := 0, encLastz := false, ecPhase := .finalized }) := by
  refine congrArg (runCommand 0x22 s) (congrArg _ (funext fun _ => congrArg _ (funext fun s1 =>
    congrArg _ (funext fun s2 => congrArg _ (funext fun r => ?_)))))
  exact ite_bind

/-- `WRITE_OVERHEAD` as one sequence (44_entropy_coder R135). -/
theorem exec_writeOverhead_eq (s : State) : exec .writeOverhead s = runCommand 0x23 s (do
    needEcPhase .finalized s
    let r ← writeTable .bz s
    let r' ← (if r.2.ctxEn then writeTable .az r.2 else .ok (0, r.2))
    .ok { r'.2.setRes0 (r.1 + r'.1) with ecPhase := .emit }) := by
  refine congrArg (runCommand 0x23 s) (congrArg _ (funext fun _ => congrArg _ (funext fun r => ?_)))
  exact ite_bind

/-- `ENCODE` as one sequence (44_entropy_coder R137). -/
theorem exec_encode_eq (s : State) : exec .encode s = runCommand 0x24 s (do
    let byte ← byteOperand s
    needEcPhase .emit s
    let r ← (if byte = 0 then encodeZero s else encodeLiteral byte s)
    .ok (r.2.setRes0 r.1)) := by
  refine congrArg (runCommand 0x24 s) (congrArg _ (funext fun byte => congrArg _ (funext fun _ => ?_)))
  exact ite_bind

/-- `DEC_INIT` as one sequence (44_entropy_coder R139). -/
theorem exec_decInit_eq (s : State) : exec .decInit s = runCommand 0x28 s (do
    let ctx ← ctxOperand s
    let r ← readTable .bz (entropyRestart ctx s)
    let s2 ← inContextMode ctx r.2 (readTable .az r.2)
    .ok { s2.setRes0 (if ctx then 3200 else 1920) with ecPhase := .decode }) := by
  refine congrArg (runCommand 0x28 s) (congrArg _ (funext fun ctx => congrArg _ (funext fun r => ?_)))
  exact ite_bind

/-! ### One table and the channels -/

/-- From `s` to `s'` nothing has changed but table `t`, the channels and the counts of their bits. -/
def Touches (t : Tab) (s s' : State) : Prop :=
  ∃ m out bitsOut inp bitsIn, s' = { s.setTab t m with
    chanOut := out, bitsOut := bitsOut, chanIn := inp, bitsIn := bitsIn }

theorem Touches.refl (t : Tab) (s : State) : Touches t s s :=
  ⟨s.tab t, s.chanOut, s.bitsOut, s.chanIn, s.bitsIn, by rw [State.setTab_tab]⟩

theorem Touches.setTab (t : Tab) (s : State) (m : TableMem (nsym t)) : Touches t s (s.setTab t m) :=
  ⟨m, s.chanOut, s.bitsOut, s.chanIn, s.bitsIn, by cases t <;> rfl⟩

theorem addSymbol_touches {t : Tab} {sym : Nat} {s s' : State} (h : addSymbol t sym s = .ok s') :
    Touches t s s' := by
  obtain ⟨-, rfl⟩ := addSymbol_eq_ok.mp h
  exact .setTab t s _

theorem buildTable_touches {t : Tab} {r : BuildResult} {s s' : State} (h : buildTable t s = .ok (r, s')) :
    Touches t s s' := by
  obtain ⟨-, -, rfl⟩ := buildTable_eq_ok.mp h
  exact .setTab t s _

theorem writeTable_touches {t : Tab} {k : Nat} {s s' : State} (h : writeTable t s = .ok (k, s')) :
    Touches t s s' := by
  obtain ⟨-, -, rfl⟩ := writeTable_eq_ok.mp h
  exact ⟨s.tab t, _, _, s.chanIn, s.bitsIn, by rw [State.setTab_tab]⟩

theorem readTable_touches {t : Tab} {k : Nat} {s s' : State} (h : readTable t s = .ok (k, s')) :
    Touches t s s' := by
  obtain ⟨L, rest, -, -, -, -, rfl⟩ := readTable_eq_ok.mp h
  exact ⟨(s.tab t).withLengths L, s.chanOut, s.bitsOut, rest, s.bitsIn + BitVec.ofNat 32 (5 * nsym t), by
    cases t <;> rfl⟩

theorem encSym_touches {t : Tab} {sym k : Nat} {s s' : State} (h : encSym t sym s = .ok (k, s')) :
    Touches t s s' := by
  obtain ⟨-, -, -, rfl⟩ := encSym_eq_ok.mp h
  exact ⟨s.tab t, _, _, s.chanIn, s.bitsIn, by rw [State.setTab_tab]⟩

theorem readBits_touches (t : Tab) {n v : Nat} {s s' : State} (h : readBits n s = .ok (v, s')) :
    Touches t s s' := by
  obtain ⟨-, -, -, -, hs'⟩ := readBits_eq_ok.mp h
  exact ⟨s.tab t, s.chanOut, s.bitsOut, s'.chanIn, _, by rw [State.setTab_tab]; exact hs'⟩

theorem decSym_touches {t : Tab} {r : Decoded} {s s' : State} (h : decSym t s = .ok (r, s')) :
    Touches t s s' := by
  obtain ⟨-, bs, -, -, -, -, -, -, hs'⟩ := decSym_eq_ok.mp h
  exact ⟨s.tab t, s.chanOut, s.bitsOut, s'.chanIn, _, by rw [State.setTab_tab]; exact hs'⟩

theorem Touches.of_inContextMode {α : Type} {t : Tab} {on : Bool} {s s' : State} {x : Except Raise (α × State)}
    (h : inContextMode on s x = .ok s') (hx : ∀ a, x = .ok (a, s') → Touches t s s') : Touches t s s' := by
  obtain ⟨a, ha⟩ | rfl := inContextMode_eq_ok h
  · exact hx a ha
  · exact .refl t s'

/-! ### The two paths -/

/-- The tables of the entropy path (10_state R20, 44_entropy_coder R132). -/
def isEntropyTab : Tab → Bool
  | .bz | .az => true
  | .len | .sd | .ld => false

/-- The state of the LZ path (45_lz_codec R154). -/
def State.lzPath (s : State) :
    TableMem 256 × TableMem 256 × TableMem 256 × Vector Half 4 × BitVec 2 × Half × Half × LzPhase :=
  (s.tabLen, s.tabSd, s.tabLd, s.cache, s.cur, s.xsize, s.ysize, s.lzPhase)

/-- The state of the entropy path (44_entropy_coder R132). -/
def State.entropyPath (s : State) : TableMem 384 × TableMem 256 × EntropyRegs :=
  (s.tabBz, s.tabAz, s.entropyRegs)

theorem isEntropyTab_ctxTable (s : State) : isEntropyTab (ctxTable s) = true := by
  unfold ctxTable
  split <;> rfl

theorem Touches.lzPath_eq {t : Tab} {s s' : State} (h : Touches t s s') (ht : isEntropyTab t = true) :
    s'.lzPath = s.lzPath := by
  obtain ⟨m, _, _, _, _, rfl⟩ := h
  cases t
  case bz | az => rfl
  all_goals cases ht

theorem Touches.entropyPath_eq {t : Tab} {s s' : State} (h : Touches t s s') (ht : isEntropyTab t = false) :
    s'.entropyPath = s.entropyPath := by
  obtain ⟨m, _, _, _, _, rfl⟩ := h
  cases t
  case len | sd | ld => rfl
  all_goals cases ht

theorem Touches.ecPhase_eq {t : Tab} {s s' : State} (h : Touches t s s') : s'.ecPhase = s.ecPhase := by
  obtain ⟨m, _, _, _, _, rfl⟩ := h
  cases t <;> rfl

theorem Touches.err_eq {t : Tab} {s s' : State} (h : Touches t s s') : s'.err = s.err := by
  obtain ⟨m, _, _, _, _, rfl⟩ := h
  cases t <;> rfl

end Sys2Proof.Machine
end

section
/-! SUPPORT. The commands of each path that complete: an entropy command enters the phase listed for it and leaves the
LZ path, an LZ command leaves the entropy path; the statements on EC_PHASE and on the two paths: O13, O36, O56. -/

namespace Sys2Proof.Machine

open Sys2Proof Host

/-! ### The entropy commands -/

/-- What an entropy command that completes has done to its phase and to the other path (44_entropy_coder R130, R132). -/
def EntersPhase (p : EcPhase) (s s' : State) : Prop := s'.ecPhase = p ∧ s'.lzPath = s.lzPath

theorem execEcInit_entersPhase {s s' : State} (h : exec .ecInit s = .next s') (he : s'.err = false) :
    EntersPhase .collect s s' := by
  obtain ⟨ctx, -, hb⟩ := bind_eq_ok.mp (runCommand_completed h he)
  obtain rfl := Except.ok.inj hb
  exact ⟨rfl, rfl⟩

theorem flushOpenRun_entersPhase {s s' : State} (hp : s.ecPhase = .collect) (h : flushOpenRun s = .ok s') :
    EntersPhase .collect s s' := by
  obtain ⟨-, rfl⟩ := flushOpenRun_eq_ok.mp h
  exact ⟨hp, rfl⟩

theorem execPush_entersPhase {s s' : State} (h : exec .push s = .next s') (he : s'.err = false) :
    EntersPhase .collect s s' := by
  have hb := runCommand_completed h he
  simp only [bind_eq_ok, needEcPhase, need_eq_ok, pure_eq_ok] at hb
  obtain ⟨byte, -, -, hp, s1, htrack, hb⟩ := hb
  split at hb
  · next h0 =>
    obtain rfl := Except.ok.inj hb
    rw [h0] at htrack
    obtain ⟨-, rfl⟩ := trackByte_zero_eq_ok.mp htrack
    exact ⟨hp, rfl⟩
  · next h0 =>
    rw [trackByte_of_ne h0] at htrack
    obtain ⟨s2, hadd, hs'⟩ := bind_eq_ok.mp hb
    obtain rfl := Except.ok.inj hs'
    obtain ⟨hphase, hlz⟩ := flushOpenRun_entersPhase hp htrack
    have hadd := addSymbol_touches hadd
    exact ⟨hadd.ecPhase_eq.trans hphase, (hadd.lzPath_eq (isEntropyTab_ctxTable s1)).trans hlz⟩

theorem execFinalize_entersPhase {s s' : State} (h : exec .finalize s = .next s') (he : s'.err = false) :
    EntersPhase .finalized s s' := by
  rw [exec_finalize_eq] at h
  have hb := runCommand_completed h he
  simp only [bind_eq_ok, needEcPhase, need_eq_ok, Prod.exists, Except.ok.injEq] at hb
  obtain ⟨-, hp, s1, hflush, s2, hadd, _, s3, hbz, s4, haz, rfl⟩ := hb
  obtain ⟨-, hflush⟩ := flushOpenRun_entersPhase hp hflush
  have hadd := (addSymbol_touches hadd).lzPath_eq (isEntropyTab_ctxTable s1)
  have hbz := (buildTable_touches hbz).lzPath_eq rfl
  have haz := (Touches.of_inContextMode haz fun _ => buildTable_touches).lzPath_eq rfl
  exact ⟨rfl, haz.trans (hbz.trans (hadd.trans hflush))⟩

theorem execWriteOverhead_entersPhase {s s' : State} (h : exec .writeOverhead s = .next s')
    (he : s'.err = false) : EntersPhase .emit s s' := by
  rw [exec_writeOverhead_eq] at h
  have hb := runCommand_completed h he
  simp only [bind_eq_ok, needEcPhase, need_eq_ok, Prod.exists, Except.ok.injEq] at hb
  obtain ⟨-, -, k, s1, hbz, k', s2, haz, rfl⟩ := hb
  refine ⟨rfl, Eq.trans ?_ ((writeTable_touches hbz).lzPath_eq rfl)⟩
  split at haz
  · exact (writeTable_touches haz).lzPath_eq rfl
  · obtain ⟨-, rfl⟩ := Prod.mk.inj (Except.ok.inj haz)
    rfl

theorem encodeZero_entersPhase {k : Nat} {s s' : State} (hp : s.ecPhase = .emit)
    (h : encodeZero s = .ok (k, s')) : EntersPhase .emit s s' := by
  unfold encodeZero at h
  split at h
  · obtain ⟨-, rfl⟩ := Prod.mk.inj (Except.ok.inj h)
    exact ⟨hp, rfl⟩
  · obtain ⟨-, -, h⟩ := bind_eq_ok.mp h
    split at h
    · cases h
    · obtain ⟨⟨n, s1⟩, hemit, h⟩ := bind_eq_ok.mp h
      obtain ⟨-, rfl⟩ := Prod.mk.inj (Except.ok.inj h)
      obtain ⟨-, -, -, rfl⟩ := emitSymbols_eq_ok.mp hemit
      exact ⟨hp, rfl⟩

theorem encodeLiteral_entersPhase {byte k : Nat} {s s' : State} (hp : s.ecPhase = .emit)
    (h : encodeLiteral byte s = .ok (k, s')) : EntersPhase .emit s s' := by
  simp only [encodeLiteral, bind_eq_ok, need_eq_ok, pure_eq_ok, Prod.exists, Except.ok.injEq,
    Prod.mk.injEq] at h
  obtain ⟨-, -, _, s1, henc, -, rfl⟩ := h
  have henc := encSym_touches henc
  exact ⟨henc.ecPhase_eq.trans hp, henc.lzPath_eq (isEntropyTab_ctxTable s)⟩

theorem execEncode_entersPhase {s s' : State} (h : exec .encode s = .next s') (he : s'.err = false) :
    EntersPhase .emit s s' := by
  rw [exec_encode_eq] at h
  have hb := runCommand_completed h he
  simp only [bind_eq_ok, needEcPhase, need_eq_ok, Prod.exists, Except.ok.injEq] at hb
  obtain ⟨byte, -, -, hp, k, s1, hbyte, rfl⟩ := hb
  have henters : EntersPhase .emit s s1 := by
    split at hbyte
    · exact encodeZero_entersPhase hp hbyte
    · exact encodeLiteral_entersPhase hp hbyte
  exact henters

theorem execEncodeFinalize_entersPhase {s s' : State} (h : exec .encodeFinalize s = .next s')
    (he : s'.err = false) : EntersPhase .done s s' := by
  have hb := runCommand_completed h he
  simp only [bind_eq_ok, needEcPhase, need_eq_ok, pure_eq_ok, Prod.exists, Except.ok.injEq] at hb
  obtain ⟨-, -, -, -, k, s1, henc, rfl⟩ := hb
  exact ⟨rfl, (encSym_touches henc).lzPath_eq (isEntropyTab_ctxTable s)⟩

theorem execDecInit_entersPhase {s s' : State} (h : exec .decInit s = .next s') (he : s'.err = false) :
    EntersPhase .decode s s' := by
  rw [exec_decInit_eq] at h
  have hb := runCommand_completed h he
  simp only [bind_eq_ok, Prod.exists, Except.ok.injEq] at hb
  obtain ⟨ctx, -, _, s1, hbz, s2, haz, rfl⟩ := hb
  have hbz := (readTable_touches hbz).lzPath_eq rfl
  have haz := (Touches.of_inContextMode haz fun _ => readTable_touches).lzPath_eq rfl
  exact ⟨rfl, haz.trans hbz⟩

/-- The symbol read decides the phase (44_entropy_coder R140). -/
theorem decodedSymbol_phase {s : State} (hp : s.ecPhase = .decode) (sym : Nat) :
    (decodedSymbol sym s).lzPath = s.lzPath ∧ ((decodedSymbol sym s).ecPhase = .decode
      ∨ ((decodedSymbol sym s).ecPhase = .eos ∧ (decodedSymbol sym s).eos = true
        ∧ (decodedSymbol sym s).res1 = 1)) := by
  unfold decodedSymbol
  split
  · exact ⟨rfl, .inr ⟨rfl, rfl, rfl⟩⟩
  split
  · exact ⟨rfl, .inl hp⟩
  · exact ⟨rfl, .inl hp⟩

theorem execDecodeNext_phase {s s' : State} (h : exec .decodeNext s = .next s') (he : s'.err = false) :
    s'.lzPath = s.lzPath
      ∧ (s'.ecPhase = .decode ∨ (s'.ecPhase = .eos ∧ s'.eos = true ∧ s'.res1 = 1)) := by
  have hb := runCommand_completed h he
  simp only [bind_eq_ok, needEcPhase, need_eq_ok, pure_eq_ok] at hb
  obtain ⟨-, hp, hb⟩ := hb
  split at hb
  · obtain rfl := Except.ok.inj hb
    exact ⟨rfl, .inl hp⟩
  · obtain ⟨⟨r, s1⟩, hsym, hb⟩ := bind_eq_ok.mp hb
    obtain rfl := Except.ok.inj hb
    have hsym := decSym_touches hsym
    obtain ⟨hlz, hphase⟩ := decodedSymbol_phase (hsym.ecPhase_eq.trans hp) r.sym
    exact ⟨hlz.trans (hsym.lzPath_eq (isEntropyTab_ctxTable s)), hphase⟩

/-! ### The commands that start the path never raise `CV_SEQUENCE` -/

/-- All that the loop of `ReadTable` can raise is a FormatError (41_table_serdes R103). -/
theorem readFields_error_format {n : Nat} {s : State} {r : Raise} (h : readFields n s = .error r) :
    ∃ c, r = .format c := by
  induction n generalizing s with
  | zero => cases h
  | succ n ih =>
    simp only [readFields, bind_eq_error, Prod.exists, need_eq_error, pure_eq_ok, reduceCtorEq, and_false,
      exists_false, or_false] at h
    obtain h | ⟨v, s1, -, ⟨-, rfl⟩ | ⟨-, -, h⟩⟩ := h
    · exact ⟨_, (readBits_eq_error.mp h).2⟩
    · exact ⟨_, rfl⟩
    · exact ih h

/-- All that `ReadTable` can raise is a FormatError (41_table_serdes R103, R105). -/
theorem readTable_error_format {t : Tab} {s : State} {r : Raise} (h : readTable t s = .error r) :
    ∃ c, r = .format c := by
  obtain h | ⟨ls, s1, -, h⟩ := readTable_eq_error.mp h
  · exact readFields_error_format h
  · obtain ⟨-, rfl⟩ | ⟨-, -, -, rfl⟩ := checkLengths_eq_error.mp h <;> exact ⟨_, rfl⟩

/-- A fault that a command outside the fault state takes is one that its body raises, if a body that completes does
not touch `ERR`. -/
theorem runCommand_faulted {op : BitVec 8} {s s' : State} {body : Except Raise State} (hs : s.err = false)
    (hok : ∀ t, body = .ok t → t.err = s.err) (h : runCommand op s body = .next s') (he : s'.err = true) :
    ∃ r, body = .error r ∧ s'.errinfo = errinfoWord op r := by
  obtain ⟨hs', -⟩ | ⟨-, hb⟩ | ⟨-, r, hb, rfl⟩ := runCommand_cases h
  · rw [hs] at hs'; cases hs'
  · rw [hok s' hb, hs] at he; cases he
  · exact ⟨r, hb, enterFault_errinfo op r s⟩

theorem execEcInit_not_sequence {s s' : State} (hs : s.err = false) (h : exec .ecInit s = .next s')
    (he : s'.err = true) : s'.errinfo ≠ errinfoOf 0x20 2 3 := by
  obtain ⟨r, hb, hinfo⟩ := runCommand_faulted hs (fun t hb => by
    obtain ⟨ctx, -, hb⟩ := bind_eq_ok.mp hb
    obtain rfl := Except.ok.inj hb
    rfl) h he
  rw [hinfo]
  refine errinfoWord_ne_sequence fun hr => ?_
  obtain hctx | ⟨ctx, -, hb⟩ := bind_eq_error.mp hb
  · rw [ctxOperand_eq_error hctx] at hr; cases hr
  · cases hb

theorem execDecInit_not_sequence {s s' : State} (hs : s.err = false) (h : exec .decInit s = .next s')
    (he : s'.err = true) : s'.errinfo ≠ errinfoOf 0x28 2 3 := by
  rw [exec_decInit_eq] at h
  obtain ⟨r, hb, hinfo⟩ := runCommand_faulted hs (fun t hb => by
    simp only [bind_eq_ok, Prod.exists, Except.ok.injEq] at hb
    obtain ⟨ctx, -, _, s1, hbz, s2, haz, rfl⟩ := hb
    exact (Touches.of_inContextMode haz fun _ => readTable_touches).err_eq.trans (readTable_touches hbz).err_eq)
    h he
  rw [hinfo]
  refine errinfoWord_ne_sequence ?_
  simp only [bind_eq_error, reduceCtorEq, and_false, exists_false, or_false] at hb
  obtain hctx | ⟨ctx, -, hbz | ⟨r, -, haz⟩⟩ := hb
  · rw [ctxOperand_eq_error hctx]; simp
  · obtain ⟨c, rfl⟩ := readTable_error_format hbz; simp
  · obtain ⟨c, rfl⟩ := readTable_error_format (inContextMode_eq_error haz); simp

/-! ### The LZ commands -/

theorem pushIf_entropyPath (push : Bool) (d : Nat) (s : State) :
    (pushIf push d s).entropyPath = s.entropyPath := by
  rw [pushIf_eq]; rfl

theorem readLength_entropyPath {len : Nat} {s s' : State} (h : readLength s = .ok (len, s')) :
    s'.entropyPath = s.entropyPath := by
  obtain ⟨r, hr, -⟩ := readLength_eq_ok.mp h
  exact (decSym_touches hr).entropyPath_eq rfl

theorem execLzInit_entropyPath {s s' : State} (h : exec .lzInit s = .next s') (he : s'.err = false) :
    s'.entropyPath = s.entropyPath := by
  obtain ⟨sizes, -, hb⟩ := bind_eq_ok.mp (runCommand_completed h he)
  obtain rfl := Except.ok.inj hb
  rfl

theorem execLzPush_entropyPath {s s' : State} (h : exec .lzPush s = .next s') (he : s'.err = false) :
    s'.entropyPath = s.entropyPath := by
  have hb := runCommand_completed h he
  simp only [bind_eq_ok, Prod.exists, pure_eq_ok, Except.ok.injEq] at hb
  obtain ⟨len, d, -, -, -, s1, hcount, rfl⟩ := hb
  obtain ⟨-, -, -, rfl⟩ := countMatch_eq_ok.mp hcount
  exact pushIf_entropyPath _ _ _

theorem execLzFinalize_entropyPath {s s' : State} (h : exec .lzFinalize s = .next s') (he : s'.err = false) :
    s'.entropyPath = s.entropyPath := by
  have hb := runCommand_completed h he
  simp only [bind_eq_ok, Prod.exists, pure_eq_ok, Except.ok.injEq] at hb
  obtain ⟨-, -, _, s1, hlen, _, s2, hsd, _, s3, hld, rfl⟩ := hb
  have hlen := (buildTable_touches hlen).entropyPath_eq rfl
  have hsd := (buildTable_touches hsd).entropyPath_eq rfl
  have hld := (buildTable_touches hld).entropyPath_eq rfl
  exact hld.trans (hsd.trans hlen)

theorem execLzWriteOverhead_entropyPath {s s' : State} (h : exec .lzWriteOverhead s = .next s')
    (he : s'.err = false) : s'.entropyPath = s.entropyPath := by
  have hb := runCommand_completed h he
  simp only [bind_eq_ok, Prod.exists, pure_eq_ok, Except.ok.injEq] at hb
  obtain ⟨-, -, _, s1, hlen, _, s2, hsd, _, s3, hld, rfl⟩ := hb
  have hlen := (writeTable_touches hlen).entropyPath_eq rfl
  have hsd := (writeTable_touches hsd).entropyPath_eq rfl
  have hld := (writeTable_touches hld).entropyPath_eq rfl
  exact hld.trans (hsd.trans hlen)

theorem execLzEncode_entropyPath {s s' : State} (h : exec .lzEncode s = .next s') (he : s'.err = false) :
    s'.entropyPath = s.entropyPath := by
  have hb := runCommand_completed h he
  simp only [bind_eq_ok, Prod.exists, pure_eq_ok, Except.ok.injEq] at hb
  obtain ⟨len, d, -, -, -, a, s1, hlen, b, s2, hdist, rfl⟩ := hb
  obtain ⟨-, -, rfl⟩ := emitLength_eq_ok.mp hlen
  obtain ⟨-, -, -, rfl⟩ := emitDistance_eq_ok.mp hdist
  exact pushIf_entropyPath _ _ _

theorem execLzDecInit_entropyPath {s s' : State} (h : exec .lzDecInit s = .next s') (he : s'.err = false) :
    s'.entropyPath = s.entropyPath := by
  have hb := runCommand_completed h he
  simp only [bind_eq_ok, Prod.exists, pure_eq_ok, Except.ok.injEq] at hb
  obtain ⟨x, y, -, _, s1, hlen, _, s2, hsd, _, s3, hld, rfl⟩ := hb
  have hlen := (readTable_touches hlen).entropyPath_eq rfl
  have hsd := (readTable_touches hsd).entropyPath_eq rfl
  have hld := (readTable_touches hld).entropyPath_eq rfl
  exact hld.trans (hsd.trans hlen)

theorem decodeRecent_entropyPath {esc : Nat} {s s' : State} (h : decodeRecent esc s = .ok s') :
    s'.entropyPath = s.entropyPath := by
  simp only [decodeRecent, bind_eq_ok, Prod.exists, pure_eq_ok, Except.ok.injEq] at h
  obtain ⟨-, -, len, s1, hlen, rfl⟩ := h
  have hlen := readLength_entropyPath hlen
  exact hlen

theorem decodeLocalLeft_entropyPath {esc : Nat} {s s' : State} (h : decodeLocalLeft esc s = .ok s') :
    s'.entropyPath = s.entropyPath := by
  simp only [decodeLocalLeft, bind_eq_ok, Prod.exists, pure_eq_ok, Except.ok.injEq] at h
  obtain ⟨len, s1, hlen, rfl⟩ := h
  have hlen := readLength_entropyPath hlen
  exact hlen

theorem decodeLocalUp_entropyPath {esc : Nat} {s s' : State} (h : decodeLocalUp esc s = .ok s') :
    s'.entropyPath = s.entropyPath := by
  simp only [decodeLocalUp, bind_eq_ok, Prod.exists, pure_eq_ok, Except.ok.injEq] at h
  obtain ⟨-, -, len, s1, hlen, rfl⟩ := h
  have hlen := readLength_entropyPath hlen
  exact hlen

/-- The length of bands 4 and 5: carried by the escape code, or read (45_lz_codec R160). -/
theorem optionalLength_entropyPath {p : Prop} [Decidable p] {direct len : Nat} {s s' : State}
    (h : (if p then .ok (direct, s) else readLength s) = .ok (len, s')) : s'.entropyPath = s.entropyPath := by
  split at h
  · obtain ⟨-, rfl⟩ := Prod.mk.inj (Except.ok.inj h)
    rfl
  · exact readLength_entropyPath h

theorem decodeShort_entropyPath {esc : Nat} {s s' : State} (h : decodeShort esc s = .ok s') :
    s'.entropyPath = s.entropyPath := by
  simp only [decodeShort, bind_eq_ok, Prod.exists, pure_eq_ok, ite_bind_eq_ok, Except.ok.injEq] at h
  obtain ⟨len, s1, hlen, r, s2, hsym, rfl⟩ := h
  have hsym := (decSym_touches hsym).entropyPath_eq rfl
  exact hsym.trans (optionalLength_entropyPath hlen)

theorem decodeLong_entropyPath {esc : Nat} {s s' : State} (h : decodeLong esc s = .ok s') :
    s'.entropyPath = s.entropyPath := by
  simp only [decodeLong, bind_eq_ok, Prod.exists, pure_eq_ok, ite_bind_eq_ok, Except.ok.injEq] at h
  obtain ⟨len, s1, hlen, hi, s2, hsym, lo, s3, hlo, -, -, rfl⟩ := h
  have hsym := (decSym_touches hsym).entropyPath_eq rfl
  have hlo := (readBits_touches .ld hlo).entropyPath_eq rfl
  exact hlo.trans (hsym.trans (optionalLength_entropyPath hlen))

theorem execLzDecode_entropyPath {s s' : State} (h : exec .lzDecode s = .next s') (he : s'.err = false) :
    s'.entropyPath = s.entropyPath := by
  have hb := runCommand_completed h he
  simp only [bind_eq_ok] at hb
  obtain ⟨esc, -, -, -, -, -, hband⟩ := hb
  split at hband
  · exact decodeRecent_entropyPath hband
  split at hband
  · exact decodeLocalLeft_entropyPath hband
  split at hband
  · exact decodeLocalUp_entropyPath hband
  split at hband
  · exact decodeShort_entropyPath hband
  · exact decodeLong_entropyPath hband

/-! ### The statements -/

/-- Settles O13: a command tests its operand and its phase first, and one that completes writes the phase last. -/
theorem entropyCommandsFollowTheirSequence : Obligations.EntropyCommandsFollowTheirSequence := by
  refine ⟨?_, ?_, fun s s' _ h he => (execDecodeNext_phase h he).2, ?_⟩
  · simp only [List.forall_mem_cons, List.not_mem_nil, false_implies, implies_true, and_true]
    refine ⟨fun s he hp hbyte => ?_, fun s he hp _ => ?_, fun s he hp _ => ?_, fun s he hp hbyte => ?_,
      fun s he hp _ => ?_, fun s he hp _ => ?_⟩
    · exact runCommand_byteSequenceFault he (hbyte (by simp)) hp
    · exact runCommand_sequenceFault he hp
    · exact runCommand_sequenceFault he hp
    · exact runCommand_byteSequenceFault he (hbyte (by simp)) hp
    · exact runCommand_sequenceFault he hp
    · exact runCommand_sequenceFault he hp
  · simp only [List.forall_mem_cons, List.not_mem_nil, false_implies, implies_true, and_true]
    exact ⟨fun s s' _ h he => (execEcInit_entersPhase h he).1, fun s s' _ h he => (execPush_entersPhase h he).1,
      fun s s' _ h he => (execFinalize_entersPhase h he).1, fun s s' _ h he => (execWriteOverhead_entersPhase h he).1,
      fun s s' _ h he => (execEncode_entersPhase h he).1, fun s s' _ h he => (execEncodeFinalize_entersPhase h he).1,
      fun s s' _ h he => (execDecInit_entersPhase h he).1⟩
  · simp only [List.forall_mem_cons, List.not_mem_nil, false_implies, implies_true, and_true]
    exact ⟨fun s s' => execEcInit_not_sequence, fun s s' => execDecInit_not_sequence⟩

/-- Settles O36: neither command has anything to check but its operands. -/
theorem initCommandsStartTheirPath : Obligations.InitCommandsStartTheirPath := by
  refine fun s he => ⟨fun hctx => runCommand_of_ok he ?_, fun hx hy => runCommand_of_ok he ?_⟩
  · rw [ctxOperand_of_lt hctx]; rfl
  · rw [sizeOperands_eq, if_pos ⟨hx, hy⟩]; rfl

/-- Settles O56: each shared operation works on one table, and no command uses a table of the other path. -/
theorem pathsDoNotInterfere : Obligations.PathsDoNotInterfere := by
  intro s s' _ he
  constructor
  · have hkept : ∀ i ∈ [Instr.lzInit, .lzPush, .lzFinalize, .lzWriteOverhead, .lzEncode, .lzDecInit, .lzDecode],
        exec i s = .next s' → s'.entropyPath = s.entropyPath := by
      simp only [List.forall_mem_cons, List.not_mem_nil, false_implies, implies_true, and_true]
      exact ⟨fun h => execLzInit_entropyPath h he, fun h => execLzPush_entropyPath h he,
        fun h => execLzFinalize_entropyPath h he, fun h => execLzWriteOverhead_entropyPath h he,
        fun h => execLzEncode_entropyPath h he, fun h => execLzDecInit_entropyPath h he,
        fun h => execLzDecode_entropyPath h he⟩
    intro i hi h
    simpa only [State.entropyPath, State.entropyRegs, Prod.mk.injEq, EntropyRegs.mk.injEq] using hkept i hi h
  · have hkept : ∀ i ∈ [Instr.ecInit, .push, .finalize, .writeOverhead, .encode, .encodeFinalize, .decInit,
        .decodeNext], exec i s = .next s' → s'.lzPath = s.lzPath := by
      simp only [List.forall_mem_cons, List.not_mem_nil, false_implies, implies_true, and_true]
      exact ⟨fun h => (execEcInit_entersPhase h he).2, fun h => (execPush_entersPhase h he).2,
        fun h => (execFinalize_entersPhase h he).2, fun h => (execWriteOverhead_entersPhase h he).2,
        fun h => (execEncode_entersPhase h he).2, fun h => (execEncodeFinalize_entersPhase h he).2,
        fun h => (execDecInit_entersPhase h he).2, fun h => (execDecodeNext_phase h he).1⟩
    intro i hi h
    simpa only [State.lzPath, Prod.mk.injEq] using hkept i hi h

end Sys2Proof.Machine
end

section
/-! SUPPORT. Pass one of the encoder (44_entropy_coder R133, R134, 43_zero_run R122, R123): PUSH of a non-zero byte and
FINALIZE both end the open run and count one symbol in the table that the context then selects; the statements O37 to
O39. -/

namespace Sys2Proof.Machine

open Sys2Proof Host

/-! ### Ending the open run -/

/-- A table that is not collecting is valid (10_state R22). -/
theorem TState.eq_valid_of_ne_collect {t : TState} (h : t ≠ .collect) : t = .valid := by
  cases t
  · exact absurd rfl h
  · rfl

/-- A table that is not valid is collecting (10_state R22). -/
theorem TState.eq_collect_of_ne_valid {t : TState} (h : t ≠ .valid) : t = .collect := by
  cases t
  · rfl
  · exact absurd rfl h

/-- The state after the open run, if there is one, has ended (43_zero_run R123). -/
def flushedState (s : State) : State :=
  { s with
    tabBz := (flushedSymbols s).foldl TableMem.addOne s.tabBz
    rl := flushedRuns s, runCnt := 0, ctxAz := flushedContext s }

/-- An open run that finds the run-list full (43_zero_run R123). -/
def RunListFull (s : State) : Prop := s.runCnt ≠ 0 ∧ s.rl.length = Config.runlistCap

theorem ctxTable_flushedState_of_set {s : State} (h : flushedContext s = true) : ctxTable (flushedState s) = .az :=
  if_pos h

theorem ctxTable_flushedState_of_clear {s : State} (h : flushedContext s = false) :
    ctxTable (flushedState s) = .bz :=
  if_neg (by rw [flushedState, h]; exact Bool.false_ne_true)

theorem flushOpenRun_of_room {s : State} (hfull : ¬ RunListFull s)
    (hbz : s.runCnt ≠ 0 → s.tabBz.tstate = .collect) : flushOpenRun s = .ok (flushedState s) :=
  flushOpenRun_eq_ok.mpr ⟨fun hrun => ⟨fun hlen => hfull ⟨hrun, hlen⟩, hbz hrun⟩, rfl⟩

/-- An open run that cannot be ended raises the fault of the run-list before that of the table (43_zero_run R123). -/
theorem flushOpenRun_of_blocked {s : State} (hrun : s.runCnt ≠ 0)
    (h : s.rl.length = Config.runlistCap ∨ s.tabBz.tstate = .valid) :
    flushOpenRun s = .error (.contract (if s.rl.length = Config.runlistCap then .overflow else .tableState)) := by
  cases hflush : flushOpenRun s with
  | ok s' =>
    obtain ⟨hroom, -⟩ := flushOpenRun_eq_ok.mp hflush
    obtain ⟨hlen, hbz⟩ := hroom hrun
    rw [hbz] at h
    exact absurd h (by simp [hlen])
  | error r =>
    obtain ⟨-, ⟨hlen, rfl⟩ | ⟨hlen, -, rfl⟩⟩ := flushOpenRun_eq_error hflush
    · rw [if_pos hlen]
    · rw [if_neg hlen]

/-- Only run symbols are counted at the end of a run, and those are in the base alphabet (43_zero_run R120). -/
theorem flushedSymbols_lt {s : State} {y : Nat} (h : y ∈ flushedSymbols s) : y < 384 := by
  unfold flushedSymbols at h
  split at h
  · cases h
  · have := mem_chain h
    omega

/-- Without context mode the end of a run does not set the flag (44_entropy_coder R131). -/
theorem flushedContext_of_off {s : State} (hctx : s.ctxEn = false → s.ctxAz = false) (hen : s.ctxEn = false) :
    flushedContext s = false := by
  unfold flushedContext
  split
  · exact hctx hen
  · rw [hen, Bool.false_and]

/-! ### Counting the symbol that follows -/

/-- The open run ended, then a symbol counted in the table the context selects: PUSH of a non-zero byte and FINALIZE up
to there (44_entropy_coder R133, R134). -/
def closeAndCount (sym : Nat) (s : State) : Except Raise State :=
  flushOpenRun s >>= fun s1 => addSymbol (ctxTable s1) sym s1

/-- The base table after that. -/
def countedBase (sym : Nat) (s : State) : TableMem 384 :=
  if flushedContext s then (flushedState s).tabBz else (flushedState s).tabBz.addOne sym

/-- The after-zero table after that. -/
def countedAfterZero (sym : Nat) (s : State) : TableMem 256 :=
  if flushedContext s then s.tabAz.addOne sym else s.tabAz

theorem countedBase_countsAdded {sym : Nat} (hsym : sym < 256) (s : State) :
    CountsAdded (flushedSymbols s ++ if flushedContext s then [] else [sym]) s.tabBz (countedBase sym s) := by
  have hrun : CountsAdded (flushedSymbols s) s.tabBz (flushedState s).tabBz :=
    .foldl (fun _ => flushedSymbols_lt) _
  unfold countedBase
  split
  · rwa [List.append_nil]
  · exact hrun.append (.addOne _ (by omega))

theorem countedAfterZero_countsAdded {sym : Nat} (hsym : sym < 256) (s : State) :
    CountsAdded (if flushedContext s then [sym] else []) s.tabAz (countedAfterZero sym s) := by
  unfold countedAfterZero
  split
  · exact .addOne _ hsym
  · exact .nil _

@[simp] theorem countedBase_tstate (sym : Nat) (s : State) : (countedBase sym s).tstate = s.tabBz.tstate := by
  unfold countedBase
  split <;> simp [flushedState]

@[simp] theorem countedAfterZero_tstate (sym : Nat) (s : State) :
    (countedAfterZero sym s).tstate = s.tabAz.tstate := by
  unfold countedAfterZero
  split <;> rfl

/-- The tables it counts in are collecting. -/
def CountsInCollecting (s : State) : Prop :=
  (s.runCnt ≠ 0 ∨ flushedContext s = false → s.tabBz.tstate = .collect)
    ∧ (flushedContext s = true → s.tabAz.tstate = .collect)

theorem closeAndCount_of_collecting {s : State} (hfull : ¬ RunListFull s) (hc : CountsInCollecting s) (sym : Nat) :
    closeAndCount sym s = .ok { flushedState s with
      tabBz := countedBase sym s, tabAz := countedAfterZero sym s } := by
  obtain ⟨hbz, haz⟩ := hc
  rw [closeAndCount, flushOpenRun_of_room hfull fun hrun => hbz (.inl hrun), ok_bind]
  unfold countedBase countedAfterZero
  cases hctx : flushedContext s with
  | true =>
    rw [ctxTable_flushedState_of_set hctx]
    exact addSymbol_eq_ok.mpr ⟨haz hctx, rfl⟩
  | false =>
    rw [ctxTable_flushedState_of_clear hctx]
    exact addSymbol_eq_ok.mpr ⟨(TableMem.foldl_addOne_tstate _ _).trans (hbz (.inr hctx)), rfl⟩

theorem closeAndCount_of_full {s : State} (hfull : RunListFull s) (sym : Nat) :
    closeAndCount sym s = .error (.contract .overflow) := by
  obtain ⟨hrun, hlen⟩ := hfull
  rw [closeAndCount, flushOpenRun_of_blocked hrun (.inl hlen), if_pos hlen, error_bind]

/-- A frozen table stops the end of the run or the count of the symbol. -/
theorem closeAndCount_of_frozen {s : State} (hfull : ¬ RunListFull s) (hc : ¬ CountsInCollecting s) (sym : Nat) :
    closeAndCount sym s = .error (.contract .tableState) := by
  rw [closeAndCount]
  by_cases hbz : s.runCnt ≠ 0 → s.tabBz.tstate = .collect
  · rw [flushOpenRun_of_room hfull hbz, ok_bind, addSymbol_eq_error]
    refine ⟨TState.eq_valid_of_ne_collect fun hcollect => hc ?_, rfl⟩
    cases hctx : flushedContext s with
    | true =>
      rw [ctxTable_flushedState_of_set hctx] at hcollect
      exact ⟨fun h => hbz (h.resolve_right (by simp [hctx])), fun _ => hcollect⟩
    | false =>
      rw [ctxTable_flushedState_of_clear hctx] at hcollect
      have hcollect := (TableMem.foldl_addOne_tstate _ _).symm.trans hcollect
      exact ⟨fun _ => hcollect, fun h => by rw [hctx] at h; cases h⟩
  · obtain ⟨hrun, hbz⟩ := Classical.not_imp.mp hbz
    have hlen : s.rl.length ≠ Config.runlistCap := fun hlen => hfull ⟨hrun, hlen⟩
    rw [flushOpenRun_of_blocked hrun (.inr (TState.eq_valid_of_ne_collect hbz)), if_neg hlen, error_bind]

/-- A literal leaves the context base (44_entropy_coder R131). -/
theorem ctxAfter_of_le {sym : Nat} (h : sym ≤ 255) (s : State) : ctxAfter sym s = { s with ctxAz := false } := by
  have hlt : ¬ 256 ≤ sym := by omega
  simp [ctxAfter, Config.runBase, hlt]

/-! ### PUSH -/

/-- `PUSH` of a non-zero byte in its phase (44_entropy_coder R133). -/
theorem exec_push_of_ne {s : State} (hne : 1 ≤ s.arg0.toNat) (hbyte : s.arg0.toNat ≤ 255)
    (hp : s.ecPhase = .collect) : exec .push s = runCommand 0x21 s
      (closeAndCount s.arg0.toNat s >>= fun s2 => .ok { s2 with ctxAz := false }) := by
  have h0 : s.arg0.toNat ≠ 0 := by omega
  refine congrArg (runCommand 0x21 s) ?_
  rw [byteOperand_of_lt (by omega), ok_bind, needEcPhase_of hp, ok_bind, trackByte_of_ne h0, closeAndCount, bind_assoc]
  refine congrArg _ (funext fun s1 => ?_)
  rw [if_neg h0]
  exact congrArg _ (funext fun s2 => by rw [ctxAfter_of_le hbyte]; rfl)

/-- Settles O37: the limit of a run is tested before the counter moves. -/
theorem pushZeroExtendsTheRun : Obligations.PushZeroExtendsTheRun := by
  intro s he h0 hp
  have hbyte : byteOperand s = .ok 0 := by rw [byteOperand_eq, h0]; rfl
  refine ⟨fun hlt => runCommand_of_ok he ?_, fun hmax => runCommand_faultTaken (r := .contract .overflow) he ?_⟩
  · have hnext : BitVec.ofNat 32 (s.runCnt.toNat + 1) = s.runCnt + 1 := by
      rw [BitVec.ofNat_add, BitVec.ofNat_toNat, BitVec.setWidth_eq]; rfl
    rw [hbyte, ok_bind, needEcPhase_of hp, ok_bind, trackByte_zero_eq_ok.mpr ⟨hlt, rfl⟩, ok_bind, hnext]
    rfl
  · have htrack : trackByte 0 s = .error (.contract .overflow) := by simp [trackByte, Config.countMax, hmax]
    rw [hbyte, ok_bind, needEcPhase_of hp, ok_bind, htrack, error_bind]

theorem exec_push_of_collecting {s : State} (he : s.err = false) (hne : 1 ≤ s.arg0.toNat)
    (hbyte : s.arg0.toNat ≤ 255) (hp : s.ecPhase = .collect) (hfull : ¬ RunListFull s) (hc : CountsInCollecting s) :
    exec .push s = .next { s with
      tabBz := countedBase s.arg0.toNat s, tabAz := countedAfterZero s.arg0.toNat s
      rl := flushedRuns s, runCnt := 0, ctxAz := false } := by
  rw [exec_push_of_ne hne hbyte hp]
  exact runCommand_of_ok he (by rw [closeAndCount_of_collecting hfull hc, ok_bind, flushedState])

/-- Settles O38. -/
theorem pushNonZeroFlushesAndCounts : Obligations.PushNonZeroFlushesAndCounts := by
  intro s he hne hbyte hp full collecting
  have hlt : s.arg0.toNat < 256 := by omega
  refine ⟨fun hfull hc => ?_, fun hfull => ?_, fun hfull hc => ?_⟩
  · exact ⟨_, exec_push_of_collecting he hne hbyte hp hfull hc, rfl, countedBase_countsAdded hlt s,
      countedAfterZero_countsAdded hlt s⟩
  · rw [exec_push_of_ne hne hbyte hp]
    exact runCommand_faultTaken (r := .contract .overflow) he (by rw [closeAndCount_of_full hfull, error_bind])
  · rw [exec_push_of_ne hne hbyte hp]
    exact runCommand_faultTaken (r := .contract .tableState) he
      (by rw [closeAndCount_of_frozen hfull hc, error_bind])

/-! ### FINALIZE -/

/-- The base table built and, in context mode, the after-zero table (44_entropy_coder R134). -/
def buildEntropyTables (s : State) : Except Raise State :=
  buildTable .bz s >>= fun r => inContextMode r.2.ctxEn r.2 (buildTable .az r.2)

theorem buildAfterZero_of_collecting {s : State} (haz : s.ctxEn = true → s.tabAz.tstate = .collect) :
    inContextMode s.ctxEn s (buildTable .az s) = .ok { s with
      tabAz := if s.ctxEn then s.tabAz.withLengths (buildLengths s.tabAz.hist).1 else s.tabAz } := by
  by_cases hen : s.ctxEn = true
  · rw [inContextMode, if_pos hen, if_pos hen, (buildTable_eq_ok (t := .az)).mpr ⟨haz hen, rfl, rfl⟩]
    rfl
  · rw [inContextMode, if_neg hen, if_neg hen]

theorem buildEntropyTables_of_collecting {s : State} (hbz : s.tabBz.tstate = .collect)
    (haz : s.ctxEn = true → s.tabAz.tstate = .collect) :
    buildEntropyTables s = .ok { s with
      tabBz := s.tabBz.withLengths (buildLengths s.tabBz.hist).1
      tabAz := if s.ctxEn then s.tabAz.withLengths (buildLengths s.tabAz.hist).1 else s.tabAz } := by
  rw [buildEntropyTables, (buildTable_eq_ok (t := .bz)).mpr ⟨hbz, rfl, rfl⟩, ok_bind]
  simp only [State.tab_bz, State.setTab_bz]
  exact buildAfterZero_of_collecting
    (s := { s with tabBz := s.tabBz.withLengths (buildLengths s.tabBz.hist).1 }) haz

theorem buildEntropyTables_of_frozen {s : State}
    (h : ¬ (s.tabBz.tstate = .collect ∧ (s.ctxEn = true → s.tabAz.tstate = .collect))) :
    buildEntropyTables s = .error (.contract .tableState) := by
  rw [buildEntropyTables]
  by_cases hbz : s.tabBz.tstate = .collect
  · obtain ⟨hen, haz⟩ := Classical.not_imp.mp fun haz => h ⟨hbz, haz⟩
    rw [(buildTable_eq_ok (t := .bz)).mpr ⟨hbz, rfl, rfl⟩, ok_bind]
    simp only [State.setTab_ctxEn, hen]
    exact inContextMode_of_error (buildTable_eq_error.mpr ⟨TState.eq_valid_of_ne_collect haz, rfl⟩)
  · rw [(buildTable_eq_error (t := .bz)).mpr ⟨TState.eq_valid_of_ne_collect hbz, rfl⟩, error_bind]

/-- `FINALIZE` in its phase (44_entropy_coder R134). -/
theorem exec_finalize_of_collect {s : State} (hp : s.ecPhase = .collect) : exec .finalize s = runCommand 0x22 s (do
    let s2 ← closeAndCount 0 s
    let s4 ← buildEntropyTables s2
    .ok { s4 with ctxAz := false, encRem := 0, encLastz := false, ecPhase := .finalized }) := by
  rw [exec_finalize_eq, needEcPhase_of hp, ok_bind, closeAndCount, bind_assoc]
  simp only [buildEntropyTables, bind_assoc]

/-- Settles O39: what FINALIZE counts in, it then builds. -/
theorem finalizeBuildsTheTables : Obligations.FinalizeBuildsTheTables := by
  intro s he hp hctx full collecting
  have hcounts : collecting → CountsInCollecting s := fun ⟨hbz, haz⟩ => by
    refine ⟨fun _ => hbz, fun hset => haz ?_⟩
    by_contra hen
    rw [flushedContext_of_off hctx (by simpa using hen)] at hset
    cases hset
  rw [exec_finalize_of_collect hp]
  refine ⟨fun hfull => ?_, fun hfull hc => ?_, fun hfull hc => ?_⟩
  · exact runCommand_faultTaken (r := .contract .overflow) he (by rw [closeAndCount_of_full hfull, error_bind])
  · refine runCommand_faultTaken (r := .contract .tableState) he ?_
    by_cases hcount : CountsInCollecting s
    · rw [closeAndCount_of_collecting hfull hcount, ok_bind, buildEntropyTables_of_frozen, error_bind]
      rw [countedBase_tstate, countedAfterZero_tstate]
      exact hc
    · rw [closeAndCount_of_frozen hfull hcount, error_bind]
  · refine ⟨countedBase 0 s, countedAfterZero 0 s, countedBase_countsAdded (by decide) s,
      countedAfterZero_countsAdded (by decide) s, runCommand_of_ok he ?_⟩
    have hbz : (countedBase 0 s).tstate = .collect := (countedBase_tstate 0 s).trans hc.1
    have haz : s.ctxEn = true → (countedAfterZero 0 s).tstate = .collect := fun hen =>
      (countedAfterZero_tstate 0 s).trans (hc.2 hen)
    rw [closeAndCount_of_collecting hfull (hcounts hc), ok_bind, buildEntropyTables_of_collecting hbz haz, ok_bind]
    have hkept : s.ctxEn = false → countedAfterZero 0 s = s.tabAz := fun hen => by
      rw [countedAfterZero, flushedContext_of_off hctx hen]; rfl
    cases hen : s.ctxEn with
    | true => simp [flushedState, hen, TableMem.withLengths]
    | false => simp [flushedState, hen, TableMem.withLengths, hkept hen]

end Sys2Proof.Machine
end

section
/-! SUPPORT. Pass two of the encoder (44_entropy_coder R135 to R138): the tables written, the recorded runs replayed,
the literals and the end marker written in the table that the context selects; the statements O40 to O44. -/

namespace Sys2Proof.Machine

open Sys2Proof Host

/-! ### WRITE_OVERHEAD -/

/-- The base table written and, in context mode, the after-zero table (44_entropy_coder R135). -/
def writeEntropyTables (s : State) : Except Raise (Nat × State) :=
  writeTable .bz s >>= fun r =>
    (if r.2.ctxEn then writeTable .az r.2 else .ok (0, r.2)) >>= fun r' => .ok (r.1 + r'.1, r'.2)

theorem writeAfterZero_of_valid {s : State} (haz : s.ctxEn = true → s.tabAz.tstate = .valid) :
    (if s.ctxEn then writeTable .az s else .ok (0, s)) = .ok (if s.ctxEn then 1280 else 0, { s with
      chanOut := s.chanOut ++ if s.ctxEn then lengthBits s.tabAz.len.toList else []
      bitsOut := s.bitsOut + if s.ctxEn then 1280 else 0 }) := by
  by_cases hen : s.ctxEn = true
  · simp only [if_pos hen]
    exact (writeTable_eq_ok (t := .az)).mpr ⟨haz hen, rfl, rfl⟩
  · have hzero : s.bitsOut + 0 = s.bitsOut := BitVec.add_zero s.bitsOut
    simp only [if_neg hen, List.append_nil, hzero]

theorem writeEntropyTables_of_valid {s : State} (hbz : s.tabBz.tstate = .valid)
    (haz : s.ctxEn = true → s.tabAz.tstate = .valid) :
    writeEntropyTables s = .ok (if s.ctxEn then 3200 else 1920, { s with
      chanOut := s.chanOut ++ lengthBits s.tabBz.len.toList
        ++ if s.ctxEn then lengthBits s.tabAz.len.toList else []
      bitsOut := s.bitsOut + if s.ctxEn then 3200 else 1920 }) := by
  have haz := writeAfterZero_of_valid (s := { s with
    chanOut := s.chanOut ++ lengthBits s.tabBz.len.toList, bitsOut := s.bitsOut + 1920 }) haz
  rw [writeEntropyTables, (writeTable_eq_ok (t := .bz) (s := s) (k := 1920)).mpr ⟨hbz, rfl, rfl⟩, ok_bind]
  refine (congrArg (· >>= _) haz).trans ?_
  rw [ok_bind, BitVec.add_assoc]
  by_cases hen : s.ctxEn = true
  · simp only [if_pos hen]; rfl
  · simp only [if_neg hen]; rfl

theorem writeEntropyTables_of_collecting {s : State}
    (h : ¬ (s.tabBz.tstate = .valid ∧ (s.ctxEn = true → s.tabAz.tstate = .valid))) :
    writeEntropyTables s = .error (.contract .tableState) := by
  rw [writeEntropyTables]
  by_cases hbz : s.tabBz.tstate = .valid
  · obtain ⟨hen, haz⟩ := Classical.not_imp.mp fun haz => h ⟨hbz, haz⟩
    refine bind_eq_error.mpr (.inr ⟨_, (writeTable_eq_ok (t := .bz)).mpr ⟨hbz, rfl, rfl⟩, ?_⟩)
    refine bind_eq_error.mpr (.inl ?_)
    rw [if_pos hen]
    exact (writeTable_eq_error (t := .az)).mpr ⟨TState.eq_collect_of_ne_valid haz, rfl⟩
  · rw [(writeTable_eq_error (t := .bz)).mpr ⟨TState.eq_collect_of_ne_valid hbz, rfl⟩, error_bind]

/-- `WRITE_OVERHEAD` in its phase (44_entropy_coder R135). -/
theorem exec_writeOverhead_of_finalized {s : State} (hp : s.ecPhase = .finalized) :
    exec .writeOverhead s = runCommand 0x23 s
      (writeEntropyTables s >>= fun r => .ok { r.2.setRes0 r.1 with ecPhase := .emit }) := by
  rw [exec_writeOverhead_eq, needEcPhase_of hp, ok_bind]
  simp only [writeEntropyTables, bind_assoc, ok_bind]

/-- Settles O40. -/
theorem writeOverheadWritesTheTables : Obligations.WriteOverheadWritesTheTables := by
  intro s he hp built
  rw [exec_writeOverhead_of_finalized hp]
  refine ⟨fun hb => runCommand_of_ok he ?_, fun hb => runCommand_faultTaken (r := .contract .tableState) he ?_⟩
  · rw [writeEntropyTables_of_valid hb.1 hb.2, ok_bind]
    by_cases hen : s.ctxEn = true
    · simp only [if_pos hen]; rfl
    · simp only [if_neg hen]; rfl
  · rw [writeEntropyTables_of_collecting hb, error_bind]

/-! ### ENCODE of a zero byte -/

/-- `ENCODE 0` in its phase (44_entropy_coder R137). -/
theorem exec_encode_zero {s : State} (h0 : s.arg0 = 0) (hp : s.ecPhase = .emit) :
    exec .encode s = runCommand 0x24 s (encodeZero s >>= fun r => .ok (r.2.setRes0 r.1)) := by
  have hbyte : byteOperand s = .ok 0 := by rw [byteOperand_eq, h0]; rfl
  rw [exec_encode_eq, hbyte, ok_bind, needEcPhase_of hp, ok_bind, if_pos rfl]

/-- The first zero of a run replays the run at the head of the run-list (44_entropy_coder R137). -/
theorem encodeZero_of_run {s : State} {L : BitVec 32} {rest : List (BitVec 32)} (hrem : s.encRem = 0)
    (hlast : s.encLastz = false) (hrl : s.rl = L :: rest) :
    encodeZero s = emitSymbols (chain L.toNat) { s with rl := rest } >>= fun r =>
      .ok (r.1, { r.2 with encRem := L - 1, encLastz := true }) := by
  rw [encodeZero, if_neg (not_not.mpr hrem), need_of hlast, ok_bind, hrl]
  rfl

/-- Right after a run has ended, or with no run to start, `ENCODE 0` does not look at a table (44_entropy_coder R137). -/
theorem encodeZero_of_desync {s : State} (hrem : s.encRem = 0) (h : s.encLastz = true ∨ s.rl = []) :
    encodeZero s = .error (.contract .desync) := by
  rw [encodeZero, if_neg (not_not.mpr hrem)]
  cases hlast : s.encLastz with
  | true => rfl
  | false =>
    rw [h.resolve_left (by simp [hlast])]
    rfl

/-- The first symbol of a chain finds a base table that is not valid (42_huffman_codec R110). -/
theorem emitSymbols_of_collecting {syms : List Nat} {s : State} (hne : syms ≠ [])
    (h : s.tabBz.tstate = .collect) : emitSymbols syms s = .error (.contract .tableState) := by
  cases hemit : emitSymbols syms s with
  | ok r =>
    obtain ⟨hv, -⟩ := emitSymbols_eq_ok.mp hemit
    rw [h] at hv
    exact absurd (hv.resolve_left hne) (by simp)
  | error r =>
    obtain ⟨-, rfl⟩ | ⟨hv, -⟩ := emitSymbols_eq_error hemit
    · rfl
    · rw [h] at hv; cases hv

/-- One symbol without a code is enough to stop the chain (42_huffman_codec R110). -/
theorem emitSymbols_of_noCode {syms : List Nat} {s : State} (hv : s.tabBz.tstate = .valid)
    (h : ∃ y ∈ syms, s.tabBz.lenAt y = 0) : emitSymbols syms s = .error (.contract .noCode) := by
  cases hemit : emitSymbols syms s with
  | ok r =>
    obtain ⟨-, hcodes, -⟩ := emitSymbols_eq_ok.mp hemit
    obtain ⟨y, hy, hlen⟩ := h
    exact absurd hlen (hcodes y hy)
  | error r =>
    obtain ⟨hc, -⟩ | ⟨-, -, rfl⟩ := emitSymbols_eq_error hemit
    · rw [hv] at hc; cases hc
    · rfl

/-- One less, as a word and as a number. -/
theorem ofNat_toNat_sub_one {w : Nat} {x : BitVec w} (h : x ≠ 0) : BitVec.ofNat w (x.toNat - 1) = x - 1 := by
  have hpos := Nat.pos_of_ne_zero (toNat_ne_zero_of_ne h)
  have hlt := x.isLt
  have hone : (1 : BitVec w).toNat = 1 := (BitVec.toNat_ofNat 1 w).trans (Nat.mod_eq_of_lt (by omega))
  apply BitVec.eq_of_toNat_eq
  rw [BitVec.toNat_ofNat, Nat.mod_eq_of_lt (by omega), BitVec.toNat_sub_of_le (by rw [BitVec.le_def, hone]; exact hpos),
    hone]

/-- Settles O41. -/
theorem encodeZeroReplaysTheRun : Obligations.EncodeZeroReplaysTheRun := by
  intro s he h0 hp
  rw [exec_encode_zero h0 hp]
  refine ⟨fun hrem => runCommand_of_ok he ?_, fun L rest hrem hlast hrl hL => ?_⟩
  · rw [encodeZero, if_pos hrem, ofNat_toNat_sub_one hrem]
    rfl
  have hpos : 1 ≤ L.toNat := Nat.pos_of_ne_zero (toNat_ne_zero_of_ne hL)
  rw [encodeZero_of_run hrem hlast hrl]
  refine ⟨fun hv hcodes => runCommand_of_ok he ?_,
    fun hv hnone => runCommand_faultTaken (r := .contract .noCode) he ?_,
    fun hc => runCommand_faultTaken (r := .contract .tableState) he ?_⟩
  · rw [(emitSymbols_eq_ok (s := { s with rl := rest })).mpr ⟨.inr hv, hcodes, rfl, rfl⟩, ok_bind, ok_bind,
      ofNat_toNat_sub_one hL]
    simp only [foldl_ctx_chain _ _ hpos]
    rfl
  · rw [emitSymbols_of_noCode (s := { s with rl := rest }) hv hnone, error_bind, error_bind]
  · rw [emitSymbols_of_collecting (s := { s with rl := rest }) (chain_ne_nil hpos) hc, error_bind, error_bind]

/-! ### ENCODE of a non-zero byte -/

/-- `ENCODE` of a non-zero byte in its phase (44_entropy_coder R137). -/
theorem exec_encode_of_ne {s : State} (hne : 1 ≤ s.arg0.toNat) (hbyte : s.arg0.toNat ≤ 255)
    (hp : s.ecPhase = .emit) :
    exec .encode s = runCommand 0x24 s (encodeLiteral s.arg0.toNat s >>= fun r => .ok (r.2.setRes0 r.1)) := by
  rw [exec_encode_eq, byteOperand_of_lt (by omega), ok_bind, needEcPhase_of hp, ok_bind, if_neg (by omega)]

/-- Outside a run a literal is its code and a base context (44_entropy_coder R137). -/
theorem encodeLiteral_outside_run {s : State} (hrem : s.encRem = 0) {byte : Nat} (hbyte : byte ≤ 255) :
    encodeLiteral byte s = encSym (ctxTable s) byte s >>= fun r =>
      .ok (r.1, { r.2 with ctxAz := false, encLastz := false }) := by
  rw [encodeLiteral, need_of hrem, ok_bind]
  refine congrArg _ (funext fun (n, s1) => ?_)
  simp only [ctxAfter_of_le hbyte]
  rfl

/-- Settles O42. -/
theorem encodeLiteralWritesItsCode : Obligations.EncodeLiteralWritesItsCode := by
  intro s he hne hbyte hp hrem
  rw [exec_encode_of_ne hne hbyte hp, encodeLiteral_outside_run hrem hbyte]
  refine ⟨fun hv h0 => runCommand_of_ok he ?_, fun hv h0 => runCommand_faultTaken (r := .contract .noCode) he ?_,
    fun hc => runCommand_faultTaken (r := .contract .tableState) he ?_⟩
  · rw [encSym_eq_ok.mpr ⟨hv, h0, rfl, rfl⟩, ok_bind, ok_bind, State.setRes0, BitVec.ofNat_toNat]
  · rw [encSym_eq_error.mpr (.inr ⟨hv, h0, rfl⟩), error_bind, error_bind]
  · rw [encSym_eq_error.mpr (.inl ⟨hc, rfl⟩), error_bind, error_bind]

/-! ### ENCODE_FINALIZE, and replays that do not fit -/

/-- `ENCODE_FINALIZE` in its phase (44_entropy_coder R138). -/
theorem exec_encodeFinalize_of_emit {s : State} (hp : s.ecPhase = .emit) :
    exec .encodeFinalize s = runCommand 0x25 s (do
      need (s.encRem = 0 ∧ s.rl = []) (.contract .desync)
      let r ← encSym (ctxTable s) 0 s
      .ok { r.2.setRes0 r.1 with ecPhase := .done }) := by
  refine congrArg (runCommand 0x25 s) ?_
  rw [needEcPhase_of hp, ok_bind]
  rfl

/-- Settles O43: the replay is tested before any table. -/
theorem unfaithfulReplayIsDetected : Obligations.UnfaithfulReplayIsDetected := by
  intro s he hp
  refine ⟨fun h0 hrem h => ?_, fun hne hbyte hrem => ?_, fun h => ?_⟩
  · rw [exec_encode_zero h0 hp]
    exact runCommand_faultTaken (r := .contract .desync) he (by rw [encodeZero_of_desync hrem h, error_bind])
  · rw [exec_encode_of_ne hne hbyte hp]
    exact runCommand_faultTaken (r := .contract .desync) he
      (by rw [encodeLiteral, need_of_not hrem, error_bind, error_bind])
  · rw [exec_encodeFinalize_of_emit hp]
    exact runCommand_faultTaken (r := .contract .desync) he
      (by rw [need_of_not (fun hdone => h.elim (· hdone.1) (· hdone.2)), error_bind])

/-- Settles O44. -/
theorem encodeFinalizeWritesTheEndMarker : Obligations.EncodeFinalizeWritesTheEndMarker := by
  intro s he hp hrem hrl
  rw [exec_encodeFinalize_of_emit hp, need_of ⟨hrem, hrl⟩, ok_bind]
  refine ⟨fun hv h0 => runCommand_of_ok he ?_, fun hv h0 => runCommand_faultTaken (r := .contract .noCode) he ?_,
    fun hc => runCommand_faultTaken (r := .contract .tableState) he ?_⟩
  · rw [encSym_eq_ok.mpr ⟨hv, h0, rfl, rfl⟩, ok_bind, State.setRes0, BitVec.ofNat_toNat]
  · rw [encSym_eq_error.mpr (.inr ⟨hv, h0, rfl⟩), error_bind]
  · rw [encSym_eq_error.mpr (.inl ⟨hc, rfl⟩), error_bind]

end Sys2Proof.Machine
end

section
/-! SUPPORT. The decoder (44_entropy_coder R139, R140): DEC_INIT reads the base table and, in context mode, the
after-zero table; DECODE_NEXT returns an owed zero or reads one symbol; the statements O45 and O46. -/

namespace Sys2Proof.Machine

open Sys2Proof Host

/-! ### DEC_INIT -/

/-- An acceptable table at the head of IN is read (41_table_serdes R103, R105). -/
theorem readTable_of_good {t : Tab} {s : State} {L : Vector (BitVec 5) (nsym t)} {rest : List Bool}
    (hgood : GoodLengths L.toList) (hc : s.chanIn = lengthBits L.toList ++ rest) :
    readTable t s = .ok (usedLengths L.toList, { s.setTab t ((s.tab t).withLengths L) with
      chanIn := rest, bitsIn := s.bitsIn + BitVec.ofNat 32 (5 * nsym t) }) :=
  readTable_eq_ok.mpr ⟨L, rest, hgood.1, (checkLengths_eq_ok_iff_good hgood.1).mpr hgood, hc, rfl, rfl⟩

theorem readTable_az_of_good {s : State} {L : Vector (BitVec 5) 256} {rest : List Bool} (hgood : GoodLengths L.toList)
    (hc : s.chanIn = lengthBits L.toList ++ rest) : readTable .az s = .ok (usedLengths L.toList, { s with
      tabAz := s.tabAz.withLengths L, chanIn := rest, bitsIn := s.bitsIn + 1280 }) :=
  readTable_of_good (t := .az) hgood hc

/-- The base table read and, in context mode, the after-zero table (44_entropy_coder R139). -/
def readEntropyTables (ctx : Bool) (s : State) : Except Raise State :=
  readTable .bz s >>= fun r => inContextMode ctx r.2 (readTable .az r.2)

/-- `DEC_INIT` of a context of 0 or 1 (44_entropy_coder R139). -/
theorem exec_decInit_of_ctx {s : State} (hctx : s.arg0.toNat < 2) : exec .decInit s = runCommand 0x28 s
    (readEntropyTables (decide (s.arg0 = 1)) (entropyRestart (decide (s.arg0 = 1)) s) >>= fun s2 =>
      .ok { s2.setRes0 (if decide (s.arg0 = 1) then 3200 else 1920) with ecPhase := .decode }) := by
  rw [exec_decInit_eq, ctxOperand_of_lt hctx, ok_bind, readEntropyTables, bind_assoc]

/-- The state once the base table has been read, with `rest` still in IN. -/
def withBaseRead (bz : Vector (BitVec 5) 384) (rest : List Bool) (s : State) : State :=
  { s with tabBz := s.tabBz.withLengths bz, chanIn := rest, bitsIn := s.bitsIn + 1920 }

theorem readEntropyTables_of_base {s : State} {bz : Vector (BitVec 5) 384} {rest : List Bool}
    (hbz : GoodLengths bz.toList) (hc : s.chanIn = lengthBits bz.toList ++ rest) (ctx : Bool) :
    readEntropyTables ctx s
      = inContextMode ctx (withBaseRead bz rest s) (readTable .az (withBaseRead bz rest s)) := by
  rw [readEntropyTables, readTable_of_good (t := .bz) hbz hc]
  rfl

theorem readEntropyTables_both {s : State} {bz : Vector (BitVec 5) 384} {az : Vector (BitVec 5) 256}
    {rest : List Bool} (hbz : GoodLengths bz.toList) (haz : GoodLengths az.toList)
    (hc : s.chanIn = lengthBits bz.toList ++ (lengthBits az.toList ++ rest)) :
    readEntropyTables true s = .ok { s with
      tabBz := s.tabBz.withLengths bz, tabAz := s.tabAz.withLengths az
      chanIn := rest, bitsIn := s.bitsIn + 3200 } := by
  have hsum : s.bitsIn + 1920 + 1280 = s.bitsIn + 3200 := BitVec.add_assoc _ _ _
  rw [readEntropyTables_of_base hbz hc, ← hsum, inContextMode, if_pos rfl, readTable_az_of_good haz rfl]
  simp only [ok_bind, withBaseRead]

/-- The base table is read first: its fault is raised whatever follows (60_exceptions R186). -/
theorem readEntropyTables_of_unreadable_base {ctx : Bool} {s : State} {code : Nat}
    (h : UnreadableTable 384 s.chanIn code) :
    ∃ c : FormatCode, readEntropyTables ctx s = .error (.format c) ∧ c.code.toNat = code := by
  obtain ⟨c, hread, hcode⟩ := readTable_of_unreadable (t := .bz) h
  exact ⟨c, by rw [readEntropyTables, hread, error_bind], hcode⟩

theorem readEntropyTables_of_unreadable_afterZero {s : State} {bz : Vector (BitVec 5) 384} {rest : List Bool}
    {code : Nat} (hbz : GoodLengths bz.toList) (hc : s.chanIn = lengthBits bz.toList ++ rest)
    (h : UnreadableTable 256 rest code) :
    ∃ c : FormatCode, readEntropyTables true s = .error (.format c) ∧ c.code.toNat = code := by
  obtain ⟨c, hread, hcode⟩ := readTable_of_unreadable (t := .az) (s := withBaseRead bz rest s) h
  exact ⟨c, by rw [readEntropyTables_of_base hbz hc, inContextMode_of_error hread], hcode⟩

/-- Settles O45. -/
theorem decInitReadsTheTables : Obligations.DecInitReadsTheTables := by
  intro s he hctx
  rw [exec_decInit_of_ctx hctx]
  refine ⟨fun bz az rest hbz haz hc => runCommand_of_ok he ?_, fun code h => ?_,
    fun bz rest code h1 hbz hc h => ?_⟩
  · by_cases h1 : s.arg0 = 1
    · simp only [if_pos h1] at hc
      simp only [if_pos h1, decide_eq_true h1]
      rw [readEntropyTables_both (s := entropyRestart true s) hbz haz hc]
      simp [State.setRes0, TableMem.withLengths]
    · simp only [if_neg h1, List.nil_append] at hc
      simp only [if_neg h1, decide_eq_false h1]
      rw [readEntropyTables_of_base (s := entropyRestart false s) hbz hc]
      simp [inContextMode, withBaseRead, State.setRes0, TableMem.withLengths]
  · obtain ⟨c, hread, rfl⟩ := readEntropyTables_of_unreadable_base
      (ctx := decide (s.arg0 = 1)) (s := entropyRestart (decide (s.arg0 = 1)) s) h
    exact runCommand_faultTaken (r := .format c) he (by rw [hread, error_bind])
  · obtain ⟨c, hread, rfl⟩ := readEntropyTables_of_unreadable_afterZero
      (s := entropyRestart (decide (s.arg0 = 1)) s) hbz hc h
    exact runCommand_faultTaken (r := .format c) he (by rw [decide_eq_true h1] at hread ⊢; rw [hread, error_bind])

/-! ### DECODE_NEXT -/

/-- `DECODE_NEXT` in its phase, with no zero owed (44_entropy_coder R140). -/
theorem exec_decodeNext_of_decode {s : State} (hp : s.ecPhase = .decode) (hz : s.zpend = 0) :
    exec .decodeNext s = runCommand 0x29 s
      (decSym (ctxTable s) s >>= fun r => .ok (decodedSymbol r.1.sym r.2)) := by
  refine congrArg (runCommand 0x29 s) ?_
  rw [needEcPhase_of hp, ok_bind, if_neg (not_not.mpr hz)]
  rfl

/-- The flag after a symbol, its two bounds as one condition (44_entropy_coder R131). -/
theorem ctxAfter_eq (sym : Nat) (s : State) :
    ctxAfter sym s = { s with ctxAz := s.ctxEn && decide (256 ≤ sym ∧ sym ≤ 382) } := by
  have hrange : (decide (256 ≤ sym) && decide (sym < 383)) = decide (256 ≤ sym ∧ sym ≤ 382) := by
    rw [← Bool.decide_and]
    exact decide_eq_decide.mpr (by omega)
  rw [← hrange, ← Bool.and_assoc]
  rfl

/-- What a symbol decides, written out over the three kinds: end marker, literal, run symbol (44_entropy_coder R140,
43_zero_run R124). -/
theorem decodedSymbol_eq {s : State} (hp : s.ecPhase = .decode) (hz : s.zpend = 0) (sym : Nat) :
    decodedSymbol sym s = { s with
      eos := if sym = 0 then true else s.eos
      ecPhase := if sym = 0 then .eos else .decode
      ctxAz := if sym = 0 then s.ctxAz else s.ctxEn && decide (256 ≤ sym ∧ sym ≤ 382)
      zpend := BitVec.ofNat 7 (sym - 256)
      res0 := BitVec.ofNat 32 (if sym ≤ 255 then sym else 0)
      res1 := if sym = 0 then 1 else 0 } := by
  unfold decodedSymbol Config.eosSym
  split
  · next h0 =>
    subst h0
    simp [State.setRes0, State.setRes1, hz]
  split
  · next hlit =>
    have hsub : sym - 256 = 0 := by omega
    simp [State.setRes0, State.setRes1, ctxAfter_eq, hsub, hz, hp]
  · simp [State.setRes0, State.setRes1, ctxAfter_eq, expandRun, Config.runBase, hp]

/-- What `DecSym` raises, `DECODE_NEXT` takes as its fault (44_entropy_coder R140). -/
theorem exec_decodeNext_of_error {s : State} {r : Raise} (he : s.err = false) (hp : s.ecPhase = .decode)
    (hz : s.zpend = 0) (h : decSym (ctxTable s) s = .error r) :
    ∃ s', exec .decodeNext s = .next s' ∧ FaultTaken 0x29 r.cls.toNat r.code.toNat s s' := by
  rw [exec_decodeNext_of_decode hp hz]
  exact runCommand_faultTaken he (by rw [h, error_bind])

/-- Settles O46. -/
theorem decodeNextReturnsTheNextByte : Obligations.DecodeNextReturnsTheNextByte := by
  intro s he hp
  refine ⟨fun hz => runCommand_of_ok he ?_, fun sym rest hz hv hm h0 hc => ?_, fun hz hv hno => ?_, fun hz hc => ?_⟩
  · rw [needEcPhase_of hp, ok_bind, if_pos hz, ofNat_toNat_sub_one hz]
    rfl
  · rw [exec_decodeNext_of_decode hp hz]
    refine runCommand_of_ok he ?_
    rw [decSym_of_codeBits hv hm h0 hc, ok_bind]
    refine congrArg Except.ok (decodedSymbol_eq ?_ ?_ sym)
    · exact hp
    · exact hz
  · have hfault := exec_decodeNext_of_error he hp hz (decSym_of_noCodeIn hv hno)
    unfold unreadableCode
    split at hfault
    · next h => rw [if_pos h]; exact hfault
    · next h => rw [if_neg h]; exact hfault
  · exact exec_decodeNext_of_error (r := .contract .tableState) he hp hz
      (by rw [decSym, need_of_not (by rw [hc]; simp), error_bind])

end Sys2Proof.Machine
end

section
/-! SUPPORT. What every command of the LZ path does first (45_lz_codec R150): its operands, then its phase. The commands
written over the numbers in `ARG0` and `ARG1`, and the five bands of `LZ_DECODE` as two: those that know the distance
and those that read it; the statement of LZ_PHASE: O14. -/

namespace Sys2Proof.Machine

open Sys2Proof Host

/-! ### Operands and phases -/

/-- A length of 2 to 257 and a distance of 1 to 65535 (30_encoding R61, R62). -/
abbrev MatchInRange (s : State) : Prop :=
  2 ≤ s.arg0.toNat ∧ s.arg0.toNat ≤ 257 ∧ 1 ≤ s.arg1.toNat ∧ s.arg1.toNat ≤ 65535

theorem matchOperands_of_inRange {s : State} (h : MatchInRange s) :
    matchOperands s = .ok (s.arg0.toNat, s.arg1.toNat) := by
  rw [matchOperands_eq, if_pos h]

theorem sizeOperands_of_lt {s : State} (hx : s.arg0.toNat < 65536) (hy : s.arg1.toNat < 65536) :
    sizeOperands s = .ok (s.arg0.setWidth 16, s.arg1.setWidth 16) := by
  rw [sizeOperands_eq, if_pos ⟨hx, hy⟩]

/-- Sizes out of range are all that their operands can raise. -/
theorem sizeOperands_eq_error {s : State} {r : Raise} (h : sizeOperands s = .error r) :
    r = .contract .operand := by
  rw [sizeOperands_eq] at h
  split at h
  · cases h
  · exact (Except.error.inj h).symm

theorem escOperand_of_lt {s : State} (h : s.arg0.toNat < 256) : escOperand s = .ok s.arg0.toNat := by
  rw [escOperand_eq, if_pos h]

theorem escOperand_eq_ok {s : State} {esc : Nat} (h : escOperand s = .ok esc) :
    s.arg0.toNat < 256 ∧ esc = s.arg0.toNat := by
  rw [escOperand_eq] at h
  split at h
  · next hlt => exact ⟨hlt, (Except.ok.inj h).symm⟩
  · cases h

/-- In its phase a command goes on (45_lz_codec R150). -/
theorem needLzPhase_of {p : LzPhase} {s : State} (h : s.lzPhase = p) : needLzPhase p s = .ok () := need_of h _

/-- In another phase it raises `CV_SEQUENCE` and changes nothing else (45_lz_codec R150, 60_exceptions R196). -/
theorem runCommand_lzSequenceFault {op : BitVec 8} {p : LzPhase} {s : State} {f : Unit → Except Raise State}
    (he : s.err = false) (hp : s.lzPhase ≠ p) :
    runCommand op s (needLzPhase p s >>= f) = .next (exactFault op.toNat 2 3 s) :=
  runCommand_exactFault he (r := .contract .sequence) rfl (by rw [needLzPhase, need_of_not hp, error_bind])

/-! ### The commands of the encoder -/

/-- `LZ_PUSH` of a match of class `c`, past its operands and its phase (45_lz_codec R155). -/
def pushMatch (c : MatchClass) (len d : Nat) (s : State) : Except Raise State :=
  countMatch c len d s >>= fun s1 => .ok ((pushIf c.push d s1).setRes0 c.esc)

/-- `LZ_ENCODE` of a match of class `c`, past its operands and its phase (45_lz_codec R158). -/
def encodeMatch (c : MatchClass) (len d : Nat) (s : State) : Except Raise State :=
  emitLength c len s >>= fun a => emitDistance c d a.2 >>= fun b =>
    .ok (((pushIf c.push d b.2).setRes0 c.esc).setRes1 (a.1 + b.1))

theorem exec_lzPush_of_inRange {s : State} (h : MatchInRange s) : exec .lzPush s = runCommand 0x31 s
    (needLzPhase .collect s >>= fun _ =>
      pushMatch (classify s.arg0.toNat s.arg1.toNat s) s.arg0.toNat s.arg1.toNat s) := by
  refine congrArg (runCommand 0x31 s) ?_
  rw [matchOperands_of_inRange h, ok_bind]
  rfl

theorem exec_lzEncode_of_inRange {s : State} (h : MatchInRange s) : exec .lzEncode s = runCommand 0x34 s
    (needLzPhase .emit s >>= fun _ =>
      encodeMatch (classify s.arg0.toNat s.arg1.toNat s) s.arg0.toNat s.arg1.toNat s) := by
  refine congrArg (runCommand 0x34 s) ?_
  rw [matchOperands_of_inRange h, ok_bind]
  rfl

/-- A match whose operands are accepted is in range (30_encoding R61). -/
theorem inRange_of_matchOperands {s : State} {p : Nat × Nat} (h : matchOperands s = .ok p) : MatchInRange s := by
  by_contra hr
  rw [matchOperands_eq, if_neg hr] at h
  cases h

theorem lzPush_inRange_of_completed {s s' : State} (h : exec .lzPush s = .next s') (he : s'.err = false) :
    MatchInRange s :=
  let ⟨_, hops, _⟩ := bind_eq_ok.mp (runCommand_completed h he)
  inRange_of_matchOperands hops

theorem lzEncode_inRange_of_completed {s s' : State} (h : exec .lzEncode s = .next s') (he : s'.err = false) :
    MatchInRange s :=
  let ⟨_, hops, _⟩ := bind_eq_ok.mp (runCommand_completed h he)
  inRange_of_matchOperands hops

/-! ### The bands of `LZ_DECODE` -/

/-- The distance of an escape code up to 13: cached, local-left or local-up (45_lz_codec R151). -/
def mappedDistance (esc : Nat) (s : State) : Nat :=
  if esc ≤ 3 then (s.cacheAt (BitVec.ofNat 2 esc)).toNat
  else if esc ≤ 8 then [1, 3, 4, 5, 6].getD (esc - 4) 0
  else (s.xsize.toNat + (esc - 9) + 65534) % 65536

/-- Bands 1 to 3: the distance is known, the length is read; a cached distance is not pushed (45_lz_codec R160). -/
def decodeMapped (esc : Nat) (s : State) : Except Raise State :=
  need (mappedDistance esc s ≠ 0) (.format .distZero) >>= fun _ => readLength s >>= fun r =>
    .ok (matchResult r.1 (mappedDistance esc s) (pushIf (decide (4 ≤ esc)) (mappedDistance esc s) r.2))

/-- The length of bands 4 and 5: read for the two top codes, carried by the others (45_lz_codec R160). -/
def codedLength (esc : Nat) (s : State) : Except Raise (Nat × State) :=
  if esc = 22 ∨ esc = 31 then readLength s else .ok (if esc ≤ 22 then esc - 12 else esc - 21, s)

/-- The distance of bands 4 and 5: a short code, or a long code and 8 raw bits (45_lz_codec R160). -/
def codedDistance (esc : Nat) (s : State) : Except Raise (Nat × State) :=
  if esc ≤ 22 then decSym .sd s >>= fun r => .ok (r.1.sym + 1, r.2)
  else decSym .ld s >>= fun hi => readBits 8 hi.2 >>= fun lo =>
    need (hi.1.sym * 256 + lo.1 ≠ 0) (.format .distZero) >>= fun _ => .ok (hi.1.sym * 256 + lo.1, lo.2)

/-- Bands 4 and 5: the length, then the distance, which is pushed (45_lz_codec R160). -/
def decodeCoded (esc : Nat) (s : State) : Except Raise State :=
  codedLength esc s >>= fun l => codedDistance esc l.2 >>= fun d =>
    .ok (matchResult l.1 d.1 (cachePush (BitVec.ofNat 16 d.1) d.2))

theorem decodeRecent_eq_mapped {esc : Nat} (h : esc ≤ 3) (s : State) : decodeRecent esc s = decodeMapped esc s := by
  simp only [decodeMapped, mappedDistance, if_pos h, decide_eq_false (show ¬ 4 ≤ esc by omega)]
  rfl

theorem decodeLocalLeft_eq_mapped {esc : Nat} (h4 : 4 ≤ esc) (h8 : esc ≤ 8) (s : State) :
    decodeLocalLeft esc s = decodeMapped esc s := by
  have hd : mappedDistance esc s = if esc - 4 = 0 then 1 else esc - 4 + 2 := by
    rw [mappedDistance, if_neg (by omega), if_pos h8]
    interval_cases esc <;> rfl
  have hne : mappedDistance esc s ≠ 0 := by
    rw [hd]; split <;> omega
  rw [decodeMapped, need_of hne, ok_bind, hd, decide_eq_true h4]
  rfl

theorem decodeLocalUp_eq_mapped {esc : Nat} (h9 : 9 ≤ esc) (s : State) :
    decodeLocalUp esc s = decodeMapped esc s := by
  have hd : mappedDistance esc s = localUp s.xsize (esc - 9) := by
    rw [mappedDistance, if_neg (by omega), if_neg (by omega), localUp_eq]
  rw [decodeMapped, hd, decide_eq_true (show 4 ≤ esc by omega)]
  rfl

theorem decodeShort_eq_coded {esc : Nat} (h : esc ≤ 22) (s : State) : decodeShort esc s = decodeCoded esc s := by
  unfold decodeShort decodeCoded codedLength codedDistance
  by_cases htop : esc = 22
  · simp [htop, Config.escSdTop, bind_assoc]
  · have hlt : esc < Config.escSdTop := by unfold Config.escSdTop; omega
    simp [htop, hlt, h, show esc ≠ 31 by omega, bind_assoc]

theorem decodeLong_eq_coded {esc : Nat} (h23 : 23 ≤ esc) (h31 : esc ≤ 31) (s : State) :
    decodeLong esc s = decodeCoded esc s := by
  have hlong : ¬ esc ≤ 22 := by omega
  unfold decodeLong decodeCoded codedLength codedDistance
  by_cases htop : esc = 31
  · simp [htop, Config.escLdTop, bind_assoc]
  · have hlt : esc < Config.escLdTop := by unfold Config.escLdTop; omega
    simp [htop, hlt, hlong, show esc ≠ 22 by omega, bind_assoc]

/-- The five bands as two (45_lz_codec R151). -/
theorem bands_eq {esc : Nat} (h32 : esc < 32) (s : State) :
    (if esc < 4 then decodeRecent esc s else if esc < 9 then decodeLocalLeft esc s
      else if esc < 14 then decodeLocalUp esc s else if esc < 23 then decodeShort esc s else decodeLong esc s)
      = if esc ≤ 13 then decodeMapped esc s else decodeCoded esc s := by
  split
  · rw [if_pos (by omega), decodeRecent_eq_mapped (by omega)]
  split
  · rw [if_pos (by omega), decodeLocalLeft_eq_mapped (by omega) (by omega)]
  split
  · rw [if_pos (by omega), decodeLocalUp_eq_mapped (by omega)]
  split
  · rw [if_neg (by omega), decodeShort_eq_coded (by omega)]
  · rw [if_neg (by omega), decodeLong_eq_coded (by omega) (by omega)]

/-- What follows a condition may use it. -/
theorem need_bind_congr {p : Prop} [Decidable p] {r : Raise} {α : Type} {x y : Except Raise α} (h : p → x = y) :
    (need p r >>= fun _ => x) = need p r >>= fun _ => y := by
  by_cases hp : p
  · rw [h hp]
  · rw [need_of_not hp, error_bind, error_bind]

/-- An operand below 256 comes to the phase, and then to its range (45_lz_codec R160). -/
theorem exec_lzDecode_of_lt {s : State} (h : s.arg0.toNat < 256) : exec .lzDecode s = runCommand 0x39 s
    (needLzPhase .decode s >>= fun _ => need (s.arg0.toNat < 32) (.format .escRange) >>= fun _ =>
      if s.arg0.toNat ≤ 13 then decodeMapped s.arg0.toNat s else decodeCoded s.arg0.toNat s) := by
  refine congrArg (runCommand 0x39 s) ?_
  rw [escOperand_of_lt h, ok_bind]
  exact congrArg _ (funext fun _ => need_bind_congr fun h32 => bands_eq h32 s)

theorem exec_lzDecode_of_mapped {s : State} (hesc : s.arg0.toNat ≤ 13) (hp : s.lzPhase = .decode) :
    exec .lzDecode s = runCommand 0x39 s (decodeMapped s.arg0.toNat s) := by
  rw [exec_lzDecode_of_lt (by omega), needLzPhase_of hp, ok_bind, need_of (by omega), ok_bind, if_pos hesc]

theorem exec_lzDecode_of_coded {s : State} (h14 : 14 ≤ s.arg0.toNat) (h31 : s.arg0.toNat ≤ 31)
    (hp : s.lzPhase = .decode) : exec .lzDecode s = runCommand 0x39 s (decodeCoded s.arg0.toNat s) := by
  rw [exec_lzDecode_of_lt (by omega), needLzPhase_of hp, ok_bind, need_of (by omega), ok_bind, if_neg (by omega)]

/-! ### The phase that a command leaves -/

theorem Touches.lzPhase_eq {t : Tab} {s s' : State} (h : Touches t s s') : s'.lzPhase = s.lzPhase := by
  obtain ⟨m, _, _, _, _, rfl⟩ := h
  cases t <;> rfl

theorem pushIf_lzPhase (push : Bool) (d : Nat) (s : State) : (pushIf push d s).lzPhase = s.lzPhase := by
  rw [pushIf_eq]

theorem readLength_touches {len : Nat} {s s' : State} (h : readLength s = .ok (len, s')) : Touches .len s s' := by
  obtain ⟨r, hr, -⟩ := readLength_eq_ok.mp h
  exact decSym_touches hr

theorem decodeMapped_lzPhase {esc : Nat} {s s' : State} (h : decodeMapped esc s = .ok s') :
    s'.lzPhase = s.lzPhase := by
  simp only [decodeMapped, bind_eq_ok, Prod.exists, Except.ok.injEq] at h
  obtain ⟨-, -, len, s1, hlen, rfl⟩ := h
  exact (pushIf_lzPhase _ _ s1).trans (readLength_touches hlen).lzPhase_eq

theorem codedLength_lzPhase {esc len : Nat} {s s' : State} (h : codedLength esc s = .ok (len, s')) :
    s'.lzPhase = s.lzPhase := by
  unfold codedLength at h
  split at h
  · exact (readLength_touches h).lzPhase_eq
  · obtain ⟨-, rfl⟩ := Prod.mk.inj (Except.ok.inj h)
    rfl

theorem codedDistance_lzPhase {esc d : Nat} {s s' : State} (h : codedDistance esc s = .ok (d, s')) :
    s'.lzPhase = s.lzPhase := by
  unfold codedDistance at h
  split at h
  · simp only [bind_eq_ok, Prod.exists, Except.ok.injEq, Prod.mk.injEq] at h
    obtain ⟨r, s1, hsym, -, rfl⟩ := h
    exact (decSym_touches hsym).lzPhase_eq
  · simp only [bind_eq_ok, Prod.exists, Except.ok.injEq, Prod.mk.injEq] at h
    obtain ⟨hi, s1, hsym, lo, s2, hlo, -, -, -, rfl⟩ := h
    exact (readBits_touches .ld hlo).lzPhase_eq.trans (decSym_touches hsym).lzPhase_eq

theorem decodeCoded_lzPhase {esc : Nat} {s s' : State} (h : decodeCoded esc s = .ok s') :
    s'.lzPhase = s.lzPhase := by
  simp only [decodeCoded, bind_eq_ok, Prod.exists, Except.ok.injEq] at h
  obtain ⟨len, s1, hlen, d, s2, hdist, rfl⟩ := h
  exact (codedDistance_lzPhase hdist).trans (codedLength_lzPhase hlen)

theorem execLzInit_lzPhase {s s' : State} (h : exec .lzInit s = .next s') (he : s'.err = false) :
    s'.lzPhase = .collect := by
  obtain ⟨sizes, -, hb⟩ := bind_eq_ok.mp (runCommand_completed h he)
  obtain rfl := Except.ok.inj hb
  rfl

theorem execLzPush_lzPhase {s s' : State} (h : exec .lzPush s = .next s') (he : s'.err = false) :
    s'.lzPhase = .collect := by
  rw [exec_lzPush_of_inRange (lzPush_inRange_of_completed h he)] at h
  obtain ⟨_, hp, hb⟩ := bind_eq_ok.mp (runCommand_completed h he)
  obtain ⟨s1, hcount, hb⟩ := bind_eq_ok.mp hb
  obtain rfl := Except.ok.inj hb
  obtain ⟨-, -, -, rfl⟩ := countMatch_eq_ok.mp hcount
  exact (pushIf_lzPhase _ _ _).trans (need_eq_ok.mp hp)

theorem execLzFinalize_lzPhase {s s' : State} (h : exec .lzFinalize s = .next s') (he : s'.err = false) :
    s'.lzPhase = .finalized := by
  have hb := runCommand_completed h he
  simp only [bind_eq_ok, Prod.exists, pure_eq_ok, Except.ok.injEq] at hb
  obtain ⟨-, -, _, s1, -, _, s2, -, _, s3, -, rfl⟩ := hb
  rfl

theorem execLzWriteOverhead_lzPhase {s s' : State} (h : exec .lzWriteOverhead s = .next s')
    (he : s'.err = false) : s'.lzPhase = .emit := by
  have hb := runCommand_completed h he
  simp only [bind_eq_ok, Prod.exists, pure_eq_ok, Except.ok.injEq] at hb
  obtain ⟨-, -, _, s1, -, _, s2, -, _, s3, -, rfl⟩ := hb
  rfl

theorem execLzEncode_lzPhase {s s' : State} (h : exec .lzEncode s = .next s') (he : s'.err = false) :
    s'.lzPhase = .emit := by
  rw [exec_lzEncode_of_inRange (lzEncode_inRange_of_completed h he)] at h
  obtain ⟨_, hp, hb⟩ := bind_eq_ok.mp (runCommand_completed h he)
  simp only [encodeMatch, bind_eq_ok, Prod.exists, Except.ok.injEq] at hb
  obtain ⟨a, s1, hlen, b, s2, hdist, rfl⟩ := hb
  obtain ⟨-, -, rfl⟩ := emitLength_eq_ok.mp hlen
  obtain ⟨-, -, -, rfl⟩ := emitDistance_eq_ok.mp hdist
  exact (pushIf_lzPhase _ _ _).trans (need_eq_ok.mp hp)

theorem execLzDecInit_lzPhase {s s' : State} (h : exec .lzDecInit s = .next s') (he : s'.err = false) :
    s'.lzPhase = .decode := by
  have hb := runCommand_completed h he
  simp only [bind_eq_ok, Prod.exists, pure_eq_ok, Except.ok.injEq] at hb
  obtain ⟨x, y, -, _, s1, -, _, s2, -, _, s3, -, rfl⟩ := hb
  rfl

theorem execLzDecode_lzPhase {s s' : State} (h : exec .lzDecode s = .next s') (he : s'.err = false) :
    s'.lzPhase = .decode := by
  obtain ⟨esc, hesc, -⟩ := bind_eq_ok.mp (runCommand_completed h he)
  rw [exec_lzDecode_of_lt (escOperand_eq_ok hesc).1] at h
  obtain ⟨_, hp, hb⟩ := bind_eq_ok.mp (runCommand_completed h he)
  obtain ⟨-, -, hb⟩ := bind_eq_ok.mp hb
  have hp : s.lzPhase = .decode := need_eq_ok.mp hp
  split at hb
  · exact (decodeMapped_lzPhase hb).trans hp
  · exact (decodeCoded_lzPhase hb).trans hp

/-! ### The commands that start the path never raise `CV_SEQUENCE` -/

theorem execLzInit_not_sequence {s s' : State} (hs : s.err = false) (h : exec .lzInit s = .next s')
    (he : s'.err = true) : s'.errinfo ≠ errinfoOf 0x30 2 3 := by
  obtain ⟨r, hb, hinfo⟩ := runCommand_faulted hs (fun t hb => by
    obtain ⟨sizes, -, hb⟩ := bind_eq_ok.mp hb
    obtain rfl := Except.ok.inj hb
    rfl) h he
  rw [hinfo]
  refine errinfoWord_ne_sequence fun hr => ?_
  obtain hsizes | ⟨sizes, -, hb⟩ := bind_eq_error.mp hb
  · rw [sizeOperands_eq_error hsizes] at hr; cases hr
  · cases hb

theorem execLzDecInit_not_sequence {s s' : State} (hs : s.err = false) (h : exec .lzDecInit s = .next s')
    (he : s'.err = true) : s'.errinfo ≠ errinfoOf 0x38 2 3 := by
  obtain ⟨r, hb, hinfo⟩ := runCommand_faulted hs (fun t hb => by
    simp only [bind_eq_ok, Prod.exists, pure_eq_ok, Except.ok.injEq] at hb
    obtain ⟨x, y, -, _, s1, hlen, _, s2, hsd, _, s3, hld, rfl⟩ := hb
    exact (readTable_touches hld).err_eq.trans
      ((readTable_touches hsd).err_eq.trans (readTable_touches hlen).err_eq)) h he
  rw [hinfo]
  refine errinfoWord_ne_sequence ?_
  simp only [bind_eq_error, pure_eq_ok, reduceCtorEq, and_false, exists_false, or_false] at hb
  obtain hsizes | ⟨sizes, -, hlen | ⟨a, -, hsd | ⟨b, -, hld⟩⟩⟩ := hb
  · rw [sizeOperands_eq_error hsizes]; simp
  · obtain ⟨c, rfl⟩ := readTable_error_format hlen; simp
  · obtain ⟨c, rfl⟩ := readTable_error_format hsd; simp
  · obtain ⟨c, rfl⟩ := readTable_error_format hld; simp

/-! ### The statement -/

/-- Settles O14: a command tests its operands and its phase first, and one that completes writes the phase last or
leaves it. -/
theorem lzCommandsFollowTheirSequence : Obligations.LzCommandsFollowTheirSequence := by
  refine ⟨?_, ?_, ?_⟩
  · simp only [List.forall_mem_cons, List.not_mem_nil, false_implies, implies_true, and_true]
    refine ⟨fun s he hp hops _ => ?_, fun s he hp _ _ => ?_, fun s he hp _ _ => ?_, fun s he hp hops _ => ?_,
      fun s he hp _ hesc => ?_⟩
    · rw [exec_lzPush_of_inRange (hops (by simp))]
      exact runCommand_lzSequenceFault he hp
    · exact runCommand_lzSequenceFault he hp
    · exact runCommand_lzSequenceFault he hp
    · rw [exec_lzEncode_of_inRange (hops (by simp))]
      exact runCommand_lzSequenceFault he hp
    · rw [exec_lzDecode_of_lt (hesc trivial)]
      exact runCommand_lzSequenceFault he hp
  · simp only [List.forall_mem_cons, List.not_mem_nil, false_implies, implies_true, and_true]
    exact ⟨fun s s' _ => execLzInit_lzPhase, fun s s' _ => execLzPush_lzPhase,
      fun s s' _ => execLzFinalize_lzPhase, fun s s' _ => execLzWriteOverhead_lzPhase,
      fun s s' _ => execLzEncode_lzPhase, fun s s' _ => execLzDecInit_lzPhase,
      fun s s' _ => execLzDecode_lzPhase⟩
  · simp only [List.forall_mem_cons, List.not_mem_nil, false_implies, implies_true, and_true]
    exact ⟨fun s s' => execLzInit_not_sequence, fun s s' => execLzDecInit_not_sequence⟩

end Sys2Proof.Machine
end

section
/-! SUPPORT. Pass one of the LZ encoder and the tables it leaves (45_lz_codec R155 to R157): LZ_PUSH counts the symbols
that the class of a match needs, LZ_FINALIZE builds the three sub-coder tables and LZ_WRITE_OVERHEAD writes them; the
statements O47 and O48. -/

namespace Sys2Proof.Machine

open Sys2Proof Host

/-! ### LZ_PUSH -/

/-- A step that does not complete and can raise one fault only raises it. -/
theorem eq_error_of_not_ok {α : Type} {x : Except Raise α} {r : Raise} (hok : ∀ a, x ≠ .ok a)
    (herr : ∀ r', x = .error r' → r' = r) : x = .error r := by
  cases x with
  | ok a => exact absurd rfl (hok a)
  | error r' => rw [herr r' rfl]

/-- The tables that a match of class `c` is counted in are collecting (45_lz_codec R155). -/
def MatchCollecting (c : MatchClass) (s : State) : Prop :=
  (c.needLen = true → s.tabLen.tstate = .collect)
    ∧ (c.kind = .short → s.tabSd.tstate = .collect) ∧ (c.kind = .long → s.tabLd.tstate = .collect)

/-- The tables after a match of class `c` has been counted (45_lz_codec R155). -/
def countedMatch (c : MatchClass) (len d : Nat) (s : State) : State :=
  { s with
    tabLen := if c.needLen then s.tabLen.addOne (len - 2) else s.tabLen
    tabSd := if c.kind = .short then s.tabSd.addOne (d - 1) else s.tabSd
    tabLd := if c.kind = .long then s.tabLd.addOne (d / 256) else s.tabLd }

theorem countMatch_of_collecting {c : MatchClass} {s : State} (h : MatchCollecting c s) (len d : Nat) :
    countMatch c len d s = .ok (countedMatch c len d s) := by
  obtain ⟨hlen, hsd, hld⟩ := h
  exact countMatch_eq_ok.mpr ⟨hlen, hsd, hld, rfl⟩

/-- All that counting a match can raise is a frozen table (45_lz_codec R155, 60_exceptions R187). -/
theorem countMatch_eq_error {c : MatchClass} {len d : Nat} {s : State} {r : Raise}
    (h : countMatch c len d s = .error r) : r = .contract .tableState := by
  have raised : ∀ {t sym s1}, addSymbol t sym s1 = .error r → r = .contract .tableState := fun h =>
    (addSymbol_eq_error.mp h).2
  obtain ⟨esc, needLen, kind, push⟩ := c
  cases needLen with
  | false =>
    cases kind with
    | none => cases h
    | short | long => exact raised h
  | true =>
    cases kind <;> simp only [countMatch, if_true, bind_eq_error] at h
    case none =>
      obtain h | ⟨s1, -, h⟩ := h
      · exact raised h
      · cases h
    case short | long =>
      obtain h | ⟨s1, -, h⟩ := h
      · exact raised h
      · exact raised h

theorem countMatch_of_frozen {c : MatchClass} {s : State} (h : ¬ MatchCollecting c s) (len d : Nat) :
    countMatch c len d s = .error (.contract .tableState) :=
  eq_error_of_not_ok (fun _ hok => h
    (let ⟨hlen, hsd, hld, _⟩ := countMatch_eq_ok.mp hok; ⟨hlen, hsd, hld⟩)) fun _ => countMatch_eq_error

/-- A symbol is counted in its table if the class needs it (45_lz_codec R155). -/
theorem CountsAdded.ite {p : Prop} [Decidable p] {n sym : Nat} (m : TableMem n) (h : p → sym < n) :
    CountsAdded (if p then [sym] else []) m (if p then m.addOne sym else m) := by
  split
  · next hp => exact .addOne m (h hp)
  · exact .nil m

/-- `LZ_PUSH` in its phase (45_lz_codec R155). -/
theorem exec_lzPush_of_collect {s : State} (h : MatchInRange s) (hp : s.lzPhase = .collect) :
    exec .lzPush s = runCommand 0x31 s
      (pushMatch (classify s.arg0.toNat s.arg1.toNat s) s.arg0.toNat s.arg1.toNat s) := by
  rw [exec_lzPush_of_inRange h, needLzPhase_of hp, ok_bind]

/-- Settles O47: the class is the one that `Classify` answers. -/
theorem lzPushCountsTheMatch : Obligations.LzPushCountsTheMatch := by
  intro s he hlen2 hlen257 hd1 hd hp
  rw [exec_lzPush_of_collect ⟨hlen2, hlen257, hd1, hd⟩ hp]
  have hclass := classify_isClassOf s.arg0.toNat s.arg1.toNat s
  have hshort : _ → s.arg1.toNat ≤ 256 := le_of_classify_short (len := s.arg0.toNat) (s := s)
  generalize classify s.arg0.toNat s.arg1.toNat s = c at hclass hshort ⊢
  refine ⟨c, hclass, fun hc => ?_, fun hc => runCommand_faultTaken (r := .contract .tableState) he ?_⟩
  · refine ⟨_, runCommand_of_ok he (by rw [pushMatch, countMatch_of_collecting hc, ok_bind]), ?_, ?_, ?_, ?_⟩
    · rw [pushIf_eq, ← BitVec.ofNat_toNat]
      rfl
    all_goals rw [pushIf_eq]
    · exact .ite s.tabLen fun _ => by omega
    · exact .ite s.tabSd fun hk => by have := hshort hk; omega
    · exact .ite s.tabLd fun _ => by omega
  · rw [pushMatch, countMatch_of_frozen hc, error_bind]

/-! ### LZ_FINALIZE -/

/-- The three sub-coder tables built, in order (45_lz_codec R156). -/
def buildMatchTables (s : State) : Except Raise State :=
  buildTable .len s >>= fun a => buildTable .sd a.2 >>= fun b => buildTable .ld b.2 >>= fun c => .ok c.2

/-- Everything building the three tables does when it completes (45_lz_codec R156). -/
theorem buildMatchTables_eq_ok {s s' : State} : buildMatchTables s = .ok s' ↔
    (s.tabLen.tstate = .collect ∧ s.tabSd.tstate = .collect ∧ s.tabLd.tstate = .collect) ∧ s' = { s with
      tabLen := s.tabLen.withLengths (buildLengths s.tabLen.hist).1
      tabSd := s.tabSd.withLengths (buildLengths s.tabSd.hist).1
      tabLd := s.tabLd.withLengths (buildLengths s.tabLd.hist).1 } := by
  simp only [buildMatchTables, bind_eq_ok, Prod.exists, buildTable_eq_ok, Except.ok.injEq, State.tab_len,
    State.tab_sd, State.tab_ld, State.setTab_len, State.setTab_sd, State.setTab_ld]
  constructor
  · rintro ⟨_, s1, ⟨hlen, -, rfl⟩, _, s2, ⟨hsd, -, rfl⟩, _, s3, ⟨hld, -, rfl⟩, rfl⟩
    exact ⟨⟨hlen, hsd, hld⟩, rfl⟩
  · rintro ⟨⟨hlen, hsd, hld⟩, rfl⟩
    exact ⟨_, _, ⟨hlen, rfl, rfl⟩, _, _, ⟨hsd, rfl, rfl⟩, _, _, ⟨hld, rfl, rfl⟩, rfl⟩

/-- All that building the tables can raise is one that is valid already (60_exceptions R187). -/
theorem buildMatchTables_eq_error {s : State} {r : Raise} (h : buildMatchTables s = .error r) :
    r = .contract .tableState := by
  simp only [buildMatchTables, bind_eq_error, buildTable_eq_error, reduceCtorEq, and_false, exists_false,
    or_false] at h
  obtain ⟨-, hr⟩ | ⟨a, -, ⟨-, hr⟩ | ⟨b, -, -, hr⟩⟩ := h <;> exact hr

/-- `LZ_FINALIZE` in its phase (45_lz_codec R156). -/
theorem exec_lzFinalize_of_collect {s : State} (hp : s.lzPhase = .collect) :
    exec .lzFinalize s = runCommand 0x32 s (buildMatchTables s >>= fun s3 =>
      .ok { cacheClear s3 with lzPhase := .finalized }) := by
  refine congrArg (runCommand 0x32 s) ?_
  rw [needLzPhase_of hp, ok_bind]
  simp only [buildMatchTables, bind_assoc]
  rfl

/-! ### LZ_WRITE_OVERHEAD -/

/-- The three sub-coder tables written, in order (45_lz_codec R157). -/
def writeMatchTables (s : State) : Except Raise (Nat × State) :=
  writeTable .len s >>= fun a => writeTable .sd a.2 >>= fun b => writeTable .ld b.2 >>= fun c =>
    .ok (a.1 + b.1 + c.1, c.2)

/-- Three tables of 256 symbols take 3840 bits (41_table_serdes R100). -/
theorem add_three_tables (x : Word) : x + 1280 + 1280 + 1280 = x + 3840 := by
  rw [BitVec.add_assoc, BitVec.add_assoc]
  rfl

/-- Everything writing the three tables does when it completes (45_lz_codec R157). -/
theorem writeMatchTables_eq_ok {k : Nat} {s s' : State} : writeMatchTables s = .ok (k, s') ↔
    (s.tabLen.tstate = .valid ∧ s.tabSd.tstate = .valid ∧ s.tabLd.tstate = .valid) ∧ k = 3840 ∧ s' = { s with
      chanOut := s.chanOut ++ lengthBits s.tabLen.len.toList ++ lengthBits s.tabSd.len.toList
        ++ lengthBits s.tabLd.len.toList
      bitsOut := s.bitsOut + 3840 } := by
  simp only [writeMatchTables, bind_eq_ok, Prod.exists, writeTable_eq_ok, Except.ok.injEq, Prod.mk.injEq,
    ← add_three_tables]
  constructor
  · rintro ⟨_, s1, ⟨hlen, rfl, rfl⟩, _, s2, ⟨hsd, rfl, rfl⟩, _, s3, ⟨hld, rfl, rfl⟩, rfl, rfl⟩
    exact ⟨⟨hlen, hsd, hld⟩, rfl, rfl⟩
  · rintro ⟨⟨hlen, hsd, hld⟩, rfl, rfl⟩
    exact ⟨_, _, ⟨hlen, rfl, rfl⟩, _, _, ⟨hsd, rfl, rfl⟩, _, _, ⟨hld, rfl, rfl⟩, rfl, rfl⟩

/-- All that writing the tables can raise is one that is not valid (60_exceptions R187). -/
theorem writeMatchTables_eq_error {s : State} {r : Raise} (h : writeMatchTables s = .error r) :
    r = .contract .tableState := by
  simp only [writeMatchTables, bind_eq_error, writeTable_eq_error, reduceCtorEq, and_false, exists_false,
    or_false] at h
  obtain ⟨-, hr⟩ | ⟨a, -, ⟨-, hr⟩ | ⟨b, -, -, hr⟩⟩ := h <;> exact hr

/-- `LZ_WRITE_OVERHEAD` in its phase (45_lz_codec R157). -/
theorem exec_lzWriteOverhead_of_finalized {s : State} (hp : s.lzPhase = .finalized) :
    exec .lzWriteOverhead s = runCommand 0x33 s (writeMatchTables s >>= fun r =>
      .ok { r.2.setRes0 r.1 with lzPhase := .emit }) := by
  refine congrArg (runCommand 0x33 s) ?_
  rw [needLzPhase_of hp, ok_bind]
  simp only [writeMatchTables, bind_assoc]
  rfl

/-- Settles O48. -/
theorem lzTablesAreBuiltAndWritten : Obligations.LzTablesAreBuiltAndWritten := by
  intro s he collecting valid
  refine ⟨fun hp hc => ?_, fun hp hv => ?_, fun hp hc => ?_, fun hp hv => ?_⟩
  · rw [exec_lzFinalize_of_collect hp]
    refine runCommand_of_ok he ?_
    rw [buildMatchTables_eq_ok.mpr ⟨hc, rfl⟩, ok_bind]
    simp only [cacheClear, TableMem.withLengths]
  · rw [exec_lzWriteOverhead_of_finalized hp]
    exact runCommand_of_ok he (by rw [writeMatchTables_eq_ok.mpr ⟨hv, rfl, rfl⟩]; rfl)
  · have hbuild : buildMatchTables s = .error (.contract .tableState) :=
      eq_error_of_not_ok (fun _ hok => hc (buildMatchTables_eq_ok.mp hok).1) fun _ => buildMatchTables_eq_error
    rw [exec_lzFinalize_of_collect hp]
    exact runCommand_faultTaken (r := .contract .tableState) he (by rw [hbuild, error_bind])
  · have hwrite : writeMatchTables s = .error (.contract .tableState) :=
      eq_error_of_not_ok (fun _ hok => hv (writeMatchTables_eq_ok.mp hok).1) fun _ => writeMatchTables_eq_error
    rw [exec_lzWriteOverhead_of_finalized hp]
    exact runCommand_faultTaken (r := .contract .tableState) he (by rw [hwrite, error_bind])

end Sys2Proof.Machine
end

section
/-! SUPPORT. How long a pushed distance stays in the cache (45_lz_codec R152, R164): until the cursor has come back to
its slot; the statement O55. -/

namespace Sys2Proof.Machine

open Sys2Proof Host

/-- The cache after a list of distances has been pushed, first one first (45_lz_codec R152). -/
def cachePushAll (ds : List Half) (s : State) : State := ds.foldl (fun r x => cachePush x r) s

/-- A slot that the cursor does not come to keeps its distance. -/
theorem cacheAt_cachePushAll {ds : List Half} {s : State} {i : BitVec 2}
    (h : ∀ k < ds.length, i ≠ s.cur + BitVec.ofNat 2 k) : (cachePushAll ds s).cacheAt i = s.cacheAt i := by
  induction ds generalizing s with
  | nil => rfl
  | cons x xs ih =>
    have hhere : i ≠ s.cur := by simpa using h 0 (by simp)
    have hlater : ∀ k < xs.length, i ≠ (cachePush x s).cur + BitVec.ofNat 2 k := fun k hk => by
      have hnext := h (k + 1) (by simpa using hk)
      rwa [BitVec.ofNat_add, BitVec.add_comm (BitVec.ofNat 2 k), ← BitVec.add_assoc] at hnext
    exact (ih hlater).trans ((cacheAt_cachePush x s i).trans (if_neg hhere))

/-- The slots from any one on are all four. -/
theorem slot_cases (i cur : BitVec 2) : i = cur + 1 + 1 + 1 ∨ i = cur + 1 + 1 ∨ i = cur + 1 ∨ i = cur := by
  revert i cur; decide

/-- Four pushes replace the whole cache (45_lz_codec R152). -/
theorem cacheAt_mem_of_four_pushes {ds : List Half} (h : ds.length = 4) (s : State) (i : BitVec 2) :
    (cachePushAll ds s).cacheAt i ∈ ds := by
  obtain ⟨a, b, c, e, rfl⟩ : ∃ a b c e, ds = [a, b, c, e] := List.length_eq_four.mp h
  show (cachePush e (cachePush c (cachePush b (cachePush a s)))).cacheAt i ∈ _
  simp only [cacheAt_cachePush, cachePush_cur]
  split_ifs with h3 h2 h1 h0
  · simp
  · simp
  · simp
  · simp
  · exact ((slot_cases i s.cur).elim h3 (·.elim h2 (·.elim h1 h0))).elim

/-- A cached distance takes a code of band 1 and is not pushed (45_lz_codec R153). -/
theorem classify_of_cached {len d : Nat} {s : State} {i : BitVec 2} (h : (s.cacheAt i).toNat = d) :
    (classify len d s).esc ≤ 3 ∧ (classify len d s).push = false := by
  obtain ⟨j, hj, -, -, hc⟩ | ⟨hnone, -⟩ := classify_isClassOf len d s
  · rw [hc]
    exact ⟨Nat.le_of_lt_succ hj, rfl⟩
  · refine absurd ?_ (hnone i.toNat i.isLt)
    show (s.cacheAt (BitVec.ofNat 2 i.toNat)).toNat = d
    rwa [BitVec.ofNat_toNat, BitVec.setWidth_eq]

/-- Any other distance is pushed (45_lz_codec R153). -/
theorem classify_push_of_not_cached {len d : Nat} {s : State} (h : ∀ i, (s.cacheAt i).toNat ≠ d) :
    (classify len d s).push = true := by
  obtain ⟨j, -, hj, -⟩ | ⟨-, ⟨-, hc⟩ | ⟨-, -, hc⟩ | ⟨-, -, ⟨j, -, -, -, hc⟩ | ⟨-, hc⟩⟩⟩ :=
    classify_isClassOf len d s
  · exact absurd hj (h _)
  · rw [hc]
  · rw [hc]
  · rw [hc]
  · rw [hc]
    split <;> split <;> rfl

/-- Settles O55: the slot of the distance pushed is the last of the four that the cursor comes to again. -/
theorem pushedDistanceStaysRecentForThreePushes : Obligations.PushedDistanceStaysRecentForThreePushes := by
  intro s d ds len _ after
  refine ⟨fun hle => classify_of_cached (i := s.cur) (congrArg BitVec.toNat ?_), fun hlen hd => ?_⟩
  · have hfar : ∀ k < 3, ∀ cur : BitVec 2, cur ≠ cur + 1 + BitVec.ofNat 2 k := by decide
    calc (cachePushAll ds (cachePush d s)).cacheAt s.cur
        = (cachePush d s).cacheAt s.cur := cacheAt_cachePushAll fun k hk => hfar k (by omega) s.cur
      _ = d := (cacheAt_cachePush d s s.cur).trans (if_pos rfl)
  · refine classify_push_of_not_cached fun i hi => hd ?_
    rw [← BitVec.eq_of_toNat_eq hi]
    exact cacheAt_mem_of_four_pushes hlen (cachePush d s) i

end Sys2Proof.Machine
end

section
/-! SUPPORT. Pass two of the LZ encoder (45_lz_codec R158, R162): LZ_ENCODE writes the length code and the distance
field that the class of a match needs; the statement O49. -/

namespace Sys2Proof.Machine

open Sys2Proof Host

/-! ### The fields of a match -/

/-- The length code of a match, if its class needs one (45_lz_codec R158). -/
def lengthFieldBits (c : MatchClass) (len : Nat) (s : State) : List Bool :=
  if c.needLen then s.tabLen.codeBits (len - 2) else []

/-- What `LZ_ENCODE` appends to OUT (45_lz_codec R158). -/
def matchBits (c : MatchClass) (len d : Nat) (s : State) : List Bool :=
  lengthFieldBits c len s ++ distanceBits c d s

/-- The length code that the class needs can be written (42_huffman_codec R110). -/
def LengthWritable (c : MatchClass) (len : Nat) (s : State) : Prop :=
  c.needLen = true → s.tabLen.tstate = .valid ∧ s.tabLen.lenAt (len - 2) ≠ 0

/-- The distance code that the class needs can be written (42_huffman_codec R110). -/
def DistanceWritable (c : MatchClass) (d : Nat) (s : State) : Prop :=
  (c.kind = .short → s.tabSd.tstate = .valid ∧ s.tabSd.lenAt (d - 1) ≠ 0)
    ∧ (c.kind = .long → s.tabLd.tstate = .valid ∧ s.tabLd.lenAt (d / 256) ≠ 0)

/-- The state with bits appended to OUT and counted (10_state R18, 20_memory R42). -/
def withAppended (w : List Bool) (s : State) : State :=
  { s with chanOut := s.chanOut ++ w, bitsOut := s.bitsOut + BitVec.ofNat 32 w.length }

theorem withAppended_append (w w' : List Bool) (s : State) :
    withAppended w' (withAppended w s) = withAppended (w ++ w') s := by
  simp only [withAppended, List.append_assoc, List.length_append, BitVec.ofNat_add, BitVec.add_assoc]

theorem emitLength_of_writable {c : MatchClass} {len : Nat} {s : State} (h : LengthWritable c len s) :
    emitLength c len s = .ok ((lengthFieldBits c len s).length, withAppended (lengthFieldBits c len s) s) :=
  emitLength_eq_ok.mpr ⟨h, rfl, rfl⟩

theorem emitDistance_of_writable {c : MatchClass} {d : Nat} {s : State} (h : DistanceWritable c d s) :
    emitDistance c d s = .ok ((distanceBits c d s).length, withAppended (distanceBits c d s) s) :=
  emitDistance_eq_ok.mpr ⟨h.1, h.2, rfl, rfl⟩

/-- The state after a match of class `c` has been written (45_lz_codec R158). -/
def encodedMatch (c : MatchClass) (len d : Nat) (s : State) : State :=
  { withAppended (matchBits c len d s) s with
    cache := if c.push then s.cache.set s.cur.toNat (BitVec.ofNat 16 d) else s.cache
    cur := if c.push then s.cur + 1 else s.cur
    res0 := BitVec.ofNat 32 c.esc
    res1 := BitVec.ofNat 32 (matchBits c len d s).length }

/-- Everything `LZ_ENCODE` does once the codes it needs are there (45_lz_codec R158). -/
theorem encodeMatch_of_writable {c : MatchClass} {len d : Nat} {s : State} (hlen : LengthWritable c len s)
    (hdist : DistanceWritable c d s) : encodeMatch c len d s = .ok (encodedMatch c len d s) := by
  rw [encodeMatch, emitLength_of_writable hlen, ok_bind,
    emitDistance_of_writable (s := withAppended (lengthFieldBits c len s) s) hdist, ok_bind, withAppended_append,
    pushIf_eq, ← List.length_append]
  rfl

/-- `LZ_ENCODE` completes only if the codes it needs are there (45_lz_codec R158). -/
theorem writable_of_encodeMatch {c : MatchClass} {len d : Nat} {s s' : State}
    (h : encodeMatch c len d s = .ok s') : LengthWritable c len s ∧ DistanceWritable c d s := by
  simp only [encodeMatch, bind_eq_ok, Prod.exists] at h
  obtain ⟨a, s1, hemit, b, s2, hdist, -⟩ := h
  obtain ⟨hlen, -, rfl⟩ := emitLength_eq_ok.mp hemit
  obtain ⟨hsd, hld, -⟩ := emitDistance_eq_ok.mp hdist
  exact ⟨hlen, hsd, hld⟩

/-! ### Codes that cannot be written -/

/-- The length code comes first (60_exceptions R192). -/
theorem encodeMatch_of_length_error {c : MatchClass} {len d : Nat} {s : State} {r : Raise}
    (hneed : c.needLen = true) (h : encSym .len (len - 2) s = .error r) : encodeMatch c len d s = .error r := by
  rw [encodeMatch, emitLength, if_pos hneed, h, error_bind]

theorem encodeMatch_of_distance_error {c : MatchClass} {len d : Nat} {s : State} {r : Raise}
    (hlen : LengthWritable c len s) (h : emitDistance c d (withAppended (lengthFieldBits c len s) s) = .error r) :
    encodeMatch c len d s = .error r := by
  rw [encodeMatch, emitLength_of_writable hlen, ok_bind, h, error_bind]

/-- A short distance is one code (45_lz_codec R158). -/
theorem emitDistance_of_short_error {c : MatchClass} {d : Nat} {s : State} {r : Raise} (hk : c.kind = .short)
    (h : encSym .sd (d - 1) s = .error r) : emitDistance c d s = .error r := by
  unfold emitDistance
  rw [hk]
  exact h

/-- A long distance begins with a code (45_lz_codec R158). -/
theorem emitDistance_of_long_error {c : MatchClass} {d : Nat} {s : State} {r : Raise} (hk : c.kind = .long)
    (h : encSym .ld (d / 256) s = .error r) : emitDistance c d s = .error r := by
  unfold emitDistance
  rw [hk]
  exact bind_eq_error.mpr (.inl h)

/-- A table that is not valid (60_exceptions R187). -/
theorem encSym_of_collecting {t : Tab} {sym : Nat} {s : State} (h : (s.tab t).tstate = .collect) :
    encSym t sym s = .error (.contract .tableState) := encSym_eq_error.mpr (.inl ⟨h, rfl⟩)

/-- A symbol without a code (60_exceptions R187). -/
theorem encSym_of_noCode {t : Tab} {sym : Nat} {s : State} (hv : (s.tab t).tstate = .valid)
    (h0 : (s.tab t).lenAt sym = 0) : encSym t sym s = .error (.contract .noCode) :=
  encSym_eq_error.mpr (.inr ⟨hv, h0, rfl⟩)

/-! ### LZ_ENCODE -/

/-- `LZ_ENCODE` in its phase (45_lz_codec R158). -/
theorem exec_lzEncode_of_emit {s : State} (h : MatchInRange s) (hp : s.lzPhase = .emit) :
    exec .lzEncode s = runCommand 0x34 s
      (encodeMatch (classify s.arg0.toNat s.arg1.toNat s) s.arg0.toNat s.arg1.toNat s) := by
  rw [exec_lzEncode_of_inRange h, needLzPhase_of hp, ok_bind]

/-- Settles O49: the class is the one that `Classify` answers. -/
theorem lzEncodeWritesTheFields : Obligations.LzEncodeWritesTheFields := by
  intro s he hlen2 hlen257 hd1 hd hp
  rw [exec_lzEncode_of_emit ⟨hlen2, hlen257, hd1, hd⟩ hp]
  have hclass := classify_isClassOf s.arg0.toNat s.arg1.toNat s
  generalize classify s.arg0.toNat s.arg1.toNat s = c at hclass ⊢
  have faults : ∀ {e : ContractCode}, encodeMatch c s.arg0.toNat s.arg1.toNat s = .error (.contract e) →
      ∃ s', runCommand 0x34 s (encodeMatch c s.arg0.toNat s.arg1.toNat s) = .next s'
        ∧ FaultTaken 0x34 2 e.code.toNat s s' := fun h =>
    runCommand_faultTaken (op := 0x34) (r := .contract _) he h
  refine ⟨c, hclass, fun hlen hshort hlong => ?_, fun hn hc => ?_, fun hn hv h0 => ?_, fun hlen hk hc => ?_,
    fun hlen hk hv h0 => ?_, fun hlen hk hc => ?_, fun hlen hk hv h0 => ?_⟩
  · refine runCommand_of_ok he ((encodeMatch_of_writable hlen ⟨hshort, hlong⟩).trans ?_)
    rw [encodedMatch, BitVec.ofNat_toNat]
    rfl
  · exact faults (encodeMatch_of_length_error hn (encSym_of_collecting hc))
  · exact faults (encodeMatch_of_length_error hn (encSym_of_noCode hv h0))
  · exact faults (encodeMatch_of_distance_error hlen (emitDistance_of_short_error hk (encSym_of_collecting hc)))
  · exact faults (encodeMatch_of_distance_error hlen (emitDistance_of_short_error hk (encSym_of_noCode hv h0)))
  · exact faults (encodeMatch_of_distance_error hlen (emitDistance_of_long_error hk (encSym_of_collecting hc)))
  · exact faults (encodeMatch_of_distance_error hlen (emitDistance_of_long_error hk (encSym_of_noCode hv h0)))

end Sys2Proof.Machine
end

section
/-! SUPPORT. LZ_DEC_INIT (45_lz_codec R159) reads the three sub-coder tables in order and stops at the first that cannot
be read; the statement O50. -/

namespace Sys2Proof.Machine

open Sys2Proof Host

/-- The three sub-coder tables read, in order (45_lz_codec R159). -/
def readMatchTables (s : State) : Except Raise State :=
  readTable .len s >>= fun a => readTable .sd a.2 >>= fun b => readTable .ld b.2 >>= fun c => .ok c.2

/-- `LZ_DEC_INIT` of sizes in their range (45_lz_codec R159). -/
theorem exec_lzDecInit_of_lt {s : State} (hx : s.arg0.toNat < 65536) (hy : s.arg1.toNat < 65536) :
    exec .lzDecInit s = runCommand 0x38 s
      (readMatchTables (lzRestart (s.arg0.setWidth 16) (s.arg1.setWidth 16) s) >>= fun s3 =>
        .ok { s3.setRes0 3840 with lzPhase := .decode }) := by
  refine congrArg (runCommand 0x38 s) ?_
  rw [sizeOperands_of_lt hx hy, ok_bind]
  simp only [readMatchTables, bind_assoc]
  rfl

/-- The state after a table of these lengths has been read, with `rest` still in IN (41_table_serdes R103). -/
def withTableRead (t : Tab) (L : Vector (BitVec 5) (nsym t)) (rest : List Bool) (s : State) : State :=
  { s.setTab t ((s.tab t).withLengths L) with
    chanIn := rest, bitsIn := s.bitsIn + BitVec.ofNat 32 (5 * nsym t) }

theorem readTable_of_good_eq {t : Tab} {s : State} {L : Vector (BitVec 5) (nsym t)} {rest : List Bool}
    (hgood : GoodLengths L.toList) (hc : s.chanIn = lengthBits L.toList ++ rest) :
    readTable t s = .ok (usedLengths L.toList, withTableRead t L rest s) := readTable_of_good hgood hc

theorem readMatchTables_of_good {s : State} {a b c : Vector (BitVec 5) 256} {rest : List Bool}
    (ha : GoodLengths a.toList) (hb : GoodLengths b.toList) (hc : GoodLengths c.toList)
    (hin : s.chanIn = lengthBits a.toList ++ (lengthBits b.toList ++ (lengthBits c.toList ++ rest))) :
    readMatchTables s = .ok { s with
      tabLen := s.tabLen.withLengths a, tabSd := s.tabSd.withLengths b, tabLd := s.tabLd.withLengths c
      chanIn := rest, bitsIn := s.bitsIn + 3840 } := by
  rw [readMatchTables, readTable_of_good_eq (t := .len) ha hin, ok_bind, readTable_of_good_eq (t := .sd) hb rfl,
    ok_bind, readTable_of_good_eq (t := .ld) hc rfl, ok_bind, ← add_three_tables]
  simp only [withTableRead, State.tab_len, State.tab_sd, State.tab_ld, State.setTab_len, State.setTab_sd,
    State.setTab_ld]
  rfl

/-- The first table that cannot be read decides the fault, whatever follows it (60_exceptions R186, R192). -/
theorem readMatchTables_of_unreadable {s : State} {before : List (Vector (BitVec 5) 256)} {rest : List Bool}
    {code : Nat} (hfew : before.length < 3) (hgood : ∀ L ∈ before, GoodLengths L.toList)
    (hin : s.chanIn = (before.flatMap fun L => lengthBits L.toList) ++ rest)
    (h : UnreadableTable 256 rest code) :
    ∃ c : FormatCode, readMatchTables s = .error (.format c) ∧ c.code.toNat = code := by
  match before with
  | [] =>
    obtain rfl : s.chanIn = rest := hin
    obtain ⟨c, hread, hcode⟩ := readTable_of_unreadable (t := .len) (s := s) h
    exact ⟨c, by rw [readMatchTables, hread, error_bind], hcode⟩
  | [a] =>
    have ha : GoodLengths a.toList := hgood a (by simp)
    have hin : s.chanIn = lengthBits a.toList ++ rest := by simpa using hin
    obtain ⟨c, hread, hcode⟩ := readTable_of_unreadable (t := .sd)
      (s := withTableRead .len a rest s) h
    exact ⟨c, by rw [readMatchTables, readTable_of_good_eq (t := .len) ha hin, ok_bind, hread, error_bind], hcode⟩
  | [a, b] =>
    have ha : GoodLengths a.toList := hgood a (by simp)
    have hb : GoodLengths b.toList := hgood b (by simp)
    have hin : s.chanIn = lengthBits a.toList ++ (lengthBits b.toList ++ rest) := by simpa using hin
    obtain ⟨c, hread, hcode⟩ := readTable_of_unreadable (t := .ld)
      (s := withTableRead .sd b rest (withTableRead .len a (lengthBits b.toList ++ rest) s)) h
    refine ⟨c, ?_, hcode⟩
    rw [readMatchTables, readTable_of_good_eq (t := .len) ha hin, ok_bind, readTable_of_good_eq (t := .sd) hb rfl,
      ok_bind, hread, error_bind]
  | _ :: _ :: _ :: _ => exact absurd hfew (by simp)

/-- Settles O50. -/
theorem lzDecInitReadsTheTables : Obligations.LzDecInitReadsTheTables := by
  intro s he hx hy
  rw [exec_lzDecInit_of_lt hx hy]
  refine ⟨fun a b c rest ha hb hc hin => runCommand_of_ok he ?_, fun before rest code hfew hgood hin h => ?_⟩
  · rw [readMatchTables_of_good (s := lzRestart (s.arg0.setWidth 16) (s.arg1.setWidth 16) s) ha hb hc hin, ok_bind]
    simp only [lzRestart, cacheClear, State.setRes0, TableMem.withLengths]
    rfl
  · obtain ⟨c, hread, rfl⟩ := readMatchTables_of_unreadable
      (s := lzRestart (s.arg0.setWidth 16) (s.arg1.setWidth 16) s) hfew hgood hin h
    exact runCommand_faultTaken (r := .format c) he (by rw [hread, error_bind])

end Sys2Proof.Machine
end

section
/-! SUPPORT. LZ_DECODE (45_lz_codec R160): the distance is known for the escape codes up to 13 and read for those from
14; what it reads is a code of one table after another, and the first that cannot be read decides the fault; the
statements O51 to O53. -/

namespace Sys2Proof.Machine

open Sys2Proof Host

/-! ### Fields at the head of IN -/

/-- The state with `rest` left in IN after `n` bits were removed and counted (10_state R18, 20_memory R43). -/
def withTaken (n : Nat) (rest : List Bool) (s : State) : State :=
  { s with chanIn := rest, bitsIn := s.bitsIn + BitVec.ofNat 32 n }

theorem withTaken_withTaken (n n' : Nat) (rest rest' : List Bool) (s : State) :
    withTaken n' rest' (withTaken n rest s) = withTaken (n + n') rest' s := by
  simp only [withTaken, BitVec.ofNat_add, BitVec.add_assoc]

theorem withTaken_zero {s : State} {rest : List Bool} (h : s.chanIn = rest) : withTaken 0 rest s = s := by
  subst h
  simp only [withTaken, BitVec.add_zero]

/-- The code of a symbol at the head of IN, in the table that reads it (42_huffman_codec R115). -/
structure SymbolNext {n : Nat} (m : TableMem n) (sym : Nat) (rest : List Bool) (s : State) : Prop where
  valid : m.tstate = .valid
  canonical : m.Canonical
  hasCode : m.lenAt sym ≠ 0
  next : s.chanIn = m.codeBits sym ++ rest

theorem decSym_of_next {t : Tab} {s : State} {sym : Nat} {rest : List Bool} (h : SymbolNext (s.tab t) sym rest s) :
    decSym t s = .ok (⟨sym, ((s.tab t).lenAt sym).toNat⟩, withTaken ((s.tab t).codeBits sym).length rest s) := by
  rw [decSym_of_codeBits h.valid h.canonical h.hasCode h.next, withTaken, TableMem.length_codeBits,
    BitVec.ofNat_toNat]

theorem decSym_of_collecting {t : Tab} {s : State} (h : (s.tab t).tstate = .collect) :
    decSym t s = .error (.contract .tableState) := by
  rw [decSym, need_of_not (by simp [h]), error_bind]

theorem readLength_of_next {s : State} {sym : Nat} {rest : List Bool} (h : SymbolNext s.tabLen sym rest s) :
    readLength s = .ok (sym + 2, withTaken (s.tabLen.codeBits sym).length rest s) :=
  readLength_eq_ok.mpr ⟨_, decSym_of_next (t := .len) h, rfl⟩

theorem readLength_of_error {s : State} {r : Raise} (h : decSym .len s = .error r) : readLength s = .error r :=
  bind_eq_error.mpr (.inl h)

/-- The code of the fault that a symbol that cannot be read raises (42_huffman_codec R112). -/
theorem unreadableCode_eq (bits : List Bool) :
    (if 16 ≤ bits.length then FormatCode.badCode else .underflow).code.toNat = unreadableCode bits := by
  unfold unreadableCode
  split <;> rfl

/-! ### Escape codes up to 13 -/

/-- The distances of bands 1 to 3 that are 0: an empty slot, and one local-up offset (45_lz_codec R160). -/
theorem mappedDistance_eq_zero {esc : Nat} (h13 : esc ≤ 13) (s : State) : mappedDistance esc s = 0 ↔
    (esc ≤ 3 ∧ s.cacheAt (BitVec.ofNat 2 esc) = 0) ∨ (9 ≤ esc ∧ (s.xsize.toNat + esc) % 65536 = 11) := by
  unfold mappedDistance
  split
  · next h3 =>
    have h9 : ¬ 9 ≤ esc := by omega
    simp [h3, h9, ← BitVec.toNat_inj]
  split
  · next h3 h8 =>
    have h9 : ¬ 9 ≤ esc := by omega
    simp only [h3, h9, false_and, or_false, iff_false]
    have h4 : 4 ≤ esc := by omega
    interval_cases esc <;> decide
  · omega

theorem decodeMapped_of_next {esc sym : Nat} {rest : List Bool} {s : State} (hd : mappedDistance esc s ≠ 0)
    (h : SymbolNext s.tabLen sym rest s) :
    decodeMapped esc s = .ok (matchResult (sym + 2) (mappedDistance esc s)
      (pushIf (decide (4 ≤ esc)) (mappedDistance esc s) (withTaken (s.tabLen.codeBits sym).length rest s))) := by
  rw [decodeMapped, need_of hd, ok_bind, readLength_of_next h, ok_bind]

/-- Distance 0 is found before a bit is read (60_exceptions R192). -/
theorem decodeMapped_of_zero {esc : Nat} {s : State} (hd : mappedDistance esc s = 0) :
    decodeMapped esc s = .error (.format .distZero) := by
  rw [decodeMapped, need_of_not (not_not.mpr hd), error_bind]

theorem decodeMapped_of_length_error {esc : Nat} {s : State} {r : Raise} (hd : mappedDistance esc s ≠ 0)
    (h : decSym .len s = .error r) : decodeMapped esc s = .error r := by
  rw [decodeMapped, need_of hd, ok_bind, readLength_of_error h, error_bind]

/-- Settles O51. -/
theorem lzDecodeOfBandsWithoutDistanceCode : Obligations.LzDecodeOfBandsWithoutDistanceCode := by
  intro s sym d rest he h13 hp hv hm h0 hc hd hne
  obtain rfl : d = mappedDistance s.arg0.toNat s := by rw [hd, mappedDistance, BitVec.ofNat_toNat]
  rw [exec_lzDecode_of_mapped h13 hp]
  refine runCommand_of_ok he ((decodeMapped_of_next hne ⟨hv, hm, h0, hc⟩).trans ?_)
  rw [pushIf_eq, TableMem.length_codeBits, withTaken, BitVec.ofNat_toNat]
  by_cases h3 : s.arg0.toNat ≤ 3
  · simp only [if_pos h3, decide_eq_false (show ¬ 4 ≤ s.arg0.toNat by omega)]
    rfl
  · simp only [if_neg h3, decide_eq_true (show 4 ≤ s.arg0.toNat by omega)]
    rfl

/-! ### Escape codes from 14 to 31 -/

/-- The length is read (45_lz_codec R151). -/
abbrev ReadsLength (esc : Nat) : Prop := esc = 22 ∨ esc = 31

/-- The table of the distance codes (45_lz_codec R160). -/
def distanceTable (esc : Nat) (s : State) : TableMem 256 := if esc ≤ 22 then s.tabSd else s.tabLd

/-- The bits of a length field, its symbol given. -/
def lengthField (esc sym : Nat) (s : State) : List Bool := if ReadsLength esc then s.tabLen.codeBits sym else []

/-- The length that a length field stands for (45_lz_codec R151, R160). -/
def lengthValue (esc sym : Nat) : Nat :=
  if ReadsLength esc then sym + 2 else if esc ≤ 22 then esc - 12 else esc - 21

/-- The bits of a distance field, its symbol and its raw byte given. -/
def distanceField (esc sym raw : Nat) (s : State) : List Bool :=
  (distanceTable esc s).codeBits sym ++ if esc ≤ 22 then [] else bitsMsb 8 raw

/-- The distance that a distance field stands for (45_lz_codec R160). -/
def distanceValue (esc sym raw : Nat) : Nat := if esc ≤ 22 then sym + 1 else sym * 256 + raw

theorem codedLength_of_field {esc sym : Nat} {rest : List Bool} {s : State}
    (h : ReadsLength esc → s.tabLen.tstate = .valid ∧ s.tabLen.Canonical ∧ s.tabLen.lenAt sym ≠ 0)
    (hc : s.chanIn = lengthField esc sym s ++ rest) :
    codedLength esc s = .ok (lengthValue esc sym, withTaken (lengthField esc sym s).length rest s) := by
  unfold codedLength lengthValue
  unfold lengthField at hc ⊢
  by_cases hr : ReadsLength esc
  · simp only [if_pos hr] at hc ⊢
    obtain ⟨hv, hm, h0⟩ := h hr
    exact readLength_of_next ⟨hv, hm, h0, hc⟩
  · simp only [if_neg hr, List.nil_append] at hc ⊢
    rw [List.length_nil, withTaken_zero hc]

theorem codedLength_of_error {esc : Nat} {s : State} {r : Raise} (hr : ReadsLength esc)
    (h : decSym .len s = .error r) : codedLength esc s = .error r := by
  rw [codedLength, if_pos hr, readLength_of_error h]

/-- A distance field that is there is read, if its distance is not 0. -/
theorem codedDistance_of_field {esc sym raw : Nat} {rest : List Bool} {s : State}
    (h : SymbolNext (distanceTable esc s) sym ((if esc ≤ 22 then [] else bitsMsb 8 raw) ++ rest) s)
    (hraw : raw < 256) (hd : distanceValue esc sym raw ≠ 0) :
    codedDistance esc s
      = .ok (distanceValue esc sym raw, withTaken (distanceField esc sym raw s).length rest s) := by
  unfold codedDistance
  unfold distanceValue at hd ⊢
  unfold distanceField
  unfold distanceTable at h ⊢
  by_cases hs : esc ≤ 22
  · simp only [if_pos hs, List.nil_append, List.append_nil] at h ⊢
    rw [decSym_of_next (t := .sd) h]
    rfl
  · simp only [if_neg hs] at h hd ⊢
    rw [decSym_of_next (t := .ld) h, ok_bind, readBits_append (n := 8) hraw rfl, ok_bind, need_of hd, ok_bind,
      List.length_append, length_bitsMsb, ← withTaken_withTaken]
    rfl

/-- A distance table that is not valid (60_exceptions R187). -/
theorem codedDistance_of_collecting {esc : Nat} {s : State} (h : (distanceTable esc s).tstate = .collect) :
    codedDistance esc s = .error (.contract .tableState) := by
  unfold codedDistance
  unfold distanceTable at h
  split at h
  · next hs => rw [if_pos hs, decSym_of_collecting (t := .sd) h, error_bind]
  · next hs => rw [if_neg hs, decSym_of_collecting (t := .ld) h, error_bind]

/-- A distance code that cannot be read (42_huffman_codec R112). -/
theorem codedDistance_of_noCodeIn {esc : Nat} {s : State} (hv : (distanceTable esc s).tstate = .valid)
    (h : (distanceTable esc s).NoCodeIn s.chanIn) : codedDistance esc s
      = .error (.format (if 16 ≤ s.chanIn.length then .badCode else .underflow)) := by
  unfold codedDistance
  unfold distanceTable at hv h
  split at h
  · next hs =>
    rw [if_pos hs] at hv ⊢
    rw [decSym_of_noCodeIn (t := .sd) hv h, error_bind]
  · next hs =>
    rw [if_neg hs] at hv ⊢
    rw [decSym_of_noCodeIn (t := .ld) hv h, error_bind]

/-- A long distance code with fewer than 8 bits behind it (45_lz_codec R160). -/
theorem codedDistance_of_short_tail {esc sym : Nat} {tail : List Bool} {s : State} (h23 : 23 ≤ esc)
    (h : SymbolNext s.tabLd sym tail s) (htail : tail.length < 8) :
    codedDistance esc s = .error (.format .underflow) := by
  rw [codedDistance, if_neg (by omega), decSym_of_next (t := .ld) h, ok_bind]
  exact bind_eq_error.mpr (.inl (readBits_eq_error.mpr ⟨htail, rfl⟩))

/-- A long distance of 0 is found after it has been read whole (45_lz_codec R160). -/
theorem codedDistance_of_zero {esc : Nat} {tail : List Bool} {s : State} (h23 : 23 ≤ esc)
    (h : SymbolNext s.tabLd 0 tail s) (htail : List.replicate 8 false <+: tail) :
    codedDistance esc s = .error (.format .distZero) := by
  obtain ⟨rest, rfl⟩ := htail
  rw [codedDistance, if_neg (by omega), decSym_of_next (t := .ld) h, ok_bind,
    readBits_append (n := 8) (v := 0) (rest := rest) (by decide) rfl, ok_bind, need_of_not (by simp), error_bind]

/-- Bands 4 and 5 when both fields are there. -/
theorem decodeCoded_of_ok {esc len d : Nat} {s s1 s2 : State} (hlen : codedLength esc s = .ok (len, s1))
    (hdist : codedDistance esc s1 = .ok (d, s2)) :
    decodeCoded esc s = .ok (matchResult len d (cachePush (BitVec.ofNat 16 d) s2)) := by
  rw [decodeCoded, hlen, ok_bind, hdist, ok_bind]

theorem decodeCoded_of_length_error {esc : Nat} {s : State} {r : Raise} (h : codedLength esc s = .error r) :
    decodeCoded esc s = .error r := by
  rw [decodeCoded, h, error_bind]

theorem decodeCoded_of_distance_error {esc len : Nat} {s s1 : State} {r : Raise}
    (hlen : codedLength esc s = .ok (len, s1)) (h : codedDistance esc s1 = .error r) :
    decodeCoded esc s = .error r := by
  rw [decodeCoded, hlen, ok_bind, h, error_bind]

/-- Settles O52. -/
theorem lzDecodeOfBandsWithDistanceCode : Obligations.LzDecodeOfBandsWithDistanceCode := by
  intro s lsym dsym raw rest he h14 h31 hp esc explicit short dtab hlen hv hm h0 hraw fields len d hc hd
  rw [exec_lzDecode_of_coded h14 h31 hp]
  have hfields : fields = lengthField esc lsym s ++ distanceField esc dsym raw s := List.append_assoc _ _ _
  rw [hfields, List.append_assoc] at hc
  rw [hfields, List.length_append]
  have hdist := codedDistance_of_field (esc := esc) (rest := rest)
    (s := withTaken (lengthField esc lsym s).length (distanceField esc dsym raw s ++ rest) s)
    ⟨hv, hm, h0, List.append_assoc _ _ _⟩ hraw hd
  refine runCommand_of_ok he ((decodeCoded_of_ok (codedLength_of_field hlen hc) hdist).trans ?_)
  rw [withTaken_withTaken]
  rfl

/-! ### What is rejected -/

theorem exec_lzDecode_of_escRange {s : State} (h256 : s.arg0.toNat < 256) (h32 : 32 ≤ s.arg0.toNat)
    (hp : s.lzPhase = .decode) : exec .lzDecode s = runCommand 0x39 s (.error (.format .escRange)) := by
  rw [exec_lzDecode_of_lt h256, needLzPhase_of hp, ok_bind, need_of_not (by omega), error_bind]

/-- A length code that cannot be read, in any band that reads one. -/
theorem exec_lzDecode_of_length_error {s : State} {r : Raise} (hp : s.lzPhase = .decode) (h31 : s.arg0.toNat ≤ 31)
    (hreads : s.arg0.toNat ≤ 13 ∨ ReadsLength s.arg0.toNat)
    (hd : s.arg0.toNat ≤ 13 → mappedDistance s.arg0.toNat s ≠ 0) (h : decSym .len s = .error r) :
    exec .lzDecode s = runCommand 0x39 s (.error r) := by
  by_cases h13 : s.arg0.toNat ≤ 13
  · rw [exec_lzDecode_of_mapped h13 hp, decodeMapped_of_length_error (hd h13) h]
  · rw [exec_lzDecode_of_coded (by omega) h31 hp,
      decodeCoded_of_length_error (codedLength_of_error (hreads.resolve_left h13) h)]

/-- Settles O53: each fault is the first that the body comes to. -/
theorem lzDecodeRejectsBadEscapesAndZeroDistances : Obligations.LzDecodeRejectsBadEscapesAndZeroDistances := by
  intro s he h256 hp esc faults emptySlot zeroUp readsLen dtab
  have fault : ∀ r, exec .lzDecode s = runCommand 0x39 s (.error r) → faults r.cls.toNat r.code.toNat :=
    fun r h => by
      show ∃ s', exec .lzDecode s = .next s' ∧ _
      rw [h]
      exact runCommand_faultTaken he rfl
  have hslot : s.cacheAt (s.arg0.setWidth 2) = s.cacheAt (BitVec.ofNat 2 esc) := by rw [BitVec.ofNat_toNat]
  have zero : esc ≤ 13 → mappedDistance esc s = 0 → faults 1 7 := fun h13 hd =>
    fault (.format .distZero) (by rw [exec_lzDecode_of_mapped h13 hp, decodeMapped_of_zero hd])
  refine ⟨fun h32 => fault (.format .escRange) (exec_lzDecode_of_escRange h256 h32 hp), fun hempty => ?_,
    fun hup => ?_, fun h31 hreads hempty hup => ?_, fun lsym rest h14 h31 hlen hc => ?_⟩
  · obtain ⟨h3, hd⟩ := hempty
    rw [hslot] at hd
    exact zero (by omega) ((mappedDistance_eq_zero (by omega) s).mpr (.inl ⟨h3, hd⟩))
  · obtain ⟨h9, h13, hd⟩ := hup
    exact zero h13 ((mappedDistance_eq_zero h13 s).mpr (.inr ⟨h9, hd⟩))
  · have hd : esc ≤ 13 → mappedDistance esc s ≠ 0 := fun h13 h0 => by
      obtain ⟨h3, hd⟩ | ⟨h9, hd⟩ := (mappedDistance_eq_zero h13 s).mp h0
      · exact hempty ⟨h3, hslot.trans hd⟩
      · exact hup ⟨h9, h13, hd⟩
    refine ⟨fun hcollect => ?_, fun hv hno => ?_⟩
    · exact fault (.contract .tableState)
        (exec_lzDecode_of_length_error hp h31 hreads hd (decSym_of_collecting (t := .len) hcollect))
    · rw [← unreadableCode_eq]
      exact fault (.format _) (exec_lzDecode_of_length_error hp h31 hreads hd (decSym_of_noCodeIn (t := .len) hv hno))
  · have hreads : readsLen ↔ ReadsLength esc := or_iff_right (by omega)
    have hfield : (if readsLen then s.tabLen.codeBits lsym else []) = lengthField esc lsym s :=
      if_congr hreads rfl rfl
    rw [hfield] at hc
    have hlen := codedLength_of_field (fun h => hlen (hreads.mpr h)) hc
    have fault : ∀ r, codedDistance esc (withTaken (lengthField esc lsym s).length rest s) = .error r →
        faults r.cls.toNat r.code.toNat := fun r h => fault r (by
      rw [exec_lzDecode_of_coded h14 h31 hp, decodeCoded_of_distance_error hlen h])
    refine ⟨fun hcollect => ?_, fun hv hno => ?_, fun dsym tail h23 hv hm h0 hrest => ?_⟩
    · exact fault (.contract .tableState) (codedDistance_of_collecting hcollect)
    · rw [← unreadableCode_eq]
      exact fault (.format _) (codedDistance_of_noCodeIn hv hno)
    · have hdtab : dtab = s.tabLd := if_neg (by omega)
      rw [hdtab] at hv hm h0 hrest
      refine ⟨fun htail => ?_, fun hsym htail => ?_⟩
      · exact fault (.format .underflow) (codedDistance_of_short_tail h23 ⟨hv, hm, h0, hrest⟩ htail)
      · subst hsym
        exact fault (.format .distZero) (codedDistance_of_zero h23 ⟨hv, hm, h0, hrest⟩ htail)

end Sys2Proof.Machine
end

section
/-! SUPPORT. One match there and back (45_lz_codec R153, R160): the escape code of a class tells the decoder which
fields follow, and what they stand for is the match; the statement O54. -/

namespace Sys2Proof.Machine

open Sys2Proof Host

/-! ### What an escape code tells the decoder -/

/-- The classes of bands 1 to 3: the length is written, the distance follows from the code (45_lz_codec R151, R153). -/
structure MappedClass (d : Nat) (s : State) (c : MatchClass) : Prop where
  esc_le : c.esc ≤ 13
  needLen : c.needLen = true
  kind : c.kind = .none
  push : c.push = decide (4 ≤ c.esc)
  distance : mappedDistance c.esc s = d

/-- The classes of bands 4 and 5: the code says whether the length is written, and in which range the distance is
(45_lz_codec R151, R153). -/
structure CodedClass (len : Nat) (c : MatchClass) : Prop where
  le_esc : 14 ≤ c.esc
  esc_le : c.esc ≤ 31
  needLen : c.needLen = decide (ReadsLength c.esc)
  kind : c.kind = if c.esc ≤ 22 then .short else .long
  push : c.push = true
  length : lengthValue c.esc (len - 2) = len

/-- The local-left codes (45_lz_codec R151). -/
theorem mappedDistance_of_localLeft (s : State) :
    mappedDistance 4 s = 1 ∧ ∀ d, 3 ≤ d → d ≤ 6 → mappedDistance (4 + (d - 2)) s = d := by
  refine ⟨rfl, fun d h3 h6 => ?_⟩
  interval_cases d <;> rfl

/-- Band 4 (45_lz_codec R151, R153). -/
theorem codedClass_short {len : Nat} (hlen : 2 ≤ len) : CodedClass len
    (if len ≤ 9 then ⟨14 + (len - 2), false, .short, true⟩ else ⟨22, true, .short, true⟩) := by
  split
  · have hdirect : ¬ ReadsLength (14 + (len - 2)) := by unfold ReadsLength; omega
    have hshort : 14 + (len - 2) ≤ 22 := by omega
    have hvalue : lengthValue (14 + (len - 2)) (len - 2) = len := by
      rw [lengthValue, if_neg hdirect, if_pos hshort]; omega
    exact ⟨Nat.le_add_right _ _, hshort.trans (by decide), (decide_eq_false hdirect).symm, (if_pos hshort).symm,
      rfl, hvalue⟩
  · exact ⟨by decide, by decide, rfl, rfl, rfl, (if_pos (.inl rfl)).trans (Nat.sub_add_cancel hlen)⟩

/-- Band 5 (45_lz_codec R151, R153). -/
theorem codedClass_long {len : Nat} (hlen : 2 ≤ len) : CodedClass len
    (if len ≤ 9 then ⟨23 + (len - 2), false, .long, true⟩ else ⟨31, true, .long, true⟩) := by
  split
  · have hdirect : ¬ ReadsLength (23 + (len - 2)) := by unfold ReadsLength; omega
    have hlong : ¬ 23 + (len - 2) ≤ 22 := by omega
    have hvalue : lengthValue (23 + (len - 2)) (len - 2) = len := by
      rw [lengthValue, if_neg hdirect, if_neg hlong]; omega
    exact ⟨show 14 ≤ 23 + (len - 2) by omega, show 23 + (len - 2) ≤ 31 by omega, (decide_eq_false hdirect).symm,
      (if_neg hlong).symm, rfl, hvalue⟩
  · exact ⟨by decide, by decide, rfl, rfl, rfl, (if_pos (.inr rfl)).trans (Nat.sub_add_cancel hlen)⟩

/-- Every class is of one kind or the other. -/
theorem mapped_or_coded {len d : Nat} {s : State} {c : MatchClass} (hlen : 2 ≤ len) (h : IsClassOf len d s c) :
    MappedClass d s c ∨ CodedClass len c := by
  obtain ⟨hone, hleft⟩ := mappedDistance_of_localLeft s
  obtain ⟨i, hi, hd, -, rfl⟩ | ⟨-, ⟨rfl, rfl⟩ | ⟨h3, h6, rfl⟩ | ⟨-, -, ⟨j, hj, hd, -, rfl⟩ | ⟨-, rfl⟩⟩⟩ := h
  · refine .inl ⟨show i ≤ 13 by omega, rfl, rfl, (decide_eq_false (show ¬ 4 ≤ i by omega)).symm, ?_⟩
    exact (if_pos (show i ≤ 3 by omega)).trans hd
  · exact .inl ⟨by decide, rfl, rfl, rfl, hone⟩
  · exact .inl ⟨show 4 + (d - 2) ≤ 13 by omega, rfl, rfl,
      (decide_eq_true (show 4 ≤ 4 + (d - 2) by omega)).symm, hleft d h3 h6⟩
  · refine .inl ⟨show 9 + j ≤ 13 by omega, rfl, rfl, (decide_eq_true (show 4 ≤ 9 + j by omega)).symm, ?_⟩
    rw [mappedDistance, if_neg (by simp only; omega), if_neg (by simp only; omega), Nat.add_sub_cancel_left]
    exact hd
  · right
    by_cases hs : d ≤ 256
    · rw [if_pos hs]
      exact codedClass_short hlen
    · rw [if_neg hs]
      exact codedClass_long hlen

/-- The symbol of a distance (45_lz_codec R162). -/
def distanceSymbol (esc d : Nat) : Nat := if esc ≤ 22 then d - 1 else d / 256

/-- A distance is its symbol and its low byte (45_lz_codec R160, R162). -/
theorem distanceValue_distanceSymbol {esc d : Nat} (hd : 1 ≤ d) :
    distanceValue esc (distanceSymbol esc d) (d % 256) = d := by
  unfold distanceValue distanceSymbol
  split <;> omega

theorem MappedClass.matchBits_eq {len d : Nat} {s : State} {c : MatchClass} (h : MappedClass d s c) :
    matchBits c len d s = s.tabLen.codeBits (len - 2) := by
  rw [matchBits, lengthFieldBits, distanceBits, if_pos h.needLen, h.kind, List.append_nil]

theorem CodedClass.matchBits_eq {len d : Nat} {s : State} {c : MatchClass} (h : CodedClass len c) :
    matchBits c len d s
      = lengthField c.esc (len - 2) s ++ distanceField c.esc (distanceSymbol c.esc d) (d % 256) s := by
  have hlen : lengthFieldBits c len s = lengthField c.esc (len - 2) s :=
    if_congr (by rw [h.needLen, decide_eq_true_iff]) rfl rfl
  rw [matchBits, hlen, distanceBits, h.kind, distanceField, distanceTable, distanceSymbol]
  by_cases hs : c.esc ≤ 22
  · simp only [if_pos hs, List.append_nil]
  · simp only [if_neg hs]

/-- The distance table of a class that was written is valid and has the symbol (42_huffman_codec R110). -/
theorem CodedClass.distanceWritable {len d : Nat} {s : State} {c : MatchClass} (h : CodedClass len c)
    (hw : DistanceWritable c d s) : (distanceTable c.esc s).tstate = .valid
      ∧ (distanceTable c.esc s).lenAt (distanceSymbol c.esc d) ≠ 0 := by
  obtain ⟨hshort, hlong⟩ := hw
  have hk := h.kind
  unfold distanceTable distanceSymbol
  split at hk
  · next hs => simp only [if_pos hs]; exact hshort hk
  · next hs => simp only [if_neg hs]; exact hlong hk

/-! ### The decoder on what was written -/

/-- The part of the state that `LZ_DECODE` shares with `LZ_ENCODE` (45_lz_codec R152, R153). -/
structure SameCoder (r s : State) : Prop where
  tabLen : r.tabLen = s.tabLen
  tabSd : r.tabSd = s.tabSd
  tabLd : r.tabLd = s.tabLd
  cache : r.cache = s.cache
  cur : r.cur = s.cur
  xsize : r.xsize = s.xsize

theorem SameCoder.matchBits_eq {r s : State} (h : SameCoder r s) (c : MatchClass) (len d : Nat) :
    matchBits c len d r = matchBits c len d s := by
  simp only [matchBits, lengthFieldBits, distanceBits, h.tabLen, h.tabSd, h.tabLd]

theorem SameCoder.isClassOf {r s : State} (h : SameCoder r s) {len d : Nat} {c : MatchClass}
    (hc : IsClassOf len d s c) : IsClassOf len d r c := by
  simpa only [IsClassOf, State.cacheAt, h.cache, h.xsize] using hc

theorem SameCoder.lengthWritable {r s : State} (h : SameCoder r s) {c : MatchClass} {len : Nat}
    (hw : LengthWritable c len s) : LengthWritable c len r := by
  simpa only [LengthWritable, h.tabLen] using hw

theorem SameCoder.distanceWritable {r s : State} (h : SameCoder r s) {c : MatchClass} {d : Nat}
    (hw : DistanceWritable c d s) : DistanceWritable c d r := by
  simpa only [DistanceWritable, h.tabSd, h.tabLd] using hw

/-- The match is returned, its bits are removed, and the cache moves as for `LZ_ENCODE`. -/
structure MatchReturned (c : MatchClass) (len d : Nat) (rest : List Bool) (r r1 : State) : Prop where
  err : r1.err = r.err
  length : r1.res0 = BitVec.ofNat 32 len
  distance : r1.res1 = BitVec.ofNat 32 d
  chanIn : r1.chanIn = rest
  cache : r1.cache = if c.push then r.cache.set r.cur.toNat (BitVec.ofNat 16 d) else r.cache
  cur : r1.cur = if c.push then r.cur + 1 else r.cur

theorem MappedClass.exec_lzDecode {len d : Nat} {rest : List Bool} {r : State} {c : MatchClass}
    (h : MappedClass d r c) (he : r.err = false) (hp : r.lzPhase = .decode) (hesc : r.arg0.toNat = c.esc)
    (hm : r.tabLen.Canonical) (hw : LengthWritable c len r) (hlen : 2 ≤ len) (hd : 1 ≤ d)
    (hin : r.chanIn = matchBits c len d r ++ rest) :
    ∃ r1, exec .lzDecode r = .next r1 ∧ MatchReturned c len d rest r r1 := by
  obtain ⟨hv, h0⟩ := hw h.needLen
  rw [h.matchBits_eq] at hin
  have hdist : d = mappedDistance r.arg0.toNat r := by rw [hesc, h.distance]
  rw [mappedDistance, BitVec.ofNat_toNat] at hdist
  refine ⟨_, lzDecodeOfBandsWithoutDistanceCode r (len - 2) d rest he (hesc ▸ h.esc_le) hp hv hm h0 hin hdist
    (by omega), rfl, by rw [Nat.sub_add_cancel hlen], rfl, rfl, ?_, ?_⟩
  all_goals
    have hpush : c.push = true ↔ ¬ r.arg0.toNat ≤ 3 := by rw [h.push, decide_eq_true_iff, hesc]; omega
    simp only [hpush, ite_not]

theorem CodedClass.exec_lzDecode {len d : Nat} {rest : List Bool} {r : State} {c : MatchClass}
    (h : CodedClass len c) (he : r.err = false) (hp : r.lzPhase = .decode) (hesc : r.arg0.toNat = c.esc)
    (hmlen : r.tabLen.Canonical) (hmdist : (distanceTable c.esc r).Canonical) (hlenw : LengthWritable c len r)
    (hdistw : DistanceWritable c d r) (hd : 1 ≤ d) (hin : r.chanIn = matchBits c len d r ++ rest) :
    ∃ r1, exec .lzDecode r = .next r1 ∧ MatchReturned c len d rest r r1 := by
  obtain ⟨esc, needLen, kind, push⟩ := c
  obtain rfl : r.arg0.toNat = esc := hesc
  obtain ⟨hv, h0⟩ := h.distanceWritable hdistw
  have hvalue := distanceValue_distanceSymbol (esc := r.arg0.toNat) hd
  have hpos : distanceValue r.arg0.toNat (distanceSymbol r.arg0.toNat d) (d % 256) ≠ 0 := by omega
  have hreads : ReadsLength r.arg0.toNat →
      r.tabLen.tstate = .valid ∧ r.tabLen.Canonical ∧ r.tabLen.lenAt (len - 2) ≠ 0 := fun hr =>
    let ⟨hvlen, h0len⟩ := hlenw (h.needLen.trans (decide_eq_true hr))
    ⟨hvlen, hmlen, h0len⟩
  rw [h.matchBits_eq, distanceField, ← List.append_assoc] at hin
  refine ⟨_, lzDecodeOfBandsWithDistanceCode r (len - 2) (distanceSymbol r.arg0.toNat d) (d % 256) rest he
    h.le_esc h.esc_le hp hreads hv hmdist h0 (Nat.mod_lt _ (by decide)) hin hpos, rfl,
    congrArg (BitVec.ofNat 32) h.length, congrArg (BitVec.ofNat 32) hvalue, rfl, ?_, ?_⟩
  · rw [if_pos h.push]
    exact congrArg (fun x => r.cache.set r.cur.toNat (BitVec.ofNat 16 x)) hvalue
  · rw [if_pos h.push]

/-- Settles O54: the escape code returned is the one of the class, and the decoder reads the fields of that class. -/
theorem lzDecodeInvertsLzEncode : Obligations.LzDecodeInvertsLzEncode := by
  intro s s1 r w rest _ he1 hmlen hmsd hmld hexec hout her hp harg hlen hsd hld hcache hcur hx hin
  have hsame : SameCoder r s := ⟨hlen, hsd, hld, hcache, hcur, hx⟩
  have hrange := lzEncode_inRange_of_completed hexec he1
  rw [exec_lzEncode_of_inRange hrange] at hexec
  obtain ⟨_, -, hb⟩ := bind_eq_ok.mp (runCommand_completed hexec he1)
  obtain ⟨hlen2, -, hd1, -⟩ := hrange
  have hclass := hsame.isClassOf (classify_isClassOf s.arg0.toNat s.arg1.toNat s)
  generalize classify s.arg0.toNat s.arg1.toNat s = c at hb hclass
  obtain ⟨hlenw, hdistw⟩ := writable_of_encodeMatch hb
  rw [encodeMatch_of_writable hlenw hdistw] at hb
  obtain rfl := Except.ok.inj hb
  obtain rfl : matchBits c s.arg0.toNat s.arg1.toNat s = w := List.append_cancel_left hout
  rw [← hsame.matchBits_eq] at hin
  have hesc31 : c.esc ≤ 31 := by
    obtain h | h := mapped_or_coded hlen2 hclass
    · exact h.esc_le.trans (by decide)
    · exact h.esc_le
  have hesc : r.arg0.toNat = c.esc := by
    rw [harg]
    exact (BitVec.toNat_ofNat _ _).trans (Nat.mod_eq_of_lt (by omega))
  obtain ⟨r1, hdecode, hret⟩ : ∃ r1, exec .lzDecode r = .next r1
      ∧ MatchReturned c s.arg0.toNat s.arg1.toNat rest r r1 := by
    rw [← hlen] at hmlen
    obtain h | h := mapped_or_coded hlen2 hclass
    · exact h.exec_lzDecode her hp hesc hmlen (hsame.lengthWritable hlenw) hlen2 hd1 hin
    · refine h.exec_lzDecode her hp hesc hmlen ?_ (hsame.lengthWritable hlenw) (hsame.distanceWritable hdistw) hd1 hin
      rw [distanceTable, hsd, hld]
      split
      · exact hmsd
      · exact hmld
  refine ⟨r1, hdecode, hret.err.trans her, hret.length.trans ?_, hret.distance.trans ?_, hret.chanIn, ?_, ?_⟩
  · rw [BitVec.ofNat_toNat, BitVec.setWidth_eq]
  · rw [BitVec.ofNat_toNat, BitVec.setWidth_eq]
  · simp only [hret.cache, hcache, hcur]
    rfl
  · simp only [hret.cur, hcur]
    rfl

end Sys2Proof.Machine
end

section
/-! SUPPORT. The command that does nothing and the words with its opcode (46_system_commands R180); the statement
of 46_system_commands.md: O35. -/

namespace Sys2Proof.Machine

open Sys2Proof

/-- In the fault state the command is ignored, outside it its body completes in the state it began in; the two
next states are the same (46_system_commands R180, 60_exceptions R190). -/
theorem exec_nop (s : State) : exec .nop s = .next s := by
  change runCommand 0x00 s (pure s) = .next s
  cases he : s.err with
  | false => exact runCommand_of_ok he rfl
  | true => exact runCommand_of_err he

/-- The opcode 0 is that of a command of format N, so that `tsel` has to be 0 (30_encoding R61, R63). -/
theorem zero_mem_rowOpcodes_false : 0 ∈ rowOpcodes false := by
  decide

/-- A bit set above the opcode is a reserved bit or makes a `tsel` that format N does not allow
(30_encoding R64). -/
theorem decode_eq_error_of_opcode_zero {w : Word} (hop : w.toNat % 256 = 0) (hw : w ≠ 0) :
    ∃ e, decode w = .error e := by
  have hne : w.toNat ≠ 0 := toNat_ne_zero_of_ne hw
  rw [decode_eq_error_iff_illegalFields, hop]
  by_cases hres : w.toNat / 2048 = 0
  · have htsel : w.toNat / 256 % 8 ≠ 0 := by omega
    exact .inr (.inr (.inl ⟨zero_mem_rowOpcodes_false, htsel⟩))
  · exact .inl hres

/-- Settles O35. -/
theorem nopChangesNothing : Obligations.NopChangesNothing :=
  ⟨exec_nop, fun _ => decode_eq_error_of_opcode_zero⟩

end Sys2Proof.Machine
end

section
/-! SUPPORT. The fault state (60_exceptions R188 to R191): outside it a command enters it only by a `raise`, which is
recorded, and in it everything but a reset leaves it; the statements of 60_exceptions.md: O8, O9, O10. -/

namespace Sys2Proof.Machine

open Sys2Proof Host

/-! ### Computations that stay outside the fault state -/

/-- Whatever the computation answers, if it does not raise, satisfies `P`. -/
def Answers {α : Type} (P : α → Prop) (x : Except Raise α) : Prop := ∀ a, x = .ok a → P a

/-- A state outside the fault state, paired with another result. -/
abbrev PairNoFault {α : Type} (r : α × State) : Prop := r.2.err = false

/-- A state outside the fault state (60_exceptions R188). -/
abbrev State.NoFault (s : State) : Prop := s.err = false

theorem Answers.ok {α : Type} {P : α → Prop} {a : α} (h : P a) : Answers P (.ok a) := by
  rintro _ ⟨⟩
  exact h

theorem Answers.error {α : Type} {P : α → Prop} (r : Raise) : Answers P (.error r) := nofun

theorem Answers.bind {α β : Type} {P : α → Prop} {Q : β → Prop} {x : Except Raise α} {f : α → Except Raise β}
    (hx : Answers P x) (hf : ∀ a, P a → Answers Q (f a)) : Answers Q (x >>= f) := fun b hb => by
  obtain ⟨a, ha, hb⟩ := bind_eq_ok.mp hb
  exact hf a (hx a ha) b hb

/-- A first step that only checks or reads an operand. -/
theorem Answers.after {α β : Type} {Q : β → Prop} {x : Except Raise α} {f : α → Except Raise β}
    (hf : ∀ a, Answers Q (f a)) : Answers Q (x >>= f) :=
  Answers.bind (P := fun _ => True) (fun _ _ => trivial) fun a _ => hf a

theorem Answers.ite {α : Type} {P : α → Prop} {p : Prop} [Decidable p] {x y : Except Raise α}
    (hx : Answers P x) (hy : Answers P y) : Answers P (if p then x else y) := by
  split
  · exact hx
  · exact hy

/-- An operation on one table and the channels does not touch `ERR`. -/
theorem Answers.of_touches {α : Type} {t : Tab} {s : State} {x : Except Raise (α × State)} (hs : s.err = false)
    (h : ∀ {a s'}, x = .ok (a, s') → Touches t s s') : Answers PairNoFault x :=
  fun ⟨_, _⟩ ha => (h ha).err_eq.trans hs

/-! ### The shared operations of the commands -/

theorem addSymbol_noFault {s : State} (hs : s.err = false) (t : Tab) (sym : Nat) :
    Answers State.NoFault (addSymbol t sym s) :=
  fun _ h => (addSymbol_touches h).err_eq.trans hs

theorem buildTable_noFault {s : State} (hs : s.err = false) (t : Tab) : Answers PairNoFault (buildTable t s) :=
  .of_touches hs buildTable_touches

theorem writeTable_noFault {s : State} (hs : s.err = false) (t : Tab) : Answers PairNoFault (writeTable t s) :=
  .of_touches hs writeTable_touches

theorem readTable_noFault {s : State} (hs : s.err = false) (t : Tab) : Answers PairNoFault (readTable t s) :=
  .of_touches hs readTable_touches

theorem encSym_noFault {s : State} (hs : s.err = false) (t : Tab) (sym : Nat) :
    Answers PairNoFault (encSym t sym s) :=
  .of_touches hs encSym_touches

theorem decSym_noFault {s : State} (hs : s.err = false) (t : Tab) : Answers PairNoFault (decSym t s) :=
  .of_touches hs decSym_touches

theorem readLength_noFault {s : State} (hs : s.err = false) : Answers PairNoFault (readLength s) :=
  .of_touches hs readLength_touches

theorem inContextMode_noFault {α : Type} {s : State} {x : Except Raise (α × State)} (hs : s.err = false)
    (hx : Answers PairNoFault x) (on : Bool) : Answers State.NoFault (inContextMode on s x) := fun s' h => by
  obtain ⟨a, ha⟩ | rfl := inContextMode_eq_ok h
  · exact hx (a, s') ha
  · exact hs

theorem flushOpenRun_noFault {s : State} (hs : s.err = false) : Answers State.NoFault (flushOpenRun s) :=
  fun s' h => by
    obtain ⟨-, rfl⟩ := flushOpenRun_eq_ok.mp h
    exact hs

theorem trackByte_noFault {s : State} (hs : s.err = false) (b : Nat) : Answers State.NoFault (trackByte b s) :=
  .ite (.after fun _ => .ok hs) (flushOpenRun_noFault hs)

theorem emitChain_noFault {s : State} (hs : s.err = false) (L : Nat) : Answers PairNoFault (emitChain L s) :=
  fun ⟨_, s'⟩ h => by
    obtain ⟨-, -, -, rfl⟩ := emitSymbols_eq_ok.mp h
    exact hs

theorem encodeZero_noFault {s : State} (hs : s.err = false) : Answers PairNoFault (encodeZero s) := by
  refine .ite (.ok hs) (.after fun _ => ?_)
  cases s.rl with
  | nil => exact .error _
  | cons L rest => exact .bind (emitChain_noFault (s := { s with rl := rest }) hs L.toNat) fun ⟨_, _⟩ h1 => .ok h1

theorem encodeLiteral_noFault {s : State} (hs : s.err = false) (byte : Nat) :
    Answers PairNoFault (encodeLiteral byte s) :=
  .after fun _ => .bind (encSym_noFault hs _ byte) fun ⟨_, _⟩ h1 => .ok h1

theorem pushIf_noFault {s : State} (hs : s.err = false) (push : Bool) (d : Nat) : (pushIf push d s).err = false := by
  rw [pushIf_eq]
  exact hs

theorem countMatch_noFault {s : State} (hs : s.err = false) (c : MatchClass) (len d : Nat) :
    Answers State.NoFault (countMatch c len d s) := fun s' h => by
  obtain ⟨-, -, -, rfl⟩ := countMatch_eq_ok.mp h
  exact hs

theorem emitLength_noFault {s : State} (hs : s.err = false) (c : MatchClass) (len : Nat) :
    Answers PairNoFault (emitLength c len s) :=
  .ite (encSym_noFault hs .len _) (.ok hs)

theorem emitDistance_noFault {s : State} (hs : s.err = false) (c : MatchClass) (d : Nat) :
    Answers PairNoFault (emitDistance c d s) := fun ⟨_, s'⟩ h => by
  obtain ⟨-, -, -, rfl⟩ := emitDistance_eq_ok.mp h
  exact hs

theorem decodedSymbol_noFault {s : State} (hs : s.err = false) (sym : Nat) :
    (decodedSymbol sym s).err = false := by
  unfold decodedSymbol
  split
  · exact hs
  split
  · exact hs
  · exact hs

theorem decodeMapped_noFault {s : State} (hs : s.err = false) (esc : Nat) :
    Answers State.NoFault (decodeMapped esc s) :=
  .after fun _ => .bind (readLength_noFault hs) fun _ h1 => .ok (pushIf_noFault h1 _ _)

theorem codedLength_noFault {s : State} (hs : s.err = false) (esc : Nat) :
    Answers PairNoFault (codedLength esc s) :=
  .ite (readLength_noFault hs) (.ok hs)

theorem codedDistance_noFault {s : State} (hs : s.err = false) (esc : Nat) :
    Answers PairNoFault (codedDistance esc s) :=
  .ite (.bind (decSym_noFault hs .sd) fun _ h1 => .ok h1)
    (.bind (decSym_noFault hs .ld) fun _ h1 => .bind (.of_touches h1 (readBits_touches .ld)) fun _ h2 =>
      .after fun _ => .ok h2)

theorem decodeCoded_noFault {s : State} (hs : s.err = false) (esc : Nat) :
    Answers State.NoFault (decodeCoded esc s) :=
  .bind (codedLength_noFault hs esc) fun _ h1 => .bind (codedDistance_noFault h1 esc) fun _ h2 => .ok h2

/-! ### What enters the fault state -/

/-- The command runs a body, under its opcode, that does not enter the fault state without a `raise`. -/
def RunsBody (i : Instr) (s : State) : Prop :=
  ∃ body, exec i s = runCommand i.opcode s body ∧ Answers State.NoFault body

theorem lzDecode_runsBody {s : State} (hs : s.err = false) : RunsBody .lzDecode s := by
  cases hesc : escOperand s with
  | error r => exact ⟨.error r, congrArg (runCommand 0x39 s) (by rw [hesc, error_bind]), .error r⟩
  | ok esc =>
    exact ⟨_, exec_lzDecode_of_lt (escOperand_eq_ok hesc).1, .after fun _ => .after fun _ =>
      .ite (decodeMapped_noFault hs _) (decodeCoded_noFault hs _)⟩

/-- Outside the fault state every command but `SOFT_RESET` either raises or stays there (60_exceptions R188). -/
theorem exec_runsBody {i : Instr} (hi : i ≠ .softReset) {s : State} (hs : s.err = false) : RunsBody i s := by
  cases i with
  | softReset => exact absurd rfl hi
  | nop => exact ⟨pure s, rfl, .ok hs⟩
  | histClear t => exact ⟨_, rfl, .after fun tab => .ok ((histClear_err tab s).trans hs)⟩
  | addSymbol t => exact ⟨_, rfl, .after fun tab => .after fun sym => addSymbol_noFault hs tab sym⟩
  | buildTable t =>
    exact ⟨_, rfl, .after fun tab => .bind (buildTable_noFault hs tab) fun ⟨_, _⟩ h1 => .ok h1⟩
  | writeTable t =>
    exact ⟨_, rfl, .after fun tab => .bind (writeTable_noFault hs tab) fun ⟨_, _⟩ h1 => .ok h1⟩
  | readTable t =>
    exact ⟨_, rfl, .after fun tab => .bind (readTable_noFault hs tab) fun ⟨_, _⟩ h1 => .ok h1⟩
  | encSym t =>
    exact ⟨_, rfl, .after fun tab => .after fun sym =>
      .bind (encSym_noFault hs tab sym) fun ⟨_, _⟩ h1 => .ok h1⟩
  | decSym t =>
    exact ⟨_, rfl, .after fun tab => .bind (decSym_noFault hs tab) fun ⟨_, _⟩ h1 => .ok h1⟩
  | getCount t => exact ⟨_, rfl, .after fun _ => .after fun _ => .ok hs⟩
  | getLen t => exact ⟨_, rfl, .after fun _ => .after fun _ => .ok hs⟩
  | getMax t => exact ⟨_, rfl, .after fun _ => .ok hs⟩
  | ecInit => exact ⟨_, rfl, .after fun _ => .ok hs⟩
  | push =>
    exact ⟨_, rfl, .after fun byte => .after fun _ => .bind (trackByte_noFault hs byte) fun s1 h1 =>
      .ite (.ok h1) (.bind (addSymbol_noFault h1 _ byte) fun _ h2 => .ok h2)⟩
  | finalize =>
    exact ⟨_, exec_finalize_eq s, .after fun _ => .bind (flushOpenRun_noFault hs) fun s1 h1 =>
      .bind (addSymbol_noFault h1 _ 0) fun _ h2 => .bind (buildTable_noFault h2 .bz) fun r h3 =>
        .bind (inContextMode_noFault h3 (buildTable_noFault h3 .az) _) fun _ h4 => .ok h4⟩
  | writeOverhead =>
    exact ⟨_, exec_writeOverhead_eq s, .after fun _ => .bind (writeTable_noFault hs .bz) fun r h1 =>
      .bind (.ite (writeTable_noFault h1 .az) (.ok h1)) fun _ h2 => .ok h2⟩
  | encode =>
    exact ⟨_, exec_encode_eq s, .after fun byte => .after fun _ =>
      .bind (.ite (encodeZero_noFault hs) (encodeLiteral_noFault hs byte)) fun _ h1 => .ok h1⟩
  | encodeFinalize =>
    exact ⟨_, rfl, .after fun _ => .after fun _ => .bind (encSym_noFault hs _ _) fun ⟨_, _⟩ h1 => .ok h1⟩
  | decInit =>
    exact ⟨_, exec_decInit_eq s, .after fun ctx =>
      .bind (readTable_noFault (s := entropyRestart ctx s) hs .bz) fun r h1 =>
      .bind (inContextMode_noFault h1 (readTable_noFault h1 .az) ctx) fun _ h2 => .ok h2⟩
  | decodeNext =>
    exact ⟨_, rfl, .after fun _ => .ite (.ok hs)
      (.bind (decSym_noFault hs _) fun ⟨r, _⟩ h1 => .ok (decodedSymbol_noFault h1 r.sym))⟩
  | lzInit => exact ⟨_, rfl, .after fun _ => .ok hs⟩
  | lzPush =>
    exact ⟨_, rfl, .after fun ⟨len, d⟩ => .after fun _ =>
      .bind (countMatch_noFault hs _ len d) fun _ h1 => .ok (pushIf_noFault h1 _ d)⟩
  | lzFinalize =>
    exact ⟨_, rfl, .after fun _ => .bind (buildTable_noFault hs .len) fun ⟨_, _⟩ h1 =>
      .bind (buildTable_noFault h1 .sd) fun ⟨_, _⟩ h2 => .bind (buildTable_noFault h2 .ld) fun ⟨_, _⟩ h3 => .ok h3⟩
  | lzWriteOverhead =>
    exact ⟨_, rfl, .after fun _ => .bind (writeTable_noFault hs .len) fun ⟨_, _⟩ h1 =>
      .bind (writeTable_noFault h1 .sd) fun ⟨_, _⟩ h2 => .bind (writeTable_noFault h2 .ld) fun ⟨_, _⟩ h3 => .ok h3⟩
  | lzEncode =>
    exact ⟨_, rfl, .after fun ⟨len, d⟩ => .after fun _ => .bind (emitLength_noFault hs _ len) fun ⟨_, _⟩ h1 =>
      .bind (emitDistance_noFault h1 _ d) fun ⟨_, _⟩ h2 => .ok (pushIf_noFault h2 _ d)⟩
  | lzDecInit =>
    exact ⟨_, rfl, .after fun ⟨x, y⟩ =>
      .bind (readTable_noFault (s := lzRestart x y s) hs .len) fun ⟨_, _⟩ h1 =>
      .bind (readTable_noFault h1 .sd) fun ⟨_, _⟩ h2 => .bind (readTable_noFault h2 .ld) fun ⟨_, _⟩ h3 => .ok h3⟩
  | lzDecode => exact lzDecode_runsBody hs

/-- A command that leads into the fault state has taken a fault, under its own opcode (60_exceptions R188, R189). -/
theorem eq_enterFault_of_exec {i : Instr} {s s' : State} (hs : s.err = false) (h : exec i s = .next s')
    (he : s'.err = true) : ∃ r, s' = enterFault i.opcode r s := by
  have hi : i ≠ .softReset := by
    rintro rfl
    obtain rfl : resetBlock s = s' := Outcome.next.inj h
    cases he
  obtain ⟨body, hbody, hstay⟩ := exec_runsBody hi hs
  rw [hbody] at h
  obtain ⟨hs', -⟩ | ⟨-, hok⟩ | ⟨-, r, -, rfl⟩ := runCommand_cases h
  · rw [hs] at hs'; cases hs'
  · rw [hstay s' hok] at he; cases he
  · exact ⟨r, rfl⟩

/-- Settles O10: the exact faults are those of class 2 with a code up to 3. -/
theorem faultsAreRecordedAndExactOnesChangeNothingElse :
    Obligations.FaultsAreRecordedAndExactOnesChangeNothingElse := by
  intro i s s' hs h he
  obtain ⟨r, rfl⟩ := eq_enterFault_of_exec hs h he
  obtain ⟨hcls, h1, h7⟩ := r.code_range
  exact ⟨r.cls.toNat, r.code.toNat, hcls, h1, h7, enterFault_faultTaken i.opcode r s,
    fun h2 h3 => enterFault_of_exact (r.exact_iff.mpr ⟨h2, h3⟩) s⟩

/-! ### What the fault state ignores -/

/-- Only the word 0x00000001 spells `SOFT_RESET` (30_encoding R63). -/
theorem decode_softReset_iff {w : Word} : decode w = .ok .softReset ↔ w = 1 := by
  rw [decodeAndEncodeAgree w .softReset]
  exact ⟨fun ⟨_, h⟩ => h.symm, fun h => ⟨rfl, h.symm⟩⟩

/-- In the fault state every word written to `CMD` but that of `SOFT_RESET` is ignored (60_exceptions R190). -/
theorem issueCommand_of_err {w : Word} {s : State} (he : s.err = true) (hw : w ≠ 1) :
    issueCommand w s = .next s := by
  unfold issueCommand
  split
  · next i hd =>
    refine exec_of_err ?_ he
    rintro rfl
    exact hw (decode_softReset_iff.mp hd)
  · exact runCommand_of_err he

/-- A read at an aligned offset (10_state R36). -/
theorem readPort_of_aligned {offset : Nat} (hal : offset % 4 = 0) (s : State) :
    readPort offset s = .next { s with rdata := readRegister s offset } := by
  rw [readPort, if_neg (not_not.mpr hal)]

/-- Settles O8: a word that is not that of `SOFT_RESET` is illegal or spells a command that is ignored. -/
theorem faultStateIgnoresEveryOtherWord : Obligations.FaultStateIgnoresEveryOtherWord :=
  fun s _ he => ⟨issueCommand_of_err he, rfl, rfl, fun _ hal => readPort_of_aligned hal s⟩

/-! ### What leaves the fault state -/

/-- The host actions that reset the block (60_exceptions R191). -/
def HostAction.IsReset (a : HostAction) : Prop := a = .hardReset ∨ a = .write 0x04 1#32

/-- `SOFT_RESET` as a word written to `CMD` (46_system_commands R181). -/
theorem issueCommand_one (s : State) : issueCommand 1#32 s = .next (resetBlock s) := by
  have hd : decode 1#32 = .ok .softReset := decode_softReset_iff.mpr rfl
  rw [issueCommand, hd]
  rfl

/-- A register write that leaves the fault state is that of `SOFT_RESET`. -/
theorem writeRegister_leaves_fault {offset : Nat} {v : Word} {s s' : State} (he : s.err = true)
    (h : writeRegister offset v s = .next s') (he' : s'.err = false) :
    offset = 0x04 ∧ v = 1 ∧ s' = resetBlock s := by
  have hal : offset % 4 = 0 := by
    by_contra hal
    unfold writeRegister at h
    rw [if_pos hal] at h
    cases h
  by_cases hcmd : offset = 0x04
  · subst hcmd
    replace h : issueCommand v s = .next s' := h
    by_cases hv : v = 1
    · rw [hv] at h
      exact ⟨rfl, hv, (Outcome.next.inj ((issueCommand_one s).symm.trans h)).symm⟩
    · rw [issueCommand_of_err he hv] at h
      obtain rfl := Outcome.next.inj h
      rw [he] at he'; cases he'
  · rw [writeRegister_of_ne_cmd hal hcmd] at h
    obtain rfl := Outcome.next.inj h
    rw [he] at he'; cases he'

/-- A host action that leaves the fault state resets the block (60_exceptions R191). -/
theorem hostAct_leaves_fault {a : HostAction} {s s' : State} (he : s.err = true) (h : hostAct a s = .next s')
    (he' : s'.err = false) : a.IsReset ∧ s' = resetBlock s := by
  cases a with
  | write offset v =>
    obtain ⟨rfl, rfl, hs'⟩ := writeRegister_leaves_fault he h he'
    exact ⟨.inr rfl, hs'⟩
  | hardReset => exact ⟨.inl rfl, (Outcome.next.inj h).symm⟩
  | read offset =>
    replace h : readPort offset s = .next s' := h
    unfold readPort at h
    split at h
    · cases h
    · obtain rfl := Outcome.next.inj h
      rw [he] at he'; cases he'
  | _ =>
    obtain rfl := Outcome.next.inj h
    rw [he] at he'; cases he'

/-- Settles O9, by cases on the host action that the step carries out. -/
theorem onlyResetLeavesTheFaultState : Obligations.OnlyResetLeavesTheFaultState := by
  intro s s' he h he'
  cases hp : s.pending with
  | nil =>
    rw [step, hp] at h
    obtain rfl := Outcome.next.inj h
    rw [he] at he'; cases he'
  | cons a rest =>
    rw [step_cons hp] at h
    obtain ⟨ha, rfl⟩ := hostAct_leaves_fault (s := { s with pending := rest }) he h he'
    refine ⟨rest, ?_, resetBlock_atResetValues _, rfl, rfl, rfl⟩
    exact ha.imp (congrArg (· :: rest)) (congrArg (· :: rest))

end Sys2Proof.Machine
end
